-- ==== Sys2Proof/Word.lean ====
section
/-! DEFINITION. The byte and the byte lane of a write (spec 00_scope.md, "Lines, half-lines and beats"). -/

namespace Sys2Proof

/-- A byte of the memory channel, of the I2C bus or of the radio link. -/
abbrev Byte := BitVec 8

/-- One byte lane of a write: `none` where the memory controller masked the byte or the byte lies
outside the extent (R10). -/
abbrev Lane := Option Byte

end Sys2Proof
end

