-- ==== Sys2Proof/Config.lean ====
section
/-! DEFINITION. What the manual fixes for every part of this type, and the values it leaves open. -/

namespace Sys2Proof.Config

/-- Part number, shown as the presence marker (R19) and by IDENTIFY (R31). -/
def partNumber : BitVec 16 := 0x2140

/-- Revision (R19, R31). -/
def revision : Byte := 0x01

/-- Lines of the staging store (R134). -/
def stagingLines : Nat := 1024

/-- Blocks of the frame store (R158). -/
def frameBlocks : Nat := 2048

/-- Delivery slots (R183). -/
def deliverySlots : Nat := 32

/-- Size in bytes of a delivery slot, which is also the greatest frame length (R184, R149). -/
def slotBytes : Nat := 1536

/-- FREE VALUE (log 2). Where several events fall due in one millisecond the manual allows every
order (R61, R77, R84, R86, R124 and others). `tieKey now n` is the rank the millisecond `now` gives
the n-th of the events due; no proof can see it. -/
opaque tieKey : Nat → Nat → Nat

/-- FREE VALUE (log 28). How far an I2C attempt had got when it was broken off in the millisecond `now`, by its
time limit or with its poll, is the optical module's doing (R35, R40, R50); no proof can see it. -/
opaque busReached : Nat → Nat

/-- FREE VALUE (log 28). Whether the optical module holds the data line low as the time limit of an attempt passes
in the millisecond `now`, and then how many clock pulses it takes until the line is high (R35); no proof can see
it. -/
opaque busHeld : Nat → Option Nat

end Sys2Proof.Config
end

