-- ==== Sys2Proof/Syntax.lean ====
section
/-! DEFINITION. The commands of the part: one constructor of `Instr` for each row of
spec/opcode_table.json, with the operands its rule needs. -/

namespace Sys2Proof

/-- The four classes of service, highest priority first (00_scope.md, "Classes of service"). -/
inductive ServiceClass where
  | voice | signal | interactive | bulk
deriving DecidableEq, Repr

/-- How a read or write command reaches the channel (R2): bank, start column, auto-close (address
bit 10 high) and chop flag (address bit 12 low). -/
structure Burst where
  bank : BitVec 3
  column : BitVec 10
  autoClose : Bool
  chop : Bool
deriving DecidableEq, Repr

/-- A write command with its data: lane n carries line byte n, `none` where it is masked. Lanes
outside the extent of the burst are not transferred (R9, R10). -/
structure WriteBurst where
  place : Burst
  lanes : List Lane
deriving DecidableEq, Repr

/-- A read command and the bytes DRAM returns for it, in the order of the beats (R1). -/
structure ReadBurst where
  place : Burst
  dram : List Byte
deriving DecidableEq, Repr

/-- A write command to one line of the anchor block: bank and line column follow from the anchor
line, `start` is the start position within the line (R9, R13). -/
structure AnchorBurst where
  start : BitVec 3
  autoClose : Bool
  chop : Bool
  lanes : List Lane
deriving DecidableEq, Repr

/-- A write command to the command header line that writes bytes 0, 2 and 3: the code is the row's,
`second` is byte 1, `tag` bytes 2 and 3, and `rest` bytes 4 to 31, which are parameter bytes 0 to 27
(R23). -/
structure HeaderBurst where
  start : BitVec 3
  autoClose : Bool
  chop : Bool
  second : Lane
  tag : BitVec 16
  rest : List Lane
deriving DecidableEq, Repr

/-- A whole write of one uplink descriptor (R140): the start column selects the half-line, `spare` are
the five bytes 9, 10, 11, 14 and 15 written into part-side positions, and `other` the lanes of the
other half-line, transferred when the burst is not chopped. -/
structure DescriptorBurst where
  place : Burst
  address : BitVec 32
  length : BitVec 16
  cls : Byte
  chain : Byte
  tag : BitVec 16
  spare : List Byte
  other : List Lane
deriving DecidableEq, Repr

/-- The access in progress when the channel reset line is asserted, with the beats already
transferred (R8). That there is at most one is the model's choice: R8 does not say whether several may be
under way, given and with beats still to come (DESIGN CHOICE, log 20). -/
inductive CutAccess where
  | none
  | write (w : WriteBurst) (beats : Nat)
  | read (r : ReadBurst) (beats : Nat)
deriving DecidableEq, Repr

/-- What clock enable does at a channel command (R2). -/
inductive ClockEnable where
  | steady | falling | rising
deriving DecidableEq, Repr

/-- A channel command as its pins code it, `true` for high (R2), with the data that goes with it
where it is a write or a read. -/
structure ChannelPins where
  cke : ClockEnable
  cs : Bool
  ras : Bool
  cas : Bool
  we : Bool
  bank : BitVec 3
  addr : BitVec 15
  lanes : List Lane
  dram : List Byte
deriving DecidableEq, Repr

/-- Why an I2C attempt is unanswered (R35): one of the three acknowledgements missing, the 25 ms limit
passed, or the limit passed with the data line held low, where `pulses` clock pulses were driven
before the line was seen high (nine at most). `reached` is how many symbols the part had put on the bus
after the start condition and the first address byte when the limit passed: at most 12, three and nine
acknowledged bytes. -/
inductive Unanswered where
  | addressWrite | offset | addressRead
  | timeout (reached : Nat)
  | stuck (reached pulses : Nat)
deriving DecidableEq, Repr

/-- A message as received on RRXD: its bytes, and whether every byte had a valid stop bit (R119, R121). -/
structure RawMessage where
  bytes : List Byte
  stopBits : Bool
deriving DecidableEq, Repr

/-- The fields of a carriage header that the part reads or writes (R119). -/
structure Carriage where
  serviceId : BitVec 32
  cls : Byte
  sequence : BitVec 16
deriving DecidableEq, Repr

/-- The commands and events of the part, in the order of spec/opcode_table.json. -/
inductive Instr where
  /-- PART_RESET (R13): strap value, and whether the channel reset line is asserted then (R8). -/
  | partReset (strap : BitVec 4) (channelReset : Bool)
  /-- FIRST_MILLISECOND (R51): levels of OPRES, OLOS, RPRES; `rtest` is true while the switch is held. -/
  | firstMillisecond (opres olos rtest rpres : Bool)
  /-- CHANNEL_RESET_ASSERT (R8). -/
  | channelResetAssert (cut : CutAccess)
  /-- CHANNEL_RESET_RELEASE (R8). -/
  | channelResetRelease
  /-- OPEN_ROW (R3). -/
  | openRow (bank : BitVec 3) (row : BitVec 15)
  /-- CLOSE_ROW (R3): close-all when `all`, otherwise close-row of `bank`. -/
  | closeRow (all : Bool) (bank : BitVec 3)
  /-- REFRESH (R3). -/
  | refresh
  /-- MODE_SET (R5): register 0 to 3 and the address bits. -/
  | modeSet (register : BitVec 2) (value : BitVec 15)
  /-- POWER_DOWN_ENTRY (R7). -/
  | powerDownEntry
  /-- SELF_REFRESH_ENTRY (R7). -/
  | selfRefreshEntry
  /-- POWER_DOWN_EXIT (R7): clock enable going high. -/
  | powerDownExit
  /-- COMMAND_OUT_OF_PLACE (R7): a command as the pins code it. -/
  | commandOutOfPlace (pins : ChannelPins)
  /-- LINE_READ (R9). -/
  | lineRead (r : ReadBurst)
  /-- LINE_WRITE (R17). -/
  | lineWrite (w : WriteBurst)
  /-- COMMAND_PARAMETER_WRITE (R22). -/
  | commandParameterWrite (w : AnchorBurst)
  /-- COMMAND_HEADER_MERGE (R22). -/
  | commandHeaderMerge (w : AnchorBurst)
  /-- COMMAND_REFUSED_BUSY (R27). -/
  | commandRefusedBusy (code : Byte) (h : HeaderBurst)
  /-- UNKNOWN_COMMAND (R30). -/
  | unknownCommand (code : Byte) (h : HeaderBurst)
  /-- IDENTIFY, code 0x01 (R31). -/
  | identify (h : HeaderBurst)
  /-- RESTART, code 0x02 (R32). -/
  | restart (h : HeaderBurst)
  /-- SET_EVENTS, code 0x03 (R202). -/
  | setEvents (h : HeaderBurst)
  /-- CLEAR_COUNTERS, code 0x04 (R204). -/
  | clearCounters (h : HeaderBurst)
  /-- DEFINE_UPLINK, code 0x05 (R142, R143). -/
  | defineUplink (h : HeaderBurst)
  /-- DEFINE_CAPTURE, code 0x06 (R144, R145). -/
  | defineCapture (h : HeaderBurst)
  /-- DEFINE_DELIVERY, code 0x07 (R195, R196). -/
  | defineDelivery (h : HeaderBurst)
  /-- SET_OPTICS, code 0x08 (R49, R50). -/
  | setOptics (h : HeaderBurst)
  /-- FIBRE_RESTART, code 0x09 (R45). -/
  | fibreRestart (h : HeaderBurst)
  /-- SET_THRESHOLDS, code 0x0A (R71, R72). -/
  | setThresholds (h : HeaderBurst)
  /-- CLEAR_LATCHES, code 0x0B (R66). -/
  | clearLatches (h : HeaderBurst)
  /-- SET_PATH_TIMERS, code 0x0C (R102, R103). -/
  | setPathTimers (h : HeaderBurst)
  /-- FORCE, code 0x0D (R101). -/
  | force (h : HeaderBurst)
  /-- SET_RADIO, code 0x0E (R130). -/
  | setRadio (h : HeaderBurst)
  /-- RADIO_ATTACH, code 0x0F (R131). -/
  | radioAttach (h : HeaderBurst)
  /-- RADIO_DETACH, code 0x10 (R132). -/
  | radioDetach (h : HeaderBurst)
  /-- SET_RELAY, code 0x11 (R180, R181). -/
  | setRelay (h : HeaderBurst)
  /-- ACKNOWLEDGE_WRITE (R200). -/
  | acknowledgeWrite (w : AnchorBurst)
  /-- FIBRE_REPORT (R59, R60). -/
  | fibreReport (w : AnchorBurst)
  /-- CAPTURE_WRITE (R135). -/
  | captureWrite (w : WriteBurst)
  /-- DESCRIPTOR_FIELD_WRITE (R140, R141). -/
  | descriptorFieldWrite (w : WriteBurst)
  /-- PARTIAL_DESCRIPTOR_WRITE (R140). -/
  | partialDescriptorWrite (w : WriteBurst)
  /-- POST (R147): the descriptor's give byte is 1. -/
  | post (d : DescriptorBurst)
  /-- WITHDRAW (R156): the descriptor's give byte is 2. -/
  | withdraw (d : DescriptorBurst)
  /-- RELEASE (R192, R193). -/
  | release (w : WriteBurst)
  /-- POLL_START (R34). -/
  | pollStart
  /-- POLL_RETRY (R39). -/
  | pollRetry (cause : Unanswered)
  /-- POLL_FAILED (R39). -/
  | pollFailed (cause : Unanswered)
  /-- POLL_COMPLETE (R38): the ten bytes read (R36). -/
  | pollComplete (bytes : List Byte)
  /-- OPTICAL_PRESENCE_FALL (R40). -/
  | opticalPresenceFall
  /-- OPTICAL_PRESENCE_RISE (R41), with the level OLOS stands at. -/
  | opticalPresenceRise (olos : Bool)
  /-- LOS_CHANGE (R42). -/
  | losChange (active : Bool)
  /-- TX_OFF_END (R43). -/
  | txOffEnd
  /-- SETTLING_END (R44). -/
  | settlingEnd
  /-- AUTOMATIC_RESTART_EXPIRY (R48). -/
  | automaticRestartExpiry
  /-- STALENESS_EXPIRY (R61). -/
  | stalenessExpiry
  /-- RADIO_TEST_CHANGE (R76, R77). -/
  | radioTestChange (active : Bool)
  /-- DWELL_EXPIRY (R84). -/
  | dwellExpiry
  /-- PROVE_EXPIRY (R86). -/
  | proveExpiry
  /-- STRANDED_PROVE_EXPIRY (R87). -/
  | strandedProveExpiry
  /-- VOICE_QUIET_EXPIRY (R90). -/
  | voiceQuietExpiry
  /-- VOICE_STICK_EXPIRY (R90). -/
  | voiceStickExpiry
  /-- DRAIN_LIMIT_EXPIRY (R92). -/
  | drainLimitExpiry (cls : ServiceClass)
  /-- RADIO_PRESENCE_FALL (R107). -/
  | radioPresenceFall
  /-- RADIO_PRESENCE_RISE (R107). -/
  | radioPresenceRise
  /-- START_TIMER_EXPIRY (R110). -/
  | startTimerExpiry
  /-- SILENCE_TIMER_EXPIRY (R109). -/
  | silenceTimerExpiry
  /-- RECOVER_TIMER_EXPIRY (R110). -/
  | recoverTimerExpiry
  /-- MESSAGE_DROPPED (R121): a message as received. -/
  | messageDropped (m : RawMessage)
  /-- READY (R108). -/
  | ready (firmware : BitVec 32) (maxBuffers : Byte)
  /-- ATTACH_OK (R115). -/
  | attachOk (serviceId : BitVec 32) (grant : BitVec 16) (buffers : Byte)
  /-- ATTACH_FAIL (R115). -/
  | attachFail (reason : Byte)
  /-- DETACHED (R118). -/
  | detached (cause : Byte)
  /-- SIGNAL_REPORT (R123). -/
  | signalReport (quality : Byte) (grant : BitVec 16) (buffers : Byte)
  /-- UP_ACCEPT (R127). -/
  | upAccept (link : BitVec 16) (buffers : Byte)
  /-- UP_REJECT (R128). -/
  | upReject (link : BitVec 16) (reason : Byte)
  /-- RESET_NOTICE (R110). -/
  | resetNotice
  /-- DATA_DOWN (R186). -/
  | dataDown (header : Carriage) (frame : List Byte)
  /-- ANSWER_TIMER_EXPIRY (R115). -/
  | answerTimerExpiry
  /-- RETRY_TIMER_EXPIRY (R116). -/
  | retryTimerExpiry
  /-- RE_ATTEMPT_TIMER_EXPIRY (R116). -/
  | reAttemptTimerExpiry
  /-- LINGER_EXPIRY (R112). -/
  | lingerExpiry
  /-- DETACH_TIMER_EXPIRY (R117). -/
  | detachTimerExpiry
  /-- ACCEPT_TIMER_EXPIRY (R129): the link sequence of the frame. -/
  | acceptTimerExpiry (link : BitVec 16)
  /-- ATTACH_REQ_START (R114). -/
  | attachReqStart
  /-- DETACH_REQ_START (R117). -/
  | detachReqStart
  /-- TRANSFER_END (R124). -/
  | transferEnd
  /-- CREDIT_ACCRUAL (R168). -/
  | creditAccrual
  /-- DATA_UP_START (R175). -/
  | dataUpStart
  /-- AGE_EXPIRY (R163): the class whose oldest overdue frame expires. -/
  | ageExpiry (cls : ServiceClass)
deriving DecidableEq, Repr

end Sys2Proof
end

