-- ==== Sys2Proof/Decode.lean ====
section
/-! DEFINITION. The table of this part gives no row any bits: no command is spelled by a word. -/

namespace Sys2Proof

/-- The command that a word of `nbits` bits spells: none, since no row of the table gives bits (log 34). -/
def decodeTableWord (nbits w : Nat) : Option Instr :=
  match nbits, w with
  | _, _ => none

end Sys2Proof
end

