-- ==== Sys2Proof/Machine/State.lean ====
section
/-! DEFINITION. The state of the part, block by block, and the state after part reset. Every field is
plain data; INVENTORY.md lists each with its rule and its reset value. -/

namespace Sys2Proof.Machine

/-- One value for each class of service. -/
structure PerClass (α : Type) where
  voice : α
  signal : α
  interactive : α
  bulk : α
deriving DecidableEq, Repr

/-- The value of class `c`. -/
def PerClass.get {α : Type} (x : PerClass α) : ServiceClass → α
  | .voice => x.voice
  | .signal => x.signal
  | .interactive => x.interactive
  | .bulk => x.bulk

/-- `x` with the value of class `c` replaced. -/
def PerClass.set {α : Type} (x : PerClass α) (c : ServiceClass) (v : α) : PerClass α :=
  match c with
  | .voice => { x with voice := v }
  | .signal => { x with signal := v }
  | .interactive => { x with interactive := v }
  | .bulk => { x with bulk := v }

/-- The record whose value at each class is `f` of the class. -/
def PerClass.ofFn {α : Type} (f : ServiceClass → α) : PerClass α :=
  ⟨f .voice, f .signal, f .interactive, f .bulk⟩

/-- A timer: `none` while idle, `some t` while it runs and ends at millisecond `t` of the timebase. -/
abbrev Timer := Option Nat

/-! ### Timebase and pins -/

/-- Levels of the input lines as the outside drives them; `rtest` is true while the active-low
switch input is held (00_scope.md, "Lines of the part"). -/
structure Pins where
  opres : Bool
  olos : Bool
  rtest : Bool
  rpres : Bool
deriving DecidableEq, Repr

/-- The millisecond timebase and the sampling of the input lines (R40, R42, R76, R107). -/
structure Clock where
  now : Nat
  /-- The first millisecond's levels have been taken. -/
  firstTaken : Bool
  pins : Pins
  /-- Consecutive samples of OPRES that differ from the presence taken (R40). -/
  opticalRun : Nat
  /-- Consecutive samples of RTEST that differ from the level taken (R76). -/
  testRun : Nat
  /-- Consecutive samples of RPRES that differ from the presence taken (R107). -/
  radioRun : Nat
deriving DecidableEq, Repr

/-! ### Channel monitor -/

/-- Channel state (R7). -/
inductive ChannelState where
  | active | powerDown | selfRefresh | inReset
deriving DecidableEq, Repr

/-- Burst mode of mode register 0 (R5). -/
inductive BurstMode where
  | fixed8 | onTheFly | fixed4
deriving DecidableEq, Repr

/-- Read order of mode register 0 (R5). -/
inductive ReadOrder where
  | sequential | interleaved
deriving DecidableEq, Repr

/-- Additive latency of mode register 1 (R5). -/
inductive Additive where
  | zero | readLess1 | readLess2
deriving DecidableEq, Repr

/-- A channel command as the part sorts it (R2). -/
inductive ChannelOp where
  | openRow (bank : BitVec 3) (row : BitVec 15)
  | closeRow (bank : BitVec 3)
  | closeAll
  | refresh
  | modeSet (register : BitVec 2) (value : BitVec 15)
  | powerDownEntry
  | selfRefreshEntry
  | exit
  | read (r : ReadBurst)
  | write (w : WriteBurst)
  | noOp
  | deselect
  | calibration
  /-- A mode-set coding with bank address 4 to 7, to which R2 gives no kind. -/
  | unnamed
deriving DecidableEq, Repr

/-- A channel command as it reaches DRAM (R1): as its row gives it, or, where it came as pins, with every pin and
all its data as they came. -/
inductive DramCommand where
  | named (op : ChannelOp)
  | pins (c : ChannelPins)
deriving DecidableEq, Repr

/-- Where the bytes of a read came from (R1, R12): DRAM, or the part, with the latency in clock
periods at which its beats are placed. -/
inductive ReadSource where
  | dram
  | part (latency : Nat)
deriving DecidableEq, Repr

/-- The bytes the memory controller received for a read, in the order of the beats. -/
structure ReadReturn where
  bytes : List Byte
  source : ReadSource
deriving DecidableEq, Repr

/-- Channel monitor (chapter 1). -/
structure Channel where
  state : ChannelState
  /-- The bank table: `none` is CLOSED (R3). -/
  banks : List (Option (BitVec 15))
  burstMode : BurstMode
  readOrder : ReadOrder
  readLatency : Nat
  additive : Additive
  outputDisable : Bool
  writeLatency : Nat
  known0 : Bool
  known1 : Bool
  known2 : Bool
  readout : Bool
  /-- The channel reset line as passed to DRAM, true while asserted (R1). -/
  dramReset : Bool
  /-- The last command passed to DRAM, unchanged (R1). -/
  toDram : Option DramCommand
  /-- What the memory controller received for the last read. -/
  toHost : Option ReadReturn
deriving DecidableEq, Repr

/-! ### Window table -/

/-- A defined window: base channel address and size in bytes (R14). -/
structure Window where
  base : Nat
  size : Nat
deriving DecidableEq, Repr

/-- Bases of the delivery ring and of the delivery area (R183). -/
structure DeliveryDef where
  ring : Nat
  area : Nat
deriving DecidableEq, Repr

/-- Window table (R13, R14). -/
structure Windows where
  strap : BitVec 4
  uplink : Option Window
  captures : List (Option Window)
  delivery : Option DeliveryDef
deriving DecidableEq, Repr

/-! ### Command unit -/

/-- The timed commands (R26). -/
inductive Timed where
  | fibreRestart | radioAttach | radioDetach
deriving DecidableEq, Repr

/-- Command unit (chapter 2): the captured copies, the timed command in execution (BUSY while there
is one), and the result area (R28). -/
structure Command where
  header : List Byte
  params : List Byte
  running : Option Timed
  tag : BitVec 16
  code : Byte
  result : Byte
  clamp : BitVec 32
  refused : BitVec 16
  data : List Byte
deriving DecidableEq, Repr

/-! ### Optical monitor -/

/-- Poll state (R33). -/
inductive Poll where
  | waiting | firstAttempt | retry
deriving DecidableEq, Repr

/-- What the part puts on the I2C bus (R35). -/
inductive BusSymbol where
  | start
  | send (b : Byte)
  | receive (acknowledged : Bool)
  | pulse
  | stop
deriving DecidableEq, Repr

/-- Restart window (R43): the phase and the millisecond it ends; TX_OFF keeps the settle time the
window began with. -/
inductive RestartWindow where
  | none
  | txOff (ends : Nat) (settle : Nat)
  | settling (ends : Nat)
deriving DecidableEq, Repr

/-- Settings of the optical monitor (R49). -/
structure OpticalSettings where
  address : Byte
  offset : Byte
  period : Nat
  shift : Nat
  factors : List Nat
  offTime : Nat
  settleTime : Nat
  /-- Restart interval in seconds; 0 is off. -/
  interval : Nat
deriving DecidableEq, Repr

/-- Optical monitor (R33). -/
structure Optical where
  present : Bool
  losLevel : Bool
  poll : Poll
  /-- The millisecond the attempt in flight began (R35). -/
  began : Nat
  /-- Poll schedule: stopped, or the start time of the next poll. -/
  nextPoll : Option Nat
  /-- What the part has put on the I2C bus in the present or last poll, after the end of a poll that SET_OPTICS
  broke off for it (R35, R50). -/
  bus : List BusSymbol
  temperature : BitVec 16
  supply : BitVec 16
  bias : BitVec 16
  txPower : BitVec 16
  rxPower : BitVec 16
  samples : BitVec 32
  failures : Nat
  seedPending : Bool
  window : RestartWindow
  /-- Output line OTXDIS. -/
  txDisable : Bool
  /-- Automatic restart run: stopped, or the millisecond it began (R47). -/
  run : Option Nat
  settings : OpticalSettings
deriving DecidableEq, Repr

/-! ### Health unit -/

/-- Verdict (R67, R68). -/
inductive Verdict where
  | pending | good | warn | bad
deriving DecidableEq, Repr

/-- The twelve conditions at their bits (chapter 1, Layouts). -/
abbrev Conditions := BitVec 12

/-- Staleness timer (R61, R62): running since it was last armed or restarted, or paused with the
active time that has passed. What remains is the report timeout less that time (R72). -/
inductive Staleness where
  | disarmed
  | running (since : Nat)
  | paused (passed : Nat)
deriving DecidableEq, Repr

/-- Settings of the health unit (R71). -/
structure HealthSettings where
  alarmLow : Nat
  warnLow : Nat
  warnHigh : Nat
  alarmHigh : Nat
  tempHigh : Nat
  errWarn : Nat
  errBad : Nat
  reportTimeout : Nat
  latchMask : Conditions
deriving DecidableEq, Repr

/-- Health unit (R52). -/
structure Health where
  lastTemp : Option Int
  corrected : Nat
  filter : Option Nat
  live : Conditions
  latched : Conditions
  verdict : Verdict
  causes : Conditions
  hold : Bool
  stale : Staleness
  settings : HealthSettings
deriving DecidableEq, Repr

/-! ### Path controller -/

/-- Software force and effective force (R74). -/
inductive Force where
  | auto | fibre | radio
deriving DecidableEq, Repr

/-- Service state (R74). -/
inductive Service where
  | fibre | suspect | radio | stranded | proving | returning | forcedFibre | forcedRadio
deriving DecidableEq, Repr

/-- Path word (R74). -/
inductive PathWord where
  | fibre | radio | hold | blocked
deriving DecidableEq, Repr

/-- Reason of a path word (R74). -/
inductive PathReason where
  | none | shed | noPath | noRadio
deriving DecidableEq, Repr

/-- Hand-back sub-state (R74). -/
inductive SubState where
  | onRadio | waitingQuiet | draining | returned
deriving DecidableEq, Repr

/-- Path record of one class (R74). -/
structure ClassPath where
  word : PathWord
  reason : PathReason
  sub : SubState
  drain : Timer
deriving DecidableEq, Repr

/-- Settings of the path controller (R102): dwells, drain limit and voice quiet in milliseconds, the
others in seconds. -/
structure PathSettings where
  failDwell : Nat
  losDwell : Nat
  prove : Nat
  strandedProve : Nat
  drainLimit : Nat
  voiceQuiet : Nat
  voiceStick : Nat
deriving DecidableEq, Repr

/-- Path controller (R74). -/
structure Path where
  software : Force
  /-- Radio-test level as last taken, true while active. -/
  test : Bool
  service : Service
  verdict : Verdict
  causes : Conditions
  classes : PerClass ClassPath
  dwell : Timer
  prove : Timer
  strandedProve : Timer
  quiet : Timer
  stick : Timer
  settings : PathSettings
deriving DecidableEq, Repr

/-! ### Relay -/

/-- A frame record (R159): its blocks hold `bytes`, and its length is how many there are. -/
structure Frame where
  parts : List Nat
  cls : ServiceClass
  bytes : List Byte
  enqueued : Nat
deriving DecidableEq, Repr

/-- Relay (chapter 8). -/
structure Relay where
  queues : PerClass (List Frame)
  shed : PerClass Bool
  credit : Nat
  nextSeq : PerClass (BitVec 16)
  limits : PerClass Nat
  ages : PerClass Nat
  depth : Nat
deriving DecidableEq, Repr

/-! ### Radio link controller -/

/-- Module state (R106). -/
inductive Module where
  | absent | off | starting | idle | attaching | attached | detaching | recovering
deriving DecidableEq, Repr

/-- Phase of the attach series (R105). -/
inductive Phase where
  | none | pending | awaiting | retryWait
deriving DecidableEq, Repr

/-- Last failure reason (R105). -/
inductive Failure where
  | noAnswer | noCoverage | denied | busy | moduleError
deriving DecidableEq, Repr

/-- Cause of a detach (R119). -/
inductive DetachCause where
  | requested | network | coverage
deriving DecidableEq, Repr

/-- A pending control message (R105). -/
inductive Control where
  | attachReq (profile : Nat)
  | detachReq (forced : Bool)
deriving DecidableEq, Repr

/-- The timer a transfer starts when it ends (R114, R126). -/
inductive Owed where
  | nothing
  | answer
  | accept (link : BitVec 16)
deriving DecidableEq, Repr

/-- The message on the outbound lane (R124), and the millisecond by which its transfer is over (R119;
log 4). -/
structure Transfer where
  bytes : List Byte
  owes : Owed
  ends : Nat
deriving DecidableEq, Repr

/-- A frame of the outstanding list (R126). -/
structure Sent where
  frame : Frame
  carriage : BitVec 16
  link : BitVec 16
  accept : Timer
deriving DecidableEq, Repr

/-- Settings of the radio link controller (R130). -/
structure RadioSettings where
  hot : Bool
  profile : Nat
  retryCount : Nat
  /-- Linger in seconds. -/
  linger : Nat
deriving DecidableEq, Repr

/-- Radio link controller (R105). -/
structure Radio where
  state : Module
  present : Bool
  /-- Output line RPWR. -/
  rpwr : Bool
  start : Timer
  silence : Timer
  recover : Timer
  detach : Timer
  demand : Bool
  linger : Timer
  manualHold : Bool
  phase : Phase
  attempts : Nat
  answer : Timer
  retry : Timer
  reattempt : Timer
  firmware : BitVec 32
  maxBuffers : Byte
  serviceId : BitVec 32
  quality : Nat
  grant : BitVec 16
  buffers : Byte
  outstanding : List Sent
  timeouts : Nat
  lane : Option Transfer
  control : Option Control
  linkSeq : BitVec 16
  lastFailure : Failure
  lastDetach : Option DetachCause
  settings : RadioSettings
deriving DecidableEq, Repr

/-! ### Uplink capture -/

/-- An entry of the staging store (R134): line address and 32 byte lanes, `some` where the valid flag
is set. The store lists the entries most recent first, so an entry's place is its rank. -/
structure Staged where
  line : Nat
  lanes : List Lane
deriving DecidableEq, Repr

/-- State of an uplink entry (R138). -/
inductive EntryState where
  | idle | held | queued | sending | sent | discarded
deriving DecidableEq, Repr

/-- Discard reason (chapter 1, uplink descriptor). -/
inductive Discard where
  | incomplete | outOfWindow | tooLong | tooManyParts | wrongPath | shed | noPath | queueFull
  | displaced | aged | withdrawn | radioLost | drainLimit | linkTimeout | moduleReject
deriving DecidableEq, Repr

/-- An uplink entry (R138): the host-side copy as the 16 bytes of the descriptor (part-side positions
0), the state, the reason (`none` is reason none) and the carriage sequence. -/
structure Entry where
  host : List Byte
  state : EntryState
  reason : Option Discard
  carriage : BitVec 16
deriving DecidableEq, Repr

/-- Uplink capture (chapter 7). -/
structure Uplink where
  staging : List Staged
  entries : List Entry
deriving DecidableEq, Repr

/-! ### Delivery unit -/

/-- A READY delivery slot (R183); its length is how many bytes there are. -/
structure Slot where
  cls : ServiceClass
  bytes : List Byte
  carriage : BitVec 16
  number : BitVec 16
deriving DecidableEq, Repr

/-- Delivery unit (R183): `none` is an EMPTY slot, and an unknown expected sequence. -/
structure Delivery where
  slots : List (Option Slot)
  fill : Nat
  number : BitVec 16
  expected : PerClass (Option (BitVec 16))
deriving DecidableEq, Repr

/-! ### Event unit -/

/-- The sixteen counters (R203). -/
structure Counters where
  strayAccesses : BitVec 32
  channelProtocol : BitVec 32
  unlearnedAccesses : BitVec 32
  stageEvictions : BitVec 32
  postsRefused : BitVec 32
  framesSent : BitVec 32
  framesDiscarded : BitVec 32
  bytesSent : BitVec 32
  linkErrors : BitVec 32
  acceptTimeouts : BitVec 32
  framesDelivered : BitVec 32
  deliveryOverruns : BitVec 32
  downlinkGaps : BitVec 32
  failovers : BitVec 32
  returns : BitVec 32
  commandsRefusedBusy : BitVec 32
deriving DecidableEq, Repr

/-- Every counter 0. -/
def Counters.zero : Counters := ⟨0, 0, 0, 0, 0, 0, 0, 0, 0, 0, 0, 0, 0, 0, 0, 0⟩

/-- Event unit (chapter 10): flags and enable mask at the bits of the event flag field. -/
structure Events where
  flags : BitVec 9
  mask : BitVec 9
  counters : Counters
deriving DecidableEq, Repr

/-! ### The part and the machine -/

/-- Everything the spec gives the part, block by block. -/
structure Part where
  clock : Clock
  channel : Channel
  windows : Windows
  command : Command
  optical : Optical
  health : Health
  path : Path
  radio : Radio
  relay : Relay
  uplink : Uplink
  delivery : Delivery
  events : Events
deriving DecidableEq, Repr

/-- The machine: the part, and the commands that wait for it, first in first out (log 1). -/
structure State where
  pending : List Instr
  part : Part
deriving DecidableEq, Repr

/-- Why a step stops with a fault: never. No rule of the manual stops the part, so there is no
constructor (safe: nothing is lost). -/
inductive Fault where
deriving DecidableEq, Repr

/-- Why a step is refused. -/
inductive Refusal where
  /-- Raised by no arm: every command has its meaning (safe: a refusal proves nothing). -/
  | notModelled (mnemonic : String)
deriving DecidableEq, Repr

/-! ### Reset -/

/-- The settings of SET_OPTICS after part reset (R49). -/
def OpticalSettings.reset : OpticalSettings :=
  { address := 0x56, offset := 0x20, period := 200, shift := 2, factors := List.replicate 8 128,
    offTime := 500, settleTime := 2000, interval := 0 }

/-- The settings of SET_THRESHOLDS after part reset (R71). -/
def HealthSettings.reset : HealthSettings :=
  { alarmLow := 100, warnLow := 200, warnHigh := 5000, alarmHigh := 10000, tempHigh := 85,
    errWarn := 0, errBad := 0, reportTimeout := 1000, latchMask := 0 }

/-- The settings of SET_PATH_TIMERS after part reset (R102). -/
def PathSettings.reset : PathSettings :=
  { failDwell := 500, losDwell := 50, prove := 60, strandedProve := 5, drainLimit := 500,
    voiceQuiet := 2000, voiceStick := 1800 }

/-- The settings of SET_RADIO after part reset (R130). -/
def RadioSettings.reset : RadioSettings :=
  { hot := false, profile := 0, retryCount := 3, linger := 300 }

/-- The path record of a class on fibre (R78, R104). -/
def ClassPath.fibre : ClassPath :=
  { word := .fibre, reason := .none, sub := .returned, drain := none }

/-- The timebase at part reset with the input lines at `pins` (log 5). -/
def Clock.reset (pins : Pins) : Clock :=
  { now := 0, firstTaken := false, pins := pins, opticalRun := 0, testRun := 0, radioRun := 0 }

/-- The channel monitor after part reset (R3, R5, R8): ACTIVE, or IN_RESET when the channel reset line
is asserted. The recorded mode fields are never read while unknown (log 13). -/
def Channel.reset (asserted : Bool) : Channel :=
  { state := if asserted then .inReset else .active, banks := List.replicate 8 none,
    burstMode := .fixed8, readOrder := .sequential, readLatency := 5, additive := .zero,
    outputDisable := false, writeLatency := 5, known0 := false, known1 := false, known2 := false,
    readout := false, dramReset := asserted, toDram := none, toHost := none }

/-- The window table after part reset holds the anchor block alone (R13, R14). -/
def Windows.reset (strap : BitVec 4) : Windows :=
  { strap := strap, uplink := none, captures := List.replicate 4 none, delivery := none }

/-- The command unit after part reset (R22, R24, R28). -/
def Command.reset : Command :=
  { header := List.replicate 32 0, params := List.replicate 32 0, running := none, tag := 0,
    code := 0, result := 0, clamp := 0, refused := 0, data := List.replicate 16 0 }

/-- The optical monitor after part reset (R33, R51). -/
def Optical.reset : Optical :=
  { present := false, losLevel := false, poll := .waiting, began := 0, nextPoll := none, bus := [],
    temperature := 0, supply := 0, bias := 0, txPower := 0, rxPower := 0, samples := 0,
    failures := 0, seedPending := true, window := .none, txDisable := false, run := none,
    settings := OpticalSettings.reset }

/-- The health unit after part reset (R73). -/
def Health.reset : Health :=
  { lastTemp := none, corrected := 0, filter := none, live := 0, latched := 0, verdict := .pending,
    causes := 0, hold := false, stale := .disarmed, settings := HealthSettings.reset }

/-- The path controller after part reset (R104). -/
def Path.reset : Path :=
  { software := .auto, test := false, service := .fibre, verdict := .pending, causes := 0,
    classes := PerClass.ofFn fun _ => ClassPath.fibre, dwell := none, prove := none,
    strandedProve := none, quiet := none, stick := none, settings := PathSettings.reset }

/-- The radio link controller after part reset (R133). -/
def Radio.reset : Radio :=
  { state := .off, present := false, rpwr := false, start := none, silence := none,
    recover := none, detach := none, demand := false, linger := none, manualHold := false,
    phase := .none, attempts := 0, answer := none, retry := none, reattempt := none, firmware := 0,
    maxBuffers := 0, serviceId := 0, quality := 0, grant := 0, buffers := 0, outstanding := [],
    timeouts := 0, lane := none, control := none, linkSeq := 0, lastFailure := .noAnswer,
    lastDetach := none, settings := RadioSettings.reset }

/-- The relay after part reset (R182). -/
def Relay.reset : Relay :=
  { queues := PerClass.ofFn fun _ => [], shed := PerClass.ofFn fun _ => false, credit := 0,
    nextSeq := PerClass.ofFn fun _ => 0, limits := ⟨256, 256, 512, 1024⟩,
    ages := ⟨60, 2000, 1000, 5000⟩, depth := 8192 }

/-- Uplink capture after part reset: no table, no staged line (R157). -/
def Uplink.reset : Uplink := { staging := [], entries := [] }

/-- The delivery unit after part reset (R198). -/
def Delivery.reset : Delivery :=
  { slots := List.replicate 32 none, fill := 0, number := 0,
    expected := PerClass.ofFn fun _ => none }

/-- The event unit after part reset (R205). -/
def Events.reset : Events := { flags := 0, mask := 0, counters := Counters.zero }

/-- The part after a part reset that samples `strap`, with the channel reset line asserted or not and
the input lines at `pins` (R13, R8). -/
def Part.reset (strap : BitVec 4) (asserted : Bool) (pins : Pins) : Part :=
  { clock := Clock.reset pins, channel := Channel.reset asserted, windows := Windows.reset strap,
    command := Command.reset, optical := Optical.reset, health := Health.reset, path := Path.reset,
    radio := Radio.reset, relay := Relay.reset, uplink := Uplink.reset,
    delivery := Delivery.reset, events := Events.reset }

/-- The machine after part reset: strap value 0, the channel reset line released, no module fitted and
no switch held (log 5), and no command waiting. -/
def State.reset : State :=
  { pending := [],
    part := Part.reset 0 false { opres := false, olos := false, rtest := false, rpres := false } }

end Sys2Proof.Machine
end

