-- ==== Sys2Proof/Machine/Flags.lean ====
section
/-! DEFINITION. Event flags, counters, the attention line, and the condition bits (chapter 10, chapter 1
Layouts). -/

namespace Sys2Proof.Machine

/-! ### Event flags (R199) -/

/-- The nine event flags. -/
inductive Flag where
  | commandDone | pathChanged | verdictChanged | radioChanged | latched | uplinkDone
  | downlinkReady | wake | dataLoss
deriving DecidableEq, Repr

/-- The bit of a flag in the event flag field (chapter 1, Layouts). -/
def Flag.bit : Flag → Nat
  | .commandDone => 0
  | .pathChanged => 1
  | .verdictChanged => 2
  | .radioChanged => 3
  | .latched => 4
  | .uplinkDone => 5
  | .downlinkReady => 6
  | .wake => 7
  | .dataLoss => 8

/-- The field with the bit of `f` alone. -/
def Flag.mask (f : Flag) : BitVec 9 := 1#9 <<< f.bit

/-- The flag `f` is set. -/
def Part.flag (p : Part) (f : Flag) : Bool := p.events.flags.getLsbD f.bit

/-- Raising a flag sets it, whatever the enable mask holds (R199). -/
def raise (f : Flag) (p : Part) : Part :=
  { p with events := { p.events with flags := p.events.flags ||| f.mask } }

/-- `raise f` when `b` holds. -/
def raiseIf (b : Bool) (f : Flag) (p : Part) : Part := if b then raise f p else p

/-- The attention line: active while a flag is both set and enabled (R201). -/
def Part.attention (p : Part) : Bool := p.events.flags &&& p.events.mask != 0

/-! ### Counters (R203) -/

/-- The sixteen counters by name. -/
inductive Counter where
  | strayAccesses | channelProtocol | unlearnedAccesses | stageEvictions | postsRefused
  | framesSent | framesDiscarded | bytesSent | linkErrors | acceptTimeouts | framesDelivered
  | deliveryOverruns | downlinkGaps | failovers | returns | commandsRefusedBusy
deriving DecidableEq, Repr

/-- The value of a counter. -/
def Counters.get (cs : Counters) : Counter → BitVec 32
  | .strayAccesses => cs.strayAccesses
  | .channelProtocol => cs.channelProtocol
  | .unlearnedAccesses => cs.unlearnedAccesses
  | .stageEvictions => cs.stageEvictions
  | .postsRefused => cs.postsRefused
  | .framesSent => cs.framesSent
  | .framesDiscarded => cs.framesDiscarded
  | .bytesSent => cs.bytesSent
  | .linkErrors => cs.linkErrors
  | .acceptTimeouts => cs.acceptTimeouts
  | .framesDelivered => cs.framesDelivered
  | .deliveryOverruns => cs.deliveryOverruns
  | .downlinkGaps => cs.downlinkGaps
  | .failovers => cs.failovers
  | .returns => cs.returns
  | .commandsRefusedBusy => cs.commandsRefusedBusy

/-- The counters with counter `c` replaced. -/
def Counters.put (cs : Counters) (c : Counter) (v : BitVec 32) : Counters :=
  match c with
  | .strayAccesses => { cs with strayAccesses := v }
  | .channelProtocol => { cs with channelProtocol := v }
  | .unlearnedAccesses => { cs with unlearnedAccesses := v }
  | .stageEvictions => { cs with stageEvictions := v }
  | .postsRefused => { cs with postsRefused := v }
  | .framesSent => { cs with framesSent := v }
  | .framesDiscarded => { cs with framesDiscarded := v }
  | .bytesSent => { cs with bytesSent := v }
  | .linkErrors => { cs with linkErrors := v }
  | .acceptTimeouts => { cs with acceptTimeouts := v }
  | .framesDelivered => { cs with framesDelivered := v }
  | .deliveryOverruns => { cs with deliveryOverruns := v }
  | .downlinkGaps => { cs with downlinkGaps := v }
  | .failovers => { cs with failovers := v }
  | .returns => { cs with returns := v }
  | .commandsRefusedBusy => { cs with commandsRefusedBusy := v }

/-- A 32-bit counter increased by `n`, saturating at 4,294,967,295 (R203). -/
def satAdd (v : BitVec 32) (n : Nat) : BitVec 32 := BitVec.ofNat 32 (min (v.toNat + n) 4294967295)

/-- Counter `c` increased by `n`. -/
def count (c : Counter) (n : Nat) (p : Part) : Part :=
  { p with events :=
      { p.events with counters := p.events.counters.put c (satAdd (p.events.counters.get c) n) } }

/-- The counters in the order of their numbers (R203), as status page lines 4 and 5 show them. -/
def Counter.all : List Counter :=
  [.strayAccesses, .channelProtocol, .unlearnedAccesses, .stageEvictions, .postsRefused, .framesSent,
    .framesDiscarded, .bytesSent, .linkErrors, .acceptTimeouts, .framesDelivered, .deliveryOverruns,
    .downlinkGaps, .failovers, .returns, .commandsRefusedBusy]

/-! ### Conditions (chapter 1, Layouts) -/

/-- The twelve conditions. -/
inductive Condition where
  | los | moduleAbsent | pollFail | rxLowAlarm | rxLowWarn | rxHighWarn | rxHighAlarm | tempHigh
  | syncLost | errBad | errWarn | reportStale
deriving DecidableEq, Repr

/-- The bit of a condition. -/
def Condition.bit : Condition → Nat
  | .los => 0
  | .moduleAbsent => 1
  | .pollFail => 2
  | .rxLowAlarm => 3
  | .rxLowWarn => 4
  | .rxHighWarn => 5
  | .rxHighAlarm => 6
  | .tempHigh => 7
  | .syncLost => 8
  | .errBad => 9
  | .errWarn => 10
  | .reportStale => 11

/-- The set that holds the condition `c` alone. -/
def Condition.mask (c : Condition) : Conditions := 1#12 <<< c.bit

/-- `c` belongs to the set. -/
def Conditions.has (s : Conditions) (c : Condition) : Bool := s.getLsbD c.bit

/-- The set with `c` set or cleared. -/
def Conditions.put (s : Conditions) (c : Condition) (on : Bool) : Conditions :=
  if on then s ||| c.mask else s &&& ~~~c.mask

/-- The conditions that make the verdict BAD (R67). -/
def badSet : Conditions :=
  Condition.mask .los ||| Condition.mask .moduleAbsent ||| Condition.mask .pollFail |||
    Condition.mask .rxLowAlarm ||| Condition.mask .rxHighAlarm ||| Condition.mask .syncLost |||
    Condition.mask .reportStale ||| Condition.mask .errBad

/-- The conditions that make the verdict WARN (R67). -/
def warnSet : Conditions :=
  Condition.mask .rxLowWarn ||| Condition.mask .rxHighWarn ||| Condition.mask .tempHigh |||
    Condition.mask .errWarn

/-- The conditions that are not latched while a restart window runs (R65). -/
def suppressedSet : Conditions :=
  Condition.mask .los ||| Condition.mask .rxLowAlarm ||| Condition.mask .rxLowWarn |||
    Condition.mask .syncLost

end Sys2Proof.Machine
end

