-- ==== Sys2Proof/Machine/Operands.lean ====
section
/-! DEFINITION. Bytes, lines and lanes; the write bursts the command rows stand for; the parameter
block of a command (R9, R10, R23, R29). -/

namespace Sys2Proof.Machine

/-! ### Bytes -/

/-- The `n` low-order bytes of a number, least significant first. -/
def leBytes : Nat → Nat → List Byte
  | 0, _ => []
  | n + 1, v => BitVec.ofNat 8 v :: leBytes n (v / 256)

/-- The number that bytes spell, least significant first. -/
def leNat : List Byte → Nat
  | [] => 0
  | b :: bs => b.toNat + 256 * leNat bs

/-- The `n` low-order bytes of a number, most significant first. -/
def beBytes (n v : Nat) : List Byte := (leBytes n v).reverse

/-- The number that bytes spell, most significant first. -/
def beNat (bs : List Byte) : Nat := leNat bs.reverse

/-- `n` bytes from place `i`, 0 past the end. -/
def slice (bs : List Byte) (i n : Nat) : List Byte := (List.range n).map fun k => bs.getD (i + k) 0

/-- `bs` cut or filled with zeros to `n` bytes. -/
def padTo (n : Nat) (bs : List Byte) : List Byte := slice bs 0 n

/-- Lane `i`, `none` past the end. -/
def lane (ls : List Lane) (i : Nat) : Lane := ls.getD i none

/-- Merging a write into a copy replaces each byte the write carries and keeps the others (R22, R140). -/
def mergeLanes (old : List Byte) (new : List Lane) : List Byte :=
  (List.range old.length).map fun i => (lane new i).getD (old.getD i 0)

/-- Lanes `i` to `i + n - 1`. -/
def laneSlice (ls : List Lane) (i n : Nat) : List Lane := (List.range n).map fun k => lane ls (i + k)

/-! ### Timers -/

/-- A timer has fallen due at millisecond `now`. -/
def Timer.due (t : Timer) (now : Nat) : Bool :=
  match t with
  | none => false
  | some d => d ≤ now

/-- The remaining whole milliseconds, 0 while idle (R20). -/
def Timer.remaining (t : Timer) (now : Nat) : Nat :=
  match t with
  | none => 0
  | some d => d - now

/-! ### Bursts of the anchor lines and of descriptors -/

/-- Anchor offsets of the captured lines (R13). -/
def headerOffset : Nat := 0x100
def parameterOffset : Nat := 0x120
def acknowledgeOffset : Nat := 0x140
def reportOffset : Nat := 0x160

/-- The write command to the anchor line at `offset`: bank 7, the line's column plus the start
position (R13, 00_scope.md "Anchor block location"). -/
def anchorWrite (offset : Nat) (w : AnchorBurst) : WriteBurst :=
  { place := { bank := 7, column := BitVec.ofNat 10 (offset / 4 + w.start.toNat),
               autoClose := w.autoClose, chop := w.chop },
    lanes := w.lanes }

/-- The write command to the command header line that carries code `code` (R23). -/
def headerWrite (code : Byte) (h : HeaderBurst) : WriteBurst :=
  anchorWrite headerOffset
    { start := h.start, autoClose := h.autoClose, chop := h.chop,
      lanes := some code :: h.second :: (leBytes 2 h.tag.toNat).map some ++ h.rest }

/-- The 16 bytes of a descriptor write with give byte `give` (chapter 1, uplink descriptor). -/
def descriptorBytes (give : Byte) (d : DescriptorBurst) : List Byte :=
  leBytes 4 d.address.toNat ++ leBytes 2 d.length.toNat ++ [d.cls, give, d.chain] ++
    slice d.spare 0 3 ++ leBytes 2 d.tag.toNat ++ slice d.spare 3 2

/-- The write command that carries the descriptor whole: its half-line is the one the start column
lies in (R140). -/
def descriptorWrite (give : Byte) (d : DescriptorBurst) : WriteBurst :=
  let own := (descriptorBytes give d).map some
  let other := laneSlice d.other 0 16
  { place := d.place, lanes := if d.place.column.getLsbD 2 then other ++ own else own ++ other }

/-! ### The parameter block -/

/-- The parameter block: parameter bytes 0 to 27 are bytes 4 to 31 of the header copy, 28 to 59 the
parameter copy (R23). -/
def parameterBlock (header params : List Byte) : List Byte := slice header 4 28 ++ slice params 0 32

/-- Parameter byte `i`. -/
def param8 (ps : List Byte) (i : Nat) : Nat := (ps.getD i 0).toNat

/-- Parameter bytes `i` and `i + 1`, little-endian. -/
def param16 (ps : List Byte) (i : Nat) : Nat := leNat (slice ps i 2)

/-- Parameter bytes `i` to `i + 3`, little-endian. -/
def param32 (ps : List Byte) (i : Nat) : Nat := leNat (slice ps i 4)

/-- The nearest value of a range (R29). -/
def clampTo (low high v : Nat) : Nat := max low (min high v)

/-- The nearest value of a range that also holds 0 (R49, R71). -/
def clampOrZero (low high v : Nat) : Nat := if v = 0 then 0 else clampTo low high v

/-- The clamp mask: bit n is set when value n of the command was changed by clamping (R29). -/
def clampMask (given taken : List Nat) : BitVec 32 :=
  (List.range given.length).foldl
    (fun m i => if given.getD i 0 = taken.getD i 0 then m else m ||| (1#32 <<< i)) 0

end Sys2Proof.Machine
end

