-- ==== Sys2Proof/Machine/Link.lean ====
section
/-! DEFINITION. The messages of the radio module link: check, bits on the line, layout, and what an inbound message is
(R119 to R121). -/

namespace Sys2Proof.Machine

/-! ### The check (R120) -/

/-- One bit of the CRC-16 register with generator x^16 + x^12 + x^5 + 1. -/
def crcBit (c : BitVec 16) (bit : Bool) : BitVec 16 :=
  if c.msb != bit then (c <<< 1) ^^^ 0x1021 else c <<< 1

/-- One byte, most significant bit first. -/
def crcByte (c : BitVec 16) (b : Byte) : BitVec 16 :=
  (List.range 8).foldl (fun c i => crcBit c (b.getMsbD i)) c

/-- The check over header and payload: preset to all ones, sent as it stands. -/
def crc16 (bs : List Byte) : BitVec 16 := bs.foldl crcByte 0xFFFF

/-! ### Bits on the line (R119) -/

/-- What stands on the serial lane for one bit time: a start bit, a data bit, a stop bit, or the idle line. -/
inductive SerialBit where
  | start
  | data (bit : Bool)
  | stop
  | idle
deriving DecidableEq, Repr

/-- A byte as it is sent: one start bit, eight data bits, least significant first, one stop bit (R119). -/
def byteOnLine (b : Byte) : List SerialBit :=
  .start :: (List.range 8).map (fun i => .data (b.getLsbD i)) ++ [.stop]

/-- A bit time in nanoseconds: 8 Mbit/s (R119). -/
def bitNanoseconds : Nat := 125

/-- Bit times in the gap of 50 microseconds that the part leaves after the last byte of a message (R119). -/
def gapBits : Nat := 400

/-- A message as it is sent: its bytes with no gap between them, and then the idle line (R119). -/
def messageOnLine (bytes : List Byte) : List SerialBit :=
  bytes.flatMap byteOnLine ++ List.replicate gapBits .idle

/-- What the part sends on RTXD for the message on the outbound lane, from the beginning of its transfer to the
end; nothing where the lane is free (R119, R124). -/
def Part.sending (p : Part) : List SerialBit :=
  match p.radio.lane with
  | none => []
  | some t => messageOnLine t.bytes

/-! ### Layout (R119) -/

/-- A message: header with flags and reserved bytes 0, payload, check most significant byte first. -/
def message (type : Byte) (link : BitVec 16) (payload : List Byte) : List Byte :=
  let body := [type, 0] ++ beBytes 2 payload.length ++ beBytes 2 link.toNat ++ [0, 0] ++ payload
  body ++ beBytes 2 (crc16 body).toNat

/-- A carriage header before its frame (R119). -/
def carriagePayload (h : Carriage) (frame : List Byte) : List Byte :=
  beBytes 4 h.serviceId.toNat ++ [h.cls, 0] ++ beBytes 2 h.sequence.toNat ++
    beBytes 2 frame.length ++ [0, 0] ++ frame

/-- Outbound message types (R119). -/
def Type.attachReq : Byte := 0x01
def Type.detachReq : Byte := 0x02
def Type.dataUp : Byte := 0x10

/-- The greatest length of a message in bytes (R121). -/
def longestMessage : Nat := 1558

/-- The time a message's transfer takes, in nanoseconds: ten bits a byte, which are 1.25 microseconds, and the gap
of 50 microseconds after the last (R119). -/
def transferNanoseconds (bytes : List Byte) : Nat := (10 * bytes.length + gapBits) * bitNanoseconds

/-- The millisecond of the timebase by which a transfer begun in millisecond `now` is over (log 4). -/
def transferEnds (now : Nat) (bytes : List Byte) : Nat :=
  now + (transferNanoseconds bytes + 999999) / 1000000

/-- An inbound message that has passed the checks of R121. -/
inductive Inbound where
  | ready (firmware : BitVec 32) (maxBuffers : Byte)
  | attachOk (serviceId : BitVec 32) (grant : BitVec 16) (buffers : Byte)
  | attachFail (reason : Byte)
  | detached (cause : Byte)
  | signalReport (quality : Byte) (grant : BitVec 16) (buffers : Byte)
  | upAccept (link : BitVec 16) (buffers : Byte)
  | upReject (link : BitVec 16) (reason : Byte)
  | resetNotice
  | dataDown (header : Carriage) (frame : List Byte)
deriving DecidableEq, Repr

/-- The message the module sends for it, with link sequence `link` where the answer carries none of
its own (R119). -/
def Inbound.encode (link : BitVec 16) : Inbound → List Byte
  | .ready fw mb => message 0x81 link (beBytes 4 fw.toNat ++ [mb])
  | .attachOk sid g b => message 0x82 link (beBytes 4 sid.toNat ++ beBytes 2 g.toNat ++ [b])
  | .attachFail r => message 0x83 link [r]
  | .detached c => message 0x84 link [c]
  | .signalReport q g b => message 0x85 link ([q] ++ beBytes 2 g.toNat ++ [b])
  | .upAccept l b => message 0x86 l [b]
  | .upReject l r => message 0x87 l [r]
  | .resetNotice => message 0x8F link []
  | .dataDown h f => message 0x90 link (carriagePayload h f)

/-- A big-endian field of `n` bytes at place `i`. -/
def field (bs : List Byte) (i n : Nat) : Nat := beNat (slice bs i n)

/-- The payload of a message of a given type, read as the message table states; `none` where the type
is not inbound or the length is not the type's (R121, checks 4 and 5). -/
def readPayload (type : Byte) (link : BitVec 16) (pl : List Byte) : Option Inbound :=
  match type.toNat with
  | 0x81 =>
    if pl.length = 5 then some (.ready (BitVec.ofNat 32 (field pl 0 4)) (pl.getD 4 0)) else none
  | 0x82 =>
    if pl.length = 7 then
      some (.attachOk (BitVec.ofNat 32 (field pl 0 4)) (BitVec.ofNat 16 (field pl 4 2)) (pl.getD 6 0))
    else none
  | 0x83 => if pl.length = 1 then some (.attachFail (pl.getD 0 0)) else none
  | 0x84 => if pl.length = 1 then some (.detached (pl.getD 0 0)) else none
  | 0x85 =>
    if pl.length = 4 then
      some (.signalReport (pl.getD 0 0) (BitVec.ofNat 16 (field pl 1 2)) (pl.getD 3 0))
    else none
  | 0x86 => if pl.length = 1 then some (.upAccept link (pl.getD 0 0)) else none
  | 0x87 => if pl.length = 1 then some (.upReject link (pl.getD 0 0)) else none
  | 0x8F => if pl.length = 0 then some .resetNotice else none
  | 0x90 =>
    if 12 ≤ pl.length ∧ field pl 8 2 = pl.length - 12 then
      some (.dataDown
        { serviceId := BitVec.ofNat 32 (field pl 0 4), cls := pl.getD 4 0,
          sequence := BitVec.ofNat 16 (field pl 6 2) } (pl.drop 12))
    else none
  | _ => none

/-- The checks of R121 in their order; `none` is a dropped message. -/
def checkMessage (m : RawMessage) : Option Inbound :=
  let n := m.bytes.length
  let body := m.bytes.take (n - 2)
  if !m.stopBits then none
  else if n < 10 ∨ n ≠ 10 + field m.bytes 2 2 ∨ longestMessage < n then none
  else if field m.bytes (n - 2) 2 ≠ (crc16 body).toNat then none
  else readPayload (m.bytes.getD 0 0) (BitVec.ofNat 16 (field m.bytes 4 2)) (body.drop 8)

end Sys2Proof.Machine
end

