-- ==== Sys2Proof/Machine/Ops.lean ====
section
/-! DEFINITION. Operations the blocks share: marking uplink entries, discarding frames, the class
queues and the frame store, and ending a command (chapters 2, 7 and 8). -/

namespace Sys2Proof.Machine

/-- The classes in priority order (00_scope.md, "Classes of service"). -/
def classes : List ServiceClass := [.voice, .signal, .interactive, .bulk]

/-- The number of a class in descriptors and headers. -/
def classNumber : ServiceClass → Nat
  | .voice => 0
  | .signal => 1
  | .interactive => 2
  | .bulk => 3

/-- The class a class byte names: BULK when it is above 3 (R141, R186). -/
def classOfByte (b : Byte) : ServiceClass :=
  match b.toNat with
  | 0 => .voice
  | 1 => .signal
  | 2 => .interactive
  | _ => .bulk

/-! ### Commands: running and ending (R24 to R26, R28) -/

/-- Result codes of the result area (R28). -/
def Result.done : Byte := 0x01
def Result.doneClamped : Byte := 0x02
def Result.paramError : Byte := 0x03
def Result.stateError : Byte := 0x04
def Result.unknownCommand : Byte := 0x05
def Result.failed : Byte := 0x06
def Result.executing : Byte := 0x80

/-- DONE_CLAMPED when a clamp bit is set, otherwise DONE (R29). -/
def doneCode (clamp : BitVec 32) : Byte := if clamp = 0 then Result.done else Result.doneClamped

/-- Completion: the result area takes the result code and the result data, the unit is IDLE and
COMMAND_DONE is raised (R25, R26). -/
def finish (result : Byte) (data : List Byte) (p : Part) : Part :=
  raise .commandDone
    { p with command := { p.command with result := result, data := padTo 16 data, running := none } }

/-- The clamp mask is written when the command is taken (R26, R29). -/
def postClamp (clamp : BitVec 32) (p : Part) : Part :=
  { p with command := { p.command with clamp := clamp } }

/-- A timed command goes on: BUSY with EXECUTING in the result area (R26). -/
def startTimed (t : Timed) (p : Part) : Part :=
  { p with command := { p.command with running := some t, result := Result.executing } }

/-! ### Uplink entries (R138, R139) -/

/-- The entries with `f` applied at every index of `parts`. -/
def markEntries (parts : List Nat) (f : Entry → Entry) (es : List Entry) : List Entry :=
  es.mapIdx fun i e => if parts.contains i then f e else e

/-- `f` applied to the entries `parts`. -/
def mark (parts : List Nat) (f : Entry → Entry) (p : Part) : Part :=
  { p with uplink := { p.uplink with entries := markEntries parts f p.uplink.entries } }

/-- An entry DISCARDED with reason `r`; its carriage sequence is kept (R138). -/
def Entry.discard (r : Discard) (e : Entry) : Entry := { e with state := .discarded, reason := some r }

/-- An entry in state `st` with reason none. -/
def Entry.move (st : EntryState) (e : Entry) : Entry := { e with state := st, reason := none }

/-- The discard reasons that raise DATA_LOSS (R139). -/
def Discard.isLoss : Discard → Bool
  | .aged | .queueFull | .displaced | .radioLost | .drainLimit | .linkTimeout | .moduleReject => true
  | _ => false

/-- A frame's parts become DISCARDED with reason `r`: FRAMES_DISCARDED counts the frame, UPLINK_DONE is
raised, and DATA_LOSS where the reason is a loss (R139, R155, R160). -/
def discardParts (r : Discard) (parts : List Nat) (p : Part) : Part :=
  raiseIf r.isLoss .dataLoss
    (raise .uplinkDone (count .framesDiscarded 1 (mark parts (Entry.discard r) p)))

/-- Each of the frames is discarded with reason `r`. -/
def discardFrames (r : Discard) (fs : List Frame) (p : Part) : Part :=
  fs.foldl (fun p f => discardParts r f.parts p) p

/-! ### Class queues and the frame store (R158 to R161) -/

/-- Frame store blocks a frame of length `n` holds (R158). -/
def blocks (n : Nat) : Nat := (n + 31) / 32

/-- Blocks a frame record holds. -/
def Frame.blocks (f : Frame) : Nat := Machine.blocks f.bytes.length

/-- The number of blocks that frames hold together. -/
def blocksOf (fs : List Frame) : Nat := (fs.map Frame.blocks).sum

/-- The frames of class `c` in the outstanding list, in its order. -/
def Part.sentOf (p : Part) (c : ServiceClass) : List Frame :=
  (p.radio.outstanding.map Sent.frame).filter fun f => f.cls = c

/-- Blocks held by class `c`, queued and outstanding together (R158). -/
def Part.held (p : Part) (c : ServiceClass) : Nat :=
  blocksOf (p.relay.queues.get c) + blocksOf (p.sentOf c)

/-- The queue of class `c` replaced. -/
def setQueue (c : ServiceClass) (q : List Frame) (p : Part) : Part :=
  { p with relay := { p.relay with queues := p.relay.queues.set c q } }

/-- Every frame queued in class `c` is discarded with reason `r` (R160). -/
def discardQueue (r : Discard) (c : ServiceClass) (p : Part) : Part :=
  discardFrames r (p.relay.queues.get c) (setQueue c [] p)

/-- Every queued frame of the classes `cs` is discarded with reason `r`. -/
def discardQueues (r : Discard) (cs : List ServiceClass) (p : Part) : Part :=
  cs.foldl (fun p c => discardQueue r c p) p

/-- Every outstanding frame is discarded with reason `r`, its accept timer cancelled (R111, R126). -/
def discardOutstanding (r : Discard) (p : Part) : Part :=
  discardFrames r (p.radio.outstanding.map Sent.frame)
    { p with radio := { p.radio with outstanding := [] } }

/-! ### What other blocks read -/

/-- The module is ATTACHED (R75). -/
def Part.attached (p : Part) : Bool := p.radio.state = .attached

/-- Effective force: RADIO while the radio-test level is active, otherwise the software force (R74). -/
def Path.effective (q : Path) : Force := if q.test then .radio else q.software

/-- The verdict as handed is BAD. -/
def Part.isBad (p : Part) : Bool := p.path.verdict = .bad

/-- The millisecond `ms` milliseconds from now. -/
def Part.after (p : Part) (ms : Nat) : Timer := some (p.clock.now + ms)

end Sys2Proof.Machine
end

