-- ==== Sys2Proof/Machine/PathOps.lean ====
section
/-! DEFINITION. The transitions of the path controller (chapter 5). Each is part of an event that
`closeEvent` (Event.lean) ends, where PATH_CHANGED is raised (R81). -/

namespace Sys2Proof.Machine

/-- Path word and reason of a class, from the service state, its hand-back sub-state, and whether the
module is attached and the class shed (R78). -/
def pathWord (svc : Service) (sub : SubState) (attached shed : Bool) : PathWord × PathReason :=
  match sub with
  | .returned => (.fibre, .none)
  | .draining => (.hold, .none)
  | .waitingQuiet => (.radio, .none)
  | .onRadio =>
    match svc with
    | .stranded => (.blocked, .noPath)
    | .forcedRadio =>
      if attached then (if shed then (.blocked, .shed) else (.radio, .none)) else (.blocked, .noRadio)
    | _ => if shed then (.blocked, .shed) else (.radio, .none)

/-- The path record of a class in a sub-state of a service state (R78). -/
def Part.record (p : Part) (svc : Service) (sub : SubState) (drain : Timer) (c : ServiceClass) :
    ClassPath :=
  let w := pathWord svc sub p.attached (p.relay.shed.get c)
  { word := w.1, reason := w.2, sub := sub, drain := drain }

/-- Every timer of the controller but the drain timers idle (R100). -/
def Path.idle (q : Path) : Path :=
  { q with dwell := none, prove := none, strandedProve := none, quiet := none, stick := none }

/-- Service state `svc` with every class ON_RADIO and every timer idle: RADIO (R84, R87, R94, R99) and
FORCED_RADIO (R97). -/
def enterRadioSide (svc : Service) (p : Part) : Part :=
  { p with path :=
      { p.path.idle with service := svc, classes := PerClass.ofFn (p.record svc .onRadio none) } }

/-- STRANDED: every class BLOCKED with NO_PATH; the stranded-prove timer runs while the verdict as
handed is not BAD (R84, R85, R87). -/
def enterStranded (p : Part) : Part :=
  let q := enterRadioSide .stranded p
  { q with path := { q.path with
      strandedProve := if p.isBad then none else p.after (p.path.settings.strandedProve * 1000) } }

/-- The dwell's expiry: RADIO with a failover counted when the module is ATTACHED, otherwise STRANDED
(R84). -/
def dwellEnds (p : Part) : Part :=
  if p.attached then count .failovers 1 (enterRadioSide .radio p) else enterStranded p

/-- SUSPECT with its dwell: los_dwell when LOS is among the causes, otherwise fail_dwell; a dwell of 0
expires at once (R82). -/
def enterSuspect (p : Part) : Part :=
  let d := if p.path.causes.has .los then p.path.settings.losDwell else p.path.settings.failDwell
  let q := { p with path := { p.path with service := .suspect, dwell := p.after d } }
  if d = 0 then dwellEnds q else q

/-- The relay discards the frames still queued of every class whose path word is FIBRE (R79, R179). -/
def discardFibre (r : Discard) (p : Part) : Part :=
  discardQueues r (classes.filter fun c => (p.path.classes.get c).word = .fibre) p

/-- FIBRE: every class FIBRE, NONE, RETURNED, every timer idle, the frames left in a queue discarded
with reason `r` (R79, R86, R87, R95, R99); SUSPECT at once where the verdict as handed is BAD (R82). -/
def enterFibre (r : Discard) (p : Part) : Part :=
  let q := discardFibre r
    { p with path :=
        { p.path.idle with service := .fibre, classes := PerClass.ofFn fun _ => ClassPath.fibre } }
  if q.isBad then enterSuspect q else q

/-- A class begins to drain: HOLD with its drain timer (R88, R90, R98). -/
def Part.drainRecord (p : Part) : ClassPath :=
  { word := .hold, reason := .none, sub := .draining, drain := p.after p.path.settings.drainLimit }

/-- RETURNING begins: VOICE waits for quiet, the other classes drain, a shed class is RETURNED (R88). -/
def enterReturning (p : Part) : Part :=
  let rec1 (c : ServiceClass) : ClassPath :=
    if p.relay.shed.get c then ClassPath.fibre else p.drainRecord
  discardFibre .drainLimit
    { p with path :=
        { p.path.idle with
          service := .returning
          classes := { voice := p.record .returning .waitingQuiet none .voice,
                       signal := rec1 .signal, interactive := rec1 .interactive, bulk := rec1 .bulk }
          quiet := p.after p.path.settings.voiceQuiet
          stick := p.after (p.path.settings.voiceStick * 1000) } }

/-- A handed verdict is taken by the rule of the service state (R82, R83, R85 to R87, R94). The verdict
and causes as handed are already in `p`; `wasBad` and `hadLos` tell those before. -/
def takeVerdict (wasBad hadLos : Bool) (p : Part) : Part :=
  match p.path.service with
  | .fibre => if p.isBad then enterSuspect p else p
  | .suspect =>
    if p.isBad then
      if wasBad && !hadLos && p.path.causes.has .los then
        { p with path := { p.path with
            dwell := p.path.dwell.map fun d => min d (p.clock.now + p.path.settings.losDwell) } }
      else p
    else { p with path := { p.path with service := .fibre, dwell := none } }
  | .radio =>
    if p.isBad then p
    else
      { p with path := { p.path with
          service := .proving, prove := p.after (p.path.settings.prove * 1000) } }
  | .proving =>
    if p.isBad then { p with path := { p.path with service := .radio, prove := none } } else p
  | .stranded =>
    if p.isBad then
      if wasBad then p
      else if p.attached then enterRadioSide .radio p
      else { p with path := { p.path with strandedProve := none } }
    else if wasBad then
      { p with path := { p.path with
          strandedProve := p.after (p.path.settings.strandedProve * 1000) } }
    else p
  | .returning => if p.isBad then enterRadioSide .radio p else p
  | .forcedFibre => p
  | .forcedRadio => p

/-- The module has become ATTACHED (R75, R87, R97). -/
def pathAttached (p : Part) : Part :=
  match p.path.service with
  | .stranded => if p.isBad then enterRadioSide .radio p else p
  | .forcedRadio => enterRadioSide .forcedRadio p
  | _ => p

/-- The part with the path controller's state replaced. -/
def Part.withPath (p : Part) (q : Path) : Part := { p with path := q }

/-- `f` applied to the record of every class for which `sel` holds. -/
def Path.mapClasses (sel : ServiceClass → Bool) (f : ServiceClass → ClassPath) (q : Path) : Path :=
  { q with classes := PerClass.ofFn fun c => if sel c then f c else q.classes.get c }

/-- Class `c` is DRAINING. -/
def Part.draining (p : Part) (c : ServiceClass) : Bool := (p.path.classes.get c).sub = .draining

/-- The module has left ATTACHED (R75, R85, R86, R95, R97, R98). -/
def pathDetached (p : Part) : Part :=
  match p.path.service with
  | .radio => enterStranded p
  | .proving => enterFibre .radioLost p
  | .returning => enterFibre .radioLost p
  | .forcedRadio => enterRadioSide .forcedRadio p
  | .forcedFibre =>
    discardFibre .radioLost (p.withPath (p.path.mapClasses p.draining fun _ => ClassPath.fibre))
  | _ => p

/-- RETURNING ends when every class is RETURNED: FIBRE, and RETURNS counts (R93). -/
def returnEnds (p : Part) : Part :=
  if p.path.service = .returning ∧ ∀ c ∈ classes, (p.path.classes.get c).sub = .returned then
    count .returns 1
      { p with path := { p.path with service := .fibre, quiet := none, stick := none } }
  else p

/-- The relay's shed status has changed from `was` (R80, R96). -/
def pathShed (was : PerClass Bool) (p : Part) : Part :=
  let changed (c : ServiceClass) : Bool := was.get c != p.relay.shed.get c
  let onRadio (svc : Service) : Part :=
    p.withPath (p.path.mapClasses
      (fun c => changed c && (p.path.classes.get c).sub = .onRadio) (p.record svc .onRadio none))
  let drained : Part :=
    p.withPath (p.path.mapClasses
      (fun c => changed c && p.relay.shed.get c && p.draining c) fun _ => ClassPath.fibre)
  match p.path.service with
  | .radio => onRadio .radio
  | .proving => onRadio .proving
  | .forcedRadio => if p.attached then onRadio .forcedRadio else p
  | .returning => if drained.path = p.path then p else returnEnds (discardFibre .shed drained)
  | .forcedFibre => if drained.path = p.path then p else discardFibre .shed drained
  | _ => p

/-- The classes that are DRAINING with an empty queue and no frame outstanding (R91). -/
def Part.drainedClasses (p : Part) : List ServiceClass :=
  classes.filter fun c => p.draining c && (p.relay.queues.get c).isEmpty && (p.sentOf c).isEmpty

/-- Every DRAINING class that has nothing left becomes RETURNED, and R93 is applied (R91). -/
def returnDrained (p : Part) : Part :=
  if p.drainedClasses = [] then p
  else
    returnEnds (p.withPath (p.path.mapClasses p.drainedClasses.contains fun _ => ClassPath.fibre))

/-- VOICE moves from WAITING_QUIET to DRAINING, the quiet and stick timers both idle (R90). -/
def voiceDrains (p : Part) : Part :=
  { p with path := { p.path with
      classes := p.path.classes.set .voice p.drainRecord, quiet := none, stick := none } }

/-- FORCED_FIBRE: a RADIO class drains, a HOLD class drains on, the others are RETURNED (R98). -/
def enterForcedFibre (p : Part) : Part :=
  let move (c : ServiceClass) : ClassPath :=
    match (p.path.classes.get c).word with
    | .radio => p.drainRecord
    | .hold => p.path.classes.get c
    | .fibre => ClassPath.fibre
    | .blocked => ClassPath.fibre
  discardFibre .drainLimit
    { p with path := { p.path.idle with service := .forcedFibre, classes := PerClass.ofFn move } }

/-- The forced state is left for AUTO (R99). -/
def leaveForced (was : Force) (p : Part) : Part :=
  match was with
  | .radio =>
    if p.isBad then (if p.attached then enterRadioSide .radio p else enterStranded p)
    else if p.attached then enterReturning p
    else enterFibre .drainLimit p
  | _ => enterFibre .drainLimit p

/-- The effective force was `was` and the service state follows its change (R77). -/
def takeForce (was : Force) (p : Part) : Part :=
  if p.path.effective = was then p
  else
    match p.path.effective with
    | .radio => enterRadioSide .forcedRadio p
    | .fibre => enterForcedFibre p
    | .auto => leaveForced was p

/-- A post's class byte is handed over: class byte 0 restarts the voice quiet timer while VOICE is
WAITING_QUIET (R89). -/
def takePost (cls : Byte) (p : Part) : Part :=
  if cls = 0 ∧ (p.path.classes.get .voice).sub = .waitingQuiet then
    { p with path := { p.path with quiet := p.after p.path.settings.voiceQuiet } }
  else p

end Sys2Proof.Machine
end

