-- ==== Sys2Proof/Machine/RadioOps.lean ====
section
/-! DEFINITION. The transitions of the radio link controller (chapter 6). RADIO_CHANGED is raised where
the event ends (`closeEvent`, R106). -/

namespace Sys2Proof.Machine

/-! ### Fixed times (chapter 6), in milliseconds -/

def startTime : Nat := 20000
def silenceTime : Nat := 3000
def recoverTime : Nat := 2000
def detachTime : Nat := 5000
def answerTime : Nat := 30000
def retryTime : Nat := 10000
def reattemptTime : Nat := 120000
def acceptTime : Nat := 200

/-- The part with the radio link controller's state replaced. -/
def Part.withRadio (p : Part) (r : Radio) : Part := { p with radio := r }

/-! ### Codes (chapter 1, Layouts; R119, R131, R132) -/

/-- Status page code of a module state. -/
def Module.code : Module → Byte
  | .absent => 0
  | .off => 1
  | .starting => 2
  | .idle => 3
  | .attaching => 4
  | .attached => 5
  | .detaching => 6
  | .recovering => 7

/-- Result code of a failure reason; 5 is module lost (R131). -/
def Failure.code : Failure → Byte
  | .noAnswer => 0
  | .noCoverage => 1
  | .denied => 2
  | .busy => 3
  | .moduleError => 4

/-- The reason an ATTACH_FAIL names; one outside 1 to 4 is MODULE_ERROR (R119). -/
def failureOfByte (b : Byte) : Failure :=
  match b.toNat with
  | 1 => .noCoverage
  | 2 => .denied
  | 3 => .busy
  | _ => .moduleError

/-- The cause a DETACHED names; one outside 1 to 3 is NETWORK (R119). -/
def causeOfByte (b : Byte) : DetachCause :=
  match b.toNat with
  | 1 => .requested
  | 3 => .coverage
  | _ => .network

/-- Code of the last detach cause, 0 for none (R132). -/
def causeCode : Option DetachCause → Byte
  | none => 0
  | some .requested => 1
  | some .network => 2
  | some .coverage => 3

/-! ### Where messages are received (R106, R109) -/

/-- The module state receives inbound messages. -/
def Module.receives : Module → Bool
  | .starting | .idle | .attaching | .attached | .detaching => true
  | _ => false

/-- The silence timer runs in this module state. -/
def Module.listens : Module → Bool
  | .idle | .attaching | .attached | .detaching => true
  | _ => false

/-- A message that passed its checks restarts the silence timer where it runs (R109). -/
def heard (p : Part) : Part :=
  if p.radio.state.listens then p.withRadio { p.radio with silence := p.after silenceTime } else p

/-! ### Results of the timed commands (R131, R132) -/

/-- Result data of RADIO_ATTACH: byte 0, the attempts, then service id, grant and buffer count where it
ended with DONE, and the firmware id. -/
def attachData (first : Byte) (done : Bool) (r : Radio) : List Byte :=
  [first, BitVec.ofNat 8 r.attempts] ++
    (if done then leBytes 4 r.serviceId.toNat ++ leBytes 2 r.grant.toNat ++ [r.buffers]
     else List.replicate 7 0) ++
    leBytes 4 r.firmware.toNat

/-- Result data of RADIO_DETACH: the module state and the last detach cause. -/
def detachData (r : Radio) : List Byte := [r.state.code, causeCode r.lastDetach]

/-- A RADIO_ATTACH in execution ends (R131). -/
def endAttach (result first : Byte) (p : Part) : Part :=
  if p.command.running = some .radioAttach then
    finish result (attachData first (result = Result.done) p.radio) p
  else p

/-- A RADIO_DETACH in execution ends (R132). -/
def endDetach (result : Byte) (p : Part) : Part :=
  if p.command.running = some .radioDetach then finish result (detachData p.radio) p else p

/-! ### The attach series (R114 to R116) -/

/-- A message in transfer no longer owes the answer timer: its attempt is over (R116). -/
def Transfer.noAnswer (t : Transfer) : Transfer :=
  { t with owes := match t.owes with
      | .answer => .nothing
      | o => o }

/-- The series ends: phase NONE, its timers cancelled, a pending ATTACH_REQ withdrawn; the attempt
count stands (R111, R113, R116). -/
def Radio.endSeries (r : Radio) : Radio :=
  { r with
    phase := .none, answer := none, retry := none, lane := r.lane.map Transfer.noAnswer,
    control := match r.control with
      | some (.attachReq _) => none
      | c => c }

/-- An attempt's ATTACH_REQ is placed (R114). -/
def Radio.placeAttach (attempts : Nat) (r : Radio) : Radio :=
  { r with
    attempts := attempts, control := some (.attachReq r.settings.profile), phase := .pending,
    retry := none }

/-- An attach series starts (R114). -/
def startSeries (p : Part) : Part :=
  p.withRadio { p.radio.placeAttach 1 with state := .attaching, reattempt := none }

/-- A failed attempt: a retry wait, or the end of the series with the re-attempt wait, which ends a
RADIO_ATTACH in execution (R116). -/
def failAttempt (why : Failure) (p : Part) : Part :=
  let r := { p.radio with
    lastFailure := why, answer := none, lane := p.radio.lane.map Transfer.noAnswer }
  if r.attempts ≤ r.settings.retryCount ∧ r.demand then
    p.withRadio { r with phase := .retryWait, retry := p.after retryTime }
  else if r.demand then
    endAttach Result.failed why.code
      (p.withRadio { r.endSeries with state := .idle, reattempt := p.after reattemptTime })
  else p.withRadio { r.endSeries with state := .idle }

/-! ### The module leaves and enters ATTACHED (R111, R170, R171) -/

/-- What a radio loss discards: the outstanding list and every class queue, with RADIO_LOST; a pending
DETACH_REQ is withdrawn (R111, R118, R171). -/
def radioLoss (p : Part) : Part :=
  let q := discardQueues .radioLost classes (discardOutstanding .radioLost p)
  q.withRadio { q.radio with control := none }

/-- The module has left ATTACHED: shed status is reset, and the path controller takes it (R171, R75). -/
def leftAttached (p : Part) : Part :=
  pathDetached { p with relay := { p.relay with shed := PerClass.ofFn fun _ => false } }

/-- What every entry to ABSENT, RECOVERING or STARTING does; the message in transfer is cut except on
entry to STARTING (R111). -/
def enterEffects (new : Module) (p : Part) : Part :=
  let q := discardOutstanding .radioLost p
  let r := q.radio.endSeries
  q.withRadio { r with
    control := none, reattempt := none, detach := none, silence := none, start := none,
    recover := none, timeouts := 0, lane := if new = .starting then r.lane else none }

/-- The module state becomes `new`, with the power line and the timer the state starts (R106, R107,
R110, R117). -/
def Radio.move (new : Module) (now : Nat) (r : Radio) : Radio :=
  match new with
  | .absent => { r with state := .absent, rpwr := false }
  | .recovering =>
    { r with state := .recovering, rpwr := false, recover := some (now + recoverTime) }
  | .starting => { r with state := .starting, rpwr := true, start := some (now + startTime) }
  | .detaching => { r with state := .detaching, detach := some (now + detachTime) }
  | m => { r with state := m }

/-- ABSENT, RECOVERING and STARTING: the entries R111 speaks of. -/
def Module.restarts : Module → Bool
  | .absent | .recovering | .starting => true
  | _ => false

/-- The module moves to `new`. Leaving ATTACHED for any state but DETACHING is a radio loss (R111); a
RADIO_ATTACH in execution fails at ABSENT and RECOVERING (R131). -/
def moduleTo (new : Module) (p : Part) : Part :=
  let lost := p.attached && !(new = .detaching)
  let p1 := if lost then radioLoss p else p
  let p2 := if new.restarts then enterEffects new p1 else p1
  let p3 := p2.withRadio (p2.radio.move new p2.clock.now)
  let p4 := if p.attached then leftAttached p3 else p3
  if new = .absent ∨ new = .recovering then endAttach Result.failed 5 p4 else p4

/-! ### Radio demand (R112, R113) -/

/-- At least one of the wants of R112 holds. -/
def Part.wants (p : Part) : Bool :=
  p.radio.settings.hot || p.radio.manualHold || !(p.path.service = .fibre) ||
    p.path.effective = .radio || p.path.verdict = .warn || p.path.verdict = .bad

/-- Demand and its linger timer after an event (R112). -/
def demandAfter (p : Part) : Radio :=
  let r := p.radio
  if p.wants then { r with demand := true, linger := none }
  else if r.demand ∧ r.linger = none then
    if r.settings.linger = 0 then { r with demand := false }
    else { r with linger := p.after (r.settings.linger * 1000) }
  else r

/-- Demand acts on the module state by the table of R113. -/
def demandActs (p : Part) : Part :=
  let r := p.radio
  if r.demand then
    match r.state with
    | .idle => if r.reattempt = none then startSeries p else p
    | .attached =>
      if r.control = some (.detachReq false) then p.withRadio { r with control := none } else p
    | _ => p
  else
    match r.state with
    | .idle => p.withRadio { r with reattempt := none }
    | .attaching =>
      match r.phase with
      | .awaiting => p
      | _ => p.withRadio { r.endSeries with state := .idle, reattempt := none }
    | .attached =>
      if r.control = none then p.withRadio { r with control := some (.detachReq false) } else p
    | _ => p

/-- Radio demand is re-examined (R112, R113). -/
def reviewDemand (p : Part) : Part := demandActs (p.withRadio (demandAfter p))

/-- A forced DETACH_REQ still pending is withdrawn in RADIO, PROVING and FORCED_RADIO, and the
RADIO_DETACH in execution fails (R132). -/
def reviewForced (p : Part) : Part :=
  if p.radio.control = some (.detachReq true) ∧
      (p.path.service = .radio ∨ p.path.service = .proving ∨ p.path.service = .forcedRadio) then
    endDetach Result.failed (p.withRadio { p.radio with control := none })
  else p

end Sys2Proof.Machine
end

