-- ==== Sys2Proof/Machine/RelayOps.lean ====
section
/-! DEFINITION. Pacing, shedding and the start of a send (chapter 8), and the starts of control
messages on the outbound lane (chapter 6). -/

namespace Sys2Proof.Machine

/-- The top of the pacing credit in bits (R167). -/
def Relay.top (r : Relay) : Nat := 8 * r.depth

/-- The cost of a frame in bits: eight times its length plus 36 bytes (R169). -/
def cost (f : Frame) : Nat := 8 * (f.bytes.length + 36)

/-- A frame's age at millisecond `now` (R163). -/
def Frame.age (f : Frame) (now : Nat) : Nat := now - f.enqueued

/-! ### Shedding (R164 to R166) -/

/-- Shed status of a class after a grant, from its status before (R164). -/
def shedAfter (grant : Nat) (c : ServiceClass) (was : Bool) : Bool :=
  match c with
  | .bulk => if was then grant < 1536 else grant < 1024
  | .interactive => if was then grant < 384 else grant < 256
  | _ => was

/-- The shedding table applied to the grant in force: a class that becomes shed loses its queue, and the
changes are handed to the path controller (R164 to R166). -/
def applyShedding (p : Part) : Part :=
  let was := p.relay.shed
  let new := PerClass.ofFn fun c => shedAfter p.radio.grant.toNat c (was.get c)
  let q := { p with relay := { p.relay with shed := new } }
  pathShed was (discardQueues .shed (classes.filter fun c => new.get c && !was.get c) q)

/-! ### The candidate and its conditions (R172, R173) -/

/-- The candidate: the head of the first class whose path word is RADIO or HOLD and whose queue is not
empty (R172). -/
def Part.candidate (p : Part) : Option Frame :=
  (classes.findSome? fun c =>
    match (p.path.classes.get c).word with
    | .radio | .hold => (p.relay.queues.get c).head?
    | _ => none)

/-- The send conditions of the candidate `f` (R173, R124). -/
def Part.maySend (p : Part) (f : Frame) : Bool :=
  p.attached && p.radio.lane.isNone && p.radio.control.isNone &&
    p.radio.outstanding.length < min 4 p.radio.buffers.toNat &&
    f.age p.clock.now < p.relay.ages.get f.cls && cost f ≤ p.relay.credit

/-- The DATA_UP message of a frame (R125). -/
def dataUp (serviceId : BitVec 32) (link carriage : BitVec 16) (f : Frame) : List Byte :=
  message Type.dataUp link
    (carriagePayload
      { serviceId := serviceId, cls := BitVec.ofNat 8 (classNumber f.cls), sequence := carriage }
      f.bytes)

/-- The candidate's transfer starts (R175, R125, R126, R176). -/
def startDataUp (f : Frame) (p : Part) : Part :=
  let c := f.cls
  let seq := p.relay.nextSeq.get c
  let link := p.radio.linkSeq
  let bytes := dataUp p.radio.serviceId link seq f
  let sending (e : Entry) : Entry := { e.move .sending with carriage := seq }
  let q := mark f.parts sending (setQueue c (p.relay.queues.get c).tail p)
  { q with
    relay := { q.relay with
      credit := q.relay.credit - cost f, nextSeq := q.relay.nextSeq.set c (seq + 1) }
    radio := { q.radio with
      outstanding := q.radio.outstanding ++ [{ frame := f, carriage := seq, link := link, accept := none }]
      lane := some { bytes := bytes, owes := .accept link, ends := transferEnds q.clock.now bytes }
      linkSeq := link + 1 } }

/-- The send conditions are examined: the candidate starts if they all hold (R173, R174). -/
def trySend (p : Part) : Part :=
  match p.candidate with
  | some f => if p.maySend f then startDataUp f p else p
  | none => p

/-! ### The outbound lane (R124) -/

/-- An ATTACH_REQ begins its transfer: phase AWAITING (R114, R125). -/
def startAttachReq (profile : Nat) (p : Part) : Part :=
  let r := p.radio
  let bytes := message Type.attachReq r.linkSeq [BitVec.ofNat 8 profile]
  p.withRadio { r with
    lane := some { bytes := bytes, owes := .answer, ends := transferEnds p.clock.now bytes }
    linkSeq := r.linkSeq + 1, control := none, phase := .awaiting }

/-- A DETACH_REQ begins its transfer: the module leaves ATTACHED for DETACHING, a requested detach
(R117, R125). -/
def startDetachReq (p : Part) : Part :=
  let r := p.radio
  let bytes := message Type.detachReq r.linkSeq []
  moduleTo .detaching
    (p.withRadio { r with
      lane := some { bytes := bytes, owes := .nothing, ends := transferEnds p.clock.now bytes }
      linkSeq := r.linkSeq + 1, control := none })

end Sys2Proof.Machine
end

