-- ==== Sys2Proof/Machine/Event.lean ====
section
/-! DEFINITION. How an event ends: what the other blocks do, in the same event, with what it left (R75,
R81, R91, R106, R112, R124, R132, R174; log 15). -/

namespace Sys2Proof.Machine

/-- The automatic restart run after an event: it runs while the restart interval is not 0, no restart
window is active, the service state is RADIO and the verdict BAD, and begins when that comes about
(R47). -/
def reviewRun (p : Part) : Part :=
  let o := p.optical
  let run :=
    if p.path.service = .radio ∧ p.isBad ∧ o.window = .none ∧ o.settings.interval ≠ 0 then
      some (o.run.getD p.clock.now)
    else none
  { p with optical := { o with run := run } }

/-- What follows from a change of service state, verdict, module state or settings: the withdrawal of
R132, radio demand (R112, R113), and the automatic restart run (R47). -/
def settle (p : Part) : Part := reviewRun (reviewDemand (reviewForced p))

/-- The outbound lane, where it is free, takes the pending control message, or else the candidate frame
(R124, R174). -/
def takeLane (p : Part) : Part :=
  if p.radio.lane.isSome then p
  else
    match p.radio.control with
    | some (.attachReq profile) =>
      if p.radio.state = .attaching then startAttachReq profile p else p
    | some (.detachReq _) => if p.attached then settle (startDetachReq p) else p
    | none => trySend p

/-- A RADIO_DETACH in execution ends with DONE when the module has left ATTACHED (R132). -/
def reviewDetach (p : Part) : Part := if p.attached then p else endDetach Result.done p

/-- The host-visible part of a path record: word and reason (R81). -/
def ClassPath.shown (c : ClassPath) : PathWord × PathReason := (c.word, c.reason)

/-- The event changed the service state, or a path word or reason (R81). -/
def pathMoved (before after : Path) : Bool :=
  before.service != after.service ||
    classes.any fun c => (before.classes.get c).shown != (after.classes.get c).shown

/-- PATH_CHANGED and RADIO_CHANGED are raised for what the event changed (R81, R106). -/
def noteChanges (before p : Part) : Part :=
  raiseIf (before.radio.state != p.radio.state) .radioChanged
    (raiseIf (pathMoved before.path p.path) .pathChanged p)

/-- The end of an event that began at `before` and whose own rule left `p`. -/
def closeEvent (before p : Part) : Part :=
  noteChanges before (reviewDetach (takeLane (settle (returnDrained p))))

/-- An event whose own rule is `f`. -/
def event (f : Part → Part) (p : Part) : Part := closeEvent p (f p)

/-- The outcome of a command that does `f` to the part. -/
def act (f : Part → Part) (s : State) : Host.Outcome State Fault Refusal :=
  .next { s with part := f s.part }

end Sys2Proof.Machine
end

