-- ==== Sys2Proof/Machine/HealthOps.lean ====
section
/-! DEFINITION. The transitions of the health unit (chapter 4). -/

namespace Sys2Proof.Machine

/-- The part with the health unit's state replaced. -/
def Part.withHealth (p : Part) (h : Health) : Part := { p with health := h }

/-! ### Verdict (R67 to R70) -/

/-- Verdict and causes of a set of live conditions (R67). -/
def verdictOf (live : Conditions) : Verdict × Conditions :=
  if live &&& badSet ≠ 0 then (.bad, live &&& badSet)
  else if live &&& warnSet ≠ 0 then (.warn, live &&& warnSet)
  else (.good, 0)

/-- The verdict is evaluated over the live conditions unless the hold is on; a new verdict or new
causes are handed on, and a new verdict raises VERDICT_CHANGED (R68 to R70). -/
def evaluate (p : Part) : Part :=
  let h := p.health
  let v := verdictOf h.live
  if h.hold ∨ (v.1 = h.verdict ∧ v.2 = h.causes) then p
  else
    let q := raiseIf (v.1 != h.verdict) .verdictChanged
      (p.withHealth { h with verdict := v.1, causes := v.2 })
    takeVerdict p.isBad (p.path.causes.has .los)
      { q with path := { q.path with verdict := v.1, causes := v.2 } }

/-! ### Live conditions and latches (R64, R65) -/

/-- The conditions of `s` that may be latched: those of the latch mask, less the four that a restart
window keeps from latching (R64, R65). -/
def Health.latchable (h : Health) (s : Conditions) : Conditions :=
  s &&& h.settings.latchMask &&& (if h.hold then ~~~suppressedSet else BitVec.allOnes 12)

/-- The live conditions become `live`; those that became set are latched, and LATCHED is raised if a
latched copy was clear (R64, R65). -/
def setLive (live : Conditions) (p : Part) : Part :=
  let h := p.health
  let new := h.latchable (live &&& ~~~h.live)
  raiseIf (new &&& ~~~h.latched != 0) .latched
    (p.withHealth { h with live := live, latched := h.latched ||| new })

/-- An event that leaves the live conditions at `live` and evaluates the verdict. -/
def conditionsTo (live : Conditions) (p : Part) : Part := evaluate (setLive live p)

/-- As `conditionsTo`, with no evaluation where no condition changes (R63, R68). -/
def conditionsChange (live : Conditions) (p : Part) : Part :=
  if live = p.health.live then p else conditionsTo live p

/-! ### Measures (R54 to R58) -/

/-- Whole degrees of a temperature value, clamped (R54). -/
def wholeDegrees (t : BitVec 16) : Int := max (-40) (min 100 (t.toInt / 256))

/-- Temperature band of a whole-degree temperature (R54). -/
def band (whole : Int) : Nat := ((whole + 40) / 20).toNat

/-- Corrected receive power (R55). -/
def correct (raw factor : Nat) : Nat := min 65535 (raw * factor / 128)

/-- The filtered receive power moved toward a sample by the difference divided by 2^k, truncated toward
zero (R56). -/
def smooth (k filtered sample : Nat) : Nat :=
  ((filtered : Int) + ((sample : Int) - (filtered : Int)).tdiv ((2 : Int) ^ k)).toNat

/-- A condition with hysteresis: it sets at `sets`, clears at `clears`, and otherwise keeps its value
(R57, R58). -/
def hysteresis (c : Condition) (sets clears : Bool) (s : Conditions) : Conditions :=
  if s.has c then (if clears then s.put c false else s) else if sets then s.put c true else s

/-- The four receive-power conditions against a filtered value (R57). -/
def powerConditions (st : HealthSettings) (f : Nat) (s : Conditions) : Conditions :=
  hysteresis .rxHighAlarm (st.alarmHigh < f) (f ≤ st.alarmHigh - st.alarmHigh / 16)
    (hysteresis .rxHighWarn (st.warnHigh < f) (f ≤ st.warnHigh - st.warnHigh / 16)
      (hysteresis .rxLowWarn (f < st.warnLow) (st.warnLow + st.warnLow / 16 ≤ f)
        (hysteresis .rxLowAlarm (f < st.alarmLow) (st.alarmLow + st.alarmLow / 16 ≤ f) s)))

/-- TEMP_HIGH against a whole-degree temperature (R58). -/
def tempCondition (st : HealthSettings) (t : Int) (s : Conditions) : Conditions :=
  hysteresis .tempHigh ((st.tempHigh : Int) < t) (t ≤ (st.tempHigh : Int) - 3) s

/-- The mark of a sample (R37). -/
inductive Mark where
  | raw | seed | filter
deriving DecidableEq, Repr

/-- A completed sample is handled in the stages of R53; `live` is what the event has made of the live
conditions so far (R38). -/
def takeSample (m : Mark) (live : Conditions) (p : Part) : Part :=
  let h := p.health
  let o := p.optical
  let whole := wholeDegrees o.temperature
  let sample := correct o.rxPower.toNat (o.settings.factors.getD (band whole) 0)
  let filter : Option Nat :=
    match m, h.filter with
    | .raw, f => f
    | .filter, some f => some (smooth o.settings.shift f sample)
    | _, _ => some sample
  let live1 :=
    match m, filter with
    | .raw, _ => live
    | _, some f => powerConditions h.settings f live
    | _, none => live
  conditionsTo (tempCondition h.settings whole live1)
    (p.withHealth { h with lastTemp := some whole, corrected := sample, filter := filter })

/-! ### Staleness timer (R61 to R63) -/

/-- The active time that has passed since the timer was last armed or restarted. -/
def Staleness.passed (s : Staleness) (now : Nat) : Nat :=
  match s with
  | .disarmed => 0
  | .running since => now - since
  | .paused n => n

/-- Remaining milliseconds, 0 while disarmed (R61, R72). -/
def Health.staleRemaining (h : Health) (now : Nat) : Nat :=
  match h.stale with
  | .disarmed => 0
  | s => h.settings.reportTimeout - s.passed now

/-- The channel state leaves ACTIVE for POWER_DOWN or SELF_REFRESH (R62). -/
def Staleness.pause (s : Staleness) (now : Nat) : Staleness :=
  match s with
  | .running since => .paused (now - since)
  | s => s

/-- The channel state returns to ACTIVE (R62). -/
def Staleness.resume (s : Staleness) (now : Nat) : Staleness :=
  match s with
  | .paused n => .running (now - n)
  | s => s

/-- The part with its staleness timer replaced. -/
def Part.withStale (p : Part) (s : Staleness) : Part := p.withHealth { p.health with stale := s }

/-- The four conditions a channel reset clears (R63). -/
def clearReports (s : Conditions) : Conditions :=
  (((s.put .syncLost false).put .errBad false).put .errWarn false).put .reportStale false

end Sys2Proof.Machine
end

