-- ==== Sys2Proof/Machine/WindowOps.lean ====
section
/-! DEFINITION. The window table: regions, and the checks all DEFINE commands share (R13 to R17). -/

namespace Sys2Proof.Machine

/-- Channel address of the anchor block (R13). -/
def Windows.anchor (w : Windows) : Nat := 0x7000 + w.strap.toNat * 0x04000000

/-- The anchor block as a region (R13). -/
def Windows.anchorBlock (w : Windows) : Window := { base := w.anchor, size := 4096 }

/-- The byte address lies inside the window. -/
def Window.covers (w : Window) (a : Nat) : Bool := w.base ≤ a ∧ a < w.size + w.base

/-- Two windows share a byte. -/
def Window.overlaps (a b : Window) : Bool := a.base < b.size + b.base ∧ b.base < a.size + a.base

/-- The delivery ring and area as windows (R14). -/
def DeliveryDef.ringWindow (d : DeliveryDef) : Window := { base := d.ring, size := 512 }
def DeliveryDef.areaWindow (d : DeliveryDef) : Window := { base := d.area, size := 49152 }

/-- The capture windows that are defined. -/
def Windows.defined (w : Windows) : List Window := w.captures.filterMap id

/-- The ring and area, where delivery is defined. -/
def Windows.deliveryWindows (w : Windows) : List Window :=
  match w.delivery with
  | none => []
  | some d => [d.ringWindow, d.areaWindow]

/-- Every region of the table: the anchor block and the defined windows (R14). -/
def Windows.regions (w : Windows) : List Window :=
  w.anchorBlock :: (w.uplink.toList ++ w.defined ++ w.deliveryWindows)

/-- The base is a multiple of 32 and the window lies inside the channel address space (R15). -/
def Window.placed (w : Window) : Bool := w.base % 32 = 0 ∧ w.size + w.base ≤ 0x40000000

/-- No two windows of the list share a byte. -/
def disjoint : List Window → Bool
  | [] => true
  | w :: ws => ws.all (fun v => !w.overlaps v) && disjoint ws

/-- The checks of R15 on the extents `new` a command declares, where `others` are the regions of the
table as it would stand without them: each is placed, shares no byte with another region, and none
with another new extent. -/
def accepts (others new : List Window) : Bool :=
  new.all Window.placed && new.all (fun n => others.all fun v => !n.overlaps v) && disjoint new

/-- What a line address means to the part (R13, R14, R17). -/
inductive Region where
  | status (line : Nat)
  | header | parameters | acknowledge | report
  | uplink (line : Nat)
  | capture
  | ring (line : Nat)
  | area (line : Nat)
  | plain
deriving DecidableEq, Repr

/-- The line of the window that the line address lies in. -/
def Window.line (w : Window) (a : Nat) : Nat := (a - w.base) / 32

/-- The region of the anchor block at an offset (R13). -/
def anchorRegion (offset : Nat) : Region :=
  if offset < 0x100 then .status (offset / 32)
  else if offset = headerOffset then .header
  else if offset = parameterOffset then .parameters
  else if offset = acknowledgeOffset then .acknowledge
  else if offset = reportOffset then .report
  else .plain

/-- The line address `a` lies in the optional window `w`. -/
def coveredBy (w : Option Window) (a : Nat) : Bool := w.any fun v => v.covers a

/-- A byte address lies inside the capture windows taken together (R146). -/
def Windows.captured (w : Windows) (a : Nat) : Bool := w.defined.any fun v => v.covers a

/-- Classification of a line address (R17). -/
def Windows.classify (w : Windows) (a : Nat) : Region :=
  if w.anchorBlock.covers a then anchorRegion (a - w.anchor)
  else if coveredBy w.uplink a then .uplink ((w.uplink.map fun v => v.line a).getD 0)
  else if w.captured a then .capture
  else
    match w.delivery with
    | none => .plain
    | some d =>
      if d.ringWindow.covers a then .ring (d.ringWindow.line a)
      else if d.areaWindow.covers a then .area (d.areaWindow.line a)
      else .plain

end Sys2Proof.Machine
end

