-- ==== Sys2Proof/Machine/DeliveryOps.lean ====
section
/-! DEFINITION. The delivery unit: taking a DATA_DOWN, releases, reads, and DEFINE_DELIVERY
(chapter 9). -/

namespace Sys2Proof.Machine

/-- The part with the delivery unit's state replaced. -/
def Part.withDelivery (p : Part) (d : Delivery) : Part := { p with delivery := d }

/-- Slot `n`, EMPTY past the end. -/
def Delivery.slot (d : Delivery) (n : Nat) : Option Slot := d.slots.getD n none

/-! ### Taking a DATA_DOWN (R186 to R191) -/

/-- The sequence check: the expected sequence afterward and the frames missed (R187). -/
def sequenceCheck (expected : Option (BitVec 16)) (seq : BitVec 16) : BitVec 16 × Nat :=
  match expected with
  | none => (seq + 1, 0)
  | some e =>
    let d := (seq - e).toNat
    if d ≤ 32767 then (seq + 1, d) else (e, 0)

/-- The sequence check made for a frame of class `c`, with its count (R187). -/
def checkSequence (c : ServiceClass) (seq : BitVec 16) (p : Part) : Part :=
  let r := sequenceCheck (p.delivery.expected.get c) seq
  count .downlinkGaps r.2
    (p.withDelivery { p.delivery with expected := p.delivery.expected.set c (some r.1) })

/-- A frame is placed in the slot at the fill index, or dropped as an overrun where that slot is READY
or delivery is undefined (R188 to R191). -/
def placeFrame (c : ServiceClass) (seq : BitVec 16) (frame : List Byte) (p : Part) : Part :=
  let d := p.delivery
  if p.windows.delivery.isNone ∨ (d.slot d.fill).isSome then
    raise .dataLoss (count .deliveryOverruns 1 p)
  else
    let slot : Slot := { cls := c, bytes := frame, carriage := seq, number := d.number }
    raiseIf (p.channel.state = .selfRefresh) .wake
      (raise .downlinkReady
        (count .framesDelivered 1
          (p.withDelivery
            { d with slots := d.slots.set d.fill (some slot), fill := (d.fill + 1) % 32,
                     number := d.number + 1 })))

/-- A DATA_DOWN handed to the delivery unit (R186). -/
def takeDown (h : Carriage) (frame : List Byte) (p : Part) : Part :=
  if !p.attached || frame.isEmpty then count .linkErrors 1 p
  else
    placeFrame (classOfByte h.cls) h.sequence frame
      (checkSequence (classOfByte h.cls) h.sequence p)

/-- The module has entered ATTACHED: every expected sequence is unknown (R194). -/
def forgetSequences (p : Part) : Part :=
  p.withDelivery { p.delivery with expected := PerClass.ofFn fun _ => none }

/-! ### Releases (R192, R193) -/

/-- Slot `n` is released when its release byte is carried and holds 1 (R192, R193). -/
def releaseSlot (n : Nat) (b : Lane) (d : Delivery) : Delivery :=
  if b = some 1 then { d with slots := d.slots.set n none } else d

/-- A write line access to line `m` of the delivery ring (R192). -/
def writeRing (m : Nat) (ls : List Lane) (p : Part) : Part :=
  p.withDelivery
    (releaseSlot (2 * m + 1) (lane ls 24) (releaseSlot (2 * m) (lane ls 8) p.delivery))

/-! ### Reads (R21, R184) -/

/-- The descriptor of a slot (R184). -/
def slotDescriptor : Option Slot → List Byte
  | none => List.replicate 16 0
  | some s =>
    [1, BitVec.ofNat 8 (classNumber s.cls)] ++ leBytes 2 s.bytes.length ++
      leBytes 2 s.carriage.toNat ++ leBytes 2 s.number.toNat ++ List.replicate 8 0

/-- A substituted line of the delivery ring. -/
def ringLine (d : Delivery) (m : Nat) : List Byte :=
  slotDescriptor (d.slot (2 * m)) ++ slotDescriptor (d.slot (2 * m + 1))

/-- A substituted line of the delivery area: line `k` holds bytes of slot `k div 48` (R184). -/
def areaLine (d : Delivery) (k : Nat) : List Byte :=
  match d.slot (k / 48) with
  | none => List.replicate 32 0
  | some s => slice s.bytes (k % 48 * 32) 32

/-! ### DEFINE_DELIVERY (R195, R196) -/

/-- The READY slots. -/
def Delivery.ready (d : Delivery) : Nat := (d.slots.filter Option.isSome).length

/-- DEFINE_DELIVERY takes effect: the table takes or loses the ring and area, every READY slot is
discarded as an overrun, and the fill index is 0 (R196). -/
def redefineDelivery (w : Option DeliveryDef) (p : Part) : Part :=
  let n := p.delivery.ready
  finish Result.done [BitVec.ofNat 8 n]
    (raiseIf (n != 0) .dataLoss
      (count .deliveryOverruns n
        { p with
          windows := { p.windows with delivery := w }
          delivery := { p.delivery with slots := List.replicate 32 none, fill := 0 } }))

/-- DEFINE_DELIVERY (R195, R196). -/
def doDefineDelivery (ps : List Byte) (p : Part) : Part :=
  let d : DeliveryDef := { ring := param32 ps 0, area := param32 ps 4 }
  match param8 ps 8 with
  | 0 =>
    if accepts ({ p.windows with delivery := none }).regions [d.ringWindow, d.areaWindow] then
      redefineDelivery (some d) p
    else finish Result.paramError [] p
  | 1 => redefineDelivery none p
  | _ => finish Result.paramError [] p

end Sys2Proof.Machine
end

