-- ==== Sys2Proof/Machine/OpticalOps.lean ====
section
/-! DEFINITION. The optical monitor: polls, the presence and loss-of-signal lines, restart windows, and
the commands SET_OPTICS and FIBRE_RESTART (chapter 3). -/

namespace Sys2Proof.Machine

/-- The part with the optical monitor's state replaced. -/
def Part.withOptical (p : Part) (o : Optical) : Part := { p with optical := o }

/-! ### Polls (R34 to R39) -/

/-- The address byte of an I2C transaction: the 7-bit address and the direction, 1 for read (R35). -/
def addressByte (address : Byte) (read : Bool) : Byte :=
  (address <<< 1) ||| (if read then 1 else 0)

/-- An attempt begins: start condition and address with the write direction (R35). -/
def attemptBegins (st : OpticalSettings) : List BusSymbol :=
  [.start, .send (addressByte st.address false)]

/-- What follows in an attempt that every acknowledgement meets: offset, repeated start, address with the
read direction, ten bytes of which the last is not acknowledged, stop (R35). -/
def attemptAnswered (st : OpticalSettings) : List BusSymbol :=
  [.send st.offset, .start, .send (addressByte st.address true)] ++
    List.replicate 9 (.receive true) ++ [.receive false, .stop]

/-- What follows in an attempt that ends after `reached` symbols more, the last byte not read (R35). -/
def attemptCut (st : OpticalSettings) (reached : Nat) : List BusSymbol :=
  (attemptAnswered st).take (min reached 12)

/-- What follows in an attempt left unanswered (R35). -/
def attemptUnanswered (st : OpticalSettings) : Unanswered → List BusSymbol
  | .addressWrite => [.stop]
  | .offset => [.send st.offset, .stop]
  | .addressRead => [.send st.offset, .start, .send (addressByte st.address true), .stop]
  | .timeout reached => attemptCut st reached ++ [.stop]
  | .stuck reached pulses => attemptCut st reached ++ List.replicate (min pulses 9) .pulse ++ [.stop]

/-- A poll starts, with `before` on the bus in the same event: its first attempt begins, and the next start is
one period later (R34). -/
def startPollAfter (before : List BusSymbol) (p : Part) : Part :=
  let o := p.optical
  p.withOptical { o with
    poll := .firstAttempt, began := p.clock.now, nextPoll := p.after o.settings.period,
    bus := before ++ attemptBegins o.settings }

/-- A poll starts (R34). -/
def startPoll (p : Part) : Part := startPollAfter [] p

/-- A poll in flight is abandoned with a stop condition (R40, R50); how far its attempt had got is a free value
(log 28). -/
def Optical.abandon (now : Nat) (o : Optical) : Optical :=
  if o.poll = .waiting then o
  else { o with
    poll := .waiting, bus := o.bus ++ attemptCut o.settings (Config.busReached now) ++ [.stop] }

/-- The mark of a sample that completes now (R37). -/
def Optical.mark (o : Optical) : Mark :=
  if o.window ≠ .none then .raw else if o.seedPending then .seed else .filter

/-- The measurement set read: five 16-bit values, most significant byte first (R36). -/
def Optical.measured (o : Optical) (bytes : List Byte) : Optical :=
  let value (i : Nat) : BitVec 16 := BitVec.ofNat 16 (beNat (slice bytes i 2))
  { o with
    temperature := value 0, supply := value 2, bias := value 4, txPower := value 6,
    rxPower := value 8 }

/-- A poll completes (R38): its sample is marked and handed to the health unit. -/
def completePoll (bytes : List Byte) (p : Part) : Part :=
  let o := p.optical
  let q := p.withOptical
    { o.measured bytes with
      poll := .waiting, samples := satAdd o.samples 1, failures := 0,
      seedPending := o.seedPending && o.mark = .raw,
      bus := o.bus ++ attemptAnswered o.settings }
  takeSample o.mark (p.health.live.put .pollFail false) q

/-- The first attempt is unanswered and the second begins (R39). -/
def retryPoll (cause : Unanswered) (p : Part) : Part :=
  let o := p.optical
  p.withOptical { o with
    poll := .retry, began := p.clock.now,
    bus := o.bus ++ attemptUnanswered o.settings cause ++ attemptBegins o.settings }

/-- The second attempt is unanswered: the poll has failed (R39). -/
def failPoll (cause : Unanswered) (p : Part) : Part :=
  let o := p.optical
  let n := min 255 (o.failures + 1)
  conditionsChange (if 3 ≤ n then p.health.live.put .pollFail true else p.health.live)
    (p.withOptical { o with
      poll := .waiting, failures := n, bus := o.bus ++ attemptUnanswered o.settings cause })

/-! ### Presence and loss of signal (R40 to R42) -/

/-- A presence fall is taken (R40). -/
def presenceFalls (p : Part) : Part :=
  conditionsChange
    (((p.health.live.put .moduleAbsent true).put .pollFail false).put .los false)
    (p.withOptical { p.optical.abandon p.clock.now with present := false, nextPoll := none, failures := 0 })

/-- A presence rise is taken with the loss-of-signal line at `olos` (R41). -/
def presenceRises (olos : Bool) (p : Part) : Part :=
  conditionsChange ((p.health.live.put .moduleAbsent false).put .los olos)
    (p.withOptical { p.optical with
      present := true, seedPending := true, losLevel := olos,
      nextPoll := p.after p.optical.settings.period })

/-- A change of the loss-of-signal level is taken (R42, R37). -/
def losChanges (active : Bool) (p : Part) : Part :=
  conditionsChange (p.health.live.put .los active)
    (p.withOptical { p.optical with
      losLevel := active, seedPending := p.optical.seedPending || !active })

/-! ### Restart windows (R43, R44) -/

/-- A restart window begins: transmitter disabled, verdict held, automatic run stopped (R43, R44, R69). -/
def beginWindow (p : Part) : Part :=
  let o := p.optical
  { p with
    optical := { o with
      window := .txOff (p.clock.now + o.settings.offTime) o.settings.settleTime
      txDisable := true, run := none }
    health := { p.health with hold := true } }

/-- A restart window ends: seed pending is set, the hold goes off and the verdict is evaluated afresh
(R44, R69). -/
def endWindow (p : Part) : Part :=
  evaluate
    { p with
      optical := { p.optical with window := .none, seedPending := true }
      health := { p.health with hold := false } }

/-- TX_OFF ends: the line is released, SETTLING begins, and a FIBRE_RESTART in execution ends with DONE;
a settle time of 0 ends the window too (R43, R45). -/
def endTxOff (settle : Nat) (p : Part) : Part :=
  let q := p.withOptical { p.optical with
    txDisable := false, window := .settling (p.clock.now + settle) }
  let r := if settle = 0 then endWindow q else q
  if r.command.running = some .fibreRestart then finish Result.done [] r else r

/-- The automatic restart run expires: a window begins if the module is present, otherwise the run
begins again (R48). -/
def runExpires (p : Part) : Part :=
  if p.optical.present then beginWindow p
  else p.withOptical { p.optical with run := some p.clock.now }

/-- The run has expired at the interval in force (R48). -/
def Part.runDue (p : Part) : Bool :=
  match p.optical.run with
  | none => false
  | some t =>
    p.optical.settings.interval ≠ 0 && t + p.optical.settings.interval * 1000 ≤ p.clock.now

/-! ### Commands -/

/-- The settings a SET_OPTICS carries, in the order of its parameters (R49). -/
def opticalGiven (ps : List Byte) : List Nat :=
  [param8 ps 0, param8 ps 1, param16 ps 2, param8 ps 4] ++
    ((List.range 8).map fun i => param8 ps (5 + i)) ++
    [param16 ps 13, param16 ps 15, param16 ps 17]

/-- The settings taken after clamping (R49). -/
def opticalTaken (ps : List Byte) : OpticalSettings :=
  { address := BitVec.ofNat 8 (clampTo 0x08 0x77 (param8 ps 0))
    offset := BitVec.ofNat 8 (clampTo 0 245 (param8 ps 1))
    period := clampTo 100 1000 (param16 ps 2)
    shift := clampTo 0 4 (param8 ps 4)
    factors := (List.range 8).map fun i => clampTo 64 255 (param8 ps (5 + i))
    offTime := clampTo 100 2000 (param16 ps 13)
    settleTime := clampTo 0 10000 (param16 ps 15)
    interval := clampOrZero 60 3600 (param16 ps 17) }

/-- The settings as the numbers of SET_OPTICS's parameters. -/
def OpticalSettings.numbers (st : OpticalSettings) : List Nat :=
  [st.address.toNat, st.offset.toNat, st.period, st.shift] ++ st.factors ++
    [st.offTime, st.settleTime, st.interval]

/-- SET_OPTICS takes effect (R50). -/
def takeOptics (st : OpticalSettings) (p : Part) : Part :=
  let q := p.withOptical { p.optical.abandon p.clock.now with settings := st, seedPending := true }
  let r := if q.optical.present then startPollAfter (if p.optical.poll = .waiting then [] else q.optical.bus) q else q
  if r.runDue then runExpires r else r

/-- SET_OPTICS (R49, R50). -/
def doSetOptics (ps : List Byte) (p : Part) : Part :=
  let st := opticalTaken ps
  let clamp := clampMask (opticalGiven ps) st.numbers
  finish (doneCode clamp) [] (event (takeOptics st) (postClamp clamp p))

/-- FIBRE_RESTART is refused in this service state (R45). -/
def Service.refusesRestart : Service → Bool
  | .fibre | .suspect | .returning | .forcedFibre => true
  | _ => false

/-- FIBRE_RESTART (R45). -/
def doFibreRestart (p : Part) : Part :=
  if !p.optical.present ∨ p.optical.window ≠ .none ∨ p.path.service.refusesRestart then
    finish Result.stateError [] p
  else event (fun q => beginWindow (startTimed .fibreRestart q)) p

end Sys2Proof.Machine
end

