-- ==== Sys2Proof/Machine/HealthCommands.lean ====
section
/-! DEFINITION. Fibre reports, and the commands SET_THRESHOLDS and CLEAR_LATCHES (chapter 4). -/

namespace Sys2Proof.Machine

/-! ### Fibre reports (R59, R60) -/

/-- The errored-block conditions a report's count sets (R60). -/
def errorConditions (st : HealthSettings) (errored : Nat) (s : Conditions) : Conditions :=
  let bad : Bool := st.errBad ≠ 0 && st.errBad ≤ errored
  let warn : Bool := !bad && st.errWarn ≠ 0 && st.errWarn ≤ errored
  (s.put .errBad bad).put .errWarn warn

/-- What a taken report sets and latches, up to the evaluation of the verdict (R60). -/
def reported (outOfSync : Bool) (errored : Nat) (p : Part) : Part :=
  setLive
    (errorConditions p.health.settings errored
      ((p.health.live.put .syncLost outOfSync).put .reportStale false))
    (p.withStale (.running p.clock.now))

/-- A taken report (R60). -/
def takeReport (outOfSync : Bool) (errored : Nat) (p : Part) : Part :=
  evaluate (reported outOfSync errored p)

/-- The evaluation of an event in which the channel reset line cuts a report or a SET_THRESHOLDS short: the
one evaluation of the event, over the conditions as the reset that follows leaves them (R8, R63, R68). -/
def judgeReset (p : Part) : Part := conditionsTo (clearReports p.health.live) p

/-- A write to the fibre report line: a report, taken by `take`, when byte 0 is carried and holds 1 or 2 and
the report timeout is not 0 (R59). -/
def writeReportBy (take : Bool → Nat → Part → Part) (ls : List Lane) (p : Part) : Part :=
  let errored := leNat [(lane ls 2).getD 0, (lane ls 3).getD 0]
  if p.health.settings.reportTimeout = 0 then p
  else if lane ls 0 = some 1 then take false errored p
  else if lane ls 0 = some 2 then take true errored p
  else p

/-- A write to the fibre report line (R59, R60). -/
def writeReport (ls : List Lane) (p : Part) : Part :=
  writeReportBy (fun outOfSync errored => event (takeReport outOfSync errored)) ls p

/-- A write to the fibre report line that the channel reset line cuts short (R8). -/
def cutReport (ls : List Lane) (p : Part) : Part :=
  writeReportBy (fun outOfSync errored q => judgeReset (reported outOfSync errored q)) ls p

/-- The staleness timer expires (R61). -/
def staleExpires (p : Part) : Part :=
  conditionsTo (p.health.live.put .reportStale true) (p.withStale .disarmed)

/-- The staleness timer is running and nothing of it remains (R61). -/
def Part.staleDue (p : Part) : Bool :=
  match p.health.stale with
  | .running since => since + p.health.settings.reportTimeout ≤ p.clock.now
  | _ => false

/-! ### SET_THRESHOLDS (R71, R72) -/

/-- The settings taken after clamping (R71). -/
def healthTaken (ps : List Byte) : HealthSettings :=
  { alarmLow := param16 ps 0, warnLow := param16 ps 2, warnHigh := param16 ps 4,
    alarmHigh := param16 ps 6, tempHigh := clampTo 60 125 (param8 ps 8), errWarn := param16 ps 9,
    errBad := param16 ps 11, reportTimeout := clampOrZero 200 10000 (param16 ps 13),
    latchMask := BitVec.ofNat 12 (param16 ps 15) }

/-- The clamp mask of SET_THRESHOLDS: only temp_high and the report timeout have a range (R71). -/
def healthClamp (ps : List Byte) : BitVec 32 :=
  let st := healthTaken ps
  clampMask [0, 0, 0, 0, param8 ps 8, 0, 0, param16 ps 13]
    [0, 0, 0, 0, st.tempHigh, 0, 0, st.reportTimeout]

/-- The four receive-power thresholds rise strictly (R71). -/
def HealthSettings.rising (st : HealthSettings) : Bool :=
  st.alarmLow < st.warnLow && st.warnLow < st.warnHigh && st.warnHigh < st.alarmHigh

/-- The staleness timer and the report conditions under a new report timeout (R72, steps 4 and 5). -/
def restale (timeout now : Nat) (stale : Staleness) (s : Conditions) : Staleness × Conditions :=
  if timeout = 0 then (.disarmed, clearReports s)
  else
    match stale with
    | .disarmed => (.disarmed, s)
    | t => if timeout ≤ t.passed now then (.disarmed, s.put .reportStale true) else (t, s)

/-- What SET_THRESHOLDS sets and latches as it takes effect, up to the evaluation of the verdict (R72). -/
def thresholdsSet (st : HealthSettings) (p : Part) : Part :=
  let h := p.health
  let live1 := match h.filter with
    | some f => powerConditions st f h.live
    | none => h.live
  let live2 := match h.lastTemp with
    | some t => tempCondition st t live1
    | none => live1
  let r := restale st.reportTimeout p.clock.now h.stale live2
  setLive r.2 (p.withHealth { h with settings := st, stale := r.1 })

/-- SET_THRESHOLDS takes effect (R72). -/
def takeThresholds (st : HealthSettings) (p : Part) : Part := evaluate (thresholdsSet st p)

/-- SET_THRESHOLDS, its settings taken by `take` (R71). -/
def doSetThresholdsBy (take : HealthSettings → Part → Part) (ps : List Byte) (p : Part) : Part :=
  let st := healthTaken ps
  let clamp := healthClamp ps
  if st.rising then finish (doneCode clamp) [] (take st (postClamp clamp p))
  else finish Result.paramError [] (postClamp clamp p)

/-- SET_THRESHOLDS (R71, R72). -/
def doSetThresholds (ps : List Byte) (p : Part) : Part :=
  doSetThresholdsBy (fun st => event (takeThresholds st)) ps p

/-- SET_THRESHOLDS written by an access that the channel reset line cuts short (R8). -/
def cutSetThresholds (ps : List Byte) (p : Part) : Part :=
  doSetThresholdsBy (fun st q => judgeReset (thresholdsSet st q)) ps p

/-! ### CLEAR_LATCHES (R66) -/

/-- CLEAR_LATCHES (R66). -/
def doClearLatches (p : Part) : Part :=
  let h := p.health
  let again := h.latchable h.live
  finish Result.done [] (raiseIf (again != 0) .latched (p.withHealth { h with latched := again }))

end Sys2Proof.Machine
end

