-- ==== Sys2Proof/Machine/Uplink.lean ====
section
/-! DEFINITION. Uplink capture: the staging store, descriptor writes, frame formation, withdraws, and
the commands DEFINE_UPLINK and DEFINE_CAPTURE (chapter 7, R161, R162). -/

namespace Sys2Proof.Machine

/-- The part with uplink capture's state replaced. -/
def Part.withUplink (p : Part) (u : Uplink) : Part := { p with uplink := u }

/-! ### Staging store (R134 to R137) -/

/-- The entry of a line address. -/
def stagedAt (st : List Staged) (line : Nat) : Option Staged := st.find? fun e => e.line = line

/-- The lanes of an entry with a write merged in: each byte carried is stored and becomes valid (R135). -/
def mergeStaged (old new : List Lane) : List Lane :=
  (List.range 32).map fun i => (lane new i).or (lane old i)

/-- A write merged into the store: its entry, taken afresh where there is none, becomes rank 1 (R135).
The store is one entry longer when the line is new. -/
def stageLine (line : Nat) (lanes : List Lane) (st : List Staged) : List Staged :=
  { line := line, lanes := mergeStaged (((stagedAt st line).map Staged.lanes).getD []) lanes } ::
    st.filter fun e => e.line ≠ line

/-- A capture-window write: dropped where no capture window covers the line any more, without effect
where it carries no byte, and otherwise merged; a new line in a full store evicts the least recently
written entry (R135, R136). -/
def captureLine (line : Nat) (lanes : List Lane) (p : Part) : Part :=
  let st := p.uplink.staging
  if !p.windows.captured line || lanes.all Option.isNone then p
  else if (stagedAt st line).isNone ∧ Config.stagingLines ≤ st.length then
    count .stageEvictions 1
      (p.withUplink { p.uplink with
        staging := stageLine line lanes (st.take (Config.stagingLines - 1)) })
  else p.withUplink { p.uplink with staging := stageLine line lanes st }

/-- The entries whose line a capture window still covers, in their order (R137). -/
def keepCovered (w : Windows) (st : List Staged) : List Staged := st.filter fun e => w.captured e.line

/-- The valid byte staged for a byte address (R150, check 4). -/
def stagedByte (st : List Staged) (a : Nat) : Option Byte :=
  (stagedAt st (a / 32 * 32)).bind fun e => lane e.lanes (a % 32)

/-! ### Entries and their fields (R138; chapter 1, uplink descriptor) -/

/-- An entry as DEFINE_UPLINK sets it up (R143). -/
def Entry.fresh : Entry :=
  { host := List.replicate 16 0, state := .idle, reason := none, carriage := 0 }

/-- The host-side positions of a descriptor. -/
def hostSide (i : Nat) : Bool := i ≤ 8 || i = 12 || i = 13

/-- The lanes of a descriptor write that are stored: the part-side positions are not (R140). -/
def storedLanes (ls : List Lane) : List Lane :=
  (List.range 16).map fun i => if hostSide i then lane ls i else none

/-- The host-side copy takes the bytes written (R140, R141). -/
def Entry.take (ls : List Lane) (e : Entry) : Entry := { e with host := mergeLanes e.host (storedLanes ls) }

def Entry.address (e : Entry) : Nat := leNat (slice e.host 0 4)
def Entry.length (e : Entry) : Nat := leNat (slice e.host 4 2)
def Entry.clsByte (e : Entry) : Byte := e.host.getD 6 0
def Entry.chains (e : Entry) : Bool := e.host.getD 8 0 != 0

/-- Entry `i`, a fresh one past the end. -/
def entryAt (es : List Entry) (i : Nat) : Entry := es.getD i Entry.fresh

/-- Entry `i` replaced by `f` of it. -/
def onEntry (i : Nat) (f : Entry → Entry) (p : Part) : Part :=
  p.withUplink { p.uplink with entries := p.uplink.entries.modify i f }

/-! ### Frame formation (R148 to R155) -/

/-- The HELD entries straight before entry `i`, stepping back modulo the table, nearest first; `fuel`
is how many are looked at (R148). -/
def heldBefore (es : List Entry) (i : Nat) : Nat → List Nat
  | 0 => []
  | fuel + 1 =>
    let j := (i + es.length - 1) % es.length
    if (entryAt es j).state = .held then j :: heldBefore es j fuel else []

/-- The parts of the frame a post at entry `i` forms, in chain order (R148). -/
def gather (es : List Entry) (i : Nat) : List Nat :=
  (heldBefore es i (es.length - 1)).reverse ++ [i]

/-- The byte addresses of a part's range (R148). -/
def Entry.range (e : Entry) : List Nat := (List.range e.length).map fun k => e.address + k

/-- The frame length: the sum of the part lengths (R148). -/
def lengthOf (es : List Entry) (parts : List Nat) : Nat :=
  (parts.map fun i => (entryAt es i).length).sum

/-- The byte addresses of the frame in frame order (R148). -/
def addressesOf (es : List Entry) (parts : List Nat) : List Nat :=
  parts.flatMap fun i => (entryAt es i).range

/-- Checks 1 to 5 of formation, in order: the first to fail gives its reason (R149, R150). -/
def formationFault (p : Part) (cls : ServiceClass) (parts : List Nat) : Option Discard :=
  let es := p.uplink.entries
  let n := lengthOf es parts
  if 4 < parts.length then some .tooManyParts
  else if n = 0 ∨ 1536 < n then some .tooLong
  else if (addressesOf es parts).any fun a => !p.windows.captured a then some .outOfWindow
  else if (addressesOf es parts).any fun a => (stagedByte p.uplink.staging a).isNone then
    some .incomplete
  else
    match (p.path.classes.get cls).word, (p.path.classes.get cls).reason with
    | .fibre, _ => some .wrongPath
    | .blocked, .shed => some .shed
    | .blocked, _ => some .noPath
    | _, _ => none

/-- Queued VOICE frames are displaced from the head until a frame of `n` blocks has room (R162). -/
def displaceFor (n limit out : Nat) : List Frame → List Frame × List Frame
  | [] => ([], [])
  | f :: fs =>
    if blocksOf (f :: fs) + out + n ≤ limit then ([], f :: fs)
    else
      let r := displaceFor n limit out fs
      (f :: r.1, r.2)

/-- Room for a frame of `n` blocks: `none` where there is none, otherwise the queued frames displaced to
make it and those that stay (R151, R161, R162). -/
def roomFor (p : Part) (cls : ServiceClass) (n : Nat) : Option (List Frame × List Frame) :=
  let limit := p.relay.limits.get cls
  let queue := p.relay.queues.get cls
  let out := blocksOf (p.sentOf cls)
  if p.held cls + n ≤ limit then some ([], queue)
  else if cls = .voice ∧ out + n ≤ limit then some (displaceFor n limit out queue)
  else none

/-- Every part DISCARDED with the failing check's reason, its carriage sequence 0 (R155). -/
def discardFormed (r : Discard) (parts : List Nat) (p : Part) : Part :=
  discardParts r parts (mark parts (fun e => { e with carriage := 0 }) p)

/-- A frame is formed from the post at entry `i`: accepted at the tail of its class queue, or discarded
with the reason of the first check that fails (R148 to R155, R161, R162). -/
def formFrame (i : Nat) (p : Part) : Part :=
  let es := p.uplink.entries
  let parts := gather es i
  let cls := classOfByte (entryAt es i).clsByte
  match formationFault p cls parts with
  | some r => discardFormed r parts p
  | none =>
    match roomFor p cls (blocks (lengthOf es parts)) with
    | none => discardFormed .queueFull parts p
    | some (displaced, kept) =>
      let frame : Frame :=
        { parts := parts, cls := cls, enqueued := p.clock.now,
          bytes := (addressesOf es parts).map fun a => (stagedByte p.uplink.staging a).getD 0 }
      let queuedEntry (e : Entry) : Entry := { e.move .queued with carriage := 0 }
      mark parts queuedEntry
        (discardFrames .displaced displaced (setQueue cls (kept ++ [frame]) p))

/-- A post at entry `i` (R147). The class byte written is handed to the path controller whatever comes
of the post (R89). -/
def postEntry (i : Nat) (ls : List Lane) (p : Part) : Part :=
  let e := entryAt p.uplink.entries i
  let q := takePost ((lane ls 6).getD 0) p
  match e.state with
  | .held | .queued | .sending => count .postsRefused 1 q
  | _ =>
    if (e.take ls).chains then
      onEntry i (fun e => { (e.take ls).move .held with carriage := 0 }) q
    else formFrame i (onEntry i (Entry.take ls) q)

/-! ### Withdrawing (R156) -/

/-- The queued frame that has entry `i` among its parts. -/
def queuedFrame (p : Part) (i : Nat) : Option Frame :=
  classes.findSome? fun c => (p.relay.queues.get c).find? fun f => f.parts.contains i

/-- The frame leaves its class queue. -/
def unqueue (f : Frame) (p : Part) : Part :=
  setQueue f.cls ((p.relay.queues.get f.cls).filter fun g => g.parts ≠ f.parts) p

/-- A withdraw at entry `i` (R156). -/
def withdrawEntry (i : Nat) (ls : List Lane) (p : Part) : Part :=
  match (entryAt p.uplink.entries i).state with
  | .held => discardParts .withdrawn [i] (onEntry i (Entry.take ls) p)
  | .queued =>
    match queuedFrame p i with
    | some f => discardParts .withdrawn f.parts (unqueue f (onEntry i (Entry.take ls) p))
    | none => discardParts .withdrawn [i] (onEntry i (Entry.take ls) p)
  | .sending => count .postsRefused 1 p
  | _ => p

/-! ### Descriptor writes (R140, R141) -/

/-- One descriptor's part of a write to the uplink table: a field write, an ignored partial write, or a
whole write that posts, withdraws or writes fields (R140, R141). -/
def writeDescriptor (i : Nat) (ls : List Lane) (p : Part) : Part :=
  match lane ls 7 with
  | none => onEntry i (Entry.take ls) p
  | some give =>
    if (laneSlice ls 0 16).any Option.isNone then count .postsRefused 1 p
    else if give = 1 then postEntry i ls p
    else if give = 2 then withdrawEntry i ls p
    else onEntry i (Entry.take ls) p

/-- A write line access to line `m` of the uplink table: descriptor 2m in full, then descriptor 2m + 1,
in one event (R140). -/
def writeUplink (m : Nat) (ls : List Lane) (p : Part) : Part :=
  writeDescriptor (2 * m + 1) (laneSlice ls 16 16) (writeDescriptor (2 * m) (laneSlice ls 0 16) p)

/-- Code of an entry state (chapter 1, uplink descriptor). -/
def EntryState.code : EntryState → Byte
  | .idle => 0
  | .held => 1
  | .queued => 2
  | .sending => 3
  | .sent => 4
  | .discarded => 5

/-- Code of a discard reason (chapter 1, uplink descriptor). -/
def Discard.code : Discard → Byte
  | .incomplete => 1
  | .outOfWindow => 2
  | .tooLong => 3
  | .tooManyParts => 4
  | .wrongPath => 5
  | .shed => 6
  | .noPath => 7
  | .queueFull => 8
  | .displaced => 9
  | .aged => 10
  | .withdrawn => 11
  | .radioLost => 12
  | .drainLimit => 13
  | .linkTimeout => 14
  | .moduleReject => 15

/-- The part's view of an entry (R138, R21). -/
def Entry.view (e : Entry) : List Byte :=
  slice e.host 0 9 ++ [e.state.code, (e.reason.map Discard.code).getD 0, 0] ++ slice e.host 12 2 ++
    leBytes 2 e.carriage.toNat

/-- A substituted line of the uplink table (R21). -/
def uplinkLine (p : Part) (m : Nat) : List Byte :=
  (entryAt p.uplink.entries (2 * m)).view ++ (entryAt p.uplink.entries (2 * m + 1)).view

/-! ### DEFINE_UPLINK and DEFINE_CAPTURE (R142 to R145) -/

/-- The entry count taken: 8 to 256, an odd count rounded up (R142). -/
def takenEntries (n : Nat) : Nat :=
  let m := clampTo 8 256 n
  m + m % 2

/-- DEFINE_UPLINK (R142, R143). -/
def doDefineUplink (ps : List Byte) (p : Part) : Part :=
  let base := param32 ps 0
  let given := param16 ps 4
  let n := takenEntries given
  let clamp := clampMask [base, given] [base, n]
  let w : Window := { base := base, size := 16 * n }
  if !accepts ({ p.windows with uplink := none }).regions [w] then
    finish Result.paramError [] (postClamp clamp p)
  else if p.uplink.entries.any fun e => e.state = .queued || e.state = .sending then
    finish Result.stateError [] (postClamp clamp p)
  else
    finish (doneCode clamp) (leBytes 2 n)
      (postClamp clamp
        { p with
          windows := { p.windows with uplink := some w }
          uplink := { p.uplink with entries := List.replicate n Entry.fresh } })

/-- The size taken: 0 removes; otherwise 32 to 4 MiB, rounded up to whole lines (R144). -/
def takenSize (n : Nat) : Nat := if n = 0 then 0 else min 4194304 ((n + 31) / 32 * 32)

/-- DEFINE_CAPTURE (R144, R145). -/
def doDefineCapture (ps : List Byte) (p : Part) : Part :=
  let slot := param8 ps 0
  let base := param32 ps 4
  let given := param32 ps 8
  let size := takenSize given
  let clamp := clampMask [slot, base, given] [slot, base, size]
  let w : Option Window := if size = 0 then none else some { base := base, size := size }
  let without := { p.windows with captures := p.windows.captures.set slot none }
  if 3 < slot ∨ accepts without.regions w.toList = false then
    finish Result.paramError [] (postClamp clamp p)
  else
    let windows := { p.windows with captures := p.windows.captures.set slot w }
    let kept := keepCovered windows p.uplink.staging
    finish (doneCode clamp) (leBytes 2 (p.uplink.staging.length - kept.length) ++ leBytes 2 kept.length)
      (postClamp clamp
        { p with windows := windows, uplink := { p.uplink with staging := kept } })

end Sys2Proof.Machine
end

