-- ==== Sys2Proof/Machine/CommandOps.lean ====
section
/-! DEFINITION. The commands of the path controller, the radio link controller, the relay, the event
unit and the command unit, and the taking of a command (chapters 2, 5, 6, 8, 10). -/

namespace Sys2Proof.Machine

/-! ### Path controller: FORCE and SET_PATH_TIMERS (R101 to R103) -/

/-- Status page code of a service state. -/
def Service.code : Service → Byte
  | .fibre => 0
  | .suspect => 1
  | .radio => 2
  | .stranded => 3
  | .proving => 4
  | .returning => 5
  | .forcedFibre => 6
  | .forcedRadio => 7

/-- Status page code of a force. -/
def Force.code : Force → Byte
  | .auto => 0
  | .fibre => 1
  | .radio => 2

/-- The force a FORCE parameter names; any other value is a structural fault (R101). -/
def forceOf (n : Nat) : Option Force :=
  match n with
  | 0 => some .auto
  | 1 => some .fibre
  | 2 => some .radio
  | _ => none

/-- The software force takes a value, and the service state follows the effective force (R77, R101). -/
def takeSoftware (f : Force) (p : Part) : Part :=
  takeForce p.path.effective (p.withPath { p.path with software := f })

/-- Result data of FORCE: the service state and the effective force (R101). -/
def forceData (q : Path) : List Byte := [q.service.code, q.effective.code]

/-- FORCE (R101). -/
def doForce (ps : List Byte) (p : Part) : Part :=
  match forceOf (param8 ps 0) with
  | none => finish Result.paramError [] p
  | some f =>
    let q := event (takeSoftware f) p
    finish Result.done (forceData q.path) q

/-- The settings SET_PATH_TIMERS takes after clamping (R102). -/
def pathTaken (ps : List Byte) : PathSettings :=
  { failDwell := clampTo 0 10000 (param16 ps 0), losDwell := clampTo 0 2000 (param16 ps 2),
    prove := clampTo 1 3600 (param16 ps 4), strandedProve := clampTo 1 600 (param16 ps 6),
    drainLimit := clampTo 10 5000 (param16 ps 8), voiceQuiet := clampTo 100 10000 (param16 ps 10),
    voiceStick := clampTo 10 7200 (param16 ps 12) }

/-- The settings as the numbers of the command's parameters. -/
def PathSettings.numbers (st : PathSettings) : List Nat :=
  [st.failDwell, st.losDwell, st.prove, st.strandedProve, st.drainLimit, st.voiceQuiet, st.voiceStick]

/-- SET_PATH_TIMERS: running timers keep their remaining times (R102, R103). -/
def doSetPathTimers (ps : List Byte) (p : Part) : Part :=
  let st := pathTaken ps
  let clamp := clampMask ((List.range 7).map fun i => param16 ps (2 * i)) st.numbers
  finish (doneCode clamp) [] (postClamp clamp (p.withPath { p.path with settings := st }))

/-! ### Radio link controller: SET_RADIO, RADIO_ATTACH, RADIO_DETACH (R130 to R132) -/

/-- SET_RADIO (R130). -/
def doSetRadio (ps : List Byte) (p : Part) : Part :=
  let st : RadioSettings :=
    { hot := param8 ps 0 = 1, profile := clampTo 0 7 (param8 ps 1),
      retryCount := clampTo 0 7 (param8 ps 2), linger := clampTo 0 86400 (param32 ps 3) }
  let clamp := clampMask [0, param8 ps 1, param8 ps 2, param32 ps 3]
    [0, st.profile, st.retryCount, st.linger]
  if 1 < param8 ps 0 then finish Result.paramError [] (postClamp clamp p)
  else
    finish (doneCode clamp) []
      (event (fun q => q.withRadio { q.radio with settings := st }) (postClamp clamp p))

/-- Manual hold on, the re-attempt timer cancelled (R116, R131). -/
def holdRadio (p : Part) : Part :=
  p.withRadio { p.radio with manualHold := true, reattempt := none }

/-- RADIO_ATTACH (R131). -/
def doRadioAttach (p : Part) : Part :=
  match p.radio.state with
  | .absent => finish Result.stateError [] p
  | .attached =>
    let q := event holdRadio p
    finish Result.done (attachData 0 true q.radio) q
  | _ => event (fun q => holdRadio (startTimed .radioAttach q)) p

/-- RADIO_DETACH is refused in this service state (R132). -/
def Service.needsRadio : Service → Bool
  | .radio | .proving | .forcedRadio => true
  | _ => false

/-- RADIO_DETACH (R132). -/
def doRadioDetach (p : Part) : Part :=
  if p.path.service.needsRadio then finish Result.stateError [] p
  else if p.attached then
    event (fun q =>
      (startTimed .radioDetach q).withRadio
        { q.radio with manualHold := false, control := some (.detachReq true) }) p
  else
    let q := event (fun q => q.withRadio { q.radio with manualHold := false }) p
    finish Result.done (detachData q.radio) q

/-! ### Relay: SET_RELAY (R180, R181) -/

/-- Four settings, one for each class, from the parameter bytes at `i`, clamped. -/
def classParams (ps : List Byte) (i low high : Nat) : PerClass Nat :=
  PerClass.ofFn fun c => clampTo low high (param16 ps (i + 2 * classNumber c))

/-- The values of the four classes in order. -/
def PerClass.toList {α : Type} (x : PerClass α) : List α := [x.voice, x.signal, x.interactive, x.bulk]

/-- The relay holds no queued and no outstanding frame (R180). -/
def Part.relayEmpty (p : Part) : Bool :=
  p.radio.outstanding.isEmpty && p.relay.queues.toList.all List.isEmpty

/-- The queued frames of class `c` that have reached their age limit are discarded with AGED (R163,
R181). -/
def discardAged (p : Part) (c : ServiceClass) : Part :=
  let old (f : Frame) : Bool := p.relay.ages.get c ≤ f.age p.clock.now
  let queue := p.relay.queues.get c
  discardFrames .aged (queue.filter old) (setQueue c (queue.filter fun f => !old f) p)

/-- SET_RELAY takes effect (R181). -/
def takeRelay (limits ages : PerClass Nat) (depth : Nat) (p : Part) : Part :=
  classes.foldl discardAged
    { p with relay := { p.relay with
        limits := limits, ages := ages, depth := depth, credit := min p.relay.credit (8 * depth) } }

/-- SET_RELAY (R180, R181). -/
def doSetRelay (ps : List Byte) (p : Part) : Part :=
  let limits := classParams ps 0 48 2048
  let ages := classParams ps 8 10 10000
  let depth := clampTo 1572 65535 (param16 ps 16)
  let clamp := clampMask ((List.range 9).map fun i => param16 ps (2 * i))
    (limits.toList ++ ages.toList ++ [depth])
  if Config.frameBlocks < limits.toList.sum then finish Result.paramError [] (postClamp clamp p)
  else if limits ≠ p.relay.limits ∧ !p.relayEmpty then
    finish Result.stateError [] (postClamp clamp p)
  else finish (doneCode clamp) [] (event (takeRelay limits ages depth) (postClamp clamp p))

/-! ### Event unit: SET_EVENTS, CLEAR_COUNTERS, the acknowledge line (R200, R202, R204) -/

/-- The part with the event unit's state replaced. -/
def Part.withEvents (p : Part) (e : Events) : Part := { p with events := e }

/-- Result data of SET_EVENTS: the enable mask and the flags (R202). -/
def eventsData (e : Events) : List Byte := leBytes 2 e.mask.toNat ++ leBytes 2 e.flags.toNat

/-- SET_EVENTS: the result data holds the mask taken and the flags as the event leaves them, its own
COMMAND_DONE included (R202). -/
def doSetEvents (ps : List Byte) (p : Part) : Part :=
  let mask := BitVec.ofNat 9 (param16 ps 0)
  let flags := p.events.flags ||| Flag.mask .commandDone
  let q := p.withEvents { p.events with mask := mask }
  finish Result.done (eventsData { q.events with flags := flags }) q

/-- CLEAR_COUNTERS (R204). -/
def doClearCounters (p : Part) : Part :=
  finish Result.done [] (p.withEvents { p.events with counters := Counters.zero })

/-- A write to the acknowledge line clears the flags its carried bytes 0 and 1 name (R200). -/
def writeAcknowledge (ls : List Lane) (p : Part) : Part :=
  let named := BitVec.ofNat 9 (leNat [(lane ls 0).getD 0, (lane ls 1).getD 0])
  p.withEvents { p.events with flags := p.events.flags &&& ~~~named }

/-! ### Command unit: IDENTIFY and RESTART (R31, R32) -/

/-- IDENTIFY (R31). -/
def doIdentify (p : Part) : Part :=
  finish Result.done
    (leBytes 2 Config.partNumber.toNat ++ [Config.revision, BitVec.ofNat 8 p.windows.strap.toNat] ++
      leBytes 2 Config.stagingLines ++ leBytes 2 Config.frameBlocks ++
      [BitVec.ofNat 8 Config.deliverySlots]) p

/-- What RESTART empties and clears (R32, R157, R182, R197, R205). -/
def emptyTraffic (p : Part) : Part :=
  { p with
    uplink :=
      { staging := []
        entries := p.uplink.entries.map fun e => { e.move .idle with carriage := 0 } }
    relay := { p.relay with queues := PerClass.ofFn fun _ => [] }
    radio := { p.radio with outstanding := [] }
    delivery := { p.delivery with slots := List.replicate 32 none, fill := 0 }
    events := { p.events with flags := 0, counters := Counters.zero } }

/-- The linger timer starts from its full setting where demand is on, no want holds and the timer does not run
(R112). A setting of 0 leaves it due at once, for LINGER_EXPIRY to take as an event of its own (log 37). -/
def lingerStarts (p : Part) : Part :=
  if p.radio.demand ∧ p.radio.linger = none ∧ !p.wants then
    p.withRadio { p.radio with linger := p.after (p.radio.settings.linger * 1000) }
  else p

/-- RESTART: flags and counters are cleared first, the path controller follows by R91 and R93, COMMAND_DONE comes
last (R32). Module state, demand, pending message and lane stay as they are (R32, R133), so nothing but PATH_CHANGED
and COMMAND_DONE is raised (R201, R205); the linger timer starts where R93's move ends the last want (DEDUCED,
log 37). -/
def doRestart (p : Part) : Part :=
  finish Result.done [] (noteChanges p (lingerStarts (returnDrained (emptyTraffic p))))

/-! ### Taking a command (R22 to R24, R27, R30) -/

/-- The seventeen commands (R24). -/
inductive CommandName where
  | identify | restart | setEvents | clearCounters | defineUplink | defineCapture | defineDelivery
  | setOptics | fibreRestart | setThresholds | clearLatches | setPathTimers | force | setRadio
  | radioAttach | radioDetach | setRelay
deriving DecidableEq, Repr

/-- The command a code names; every code outside 0x01 to 0x11 is unknown (R24). -/
def commandOf (code : Byte) : Option CommandName :=
  match code.toNat with
  | 0x01 => some .identify
  | 0x02 => some .restart
  | 0x03 => some .setEvents
  | 0x04 => some .clearCounters
  | 0x05 => some .defineUplink
  | 0x06 => some .defineCapture
  | 0x07 => some .defineDelivery
  | 0x08 => some .setOptics
  | 0x09 => some .fibreRestart
  | 0x0A => some .setThresholds
  | 0x0B => some .clearLatches
  | 0x0C => some .setPathTimers
  | 0x0D => some .force
  | 0x0E => some .setRadio
  | 0x0F => some .radioAttach
  | 0x10 => some .radioDetach
  | 0x11 => some .setRelay
  | _ => none

/-- The result data that show the part as the event leaves it, of the commands that post such data at once: FORCE,
RADIO_DETACH and SET_EVENTS (R101, R132, R202). -/
def CommandName.shows (c : CommandName) (p : Part) : Option (List Byte) :=
  match c with
  | .setEvents => some (eventsData p.events)
  | .force => some (forceData p.path)
  | .radioDetach => some (detachData p.radio)
  | _ => none

/-- The result data of a command that has ended with DONE in an event which the channel reset line brings about:
they show the part as that event leaves it, the channel reset effects included (R8, R101, R132, R202). -/
def postAtEnd (c : Option CommandName) (p : Part) : Part :=
  match c.bind fun c => c.shows p with
  | none => p
  | some data =>
    if p.command.result = Result.done then { p with command := { p.command with data := padTo 16 data } } else p

/-- A command handed to its owner with its parameter block (R24). -/
def runCommand (c : CommandName) (ps : List Byte) (p : Part) : Part :=
  match c with
  | .identify => doIdentify p
  | .restart => doRestart p
  | .setEvents => doSetEvents ps p
  | .clearCounters => doClearCounters p
  | .defineUplink => doDefineUplink ps p
  | .defineCapture => doDefineCapture ps p
  | .defineDelivery => doDefineDelivery ps p
  | .setOptics => doSetOptics ps p
  | .fibreRestart => doFibreRestart p
  | .setThresholds => doSetThresholds ps p
  | .clearLatches => doClearLatches p
  | .setPathTimers => doSetPathTimers ps p
  | .force => doForce ps p
  | .setRadio => doSetRadio ps p
  | .radioAttach => doRadioAttach p
  | .radioDetach => doRadioDetach p
  | .setRelay => doSetRelay ps p

/-- A command that an access cut short by the channel reset line carries: SET_THRESHOLDS leaves the
evaluation to the reset (R8, R68). -/
def runCut (c : CommandName) (ps : List Byte) (p : Part) : Part :=
  match c with
  | .setThresholds => cutSetThresholds ps p
  | c => runCommand c ps p

/-- Taking a command writes the result area: tag, code, EXECUTING, clamp mask and data zero, the last
refused tag kept (R24). -/
def takeResult (code : Byte) (tag : BitVec 16) (p : Part) : Part :=
  { p with command := { p.command with
      tag := tag, code := code, result := Result.executing, clamp := 0,
      data := List.replicate 16 0 } }

/-- A command arrives: refused while BUSY (R27), otherwise taken, and run by `run` or answered with
UNKNOWN_COMMAND (R24, R30). -/
def commandArrivesBy (run : CommandName → List Byte → Part → Part) (code : Byte) (tag : BitVec 16)
    (ps : List Byte) (p : Part) : Part :=
  if p.command.running.isSome then
    count .commandsRefusedBusy 1 { p with command := { p.command with refused := tag } }
  else
    match commandOf code with
    | none => finish Result.unknownCommand [] (takeResult code tag p)
    | some c => run c ps (takeResult code tag p)

/-- A command arrives (R24, R27, R30). -/
def commandArrives (code : Byte) (tag : BitVec 16) (ps : List Byte) (p : Part) : Part :=
  commandArrivesBy runCommand code tag ps p

/-- A write to the command parameter line (R22). -/
def writeParameters (ls : List Lane) (p : Part) : Part :=
  { p with command := { p.command with params := mergeLanes p.command.params ls } }

/-- The command, its code and tag, that a write to the command header line is when it carries bytes 0 to 3
(R23). -/
def headerCommand (ls : List Lane) : Option (Byte × BitVec 16) :=
  match lane ls 0, lane ls 1, lane ls 2, lane ls 3 with
  | some code, some _, some t0, some t1 => some (code, BitVec.ofNat 16 (leNat [t0, t1]))
  | _, _, _, _ => none

/-- A write to the command header line: merged, and the command it is, run by `run` (R22, R23). -/
def writeHeaderBy (run : CommandName → List Byte → Part → Part) (ls : List Lane) (p : Part) : Part :=
  let q := { p with command := { p.command with header := mergeLanes p.command.header ls } }
  match headerCommand ls with
  | some c => commandArrivesBy run c.1 c.2 (parameterBlock q.command.header q.command.params) q
  | none => q

/-- A write to the command header line (R22, R23). -/
def writeHeader (ls : List Lane) (p : Part) : Part := writeHeaderBy runCommand ls p

/-- A write to the command header line that the channel reset line cuts short (R8). -/
def cutHeader (ls : List Lane) (p : Part) : Part := writeHeaderBy runCut ls p

end Sys2Proof.Machine
end

