-- ==== Sys2Proof/Machine/StatusOps.lean ====
section
/-! DEFINITION. The status page: what a substituted read of each of its lines returns (R19, R20, chapter
1 "Status page lines" and "Codes of the status fields"). -/

namespace Sys2Proof.Machine

/-! ### Codes -/

/-- Status page code of a verdict. -/
def Verdict.code : Verdict → Byte
  | .pending => 0
  | .good => 1
  | .warn => 2
  | .bad => 3

/-- Status page code of a path word. -/
def PathWord.code : PathWord → Byte
  | .fibre => 0
  | .radio => 1
  | .hold => 2
  | .blocked => 3

/-- Status page code of a path reason. -/
def PathReason.code : PathReason → Byte
  | .none => 0
  | .shed => 1
  | .noPath => 2
  | .noRadio => 3

/-- Status page code of a hand-back sub-state. -/
def SubState.code : SubState → Byte
  | .onRadio => 0
  | .waitingQuiet => 1
  | .draining => 2
  | .returned => 3

/-- Status page code of a channel state. -/
def ChannelState.code : ChannelState → Byte
  | .active => 0
  | .powerDown => 1
  | .selfRefresh => 2
  | .inReset => 3

/-- A yes-or-no field. -/
def flagByte (b : Bool) : Byte := if b then 1 else 0

/-! ### Lines -/

/-- Mode is learned while all three known flags are set (R5). -/
def Channel.learned (c : Channel) : Bool := c.known0 && c.known1 && c.known2

/-- Line 0: marker, states, path words and reasons, flags, channel state, sub-states (R19, R20). -/
def statusLine0 (p : Part) : List Byte :=
  leBytes 2 Config.partNumber.toNat ++
    [Config.revision, p.path.service.code, p.path.software.code, p.path.effective.code,
      p.health.verdict.code, p.radio.state.code] ++
    (classes.map fun c => (p.path.classes.get c).word.code) ++
    (classes.map fun c => (p.path.classes.get c).reason.code) ++
    leBytes 2 p.events.flags.toNat ++
    [p.channel.state.code, flagByte p.channel.learned] ++
    (classes.map fun c => (p.path.classes.get c).sub.code) ++ List.replicate 8 0

/-- Line 1: the measurement set, the receive power, the sample count, the conditions. -/
def statusLine1 (p : Part) : List Byte :=
  let o := p.optical
  let h := p.health
  leBytes 2 o.temperature.toNat ++ leBytes 2 o.supply.toNat ++ leBytes 2 o.bias.toNat ++
    leBytes 2 o.txPower.toNat ++ leBytes 2 o.rxPower.toNat ++ leBytes 2 h.corrected ++
    leBytes 2 (h.filter.getD 0) ++ leBytes 4 o.samples.toNat ++ leBytes 2 h.live.toNat ++
    leBytes 2 h.latched.toNat ++ leBytes 2 h.causes.toNat ++ leBytes 1 o.failures ++
    List.replicate 7 0

/-- Shed status with bit n for class n (R164). -/
def Relay.shedBits (r : Relay) : Nat :=
  (classes.map fun c => if r.shed.get c then 2 ^ classNumber c else 0).sum

/-- Line 2: the radio figures, the credit in whole bytes, the held blocks, the fill index. -/
def statusLine2 (p : Part) : List Byte :=
  let r := p.radio
  leBytes 1 r.quality ++ [r.buffers] ++ leBytes 2 r.grant.toNat ++ leBytes 2 (p.relay.credit / 8) ++
    leBytes 1 r.outstanding.length ++ leBytes 1 r.attempts ++ leBytes 4 r.serviceId.toNat ++
    (classes.flatMap fun c => leBytes 2 (p.held c)) ++ leBytes 1 p.relay.shedBits ++
    leBytes 1 p.delivery.fill ++ List.replicate 10 0

/-- Line 3: the result area (R28). -/
def statusLine3 (p : Part) : List Byte :=
  let c := p.command
  leBytes 2 c.tag.toNat ++ [c.code, c.result] ++ leBytes 4 c.clamp.toNat ++
    leBytes 2 c.refused.toNat ++ List.replicate 6 0 ++ c.data

/-- Lines 4 and 5: eight counters, from counter `first` (R203). -/
def counterLine (p : Part) (first : Nat) : List Byte :=
  ((Counter.all.drop first).take 8).flatMap fun c => leBytes 4 (p.events.counters.get c).toNat

/-- Line 6: remaining times in milliseconds. -/
def statusLine6 (p : Part) : List Byte :=
  let now := p.clock.now
  let q := p.path
  ([q.dwell, q.prove, q.strandedProve, q.quiet, q.stick].flatMap fun t =>
      leBytes 4 (Timer.remaining t now)) ++
    (classes.flatMap fun c => leBytes 2 (Timer.remaining (q.classes.get c).drain now)) ++
    leBytes 4 (p.health.staleRemaining now)

/-- Line `i` of the status page; line 7 reads as 0 throughout (R20). -/
def statusLine (p : Part) (i : Nat) : List Byte :=
  match i with
  | 0 => statusLine0 p
  | 1 => statusLine1 p
  | 2 => statusLine2 p
  | 3 => statusLine3 p
  | 4 => counterLine p 0
  | 5 => counterLine p 8
  | 6 => statusLine6 p
  | _ => List.replicate 32 0

end Sys2Proof.Machine
end

