-- ==== Sys2Proof/Machine/ChannelOps.lean ====
section
/-! DEFINITION. The channel monitor: sorting commands, the bank table, mode knowledge, channel state,
line accesses, classification, capture and substitution (chapter 1). -/

namespace Sys2Proof.Machine

/-- The part with the channel monitor's state replaced. -/
def Part.withChannel (p : Part) (c : Channel) : Part := { p with channel := c }

/-! ### Sorting a command (R2) -/

/-- The burst a read or write command's pins name. R2 places the auto-close and chop flags at address bits 10
and 12; that the start column is address bits 9 to 0 is the model's reading, the DDR3 coding (PRESUMED, log 36). -/
def pinsBurst (c : ChannelPins) : Burst :=
  { bank := c.bank, column := c.addr.extractLsb' 0 10, autoClose := c.addr.getLsbD 10,
    chop := !c.addr.getLsbD 12 }

/-- The kind of a command with clock enable steady or going low, from its pins; `true` is high. -/
def sortSteady (c : ChannelPins) : ChannelOp :=
  if c.cs then .deselect
  else
    match c.ras, c.cas, c.we with
    | false, true, true => .openRow c.bank c.addr
    | true, false, true => .read { place := pinsBurst c, dram := c.dram }
    | true, false, false => .write { place := pinsBurst c, lanes := c.lanes }
    | false, true, false => if c.addr.getLsbD 10 then .closeAll else .closeRow c.bank
    | false, false, true => .refresh
    | false, false, false =>
      if c.bank.toNat < 4 then .modeSet (c.bank.extractLsb' 0 2) c.addr else .unnamed
    | true, true, true => .noOp
    | true, true, false => .calibration

/-- The kind of a command (R2): clock enable going high is an exit, going low turns a no-op or deselect
into power-down entry and a refresh into self-refresh entry. -/
def sortCommand (c : ChannelPins) : ChannelOp :=
  match c.cke, sortSteady c with
  | .rising, _ => .exit
  | .falling, .noOp => .powerDownEntry
  | .falling, .deselect => .powerDownEntry
  | .falling, .refresh => .selfRefreshEntry
  | _, op => op

/-! ### Bank table (R3, R4) -/

/-- The open row of a bank. -/
def Channel.row (c : Channel) (bank : BitVec 3) : Option (BitVec 15) := c.banks.getD bank.toNat none

/-- Some bank is OPEN. -/
def Channel.anyOpen (c : Channel) : Bool := c.banks.any Option.isSome

/-- Every bank CLOSED. -/
def allClosed : List (Option (BitVec 15)) := List.replicate 8 none

/-- Bank `bank` set to `row`. -/
def setBank (bank : BitVec 3) (row : Option (BitVec 15)) (p : Part) : Part :=
  p.withChannel { p.channel with banks := p.channel.banks.set bank.toNat row }

/-- Every bank CLOSED; counted where one was OPEN (R3: refresh and self-refresh entry). -/
def closeCounted (p : Part) : Part :=
  count .channelProtocol (if p.channel.anyOpen then 1 else 0)
    (p.withChannel { p.channel with banks := allClosed })

/-- Open-row: counted where the bank was OPEN (R3). -/
def openBank (bank : BitVec 3) (row : BitVec 15) (p : Part) : Part :=
  count .channelProtocol (if (p.channel.row bank).isSome then 1 else 0) (setBank bank (some row) p)

/-! ### Mode knowledge (R5, R6) -/

/-- Burst mode of mode register 0, bits 1-0. -/
def burstModeOf (v : BitVec 15) : Option BurstMode :=
  match (v.extractLsb' 0 2).toNat with
  | 0 => some .fixed8
  | 1 => some .onTheFly
  | 2 => some .fixed4
  | _ => none

/-- Read latency of mode register 0, bits 6, 5, 4 and 2. -/
def readLatencyOf (v : BitVec 15) : Option Nat :=
  match 2 * (v.extractLsb' 4 3).toNat + (v.extractLsb' 2 1).toNat with
  | 2 => some 5
  | 4 => some 6
  | 6 => some 7
  | 8 => some 8
  | 10 => some 9
  | 12 => some 10
  | 14 => some 11
  | 1 => some 12
  | 3 => some 13
  | 5 => some 14
  | _ => none

/-- Additive latency of mode register 1, bits 4-3. -/
def additiveOf (v : BitVec 15) : Option Additive :=
  match (v.extractLsb' 3 2).toNat with
  | 0 => some .zero
  | 1 => some .readLess1
  | 2 => some .readLess2
  | _ => none

/-- A mode-set that is not valid clears all three known flags and counts (R6). -/
def invalidMode (p : Part) : Part :=
  count .channelProtocol 1
    (p.withChannel { p.channel with known0 := false, known1 := false, known2 := false })

/-- A mode-set to a register, read as valid or invalid (R5, R6). -/
def readMode (register : BitVec 2) (v : BitVec 15) (p : Part) : Part :=
  let c := p.channel
  match register.toNat with
  | 0 =>
    match burstModeOf v, readLatencyOf v with
    | some m, some l =>
      p.withChannel { c with
        burstMode := m, readOrder := if v.getLsbD 3 then .interleaved else .sequential,
        readLatency := l, known0 := true }
    | _, _ => invalidMode p
  | 1 =>
    match additiveOf v with
    | some a => p.withChannel { c with additive := a, outputDisable := v.getLsbD 12, known1 := true }
    | none => invalidMode p
  | 2 => p.withChannel { c with writeLatency := 5 + (v.extractLsb' 3 3).toNat, known2 := true }
  | _ => p.withChannel { c with readout := v.getLsbD 2 }

/-- A mode-set: counted where a bank is OPEN, and read all the same (R6). -/
def setMode (register : BitVec 2) (v : BitVec 15) (p : Part) : Part :=
  readMode register v (count .channelProtocol (if p.channel.anyOpen then 1 else 0) p)

/-! ### Line accesses (R9, R10, R11, R12) -/

/-- The burst is chopped: by the recorded burst mode, or by its chop flag while none is recorded (R9). -/
def Channel.chopped (c : Channel) (b : Burst) : Bool :=
  if c.known0 then
    match c.burstMode with
    | .fixed8 => false
    | .fixed4 => true
    | .onTheFly => b.chop
  else b.chop

/-- Channel address of the line a burst touches (00_scope.md, "Channel addresses"; R9). -/
def lineAddress (row : BitVec 15) (b : Burst) : Nat :=
  ((row.toNat * 8 + b.bank.toNat) * 1024 + b.column.toNat / 8 * 8) * 4

/-- Start position: the low three bits of the start column (R9). -/
def startPosition (b : Burst) : Nat := b.column.toNat % 8

/-- Position `pos` is transferred by a write after `beats` beats: it lies in the extent, and its beat,
in natural order from the start of the extent, has come (R9, R10). -/
def carries (chopped : Bool) (start beats pos : Nat) : Bool :=
  if chopped then decide (pos / 4 = start / 4) && decide (pos % 4 < beats) else decide (pos < beats)

/-- The lanes a write line access carries after `beats` beats; a byte outside is absent (R10, R8). -/
def carried (chopped : Bool) (start beats : Nat) (ls : List Lane) : List Lane :=
  (List.range 32).map fun b => if carries chopped start beats (b / 4) then lane ls b else none

/-- The position whose data beat `i` of a substituted read carries (R11). -/
def beatPosition (order : ReadOrder) (start i : Nat) : Nat :=
  match order with
  | .sequential => (start + i) % 4 + 4 * ((start / 4 + i / 4) % 2)
  | .interleaved => start ^^^ i

/-- The bytes of a substituted burst in the order of its beats (R11). -/
def beatsOf (order : ReadOrder) (chopped : Bool) (start : Nat) (line : List Byte) : List Byte :=
  (List.range (if chopped then 4 else 8)).flatMap fun i => slice line (4 * beatPosition order start i) 4

/-- The additive latency in clock periods (R5). -/
def Channel.additiveLatency (c : Channel) : Nat :=
  match c.additive with
  | .zero => 0
  | .readLess1 => c.readLatency - 1
  | .readLess2 => c.readLatency - 2

/-- The latency at which substituted beats are placed (R12). -/
def Channel.latency (c : Channel) : Nat := c.readLatency + c.additiveLatency

/-- Substitution is in force (R18). -/
def Channel.substitutes (c : Channel) : Bool := c.learned && !c.readout && !c.outputDisable

/-! ### Capture and substitution (R17, R18) -/

/-- A captured write is handed to the block its region names (R13, R14, R17). -/
def handWrite (region : Region) (a : Nat) (ls : List Lane) (p : Part) : Part :=
  match region with
  | .header => writeHeader ls p
  | .parameters => writeParameters ls p
  | .acknowledge => writeAcknowledge ls p
  | .report => writeReport ls p
  | .uplink m => event (writeUplink m ls) p
  | .capture => captureLine a ls p
  | .ring m => writeRing m ls p
  | .status _ => p
  | .area _ => p
  | .plain => p

/-- A captured write that the channel reset line cuts short is handed to the block its region names, which
handles it before the reset (R8). -/
def handCut (region : Region) (a : Nat) (ls : List Lane) (p : Part) : Part :=
  match region with
  | .header => cutHeader ls p
  | .report => cutReport ls p
  | r => handWrite r a ls p

/-- Writes to this region are captured (R17). -/
def Region.capturing : Region → Bool
  | .status _ => false
  | .area _ => false
  | .plain => false
  | _ => true

/-- A write line access: captured and handed on by `hand`, withheld and counted while mode is unlearned, or
passed (R17, R18). -/
def writeAccessBy (hand : Region → Nat → List Lane → Part → Part) (a : Nat) (ls : List Lane) (p : Part) :
    Part :=
  let region := p.windows.classify a
  if !region.capturing then p
  else if p.channel.learned then hand region a ls p
  else count .unlearnedAccesses 1 p

/-- A write line access (R17, R18). -/
def writeAccess (a : Nat) (ls : List Lane) (p : Part) : Part := writeAccessBy handWrite a ls p

/-- The line the owning block supplies for a read of this region (R17, R20, R21). -/
def ownerLine (region : Region) (p : Part) : Option (List Byte) :=
  match region with
  | .status i => some (statusLine p i)
  | .uplink m => some (uplinkLine p m)
  | .ring m => some (ringLine p.delivery m)
  | .area k => some (areaLine p.delivery k)
  | _ => none

/-- What the memory controller received for the last read. -/
def returned (r : ReadReturn) (p : Part) : Part := p.withChannel { p.channel with toHost := some r }

/-- A read of a line for which the owning block supplies `line`: substituted, or withheld and counted; a
read of a line that no block supplies passes (R17, R18). -/
def substitute (line : Option (List Byte)) (chopped : Bool) (start : Nat) (p : Part) : Part :=
  match line with
  | none => p
  | some line =>
    if p.channel.substitutes then
      returned
        { bytes := beatsOf p.channel.readOrder chopped start line,
          source := .part p.channel.latency } p
    else count .unlearnedAccesses 1 p

/-- A read line access, classified by its line address (R17). -/
def readAccess (a : Nat) (chopped : Bool) (start : Nat) (p : Part) : Part :=
  substitute (ownerLine (p.windows.classify a) p) chopped start p

/-- A read or write in ACTIVE: a stray access at a CLOSED bank, otherwise one line access, after which
an auto-close closes the bank (R3, R4, R9). -/
def access (b : Burst) (line : Nat → Bool → Nat → Part → Part) (p : Part) : Part :=
  match p.channel.row b.bank with
  | none => count .strayAccesses 1 p
  | some row =>
    let q := line (lineAddress row b) (p.channel.chopped b) (startPosition b) p
    if b.autoClose then setBank b.bank none q else q

/-- A write in ACTIVE. -/
def activeWrite (w : WriteBurst) (p : Part) : Part :=
  access w.place (fun a chopped start => writeAccess a (carried chopped start 8 w.lanes)) p

/-- A read in ACTIVE. -/
def activeRead (r : ReadBurst) (p : Part) : Part := access r.place readAccess p

/-! ### Channel state (R7, R62) -/

/-- ACTIVE is left for POWER_DOWN or SELF_REFRESH: the staleness timer pauses (R62). -/
def sleep (st : ChannelState) (p : Part) : Part :=
  (p.withStale (p.health.stale.pause p.clock.now)).withChannel { p.channel with state := st }

/-- The exit to ACTIVE: the staleness timer runs on (R62). -/
def wake (p : Part) : Part :=
  (p.withStale (p.health.stale.resume p.clock.now)).withChannel { p.channel with state := .active }

/-- What the part does with a command in ACTIVE (R2, R3, R5, R7, R9). -/
def activeCommand (op : ChannelOp) (p : Part) : Part :=
  match op with
  | .openRow bank row => openBank bank row p
  | .closeRow bank => setBank bank none p
  | .closeAll => p.withChannel { p.channel with banks := allClosed }
  | .refresh => closeCounted p
  | .modeSet register v => setMode register v p
  | .powerDownEntry => sleep .powerDown p
  | .selfRefreshEntry => sleep .selfRefresh (closeCounted p)
  | .exit => count .channelProtocol 1 p
  | .read r => activeRead r p
  | .write w => activeWrite w p
  | .noOp => p
  | .deselect => p
  | .calibration => p
  | .unnamed => p

/-- What the part does with a command in POWER_DOWN or SELF_REFRESH (R7). -/
def sleepingCommand (op : ChannelOp) (p : Part) : Part :=
  match op with
  | .exit => wake p
  | .noOp => p
  | .deselect => p
  | _ => count .channelProtocol 1 p

/-- Every command passes to DRAM, and a read returns DRAM's bytes unless the part substitutes it (R1). -/
def forward (op : ChannelOp) (p : Part) : Part :=
  match op with
  | .read r =>
    p.withChannel { p.channel with
      toDram := some (.named op), toHost := some { bytes := r.dram, source := .dram } }
  | _ => p.withChannel { p.channel with toDram := some (.named op) }

/-- A channel command (R1, R2, R7). -/
def channelCommand (op : ChannelOp) (p : Part) : Part :=
  let q := forward op p
  match p.channel.state with
  | .active => activeCommand op q
  | .powerDown => sleepingCommand op q
  | .selfRefresh => sleepingCommand op q
  | .inReset => q

/-- A command that comes as pins: the part acts on it by its kind, and it passes to DRAM as it came, with every
pin, those that its kind does not name included (R1, R2). -/
def pinsCommand (pins : ChannelPins) (p : Part) : Part :=
  let q := channelCommand (sortCommand pins) p
  q.withChannel { q.channel with toDram := some (.pins pins) }

/-- A write command. -/
def channelWrite (w : WriteBurst) (p : Part) : Part := channelCommand (.write w) p

/-! ### Channel reset (R8) -/

/-- The write burst as it stands after `beats` beats: the bytes of the missing beats are absent (R8, R10). -/
def Channel.writeCut (c : Channel) (w : WriteBurst) (beats : Nat) : WriteBurst :=
  { w with lanes := carried (c.chopped w.place) (startPosition w.place) beats w.lanes }

/-- A write cut short after `beats` beats: the beats that came have passed to DRAM, no others do (R1, R8), and
the owner of the line handles their bytes (R8). -/
def cutWrite (w : WriteBurst) (beats : Nat) (p : Part) : Part :=
  let came := p.channel.writeCut w beats
  access w.place (fun a _ _ => writeAccessBy handCut a came.lanes) (forward (.write came) p)

/-- The read burst as it stands after `beats` beats: DRAM has returned the bytes of those beats (R8). -/
def readCut (r : ReadBurst) (beats : Nat) : ReadBurst := { r with dram := r.dram.take (4 * beats) }

/-- A read cut short after `beats` beats: the bytes of those beats have returned, from DRAM or from the part,
and no more do (R8). -/
def cutRead (r : ReadBurst) (beats : Nat) (p : Part) : Part :=
  let q := channelCommand (.read (readCut r beats)) p
  q.withChannel { q.channel with
    toHost := q.channel.toHost.map fun back => { back with bytes := back.bytes.take (4 * beats) } }

/-- The access in progress that the reset line cuts short, with the beats already transferred; there is
one in ACTIVE only, and the model takes it that there is at most one (R8, R9; log 20). -/
def cutAccess (cut : CutAccess) (p : Part) : Part :=
  match p.channel.state, cut with
  | .active, .write w beats => cutWrite w beats p
  | .active, .read r beats => cutRead r beats p
  | _, _ => p

/-- The command that a write cut short carries and the command unit, IDLE, takes (R8, R23, R24). -/
def cutCommand (cut : CutAccess) (p : Part) : Option CommandName :=
  match p.channel.state, cut with
  | .active, .write w beats =>
    match p.channel.row w.place.bank with
    | none => none
    | some row =>
      if p.channel.learned ∧ p.windows.classify (lineAddress row w.place) = .header ∧ p.command.running = none then
        (headerCommand (p.channel.writeCut w beats).lanes).bind fun c => commandOf c.1
      else none
  | _, _ => none

/-- What the assertion of the channel reset line does to every block (R8, R22, R63, R137). -/
def channelReset (p : Part) : Part :=
  let q := p.withChannel { p.channel with
    state := .inReset, banks := allClosed, known0 := false, known1 := false, known2 := false,
    readout := false, dramReset := true }
  let r := { q with
    command := { q.command with header := List.replicate 32 0, params := List.replicate 32 0 }
    uplink := { q.uplink with staging := [] } }
  conditionsChange (clearReports r.health.live) (r.withStale .disarmed)

/-- Assertion of the channel reset line (R7, R8): nothing more where it is asserted already. -/
def assertReset (cut : CutAccess) (p : Part) : Part :=
  match p.channel.state with
  | .inReset => p
  | _ => postAtEnd (cutCommand cut p) (event (fun q => channelReset (cutAccess cut q)) p)

/-- Release of the channel reset line (R7, R8). -/
def releaseReset (p : Part) : Part :=
  match p.channel.state with
  | .inReset => p.withChannel { p.channel with state := .active, dramReset := false }
  | _ => p

end Sys2Proof.Machine
end

