-- ==== Sys2Proof/Machine/ChannelCommands.lean ====
section
/-! DEFINITION. Meanings of the commands of the memory channel (R2 to R12, R17, R18). -/

namespace Sys2Proof.Machine

/-- OPEN_ROW (R3). -/
def execOpenRow (bank : BitVec 3) (row : BitVec 15) (s : State) :
    Host.Outcome State Fault Refusal := act (channelCommand (.openRow bank row)) s

/-- CLOSE_ROW (R3): close-row, or close-all. -/
def execCloseRow (all : Bool) (bank : BitVec 3) (s : State) : Host.Outcome State Fault Refusal :=
  act (channelCommand (if all then .closeAll else .closeRow bank)) s

/-- REFRESH (R3). -/
def execRefresh (s : State) : Host.Outcome State Fault Refusal := act (channelCommand .refresh) s

/-- MODE_SET (R5, R6). -/
def execModeSet (register : BitVec 2) (value : BitVec 15) (s : State) :
    Host.Outcome State Fault Refusal := act (channelCommand (.modeSet register value)) s

/-- POWER_DOWN_ENTRY (R7). -/
def execPowerDownEntry (s : State) : Host.Outcome State Fault Refusal :=
  act (channelCommand .powerDownEntry) s

/-- SELF_REFRESH_ENTRY (R7, R3). -/
def execSelfRefreshEntry (s : State) : Host.Outcome State Fault Refusal :=
  act (channelCommand .selfRefreshEntry) s

/-- POWER_DOWN_EXIT (R7): the exit from POWER_DOWN or SELF_REFRESH. -/
def execPowerDownExit (s : State) : Host.Outcome State Fault Refusal := act (channelCommand .exit) s

/-- COMMAND_OUT_OF_PLACE (R7): the command the pins code, sorted by R2 and passed to DRAM as it came (R1). -/
def execCommandOutOfPlace (pins : ChannelPins) (s : State) : Host.Outcome State Fault Refusal :=
  act (pinsCommand pins) s

/-- LINE_READ (R9, R11, R17). -/
def execLineRead (r : ReadBurst) (s : State) : Host.Outcome State Fault Refusal :=
  act (channelCommand (.read r)) s

/-- LINE_WRITE (R9, R10, R17). -/
def execLineWrite (w : WriteBurst) (s : State) : Host.Outcome State Fault Refusal :=
  act (channelWrite w) s

/-- CAPTURE_WRITE (R135, R136). -/
def execCaptureWrite (w : WriteBurst) (s : State) : Host.Outcome State Fault Refusal :=
  act (channelWrite w) s

/-- DESCRIPTOR_FIELD_WRITE (R140, R141). -/
def execDescriptorFieldWrite (w : WriteBurst) (s : State) : Host.Outcome State Fault Refusal :=
  act (channelWrite w) s

/-- PARTIAL_DESCRIPTOR_WRITE (R140). -/
def execPartialDescriptorWrite (w : WriteBurst) (s : State) : Host.Outcome State Fault Refusal :=
  act (channelWrite w) s

/-- POST (R147): a whole descriptor write with give 1. -/
def execPost (d : DescriptorBurst) (s : State) : Host.Outcome State Fault Refusal :=
  act (channelWrite (descriptorWrite 1 d)) s

/-- WITHDRAW (R156): a whole descriptor write with give 2. -/
def execWithdraw (d : DescriptorBurst) (s : State) : Host.Outcome State Fault Refusal :=
  act (channelWrite (descriptorWrite 2 d)) s

/-- RELEASE (R192, R193): a write to the delivery ring. -/
def execRelease (w : WriteBurst) (s : State) : Host.Outcome State Fault Refusal :=
  act (channelWrite w) s

end Sys2Proof.Machine
end

