-- ==== Sys2Proof/Machine/Resets.lean ====
section
/-! DEFINITION. Meanings of the reset commands and of the first millisecond (R8, R13, R40, R42, R51,
R76, R107). -/

namespace Sys2Proof.Machine

/-- The part with its timebase and pins replaced. -/
def Part.withClock (p : Part) (c : Clock) : Part := { p with clock := c }

/-- The input lines at `pins`, as sampled. -/
def takePins (pins : Pins) (p : Part) : Part :=
  p.withClock { p.clock with
    firstTaken := true, pins := pins, opticalRun := 0, testRun := 0, radioRun := 0 }

/-- The optical lines at the first millisecond: presence, loss of signal if present, and a poll at once
if present (R34, R40, R42, R51). -/
def firstOptical (opres olos : Bool) (p : Part) : Part :=
  let q := p.withOptical { p.optical with present := opres, losLevel := opres && olos }
  conditionsChange ((p.health.live.put .moduleAbsent !opres).put .los (opres && olos))
    (if opres then startPoll q else q)

/-- The radio-test level as taken, and the service state after it (R76, R77). -/
def takeTest (active : Bool) (p : Part) : Part :=
  takeForce p.path.effective (p.withPath { p.path with test := active })

/-- The radio module's presence as taken, and the move of the module state (R107). -/
def takeRadioPresence (present : Bool) (p : Part) : Part :=
  moduleTo (if present then .starting else .absent)
    (p.withRadio { p.radio with present := present })

/-- The first millisecond after part reset: every line's level is taken at once (R51). -/
def firstLevels (pins : Pins) (p : Part) : Part :=
  takeRadioPresence pins.rpres
    (takeTest pins.rtest (firstOptical pins.opres pins.olos (takePins pins p)))

/-- PART_RESET (R13): straps and the channel reset line are sampled, every block takes its part reset
values, and the input lines stand as they are. -/
def execPartReset (strap : BitVec 4) (channelReset : Bool) (s : State) :
    Host.Outcome State Fault Refusal :=
  act (fun p => Part.reset strap channelReset p.clock.pins) s

/-- FIRST_MILLISECOND (R51): once after each part reset (log 8). -/
def execFirstMillisecond (opres olos rtest rpres : Bool) (s : State) :
    Host.Outcome State Fault Refusal :=
  act (fun p =>
    if p.clock.firstTaken then p
    else event (firstLevels { opres := opres, olos := olos, rtest := rtest, rpres := rpres }) p) s

/-- CHANNEL_RESET_ASSERT (R8). -/
def execChannelResetAssert (cut : CutAccess) (s : State) : Host.Outcome State Fault Refusal :=
  act (assertReset cut) s

/-- CHANNEL_RESET_RELEASE (R8). -/
def execChannelResetRelease (s : State) : Host.Outcome State Fault Refusal := act releaseReset s

end Sys2Proof.Machine
end

