-- ==== Sys2Proof/Machine/RadioEvents.lean ====
section
/-! DEFINITION. Meanings of the radio module's presence changes, of the expiries of the radio link
controller's timers, and of the outbound lane (chapter 6). An event that cannot come about in the state
it meets changes nothing (log 3, log 7, log 14). -/

namespace Sys2Proof.Machine

/-- The level of RPRES as the outside drives it, its run of samples over. -/
def setRpres (level : Bool) (p : Part) : Part :=
  p.withClock { p.clock with pins := { p.clock.pins with rpres := level }, radioRun := 0 }

/-- RADIO_PRESENCE_FALL (R107). -/
def execRadioPresenceFall (s : State) : Host.Outcome State Fault Refusal :=
  act (fun p =>
    if p.radio.present then event (fun q => takeRadioPresence false (setRpres false q)) p else p) s

/-- RADIO_PRESENCE_RISE (R107): taken in ABSENT. -/
def execRadioPresenceRise (s : State) : Host.Outcome State Fault Refusal :=
  act (fun p =>
    if p.radio.state = .absent then event (fun q => takeRadioPresence true (setRpres true q)) p
    else p) s

/-! ### Module timers (R108 to R110, R117) -/

/-- The start timer has expired in STARTING (R108, R110). -/
def Part.startDue (p : Part) : Bool :=
  decide (p.radio.state = .starting) && Timer.due p.radio.start p.clock.now

/-- The silence timer has expired in a state in which it runs (R109). -/
def Part.silenceDue (p : Part) : Bool :=
  p.radio.state.listens && Timer.due p.radio.silence p.clock.now

/-- The recover timer has expired in RECOVERING (R110). -/
def Part.recoverDue (p : Part) : Bool :=
  decide (p.radio.state = .recovering) && Timer.due p.radio.recover p.clock.now

/-- The detach timer has expired in DETACHING (R117). -/
def Part.detachDue (p : Part) : Bool :=
  decide (p.radio.state = .detaching) && Timer.due p.radio.detach p.clock.now

/-- The module goes to IDLE, the detach timer cancelled (R117, R118). -/
def moduleToIdle (p : Part) : Part := moduleTo .idle (p.withRadio { p.radio with detach := none })

/-- START_TIMER_EXPIRY (R110). -/
def execStartTimerExpiry (s : State) : Host.Outcome State Fault Refusal :=
  act (fun p => if p.startDue then event (moduleTo .recovering) p else p) s

/-- SILENCE_TIMER_EXPIRY (R109). -/
def execSilenceTimerExpiry (s : State) : Host.Outcome State Fault Refusal :=
  act (fun p => if p.silenceDue then event (moduleTo .recovering) p else p) s

/-- RECOVER_TIMER_EXPIRY (R110). -/
def execRecoverTimerExpiry (s : State) : Host.Outcome State Fault Refusal :=
  act (fun p => if p.recoverDue then event (moduleTo .starting) p else p) s

/-- DETACH_TIMER_EXPIRY (R117). -/
def execDetachTimerExpiry (s : State) : Host.Outcome State Fault Refusal :=
  act (fun p => if p.detachDue then event moduleToIdle p else p) s

/-! ### Attach series and demand (R112 to R116) -/

/-- An answer is awaited: ATTACHING, phase AWAITING (R115). -/
def Part.awaiting (p : Part) : Bool :=
  decide (p.radio.state = .attaching) && decide (p.radio.phase = .awaiting)

/-- The answer timer has expired (R115). -/
def Part.answerDue (p : Part) : Bool := p.awaiting && Timer.due p.radio.answer p.clock.now

/-- The retry timer has expired (R116). -/
def Part.retryDue (p : Part) : Bool :=
  decide (p.radio.phase = .retryWait) && Timer.due p.radio.retry p.clock.now

/-- The re-attempt timer has expired (R116). -/
def Part.reattemptDue (p : Part) : Bool := Timer.due p.radio.reattempt p.clock.now

/-- The linger timer has expired (R112). -/
def Part.lingerDue (p : Part) : Bool := Timer.due p.radio.linger p.clock.now

/-- ANSWER_TIMER_EXPIRY (R115). -/
def execAnswerTimerExpiry (s : State) : Host.Outcome State Fault Refusal :=
  act (fun p => if p.answerDue then event (failAttempt .noAnswer) p else p) s

/-- RETRY_TIMER_EXPIRY (R116): the next attempt of the series (R114). -/
def execRetryTimerExpiry (s : State) : Host.Outcome State Fault Refusal :=
  act (fun p =>
    if p.retryDue then
      event (fun q => q.withRadio (q.radio.placeAttach (q.radio.attempts + 1))) p
    else p) s

/-- RE_ATTEMPT_TIMER_EXPIRY (R116): with demand on in IDLE the event ends by starting a series (R113). -/
def execReAttemptTimerExpiry (s : State) : Host.Outcome State Fault Refusal :=
  act (fun p =>
    if p.reattemptDue then event (fun q => q.withRadio { q.radio with reattempt := none }) p
    else p) s

/-- LINGER_EXPIRY (R112): demand is turned off, which acts by R113 as the event ends. -/
def execLingerExpiry (s : State) : Host.Outcome State Fault Refusal :=
  act (fun p =>
    if p.lingerDue then
      event (fun q => q.withRadio { q.radio with demand := false, linger := none }) p
    else p) s

/-! ### Accept timers (R129) -/

/-- The frame of the outstanding list that was sent under this link sequence (R127). -/
def Part.sentUnder (p : Part) (link : BitVec 16) : Option Sent :=
  p.radio.outstanding.find? fun e => e.link = link

/-- The frame sent under this link sequence leaves the outstanding list: the one `sentUnder` finds (R126). -/
def dropSent (link : BitVec 16) (p : Part) : Part :=
  p.withRadio { p.radio with outstanding := p.radio.outstanding.eraseP fun e => e.link = link }

/-- An accept timer has run out: LINK_TIMEOUT, and RECOVERING at the third in a row while ATTACHED
(R129). -/
def acceptExpires (e : Sent) (p : Part) : Part :=
  let q := discardParts .linkTimeout e.frame.parts (dropSent e.link p)
  let n := min 3 (q.radio.timeouts + 1)
  let r := count .acceptTimeouts 1 (q.withRadio { q.radio with timeouts := n })
  if n = 3 ∧ r.attached then moduleTo .recovering r else r

/-- ACCEPT_TIMER_EXPIRY (R129). -/
def execAcceptTimerExpiry (link : BitVec 16) (s : State) : Host.Outcome State Fault Refusal :=
  act (fun p =>
    match p.sentUnder link with
    | some e => if Timer.due e.accept p.clock.now then event (acceptExpires e) p else p
    | none => p) s

/-! ### The outbound lane (R124, R114, R117) -/

/-- ATTACH_REQ_START (R114): the lane is free and the request pending. -/
def execAttachReqStart (s : State) : Host.Outcome State Fault Refusal :=
  act (fun p =>
    match p.radio.lane, p.radio.control with
    | none, some (.attachReq profile) =>
      if p.radio.state = .attaching then event (startAttachReq profile) p else p
    | _, _ => p) s

/-- DETACH_REQ_START (R117): the lane is free and the request pending. -/
def execDetachReqStart (s : State) : Host.Outcome State Fault Refusal :=
  act (fun p =>
    match p.radio.lane, p.radio.control with
    | none, some (.detachReq _) => if p.attached then event startDetachReq p else p
    | _, _ => p) s

/-- The timer the transfer owes starts: the answer timer, or the accept timer of the frame sent under the
link sequence, if it is still outstanding (R114, R126). -/
def startOwed (o : Owed) (p : Part) : Part :=
  match o with
  | .nothing => p
  | .answer => p.withRadio { p.radio with answer := p.after answerTime }
  | .accept link =>
    p.withRadio { p.radio with
      outstanding := p.radio.outstanding.map fun e =>
        if e.link = link then { e with accept := p.after acceptTime } else e }

/-- The lane frees at the end of a transfer (R119, R124). -/
def endTransfer (t : Transfer) (p : Part) : Part :=
  startOwed t.owes (p.withRadio { p.radio with lane := none })

/-- TRANSFER_END (R124): the message on the lane has ended; what is pending starts as the event ends. -/
def execTransferEnd (s : State) : Host.Outcome State Fault Refusal :=
  act (fun p =>
    match p.radio.lane with
    | some t => event (endTransfer t) p
    | none => p) s

end Sys2Proof.Machine
end

