-- ==== Sys2Proof/Machine/LinkMessages.lean ====
section
/-! DEFINITION. Meanings of the messages the radio module sends (R108, R115, R117, R118, R121 to R123,
R127, R128, R186). The typed rows are messages that have passed the checks of R121; MESSAGE_DROPPED is a
message as received (log 21). -/

namespace Sys2Proof.Machine

/-- Dropped and counted in LINK_ERRORS. -/
def linkError (p : Part) : Part := count .linkErrors 1 p

/-- A message that passes the checks of R121: ignored where messages are not received, otherwise it
restarts the silence timer and acts by `f` (R106, R109, R122). -/
def received (f : Part → Part) (p : Part) : Part :=
  if p.radio.state.receives then event (fun q => f (heard q)) p else p

/-- A buffer count, limited to the maximum of the last READY (R123). -/
def Radio.bufferCount (r : Radio) (b : Byte) : Byte := if r.maxBuffers < b then r.maxBuffers else b

/-- READY (R108, R116, R117, R118, R122): the figures are recorded in every state (log 17). -/
def takeReady (firmware : BitVec 32) (maxBuffers : Byte) (p : Part) : Part :=
  let q := p.withRadio { p.radio with firmware := firmware, maxBuffers := maxBuffers }
  match p.radio.state with
  | .starting =>
    q.withRadio { q.radio with state := .idle, start := none, silence := p.after silenceTime }
  | .attaching => q.withRadio { q.radio.endSeries with state := .idle }
  | .attached => moduleToIdle q
  | .detaching => moduleToIdle q
  | _ => q

/-- The module enters ATTACHED with the figures of ATTACH_OK: the relay, the delivery unit and the path
controller take it, and a RADIO_ATTACH in execution ends with DONE (R115, R123, R131, R170, R194). -/
def enterAttached (serviceId : BitVec 32) (grant : BitVec 16) (buffers : Byte) (p : Part) : Part :=
  let r := p.radio
  let q := p.withRadio { r with
    state := .attached, phase := .none, answer := none, timeouts := 0, serviceId := serviceId,
    grant := grant, buffers := r.bufferCount buffers, lane := r.lane.map Transfer.noAnswer }
  let full := { q with
    relay := { q.relay with credit := q.relay.top, shed := PerClass.ofFn fun _ => false } }
  endAttach Result.done 0 (pathAttached (applyShedding (forgetSequences full)))

/-- ATTACH_OK, an error outside phase AWAITING (R115). -/
def takeAttachOk (serviceId : BitVec 32) (grant : BitVec 16) (buffers : Byte) (p : Part) : Part :=
  if p.awaiting then enterAttached serviceId grant buffers p else linkError p

/-- ATTACH_FAIL, an error outside phase AWAITING (R115). -/
def takeAttachFail (reason : Byte) (p : Part) : Part :=
  if p.awaiting then failAttempt (failureOfByte reason) p else linkError p

/-- DETACHED (R115, R117, R118, R122). -/
def takeDetached (cause : Byte) (p : Part) : Part :=
  let kept := p.withRadio { p.radio with lastDetach := some (causeOfByte cause) }
  match p.radio.state with
  | .attaching => if p.awaiting then failAttempt .noAnswer p else linkError p
  | .attached => moduleToIdle kept
  | .detaching => moduleToIdle kept
  | _ => linkError p

/-- SIGNAL_REPORT, an error in STARTING (R122, R123); a changed grant is handed to the relay (R164). -/
def takeSignal (quality : Byte) (grant : BitVec 16) (buffers : Byte) (p : Part) : Part :=
  if p.radio.state = .starting then linkError p
  else
    let q := p.withRadio { p.radio with
      quality := min 4 quality.toNat, grant := grant, buffers := p.radio.bufferCount buffers }
    if p.radio.grant ≠ grant ∧ p.attached then applyShedding q else q

/-- A frame is accepted (R127). -/
def acceptSent (e : Sent) (buffers : Byte) (p : Part) : Part :=
  let q := mark e.frame.parts (Entry.move .sent) (dropSent e.link p)
  let r := q.withRadio { q.radio with buffers := q.radio.bufferCount buffers, timeouts := 0 }
  raise .uplinkDone (count .bytesSent e.frame.bytes.length (count .framesSent 1 r))

/-- UP_ACCEPT (R127). -/
def takeUpAccept (link : BitVec 16) (buffers : Byte) (p : Part) : Part :=
  match p.sentUnder link with
  | some e => acceptSent e buffers p
  | none => linkError p

/-- A frame is rejected; with reason NOT_ATTACHED while ATTACHED the module goes to IDLE (R128). -/
def rejectSent (e : Sent) (reason : Byte) (p : Part) : Part :=
  let q := dropSent e.link p
  let r := discardParts .moduleReject e.frame.parts (q.withRadio { q.radio with timeouts := 0 })
  if reason = 3 ∧ r.attached then moduleToIdle r else r

/-- UP_REJECT (R128). -/
def takeUpReject (link : BitVec 16) (reason : Byte) (p : Part) : Part :=
  match p.sentUnder link with
  | some e => rejectSent e reason p
  | none => linkError p

/-- An inbound message acts by the table of R122. -/
def takeMessage (m : Inbound) (p : Part) : Part :=
  match m with
  | .ready fw mb => takeReady fw mb p
  | .attachOk sid g b => takeAttachOk sid g b p
  | .attachFail r => takeAttachFail r p
  | .detached c => takeDetached c p
  | .signalReport q g b => takeSignal q g b p
  | .upAccept l b => takeUpAccept l b p
  | .upReject l r => takeUpReject l r p
  | .resetNotice => moduleTo .starting p
  | .dataDown h f => takeDown h f p

/-- A message as received: dropped and counted where a check of R121 fails. -/
def receiveRaw (m : RawMessage) (p : Part) : Part :=
  match checkMessage m with
  | some i => received (takeMessage i) p
  | none => if p.radio.state.receives then linkError p else p

/-- MESSAGE_DROPPED (R121). -/
def execMessageDropped (m : RawMessage) (s : State) : Host.Outcome State Fault Refusal :=
  act (receiveRaw m) s

/-- READY (R108). -/
def execReady (firmware : BitVec 32) (maxBuffers : Byte) (s : State) :
    Host.Outcome State Fault Refusal := act (received (takeReady firmware maxBuffers)) s

/-- ATTACH_OK (R115). -/
def execAttachOk (serviceId : BitVec 32) (grant : BitVec 16) (buffers : Byte) (s : State) :
    Host.Outcome State Fault Refusal := act (received (takeAttachOk serviceId grant buffers)) s

/-- ATTACH_FAIL (R115). -/
def execAttachFail (reason : Byte) (s : State) : Host.Outcome State Fault Refusal :=
  act (received (takeAttachFail reason)) s

/-- DETACHED (R115, R117, R118). -/
def execDetached (cause : Byte) (s : State) : Host.Outcome State Fault Refusal :=
  act (received (takeDetached cause)) s

/-- SIGNAL_REPORT (R123). -/
def execSignalReport (quality : Byte) (grant : BitVec 16) (buffers : Byte) (s : State) :
    Host.Outcome State Fault Refusal := act (received (takeSignal quality grant buffers)) s

/-- UP_ACCEPT (R127). -/
def execUpAccept (link : BitVec 16) (buffers : Byte) (s : State) :
    Host.Outcome State Fault Refusal := act (received (takeUpAccept link buffers)) s

/-- UP_REJECT (R128). -/
def execUpReject (link : BitVec 16) (reason : Byte) (s : State) :
    Host.Outcome State Fault Refusal := act (received (takeUpReject link reason)) s

/-- RESET_NOTICE (R110). -/
def execResetNotice (s : State) : Host.Outcome State Fault Refusal :=
  act (received (moduleTo .starting)) s

/-- DATA_DOWN (R186): a frame longer than 1536 bytes makes a message that fails check 2 (log 30). -/
def execDataDown (header : Carriage) (frame : List Byte) (s : State) :
    Host.Outcome State Fault Refusal :=
  act (fun p =>
    if Config.slotBytes < frame.length then
      (if p.radio.state.receives then linkError p else p)
    else received (takeDown header frame) p) s

end Sys2Proof.Machine
end

