-- ==== Sys2Proof/Machine/OpticalEvents.lean ====
section
/-! DEFINITION. Meanings of the events of the optical monitor and the health unit (chapters 3 and 4).
An event that cannot come about in the state it meets changes nothing (log 3, log 7). -/

namespace Sys2Proof.Machine

/-- The time limit of an I2C attempt in milliseconds (R35). -/
def attemptLimit : Nat := 25

/-- A poll start falls due: its time has come, the poll state is WAITING and the module PRESENT (R34). -/
def Part.pollDue (p : Part) : Bool :=
  p.optical.present && decide (p.optical.poll = .waiting) && Timer.due p.optical.nextPoll p.clock.now

/-- The attempt in flight has reached its time limit (R35). -/
def Part.attemptLate (p : Part) : Bool :=
  decide (p.optical.poll ≠ .waiting) && decide (p.optical.began + attemptLimit ≤ p.clock.now)

/-- The attempt in flight may be left unanswered for this cause: a missing acknowledgement at any time,
the others once the limit has passed (R35). -/
def Part.mayFail (p : Part) : Unanswered → Bool
  | .timeout _ => p.attemptLate
  | .stuck _ _ => p.attemptLate
  | _ => true

/-- POLL_START (R34). -/
def execPollStart (s : State) : Host.Outcome State Fault Refusal :=
  act (fun p => if p.pollDue then startPoll p else p) s

/-- POLL_RETRY (R39): the first attempt is unanswered. -/
def execPollRetry (cause : Unanswered) (s : State) : Host.Outcome State Fault Refusal :=
  act (fun p =>
    if p.optical.poll = .firstAttempt ∧ p.mayFail cause then retryPoll cause p else p) s

/-- POLL_FAILED (R39): the second attempt is unanswered. -/
def execPollFailed (cause : Unanswered) (s : State) : Host.Outcome State Fault Refusal :=
  act (fun p =>
    if p.optical.poll = .retry ∧ p.mayFail cause then event (failPoll cause) p else p) s

/-- POLL_COMPLETE (R38): the ten bytes are received within the limit. -/
def execPollComplete (bytes : List Byte) (s : State) : Host.Outcome State Fault Refusal :=
  act (fun p =>
    if p.optical.poll ≠ .waiting ∧ p.clock.now ≤ p.optical.began + attemptLimit then
      event (completePoll bytes) p
    else p) s

/-- The level of OPRES as the outside drives it, its run of samples over. -/
def setOpres (level : Bool) (p : Part) : Part :=
  p.withClock { p.clock with pins := { p.clock.pins with opres := level }, opticalRun := 0 }

/-- The level of OLOS as the outside drives it. -/
def setOlos (level : Bool) (p : Part) : Part :=
  p.withClock { p.clock with pins := { p.clock.pins with olos := level } }

/-- OPTICAL_PRESENCE_FALL (R40). -/
def execOpticalPresenceFall (s : State) : Host.Outcome State Fault Refusal :=
  act (fun p =>
    if p.optical.present then event (fun q => presenceFalls (setOpres false q)) p else p) s

/-- OPTICAL_PRESENCE_RISE (R41). -/
def execOpticalPresenceRise (olos : Bool) (s : State) : Host.Outcome State Fault Refusal :=
  act (fun p =>
    if p.optical.present then p
    else event (fun q => presenceRises olos (setOlos olos (setOpres true q))) p) s

/-- LOS_CHANGE (R42): taken while the module is PRESENT, where the level differs. -/
def execLosChange (active : Bool) (s : State) : Host.Outcome State Fault Refusal :=
  act (fun p =>
    if p.optical.present ∧ p.optical.losLevel ≠ active then
      event (fun q => losChanges active (setOlos active q)) p
    else p) s

/-- The settle time of the TX_OFF phase that has reached its end (R43). -/
def Part.txOffDue (p : Part) : Option Nat :=
  match p.optical.window with
  | .txOff ends settle => if ends ≤ p.clock.now then some settle else none
  | _ => none

/-- SETTLING has reached its end (R43). -/
def Part.settlingDue (p : Part) : Bool :=
  match p.optical.window with
  | .settling ends => ends ≤ p.clock.now
  | _ => false

/-- TX_OFF_END (R43, R45). -/
def execTxOffEnd (s : State) : Host.Outcome State Fault Refusal :=
  act (fun p =>
    match p.txOffDue with
    | some settle => event (endTxOff settle) p
    | none => p) s

/-- SETTLING_END (R44, R69). -/
def execSettlingEnd (s : State) : Host.Outcome State Fault Refusal :=
  act (fun p => if p.settlingDue then event endWindow p else p) s

/-- AUTOMATIC_RESTART_EXPIRY (R48). -/
def execAutomaticRestartExpiry (s : State) : Host.Outcome State Fault Refusal :=
  act (fun p => if p.runDue then event runExpires p else p) s

/-- STALENESS_EXPIRY (R61). -/
def execStalenessExpiry (s : State) : Host.Outcome State Fault Refusal :=
  act (fun p => if p.staleDue then event staleExpires p else p) s

end Sys2Proof.Machine
end

