-- ==== Sys2Proof/Machine/PathEvents.lean ====
section
/-! DEFINITION. Meanings of the radio-test change and of the expiries of the path controller's timers
(chapter 5). An expiry whose timer has not fallen due changes nothing (log 3). -/

namespace Sys2Proof.Machine

/-- The level of RTEST as the outside drives it, its run of samples over. -/
def setRtest (level : Bool) (p : Part) : Part :=
  p.withClock { p.clock with pins := { p.clock.pins with rtest := level }, testRun := 0 }

/-- RADIO_TEST_CHANGE (R76, R77): taken where the level differs. -/
def execRadioTestChange (active : Bool) (s : State) : Host.Outcome State Fault Refusal :=
  act (fun p =>
    if p.path.test = active then p else event (fun q => takeTest active (setRtest active q)) p) s

/-- The dwell has expired (R84). -/
def Part.dwellDue (p : Part) : Bool :=
  decide (p.path.service = .suspect) && Timer.due p.path.dwell p.clock.now

/-- The prove timer has expired (R86). -/
def Part.proveDue (p : Part) : Bool :=
  decide (p.path.service = .proving) && Timer.due p.path.prove p.clock.now

/-- The stranded-prove timer has expired (R87). -/
def Part.strandedProveDue (p : Part) : Bool :=
  decide (p.path.service = .stranded) && Timer.due p.path.strandedProve p.clock.now

/-- VOICE is WAITING_QUIET and the timer `t` of its wait has expired (R90). -/
def Part.voiceDue (p : Part) (t : Timer) : Bool :=
  decide (p.path.classes.voice.sub = .waitingQuiet) && Timer.due t p.clock.now

/-- Class `c` is DRAINING and its drain timer has expired (R92). -/
def Part.drainDue (p : Part) (c : ServiceClass) : Bool :=
  p.draining c && Timer.due (p.path.classes.get c).drain p.clock.now

/-- The drain limit of class `c` expires: RETURNED, what it has queued discarded, and R93 (R92, R79). -/
def drainExpires (c : ServiceClass) (p : Part) : Part :=
  returnEnds
    (discardFibre .drainLimit
      (p.withPath { p.path with classes := p.path.classes.set c ClassPath.fibre }))

/-- DWELL_EXPIRY (R84). -/
def execDwellExpiry (s : State) : Host.Outcome State Fault Refusal :=
  act (fun p => if p.dwellDue then event dwellEnds p else p) s

/-- PROVE_EXPIRY (R86, R88). -/
def execProveExpiry (s : State) : Host.Outcome State Fault Refusal :=
  act (fun p => if p.proveDue then event enterReturning p else p) s

/-- STRANDED_PROVE_EXPIRY (R87). -/
def execStrandedProveExpiry (s : State) : Host.Outcome State Fault Refusal :=
  act (fun p => if p.strandedProveDue then event (enterFibre .drainLimit) p else p) s

/-- VOICE_QUIET_EXPIRY (R90). -/
def execVoiceQuietExpiry (s : State) : Host.Outcome State Fault Refusal :=
  act (fun p => if p.voiceDue p.path.quiet then event voiceDrains p else p) s

/-- VOICE_STICK_EXPIRY (R90). -/
def execVoiceStickExpiry (s : State) : Host.Outcome State Fault Refusal :=
  act (fun p => if p.voiceDue p.path.stick then event voiceDrains p else p) s

/-- DRAIN_LIMIT_EXPIRY (R92). -/
def execDrainLimitExpiry (cls : ServiceClass) (s : State) : Host.Outcome State Fault Refusal :=
  act (fun p => if p.drainDue cls then event (drainExpires cls) p else p) s

end Sys2Proof.Machine
end

