-- ==== Sys2Proof/Machine/RelayEvents.lean ====
section
/-! DEFINITION. Meanings of the relay's own events: accrual, the start of a send, and age expiries
(chapter 8). -/

namespace Sys2Proof.Machine

/-- A millisecond of accrual: the credit grows by the grant, up to the top (R168). -/
def accrue (p : Part) : Part :=
  { p with relay := { p.relay with
      credit := min p.relay.top (p.relay.credit + p.radio.grant.toNat) } }

/-- CREDIT_ACCRUAL (R168): while ATTACHED; the send conditions are examined as the event ends (R174). -/
def execCreditAccrual (s : State) : Host.Outcome State Fault Refusal :=
  act (fun p => if p.attached then event accrue p else p) s

/-- The candidate, when every send condition holds (R172, R173). -/
def Part.sendable (p : Part) : Option Frame := p.candidate.filter fun f => p.maySend f

/-- DATA_UP_START (R175). -/
def execDataUpStart (s : State) : Host.Outcome State Fault Refusal :=
  act (fun p =>
    match p.sendable with
    | some f => event (startDataUp f) p
    | none => p) s

/-- The oldest queued frame of class `c` that has reached its age limit (R163). -/
def Part.overdue (p : Part) (c : ServiceClass) : Option Frame :=
  (p.relay.queues.get c).find? fun f => p.relay.ages.get c ≤ f.age p.clock.now

/-- The frame leaves its queue and is discarded with AGED (R163, R160). -/
def ageOut (c : ServiceClass) (f : Frame) (p : Part) : Part :=
  discardParts .aged f.parts (setQueue c ((p.relay.queues.get c).erase f) p)

/-- AGE_EXPIRY (R163). -/
def execAgeExpiry (cls : ServiceClass) (s : State) : Host.Outcome State Fault Refusal :=
  act (fun p =>
    match p.overdue cls with
    | some f => event (ageOut cls f) p
    | none => p) s

end Sys2Proof.Machine
end

