-- ==== Sys2Proof/Machine/SlotCommands.lean ====
section
/-! DEFINITION. Meanings of the writes to the command slot, the acknowledge line and the fibre report
line (R13, R22 to R32). Each is the write command as it comes over the channel. -/

namespace Sys2Proof.Machine

/-- The write to the command header line that carries `code`. -/
def slotWrite (code : Byte) (h : HeaderBurst) (p : Part) : Part := channelWrite (headerWrite code h) p

/-- The write to the anchor line at `offset`. -/
def anchorLineWrite (offset : Nat) (w : AnchorBurst) (p : Part) : Part :=
  channelWrite (anchorWrite offset w) p

/-- COMMAND_PARAMETER_WRITE (R22). -/
def execCommandParameterWrite (w : AnchorBurst) (s : State) : Host.Outcome State Fault Refusal :=
  act (anchorLineWrite parameterOffset w) s

/-- COMMAND_HEADER_MERGE (R22): a header line write that carries no command. -/
def execCommandHeaderMerge (w : AnchorBurst) (s : State) : Host.Outcome State Fault Refusal :=
  act (anchorLineWrite headerOffset w) s

/-- COMMAND_REFUSED_BUSY (R27). -/
def execCommandRefusedBusy (code : Byte) (h : HeaderBurst) (s : State) :
    Host.Outcome State Fault Refusal := act (slotWrite code h) s

/-- UNKNOWN_COMMAND (R30). -/
def execUnknownCommand (code : Byte) (h : HeaderBurst) (s : State) :
    Host.Outcome State Fault Refusal := act (slotWrite code h) s

/-- IDENTIFY (R31). -/
def execIdentify (h : HeaderBurst) (s : State) : Host.Outcome State Fault Refusal :=
  act (slotWrite 0x01 h) s

/-- RESTART (R32). -/
def execRestart (h : HeaderBurst) (s : State) : Host.Outcome State Fault Refusal :=
  act (slotWrite 0x02 h) s

/-- SET_EVENTS (R202). -/
def execSetEvents (h : HeaderBurst) (s : State) : Host.Outcome State Fault Refusal :=
  act (slotWrite 0x03 h) s

/-- CLEAR_COUNTERS (R204). -/
def execClearCounters (h : HeaderBurst) (s : State) : Host.Outcome State Fault Refusal :=
  act (slotWrite 0x04 h) s

/-- DEFINE_UPLINK (R142, R143). -/
def execDefineUplink (h : HeaderBurst) (s : State) : Host.Outcome State Fault Refusal :=
  act (slotWrite 0x05 h) s

/-- DEFINE_CAPTURE (R144, R145). -/
def execDefineCapture (h : HeaderBurst) (s : State) : Host.Outcome State Fault Refusal :=
  act (slotWrite 0x06 h) s

/-- DEFINE_DELIVERY (R195, R196). -/
def execDefineDelivery (h : HeaderBurst) (s : State) : Host.Outcome State Fault Refusal :=
  act (slotWrite 0x07 h) s

/-- SET_OPTICS (R49, R50). -/
def execSetOptics (h : HeaderBurst) (s : State) : Host.Outcome State Fault Refusal :=
  act (slotWrite 0x08 h) s

/-- FIBRE_RESTART (R45). -/
def execFibreRestart (h : HeaderBurst) (s : State) : Host.Outcome State Fault Refusal :=
  act (slotWrite 0x09 h) s

/-- SET_THRESHOLDS (R71, R72). -/
def execSetThresholds (h : HeaderBurst) (s : State) : Host.Outcome State Fault Refusal :=
  act (slotWrite 0x0A h) s

/-- CLEAR_LATCHES (R66). -/
def execClearLatches (h : HeaderBurst) (s : State) : Host.Outcome State Fault Refusal :=
  act (slotWrite 0x0B h) s

/-- SET_PATH_TIMERS (R102, R103). -/
def execSetPathTimers (h : HeaderBurst) (s : State) : Host.Outcome State Fault Refusal :=
  act (slotWrite 0x0C h) s

/-- FORCE (R101). -/
def execForce (h : HeaderBurst) (s : State) : Host.Outcome State Fault Refusal :=
  act (slotWrite 0x0D h) s

/-- SET_RADIO (R130). -/
def execSetRadio (h : HeaderBurst) (s : State) : Host.Outcome State Fault Refusal :=
  act (slotWrite 0x0E h) s

/-- RADIO_ATTACH (R131). -/
def execRadioAttach (h : HeaderBurst) (s : State) : Host.Outcome State Fault Refusal :=
  act (slotWrite 0x0F h) s

/-- RADIO_DETACH (R132). -/
def execRadioDetach (h : HeaderBurst) (s : State) : Host.Outcome State Fault Refusal :=
  act (slotWrite 0x10 h) s

/-- SET_RELAY (R180, R181). -/
def execSetRelay (h : HeaderBurst) (s : State) : Host.Outcome State Fault Refusal :=
  act (slotWrite 0x11 h) s

/-- ACKNOWLEDGE_WRITE (R200). -/
def execAcknowledgeWrite (w : AnchorBurst) (s : State) : Host.Outcome State Fault Refusal :=
  act (anchorLineWrite acknowledgeOffset w) s

/-- FIBRE_REPORT (R59, R60). -/
def execFibreReport (w : AnchorBurst) (s : State) : Host.Outcome State Fault Refusal :=
  act (anchorLineWrite reportOffset w) s

end Sys2Proof.Machine
end

