-- ==== Sys2Proof/Machine/Dispatch.lean ====
section
/-! DEFINITION. One arm per command: each calls its meaning. -/

namespace Sys2Proof.Machine

def exec (i : Instr) (s : State) : Host.Outcome State Fault Refusal :=
  match i with
  | .partReset strap channelReset => Sys2Proof.Machine.execPartReset strap channelReset s
  | .firstMillisecond opres olos rtest rpres => Sys2Proof.Machine.execFirstMillisecond opres olos rtest rpres s
  | .channelResetAssert cut => Sys2Proof.Machine.execChannelResetAssert cut s
  | .channelResetRelease => Sys2Proof.Machine.execChannelResetRelease s
  | .openRow bank row => Sys2Proof.Machine.execOpenRow bank row s
  | .closeRow all bank => Sys2Proof.Machine.execCloseRow all bank s
  | .refresh => Sys2Proof.Machine.execRefresh s
  | .modeSet register value => Sys2Proof.Machine.execModeSet register value s
  | .powerDownEntry => Sys2Proof.Machine.execPowerDownEntry s
  | .selfRefreshEntry => Sys2Proof.Machine.execSelfRefreshEntry s
  | .powerDownExit => Sys2Proof.Machine.execPowerDownExit s
  | .commandOutOfPlace pins => Sys2Proof.Machine.execCommandOutOfPlace pins s
  | .lineRead r => Sys2Proof.Machine.execLineRead r s
  | .lineWrite w => Sys2Proof.Machine.execLineWrite w s
  | .commandParameterWrite w => Sys2Proof.Machine.execCommandParameterWrite w s
  | .commandHeaderMerge w => Sys2Proof.Machine.execCommandHeaderMerge w s
  | .commandRefusedBusy code h => Sys2Proof.Machine.execCommandRefusedBusy code h s
  | .unknownCommand code h => Sys2Proof.Machine.execUnknownCommand code h s
  | .identify h => Sys2Proof.Machine.execIdentify h s
  | .restart h => Sys2Proof.Machine.execRestart h s
  | .setEvents h => Sys2Proof.Machine.execSetEvents h s
  | .clearCounters h => Sys2Proof.Machine.execClearCounters h s
  | .defineUplink h => Sys2Proof.Machine.execDefineUplink h s
  | .defineCapture h => Sys2Proof.Machine.execDefineCapture h s
  | .defineDelivery h => Sys2Proof.Machine.execDefineDelivery h s
  | .setOptics h => Sys2Proof.Machine.execSetOptics h s
  | .fibreRestart h => Sys2Proof.Machine.execFibreRestart h s
  | .setThresholds h => Sys2Proof.Machine.execSetThresholds h s
  | .clearLatches h => Sys2Proof.Machine.execClearLatches h s
  | .setPathTimers h => Sys2Proof.Machine.execSetPathTimers h s
  | .force h => Sys2Proof.Machine.execForce h s
  | .setRadio h => Sys2Proof.Machine.execSetRadio h s
  | .radioAttach h => Sys2Proof.Machine.execRadioAttach h s
  | .radioDetach h => Sys2Proof.Machine.execRadioDetach h s
  | .setRelay h => Sys2Proof.Machine.execSetRelay h s
  | .acknowledgeWrite w => Sys2Proof.Machine.execAcknowledgeWrite w s
  | .fibreReport w => Sys2Proof.Machine.execFibreReport w s
  | .captureWrite w => Sys2Proof.Machine.execCaptureWrite w s
  | .descriptorFieldWrite w => Sys2Proof.Machine.execDescriptorFieldWrite w s
  | .partialDescriptorWrite w => Sys2Proof.Machine.execPartialDescriptorWrite w s
  | .post d => Sys2Proof.Machine.execPost d s
  | .withdraw d => Sys2Proof.Machine.execWithdraw d s
  | .release w => Sys2Proof.Machine.execRelease w s
  | .pollStart => Sys2Proof.Machine.execPollStart s
  | .pollRetry cause => Sys2Proof.Machine.execPollRetry cause s
  | .pollFailed cause => Sys2Proof.Machine.execPollFailed cause s
  | .pollComplete bytes => Sys2Proof.Machine.execPollComplete bytes s
  | .opticalPresenceFall => Sys2Proof.Machine.execOpticalPresenceFall s
  | .opticalPresenceRise olos => Sys2Proof.Machine.execOpticalPresenceRise olos s
  | .losChange active => Sys2Proof.Machine.execLosChange active s
  | .txOffEnd => Sys2Proof.Machine.execTxOffEnd s
  | .settlingEnd => Sys2Proof.Machine.execSettlingEnd s
  | .automaticRestartExpiry => Sys2Proof.Machine.execAutomaticRestartExpiry s
  | .stalenessExpiry => Sys2Proof.Machine.execStalenessExpiry s
  | .radioTestChange active => Sys2Proof.Machine.execRadioTestChange active s
  | .dwellExpiry => Sys2Proof.Machine.execDwellExpiry s
  | .proveExpiry => Sys2Proof.Machine.execProveExpiry s
  | .strandedProveExpiry => Sys2Proof.Machine.execStrandedProveExpiry s
  | .voiceQuietExpiry => Sys2Proof.Machine.execVoiceQuietExpiry s
  | .voiceStickExpiry => Sys2Proof.Machine.execVoiceStickExpiry s
  | .drainLimitExpiry cls => Sys2Proof.Machine.execDrainLimitExpiry cls s
  | .radioPresenceFall => Sys2Proof.Machine.execRadioPresenceFall s
  | .radioPresenceRise => Sys2Proof.Machine.execRadioPresenceRise s
  | .startTimerExpiry => Sys2Proof.Machine.execStartTimerExpiry s
  | .silenceTimerExpiry => Sys2Proof.Machine.execSilenceTimerExpiry s
  | .recoverTimerExpiry => Sys2Proof.Machine.execRecoverTimerExpiry s
  | .messageDropped m => Sys2Proof.Machine.execMessageDropped m s
  | .ready firmware maxBuffers => Sys2Proof.Machine.execReady firmware maxBuffers s
  | .attachOk serviceId grant buffers => Sys2Proof.Machine.execAttachOk serviceId grant buffers s
  | .attachFail reason => Sys2Proof.Machine.execAttachFail reason s
  | .detached cause => Sys2Proof.Machine.execDetached cause s
  | .signalReport quality grant buffers => Sys2Proof.Machine.execSignalReport quality grant buffers s
  | .upAccept link buffers => Sys2Proof.Machine.execUpAccept link buffers s
  | .upReject link reason => Sys2Proof.Machine.execUpReject link reason s
  | .resetNotice => Sys2Proof.Machine.execResetNotice s
  | .dataDown header frame => Sys2Proof.Machine.execDataDown header frame s
  | .answerTimerExpiry => Sys2Proof.Machine.execAnswerTimerExpiry s
  | .retryTimerExpiry => Sys2Proof.Machine.execRetryTimerExpiry s
  | .reAttemptTimerExpiry => Sys2Proof.Machine.execReAttemptTimerExpiry s
  | .lingerExpiry => Sys2Proof.Machine.execLingerExpiry s
  | .detachTimerExpiry => Sys2Proof.Machine.execDetachTimerExpiry s
  | .acceptTimerExpiry link => Sys2Proof.Machine.execAcceptTimerExpiry link s
  | .attachReqStart => Sys2Proof.Machine.execAttachReqStart s
  | .detachReqStart => Sys2Proof.Machine.execDetachReqStart s
  | .transferEnd => Sys2Proof.Machine.execTransferEnd s
  | .creditAccrual => Sys2Proof.Machine.execCreditAccrual s
  | .dataUpStart => Sys2Proof.Machine.execDataUpStart s
  | .ageExpiry cls => Sys2Proof.Machine.execAgeExpiry cls s

end Sys2Proof.Machine
end

