-- ==== Sys2Proof/Machine/Tick.lean ====
section
/-! DEFINITION. One millisecond of the timebase: the input lines are sampled and the events that fall
due are queued (00_scope.md "Time"; R34, R40, R42, R51, R76, R107, R168; log 1, log 2). -/

namespace Sys2Proof.Machine

/-- Samples a new presence level must be shown at before it is taken (R40, R107). -/
def presenceSamples : Nat := 10

/-- Samples a new radio-test level must be shown at before it is taken (R76). -/
def testSamples : Nat := 20

/-- A run of samples that differ from the level taken: over at a sample that shows it again. -/
def nextRun (taken level : Bool) (run : Nat) : Nat := if level = taken then 0 else run + 1

/-- The timebase one millisecond on, and the lines sampled (R40, R76, R107). -/
def sampled (p : Part) : Part :=
  let c := p.clock
  if c.firstTaken then
    p.withClock { c with
      now := c.now + 1
      opticalRun := nextRun p.optical.present c.pins.opres c.opticalRun
      testRun := nextRun p.path.test c.pins.rtest c.testRun
      radioRun := nextRun p.radio.present c.pins.rpres c.radioRun }
  else p.withClock { c with now := c.now + 1 }

/-- The event, where it falls due. -/
def fallsDue (b : Bool) (i : Instr) : List Instr := if b then [i] else []

/-- What the lines give rise to at a sample (R40, R42, R51, R76, R107). -/
def lineEvents (p : Part) : List Instr :=
  let pins := p.clock.pins
  if p.clock.firstTaken then
    fallsDue (decide (presenceSamples ≤ p.clock.opticalRun))
        (if p.optical.present then .opticalPresenceFall else .opticalPresenceRise pins.olos) ++
      fallsDue (p.optical.present && pins.olos != p.optical.losLevel) (.losChange pins.olos) ++
      fallsDue (decide (testSamples ≤ p.clock.testRun)) (.radioTestChange pins.rtest) ++
      fallsDue (decide (presenceSamples ≤ p.clock.radioRun))
        (if p.radio.present then .radioPresenceFall else .radioPresenceRise)
  else [.firstMillisecond pins.opres pins.olos pins.rtest pins.rpres]

/-- How the attempt in flight is left unanswered as its time limit passes in the millisecond `now`: with the data
line high or held low, wherever it had got to (R35; free values, log 28). -/
def limitPassed (now : Nat) : Unanswered :=
  match Config.busHeld now with
  | none => .timeout (Config.busReached now)
  | some pulses => .stuck (Config.busReached now) pulses

/-- The events of the optical monitor and the health unit that fall due (chapters 3 and 4). -/
def opticalDue (p : Part) : List Instr :=
  fallsDue p.pollDue .pollStart ++
    fallsDue (decide (p.optical.poll = .firstAttempt) && p.attemptLate)
      (.pollRetry (limitPassed p.clock.now)) ++
    fallsDue (decide (p.optical.poll = .retry) && p.attemptLate) (.pollFailed (limitPassed p.clock.now)) ++
    fallsDue p.txOffDue.isSome .txOffEnd ++ fallsDue p.settlingDue .settlingEnd ++
    fallsDue p.runDue .automaticRestartExpiry ++ fallsDue p.staleDue .stalenessExpiry

/-- The expiries of the path controller that fall due (chapter 5). -/
def pathDue (p : Part) : List Instr :=
  fallsDue p.dwellDue .dwellExpiry ++ fallsDue p.proveDue .proveExpiry ++
    fallsDue p.strandedProveDue .strandedProveExpiry ++
    fallsDue (p.voiceDue p.path.quiet) .voiceQuietExpiry ++
    fallsDue (p.voiceDue p.path.stick) .voiceStickExpiry ++
    classes.flatMap fun c => fallsDue (p.drainDue c) (.drainLimitExpiry c)

/-- The transfer on the lane is over (R119; log 4). -/
def Part.laneDue (p : Part) : Bool := p.radio.lane.any fun t => t.ends ≤ p.clock.now

/-- The expiries of the radio link controller that fall due (chapter 6). -/
def radioDue (p : Part) : List Instr :=
  fallsDue p.startDue .startTimerExpiry ++ fallsDue p.silenceDue .silenceTimerExpiry ++
    fallsDue p.recoverDue .recoverTimerExpiry ++ fallsDue p.detachDue .detachTimerExpiry ++
    fallsDue p.answerDue .answerTimerExpiry ++ fallsDue p.retryDue .retryTimerExpiry ++
    fallsDue p.reattemptDue .reAttemptTimerExpiry ++ fallsDue p.lingerDue .lingerExpiry ++
    ((p.radio.outstanding.filter fun e => Timer.due e.accept p.clock.now).map fun e =>
      .acceptTimerExpiry e.link) ++
    fallsDue p.laneDue .transferEnd

/-- The relay's millisecond of accrual and the age expiries that fall due (R163, R168). -/
def relayDue (p : Part) : List Instr :=
  fallsDue p.attached .creditAccrual ++
    classes.flatMap fun c =>
      ((p.relay.queues.get c).filter fun f => p.relay.ages.get c ≤ f.age p.clock.now).map fun _ =>
        .ageExpiry c

/-- Every event that falls due in the present millisecond. -/
def dueEvents (p : Part) : List Instr :=
  lineEvents p ++ opticalDue p ++ pathDue p ++ radioDue p ++ relayDue p

/-- An event put in its place by rank. -/
def insertRanked (x : Nat × Instr) : List (Nat × Instr) → List (Nat × Instr)
  | [] => [x]
  | y :: ys => if x.1 ≤ y.1 then x :: y :: ys else y :: insertRanked x ys

/-- The events of one millisecond in an order the manual leaves open (log 2). -/
def orderTies (now : Nat) (es : List Instr) : List Instr :=
  ((es.mapIdx fun n i => (Config.tieKey now n, i)).foldr insertRanked []).map Prod.snd

/-- One millisecond (log 1). -/
def tick (s : State) : State :=
  let p := sampled s.part
  { s with part := p, pending := orderTies p.clock.now (dueEvents p) }

end Sys2Proof.Machine
end

