-- ==== Sys2Proof/Safety.lean ====
section
/-! DEFINITION. What the statements speak of: what the end of an event leaves alone, when a host write
reaches the part, and the invariants of a run. -/

namespace Sys2Proof.Machine

/-! ### Outcomes -/

/-- `s` with the part `p` and the same commands waiting. -/
def State.having (s : State) (p : Part) : State := { s with part := p }

/-- The command is answered by a next state with the same commands waiting, and its part satisfies `q`. -/
def Leads (i : Instr) (s : State) (q : Part → Prop) : Prop :=
  ∃ p, exec i s = .next (s.having p) ∧ q p

/-! ### Which command comes over the channel -/

/-- The row of a command written into the command slot: its code and the header write (R24). -/
def headerRow : Instr → Option (Byte × HeaderBurst)
  | .commandRefusedBusy code h => some (code, h)
  | .unknownCommand code h => some (code, h)
  | .identify h => some (0x01, h)
  | .restart h => some (0x02, h)
  | .setEvents h => some (0x03, h)
  | .clearCounters h => some (0x04, h)
  | .defineUplink h => some (0x05, h)
  | .defineCapture h => some (0x06, h)
  | .defineDelivery h => some (0x07, h)
  | .setOptics h => some (0x08, h)
  | .fibreRestart h => some (0x09, h)
  | .setThresholds h => some (0x0A, h)
  | .clearLatches h => some (0x0B, h)
  | .setPathTimers h => some (0x0C, h)
  | .force h => some (0x0D, h)
  | .setRadio h => some (0x0E, h)
  | .radioAttach h => some (0x0F, h)
  | .radioDetach h => some (0x10, h)
  | .setRelay h => some (0x11, h)
  | _ => none

/-- The write command of a row that writes into memory (log 9). -/
def writeOf : Instr → Option WriteBurst
  | .lineWrite w => some w
  | .commandParameterWrite w => some (anchorWrite parameterOffset w)
  | .commandHeaderMerge w => some (anchorWrite headerOffset w)
  | .acknowledgeWrite w => some (anchorWrite acknowledgeOffset w)
  | .fibreReport w => some (anchorWrite reportOffset w)
  | .captureWrite w => some w
  | .descriptorFieldWrite w => some w
  | .partialDescriptorWrite w => some w
  | .post d => some (descriptorWrite 1 d)
  | .withdraw d => some (descriptorWrite 2 d)
  | .release w => some w
  | i => (headerRow i).map fun c => headerWrite c.1 c.2

/-- The channel command of a row, as it reaches DRAM (R1). -/
def channelOp : Instr → Option DramCommand
  | .openRow b r => some (.named (.openRow b r))
  | .closeRow all b => some (.named (if all then .closeAll else .closeRow b))
  | .refresh => some (.named .refresh)
  | .modeSet r v => some (.named (.modeSet r v))
  | .powerDownEntry => some (.named .powerDownEntry)
  | .selfRefreshEntry => some (.named .selfRefreshEntry)
  | .powerDownExit => some (.named .exit)
  | .commandOutOfPlace pins => some (.pins pins)
  | .lineRead r => some (.named (.read r))
  | i => (writeOf i).map fun w => .named (.write w)

/-- The kind of a command, as the part sorts it (R2). -/
def DramCommand.op : DramCommand → ChannelOp
  | .named op => op
  | .pins c => sortCommand c

/-- Bank and row that a burst addresses, where the command is a read or a write. -/
def ChannelOp.burst : ChannelOp → Option Burst
  | .read r => some r.place
  | .write w => some w.place
  | _ => none

/-! ### Commands over the channel -/

/-- The part with the command recorded as passed to DRAM and nothing else changed (R1). -/
def passed (op : ChannelOp) (p : Part) : Part := p.withChannel { p.channel with toDram := some (.named op) }

/-- The bank closes where the burst asks for auto-close (R3). -/
def autoClosed (b : Burst) (p : Part) : Part := if b.autoClose then setBank b.bank none p else p

/-- The host reaches the anchor block: the channel is ACTIVE, mode is learned, and bank 7 has the anchor
row open (R9, R13, R18). -/
structure Part.AnchorOpen (p : Part) : Prop where
  active : p.channel.state = .active
  learned : p.channel.learned = true
  row : p.channel.row 7 = some (BitVec.ofNat 15 (p.windows.strap.toNat * 2048))

/-- The lanes a write command carries under the recorded burst mode (R9, R10). -/
def Part.lanesOf (p : Part) (w : WriteBurst) : List Lane :=
  carried (p.channel.chopped w.place) (startPosition w.place) 8 w.lanes

/-- The header write carries a command: bytes 0 to 3 lie in its extent and byte 1 is unmasked (R23). -/
def Part.CarriesCommand (p : Part) (h : HeaderBurst) : Prop :=
  h.second.isSome = true ∧ (p.channel.chopped (headerWrite 0 h).place = true → h.start.toNat < 4)

/-- The header copy after the write (R22). -/
def slotHeader (code : Byte) (h : HeaderBurst) (p : Part) : List Byte :=
  mergeLanes p.command.header (p.lanesOf (headerWrite code h))

/-- The parameter block the command takes (R23). -/
def slotParams (code : Byte) (h : HeaderBurst) (p : Part) : List Byte :=
  parameterBlock (slotHeader code h p) p.command.params

/-- The host writes the command with code `code` and the part is free to take it (R24). -/
structure Part.Takes (p : Part) (h : HeaderBurst) : Prop where
  anchor : p.AnchorOpen
  carries : p.CarriesCommand h
  idle : p.command.running = none

/-- The result area of a command that has completed, the copies as the write left them (R24, R25, R28). -/
def completed (code : Byte) (h : HeaderBurst) (result : Byte) (clamp : BitVec 32) (data : List Byte)
    (p : Part) : Command :=
  { header := slotHeader code h p, params := p.command.params, running := none, tag := h.tag,
    code := code, result := result, clamp := clamp, refused := p.command.refused,
    data := padTo 16 data }

/-- The channel monitor after a command header write: passed on, and the bank closed where asked. -/
def slotChannel (code : Byte) (h : HeaderBurst) (p : Part) : Channel :=
  (autoClosed (headerWrite code h).place (passed (.write (headerWrite code h)) p)).channel

/-- The channel monitor after a write to the anchor line at `offset` (R1, R3). -/
def anchorChannel (offset : Nat) (w : AnchorBurst) (p : Part) : Channel :=
  (autoClosed (anchorWrite offset w).place (passed (.write (anchorWrite offset w)) p)).channel

/-- `p` with the command `code` completed: the write passed on, the result area written, COMMAND_DONE
raised (R25). -/
def answered (code : Byte) (h : HeaderBurst) (result : Byte) (clamp : BitVec 32) (data : List Byte)
    (p : Part) : Part :=
  raise .commandDone
    { p with channel := slotChannel code h p, command := completed code h result clamp data p }

/-- `p` with the timed command `code` in execution: the write passed on, the result area at EXECUTING
(R24, R26). -/
def underWay (code : Byte) (h : HeaderBurst) (t : Timed) (p : Part) : Part :=
  { p with
    channel := slotChannel code h p
    command := { completed code h 0x80 0 [] p with running := some t } }

/-! ### The window table -/

/-- No byte lies in both windows. -/
def Window.apart (v w : Window) : Prop := v.base + v.size ≤ w.base ∨ w.base + w.size ≤ v.base

/-- The checks of R15 on the extents `new`, against the windows `others`. -/
def Admits (others new : List Window) : Prop :=
  (∀ w ∈ new, w.base % 32 = 0 ∧ w.base + w.size ≤ 0x40000000 ∧ ∀ v ∈ others, w.apart v) ∧
    new.Pairwise Window.apart

/-! ### The uplink table -/

/-- The write command passed on and its bank closed where it asks for it (R1, R3). -/
def Part.sent (w : WriteBurst) (p : Part) : Part :=
  { p with channel := { p.channel with
      toDram := some (.named (.write w))
      banks := if w.place.autoClose then p.channel.banks.set w.place.bank.toNat none
        else p.channel.banks } }

/-- The write command `w` reaches line `m` of the uplink table (R17). -/
structure Part.ReachesTable (w : WriteBurst) (m : Nat) (p : Part) : Prop where
  active : p.channel.state = .active
  learned : p.channel.learned = true
  line : ∃ row, p.channel.row w.place.bank = some row ∧
    p.windows.classify (lineAddress row w.place) = .uplink m

/-- The half-line that a descriptor write's start column lies in: 0 or 1. -/
def halfOf (d : DescriptorBurst) : Nat := d.place.column.toNat / 4 % 2

/-- The whole descriptor write `d` with give byte `give` reaches entry `i`, which is `e`, and carries nothing
of the other descriptor of its line (R140). -/
structure Part.Gives (give : Byte) (d : DescriptorBurst) (i : Nat) (e : Entry) (p : Part) : Prop where
  reaches : ∃ m, p.ReachesTable (descriptorWrite give d) m ∧ i = 2 * m + halfOf d
  alone : ∀ b, b < 16 → lane (p.lanesOf (descriptorWrite give d)) (16 * (1 - halfOf d) + b) = none
  entry : p.uplink.entries[i]? = some e
  whole : e.host.length = 16

/-- The host-side copy once it has taken the descriptor: the part-side positions keep what they hold (R140). -/
def takenHost (give : Byte) (d : DescriptorBurst) (old : List Byte) : List Byte :=
  leBytes 4 d.address.toNat ++ leBytes 2 d.length.toNat ++ [d.cls, give, d.chain] ++ slice old 9 3 ++
    leBytes 2 d.tag.toNat ++ slice old 14 2

/-! ### Health -/

/-- The health unit `h` once its live conditions are `live`: those that became set latch by R64 and R65,
and the verdict and causes follow by R67 unless the hold is on (R68, R69). -/
def Health.after (h : Health) (live : Conditions) : Health :=
  { h with
    live := live
    latched := h.latched ||| h.latchable (live &&& ~~~h.live)
    verdict := if h.hold then h.verdict else (verdictOf live).1
    causes := if h.hold then h.causes else (verdictOf live).2 }

/-- The health unit `h` with its live conditions at `live`, those that became set latched, and its verdict as it was
(R64, R65). -/
def Health.setting (live : Conditions) (h : Health) : Health :=
  { h with live := live, latched := h.latched ||| h.latchable (live &&& ~~~h.live) }

/-- The live conditions that a report leaves: byte 0 was 2 where `lost`, and `errored` blocks were counted (R60). -/
def Health.liveReported (lost : Bool) (errored : Nat) (h : Health) : Conditions :=
  let bad : Bool := h.settings.errBad ≠ 0 && h.settings.errBad ≤ errored
  let warn : Bool := !bad && h.settings.errWarn ≠ 0 && h.settings.errWarn ≤ errored
  (((h.live.put .syncLost lost).put .reportStale false).put .errBad bad).put .errWarn warn

/-- The settings that the parameter block of SET_THRESHOLDS gives (R71). -/
def thresholdsIn (ps : List Byte) : HealthSettings :=
  let given := param16 ps 13
  { alarmLow := param16 ps 0, warnLow := param16 ps 2, warnHigh := param16 ps 4,
    alarmHigh := param16 ps 6, tempHigh := max 60 (min 125 (param8 ps 8)),
    errWarn := param16 ps 9, errBad := param16 ps 11
    reportTimeout := if given = 0 then 0 else max 200 (min 10000 given)
    latchMask := BitVec.ofNat 12 (param16 ps 15) }

/-- The clamp mask of that block (R71). -/
def thresholdsClamp (ps : List Byte) : BitVec 32 :=
  clampMask [0, 0, 0, 0, param8 ps 8, 0, 0, param16 ps 13]
    [0, 0, 0, 0, (thresholdsIn ps).tempHigh, 0, 0, (thresholdsIn ps).reportTimeout]

/-- The four receive-power thresholds rise strictly (R71). -/
def HealthSettings.Rises (st : HealthSettings) : Prop :=
  st.alarmLow < st.warnLow ∧ st.warnLow < st.warnHigh ∧ st.warnHigh < st.alarmHigh

/-- The staleness timer `h` has by the new report timeout of `st` run out (R72, step 5). -/
def Health.runsOut (st : HealthSettings) (now : Nat) (h : Health) : Bool :=
  decide (h.stale ≠ .disarmed) && decide (st.reportTimeout ≤ h.stale.passed now)

/-- The live conditions under the settings `st`, in the order of R72. -/
def Health.liveUnder (st : HealthSettings) (now : Nat) (h : Health) : Conditions :=
  let live1 := match h.filter with
    | some f => powerConditions st f h.live
    | none => h.live
  let live2 := match h.lastTemp with
    | some t => tempCondition st t live1
    | none => live1
  if st.reportTimeout = 0 then live2 &&& 0x0FF
  else if h.runsOut st now then live2 ||| 0x800 else live2

/-- The part `p` as the assertion of the channel reset line leaves it that cut a write short of which `came` came, with
its health unit and its command unit at `h` and `k` but for what the reset clears (R8, R22, R63, R137). -/
def cutDown (came : WriteBurst) (h : Health) (k : Command) (p : Part) : Part :=
  { p with
    channel := { p.channel with
      toDram := some (.named (.write came)), state := .inReset, banks := List.replicate 8 none
      known0 := false, known1 := false, known2 := false, readout := false, dramReset := true }
    command := { k with header := List.replicate 32 0, params := List.replicate 32 0 }
    uplink := { p.uplink with staging := [] }
    health := { h with stale := .disarmed } }

/-- What the part has put on the I2C bus after the start condition and the first address byte, in an attempt
broken off `reached` symbols later, the last byte not read (R35). -/
def brokenOff (st : OpticalSettings) (reached : Nat) : List BusSymbol :=
  (([.send st.offset, .start, .send (st.address <<< 1 ||| 1)] : List BusSymbol)
    ++ List.replicate 9 (BusSymbol.receive true)).take reached

/-- The automatic restart run has reached the interval of the settings `st` (R48). -/
def Part.RunReached (p : Part) (st : OpticalSettings) : Prop :=
  ∃ began, p.optical.run = some began ∧ st.interval ≠ 0 ∧ began + st.interval * 1000 ≤ p.clock.now

/-- `p` with a restart window begun under the settings in force: the transmitter disabled, the verdict
held, the automatic run stopped (R43, R44, R69). -/
def windowBegun (p : Part) : Part :=
  { p with
    optical := { p.optical with
      window := .txOff (p.clock.now + p.optical.settings.offTime) p.optical.settings.settleTime
      txDisable := true, run := none }
    health := { p.health with hold := true } }

/-! ### What the end of an event leaves alone -/

/-- `q` differs from `p` at most in what the end of an event may change: the service state, the path
records and the path timers; the module state, demand, the attach series, the outstanding list, the lane,
the pending control message and the link sequence; the class queues, shed status, credit and carriage
counters; the uplink entries; flags and counters; the automatic restart run; and the ending of a timed
command (R47, R75, R81, R91, R106, R112, R113, R124, R132, R174). -/
structure EventFrame (p q : Part) : Prop where
  clock : q.clock = p.clock
  channel : q.channel = p.channel
  windows : q.windows = p.windows
  health : q.health = p.health
  delivery : q.delivery = p.delivery
  command : q.command =
    { p.command with
      running := q.command.running, result := q.command.result, data := q.command.data }
  optical : q.optical = { p.optical with run := q.optical.run }
  path : q.path =
    { p.path with
      service := q.path.service, classes := q.path.classes, dwell := q.path.dwell,
      prove := q.path.prove, strandedProve := q.path.strandedProve, quiet := q.path.quiet,
      stick := q.path.stick }
  radio : q.radio =
    { p.radio with
      state := q.radio.state, detach := q.radio.detach, demand := q.radio.demand,
      linger := q.radio.linger, phase := q.radio.phase, attempts := q.radio.attempts,
      answer := q.radio.answer, retry := q.radio.retry, reattempt := q.radio.reattempt,
      outstanding := q.radio.outstanding, lane := q.radio.lane, control := q.radio.control,
      linkSeq := q.radio.linkSeq }
  relay : q.relay =
    { p.relay with
      queues := q.relay.queues, shed := q.relay.shed, credit := q.relay.credit,
      nextSeq := q.relay.nextSeq }
  uplink : q.uplink = { p.uplink with entries := q.uplink.entries }
  events : q.events =
    { p.events with flags := q.events.flags, counters := q.events.counters }

/-- `q` has every flag of `p` set, the counters of `p` but for FRAMES_DISCARDED, RETURNS and FAILOVERS, and
its host-side copies of the uplink entries: an event raises flags and lowers none (R199), and only the path
controller's moves and the discards they bring can count as it ends. -/
structure Mild (p q : Part) : Prop where
  flags : ∀ f, p.flag f = true → q.flag f = true
  counters : ∀ c, c ≠ .framesDiscarded → c ≠ .returns → c ≠ .failovers →
    q.events.counters.get c = p.events.counters.get c
  hosts : q.uplink.entries.map Entry.host = p.uplink.entries.map Entry.host

/-- `q` is what `p` becomes as an event ends: nothing outside `EventFrame` and `Mild` differs. -/
structure EventEnds (p q : Part) : Prop where
  frame : EventFrame p q
  mild : Mild p q

/-- No frame and no request to detach can start as an event ends: the lane is busy, or the module is not
ATTACHED (R117, R124, R173). -/
def Part.Still (p : Part) : Prop := p.radio.lane.isSome = true ∨ p.radio.state ≠ .attached

/-- `q` has the relay, the uplink entries, the staging store and the outstanding list of `p`, every counter of
`p` but RETURNS, and no flag more than PATH_CHANGED, RADIO_CHANGED and COMMAND_DONE. -/
structure Keeps (p q : Part) : Prop where
  relay : q.relay = p.relay
  uplink : q.uplink = p.uplink
  outstanding : q.radio.outstanding = p.radio.outstanding
  counters : ∀ c, c ≠ .returns → q.events.counters.get c = p.events.counters.get c
  flags : ∀ f, q.flag f = true →
    p.flag f = true ∨ f = .pathChanged ∨ f = .radioChanged ∨ f = .commandDone

/-! ### The path controller -/

/-- The path controller with every class at the record `f` gives it, in service state `svc`, its timers
idle (R78, R100). -/
def Path.inState (q : Path) (svc : Service) (f : ServiceClass → ClassPath) : Path :=
  { q with
    service := svc, classes := PerClass.ofFn f, dwell := none, prove := none, strandedProve := none,
    quiet := none, stick := none }

/-- A class on fibre (R78). -/
def onFibre : ClassPath := { word := .fibre, reason := .none, sub := .returned, drain := none }

/-- A class on radio, BLOCKED where it is shed (R78). -/
def onRadio (shed : Bool) : ClassPath :=
  { word := if shed then .blocked else .radio, reason := if shed then .shed else .none,
    sub := .onRadio, drain := none }

/-- A class with no path for the reason `r` (R78). -/
def blocked (r : PathReason) : ClassPath :=
  { word := .blocked, reason := r, sub := .onRadio, drain := none }

/-- A class that begins to drain, RETURNED at once where it has nothing queued and nothing outstanding
(R88, R90, R91, R98). -/
def Part.drains (p : Part) (c : ServiceClass) : ClassPath :=
  if p.relay.queues.get c = [] ∧ p.sentOf c = [] then onFibre
  else { word := .hold, reason := .none, sub := .draining,
         drain := some (p.clock.now + p.path.settings.drainLimit) }

/-- The path controller in RADIO (R84, R87, R94, R99). -/
def Part.pathRadio (p : Part) : Path := p.path.inState .radio fun c => onRadio (p.relay.shed.get c)

/-- The path controller in FORCED_RADIO (R97). -/
def Part.pathForcedRadio (p : Part) : Path :=
  p.path.inState .forcedRadio fun c =>
    if p.radio.state = .attached then onRadio (p.relay.shed.get c) else blocked .noRadio

/-- The path controller in STRANDED, its timer running unless the verdict is BAD (R85, R87, R99). -/
def Part.pathStranded (p : Part) : Path :=
  { p.path.inState .stranded fun _ => blocked .noPath with
    strandedProve :=
      if p.path.verdict = .bad then none
      else some (p.clock.now + p.path.settings.strandedProve * 1000) }

/-- The path controller in RETURNING (R88). -/
def Part.pathReturning (p : Part) : Path :=
  { p.path.inState .returning fun c =>
      match c with
      | .voice => { word := .radio, reason := .none, sub := .waitingQuiet, drain := none }
      | c => if p.relay.shed.get c then onFibre else p.drains c with
    quiet := some (p.clock.now + p.path.settings.voiceQuiet)
    stick := some (p.clock.now + p.path.settings.voiceStick * 1000) }

/-- The path controller in FORCED_FIBRE, from the classes of the state left (R98). -/
def Part.pathForcedFibre (p : Part) : Path :=
  p.path.inState .forcedFibre fun c =>
    match (p.path.classes.get c).word with
    | .radio => p.drains c
    | .hold =>
      if (p.path.classes.get c).sub = .draining ∧ p.relay.queues.get c = [] ∧ p.sentOf c = [] then
        onFibre
      else p.path.classes.get c
    | .fibre => onFibre
    | .blocked => onFibre

/-- The path controller as the dwell ends: RADIO where the module is ATTACHED, else STRANDED (R84). -/
def Part.pathDwelt (p : Part) : Path :=
  if p.radio.state = .attached then p.pathRadio else p.pathStranded

/-- The path controller as FIBRE is entered: with the verdict BAD, SUSPECT and its dwell, which if 0 ends
at once (R79, R82, R99). -/
def Part.pathFibre (p : Part) : Path :=
  let d := if p.path.causes.has .los then p.path.settings.losDwell else p.path.settings.failDwell
  if p.path.verdict = .bad then
    if d = 0 then p.pathDwelt
    else { p.path.inState .suspect fun _ => onFibre with dwell := some (p.clock.now + d) }
  else p.path.inState .fibre fun _ => onFibre

/-- How the path controller follows the effective force: `p` holds the new force and otherwise the part as
the event found it, and the force before was `was` (R77, R97 to R99). -/
def Part.pathForced (was : Force) (p : Part) : Path :=
  if p.path.effective = was then p.path
  else
    match p.path.effective with
    | .radio => p.pathForcedRadio
    | .fibre => p.pathForcedFibre
    | .auto =>
      if was = .fibre then p.pathFibre
      else if p.path.verdict = .bad then
        if p.radio.state = .attached then p.pathRadio else p.pathStranded
      else if p.radio.state = .attached then p.pathReturning
      else p.pathFibre

/-- No forced request to detach can begin its transfer: none is pending, or the lane is busy. Between events
this always holds (R124, R132). -/
def Part.Stays (p : Part) : Prop :=
  p.radio.control ≠ some (.detachReq true) ∨ p.radio.lane.isSome = true

/-- No class that is DRAINING has run empty, as holds between events (R91). -/
def Part.NoneDrained (p : Part) : Prop :=
  ∀ c, (p.path.classes.get c).sub = .draining → ¬(p.relay.queues.get c = [] ∧ p.sentOf c = [])

/-- The path controller as it takes a verdict handed to it (R82, R83, R85 to R87, R94): `p` holds the new
verdict and causes, and `was` is the controller before. -/
def Part.pathJudged (was : Path) (p : Part) : Path :=
  let now := p.clock.now
  let bad : Bool := p.path.verdict = .bad
  let wasBad : Bool := was.verdict = .bad
  let d := if p.path.causes.has .los then p.path.settings.losDwell else p.path.settings.failDwell
  match p.path.service with
  | .fibre =>
    if !bad then p.path
    else if d = 0 then p.pathDwelt
    else { p.path with service := .suspect, dwell := some (now + d) }
  | .suspect =>
    if !bad then { p.path with service := .fibre, dwell := none }
    else if wasBad && !was.causes.has .los && p.path.causes.has .los then
      { p.path with dwell := p.path.dwell.map fun t => min t (now + p.path.settings.losDwell) }
    else p.path
  | .radio =>
    if bad then p.path
    else { p.path with service := .proving, prove := some (now + p.path.settings.prove * 1000) }
  | .proving => if bad then { p.path with service := .radio, prove := none } else p.path
  | .stranded =>
    if bad && !wasBad then
      (if p.radio.state = .attached then p.pathRadio else { p.path with strandedProve := none })
    else if wasBad && !bad then
      { p.path with strandedProve := some (now + p.path.settings.strandedProve * 1000) }
    else p.path
  | .returning => if bad then p.pathRadio else p.path
  | .forcedFibre => p.path
  | .forcedRadio => p.path

/-- `q` is what an event leaves that makes the live conditions `live` and otherwise the part `x`: the latches,
the verdict and the causes follow (R64 to R69), a new latch raises LATCHED and a new verdict VERDICT_CHANGED
(R64, R70), and the path controller takes a new verdict or new causes (R70, R75). -/
structure Judged (live : Conditions) (x q : Part) : Prop where
  ends : EventEnds
    { x with
      health := x.health.after live
      path := { x.path with verdict := q.path.verdict, causes := q.path.causes } } q
  latched : (x.health.after live).latched ≠ x.health.latched → q.flag .latched = true
  changed : (x.health.after live).verdict ≠ x.health.verdict → q.flag .verdictChanged = true
  path : x.Stays → x.NoneDrained →
    q.path =
      if x.health.hold ∨ verdictOf live = (x.health.verdict, x.health.causes) then x.path
      else
        ({ x with path := { x.path with
          verdict := (verdictOf live).1, causes := (verdictOf live).2 } } : Part).pathJudged x.path

/-- As `Judged` where `live` differs from the conditions of `x`; otherwise nothing of the health unit changes
(R63, R68). -/
def Turned (live : Conditions) (x q : Part) : Prop :=
  if live = x.health.live then
    EventEnds x q ∧ (x.Stays → x.NoneDrained → q.path = x.path)
  else Judged live x q

/-- The frames queued in the classes `sel` discarded with reason `r`, class after class in priority order, their
queues left empty (R160, R179). -/
def Part.unqueued (r : Discard) (sel : ServiceClass → Bool) (p : Part) : Part :=
  discardFrames r ((classes.filter sel).flatMap p.relay.queues.get)
    { p with relay := { p.relay with
        queues := PerClass.ofFn fun c => if sel c then [] else p.relay.queues.get c } }

/-- RETURNING has ended: every class is RETURNED (R93). -/
def Path.handedBack (q : Path) : Bool :=
  q.service = .returning && Machine.classes.all fun c => (q.classes.get c).sub = .returned

/-- FIBRE where RETURNING has ended, the voice timers idle (R93). -/
def Path.returned (q : Path) : Path :=
  if q.handedBack then { q with service := .fibre, quiet := none, stick := none } else q

/-- Class `c` is DRAINING with nothing queued and nothing outstanding (R91). -/
def Part.ranOut (p : Part) (c : ServiceClass) : Bool :=
  (p.path.classes.get c).sub = .draining && (p.relay.queues.get c).isEmpty && (p.sentOf c).isEmpty

/-- The path controller with every class that has run out RETURNED, and RETURNING ended with the last of them
(R91, R93). -/
def Part.pathDrained (p : Part) : Path :=
  if Machine.classes.any p.ranOut then
    Path.returned { p.path with
      classes := PerClass.ofFn fun c => if p.ranOut c then onFibre else p.path.classes.get c }
  else p.path

/-! ### The module -/

/-- The frames lost as the module restarts or leaves ATTACHED unasked: those outstanding and, from ATTACHED,
every frame queued, all discarded with RADIO_LOST; shed status is reset with ATTACHED (R111, R171). -/
def Part.lost (p : Part) : Part :=
  let x := discardFrames .radioLost (p.radio.outstanding.map Sent.frame)
    { p with radio := { p.radio with outstanding := [] } }
  if p.radio.state = .attached then
    let y := x.unqueued .radioLost fun _ => true
    { y with relay := { y.relay with shed := ⟨false, false, false, false⟩ } }
  else x

/-- The path controller as the module has left ATTACHED; `p` holds the new module state (R75, R85, R86, R95,
R97, R98). -/
def Part.pathLost (p : Part) : Path :=
  match p.path.service with
  | .radio => p.pathStranded
  | .proving => p.pathFibre
  | .returning => p.pathFibre
  | .forcedRadio => p.path.inState .forcedRadio fun _ => blocked .noRadio
  | .forcedFibre =>
    { p.path with classes := PerClass.ofFn fun c =>
        if (p.path.classes.get c).sub = .draining then onFibre else p.path.classes.get c }
  | .fibre | .suspect | .stranded => p.path

/-- A transfer that owes the answer timer no longer does (R116). -/
def unanswered (t : Transfer) : Transfer :=
  { t with owes := if t.owes = .answer then .nothing else t.owes }

/-- The radio link controller as it enters ABSENT, RECOVERING or STARTING (R106, R107, R110, R111). -/
def Radio.restarted (new : Module) (now : Nat) (r : Radio) : Radio :=
  { r with
    state := new, rpwr := new = .starting
    start := if new = .starting then some (now + 20000) else none
    recover := if new = .recovering then some (now + 2000) else none
    silence := none, detach := none, phase := .none, answer := none, retry := none, reattempt := none
    outstanding := [], timeouts := 0, control := none
    lane := if new = .starting then r.lane.map unanswered else none }

/-- A class drains only in RETURNING and FORCED_FIBRE, and only while the module is ATTACHED (R78, R95,
R98). -/
def Part.DrainsOnAir (p : Part) : Prop :=
  ∀ c, (p.path.classes.get c).sub = .draining →
    p.radio.state = .attached ∧ (p.path.service = .returning ∨ p.path.service = .forcedFibre)

/-! ### Messages -/

/-- The row of an inbound message that has passed its checks (R122). -/
def Inbound.row : Inbound → Instr
  | .ready fw mb => .ready fw mb
  | .attachOk sid g b => .attachOk sid g b
  | .attachFail r => .attachFail r
  | .detached c => .detached c
  | .signalReport q g b => .signalReport q g b
  | .upAccept l b => .upAccept l b
  | .upReject l r => .upReject l r
  | .resetNotice => .resetNotice
  | .dataDown h f => .dataDown h f

/-- A payload has the length of its type, and the type is inbound (R121, checks 4 and 5). -/
def Fits (type : Byte) (payload : List Byte) : Prop :=
  type = 0x81 ∧ payload.length = 5 ∨ type = 0x82 ∧ payload.length = 7 ∨
    (type = 0x83 ∨ type = 0x84 ∨ type = 0x86 ∨ type = 0x87) ∧ payload.length = 1 ∨
    type = 0x85 ∧ payload.length = 4 ∨ type = 0x8F ∧ payload = [] ∨
    type = 0x90 ∧ 12 ≤ payload.length ∧ field payload 8 2 = payload.length - 12

/-- The message passes the checks of R121. -/
structure Passes (m : RawMessage) : Prop where
  stops : m.stopBits = true
  long : 10 ≤ m.bytes.length ∧ m.bytes.length ≤ 1558
  length : m.bytes.length = 10 + field m.bytes 2 2
  check : field m.bytes (m.bytes.length - 2) 2 = (crc16 (m.bytes.take (m.bytes.length - 2))).toNat
  payload : Fits (m.bytes.getD 0 0) ((m.bytes.take (m.bytes.length - 2)).drop 8)

/-! ### Shedding -/

/-- Shed status after a grant, from the status `was` before (R164). -/
def shedBy (grant : Nat) (was : PerClass Bool) : PerClass Bool :=
  { was with
    interactive := if was.interactive then grant < 384 else grant < 256
    bulk := if was.bulk then grant < 1536 else grant < 1024 }

/-- The path controller as shed status has changed from `was` to what `p` holds (R80, R96). -/
def Part.pathShedding (was : PerClass Bool) (p : Part) : Path :=
  let turned (c : ServiceClass) : Bool := was.get c != p.relay.shed.get c
  let words : Path := { p.path with
    classes := PerClass.ofFn fun c =>
      if turned c && (p.path.classes.get c).sub = .onRadio then onRadio (p.relay.shed.get c)
      else p.path.classes.get c }
  let handed : Path := { p.path with
    classes := PerClass.ofFn fun c =>
      if turned c && p.relay.shed.get c && (p.path.classes.get c).sub = .draining then onFibre
      else p.path.classes.get c }
  match p.path.service with
  | .radio => words
  | .proving => words
  | .forcedRadio => if p.radio.state = .attached then words else p.path
  | .returning => if handed = p.path then p.path else handed.returned
  | .forcedFibre => handed
  | .fibre | .suspect | .stranded => p.path

/-- A class on FIBRE has no frame queued (R79). -/
def Part.FibreIsEmpty (p : Part) : Prop :=
  ∀ c, (p.path.classes.get c).word = .fibre → p.relay.queues.get c = []

/-! ### What holds after every event -/

/-- Radio demand is on, with the linger timer idle, while one of the wants of R112 holds; where it is on
without one the linger timer runs. -/
def Part.DemandFollows (p : Part) : Prop :=
  (p.wants = true → p.radio.demand = true ∧ p.radio.linger = none) ∧
    (p.wants = false → p.radio.demand = true → p.radio.linger.isSome = true)

/-- The automatic restart run goes exactly while the service state is RADIO and the verdict BAD, with no
restart window active and the interval not 0 (R47). -/
def Part.RunFollows (p : Part) : Prop :=
  p.optical.run.isSome = true ↔
    p.path.service = .radio ∧ p.path.verdict = .bad ∧ p.optical.window = .none ∧
      p.optical.settings.interval ≠ 0

/-! ### The outbound lane -/

/-- The radio link controller with the ATTACH_REQ of `profile` begun in millisecond `now` (R114, R119, R125). -/
def Radio.requests (profile now : Nat) (r : Radio) : Radio :=
  let bytes := message 0x01 r.linkSeq [BitVec.ofNat 8 profile]
  { r with
    lane := some { bytes := bytes, owes := .answer, ends := transferEnds now bytes }
    linkSeq := r.linkSeq + 1, control := none, phase := .awaiting }

/-- The radio link controller with a DETACH_REQ begun in millisecond `now` (R117, R119, R125). -/
def Radio.departs (now : Nat) (r : Radio) : Radio :=
  let bytes := message 0x02 r.linkSeq []
  { r with
    state := .detaching, detach := some (now + 5000), control := none, linkSeq := r.linkSeq + 1
    lane := some { bytes := bytes, owes := .nothing, ends := transferEnds now bytes } }

/-- The part as the module leaves ATTACHED by a requested detach, but for the path controller; `p` holds the new
module state. A class that turns to FIBRE loses its queue (R79, R86, R95, R98, R171, R179). -/
def Part.parted (p : Part) : Part :=
  let x : Part := { p with relay := { p.relay with shed := ⟨false, false, false, false⟩ } }
  match p.path.service with
  | .proving | .returning => x.unqueued .radioLost fun _ => true
  | .forcedFibre => x.unqueued .radioLost fun c =>
      (p.path.classes.get c).sub = .draining || (p.path.classes.get c).word = .fibre
  | _ => x

/-- Class `c` is served: its path word is RADIO or HOLD (R172). -/
def Part.Served (p : Part) (c : ServiceClass) : Prop :=
  (p.path.classes.get c).word = .radio ∨ (p.path.classes.get c).word = .hold

/-- `f` is the candidate: the head of the first served class with a frame queued (R172). -/
structure Part.Next (p : Part) (f : Frame) : Prop where
  served : p.Served f.cls
  head : ∃ rest, p.relay.queues.get f.cls = f :: rest
  first : ∀ d, classNumber d < classNumber f.cls → p.Served d → p.relay.queues.get d = []

/-- The send conditions of the frame `f` (R173). -/
structure Part.Ready (p : Part) (f : Frame) : Prop where
  attached : p.radio.state = .attached
  free : p.radio.lane = none ∧ p.radio.control = none
  room : p.radio.outstanding.length < 4 ∧ p.radio.outstanding.length < p.radio.buffers.toNat
  young : p.clock.now - f.enqueued < p.relay.ages.get f.cls
  credit : 8 * (f.bytes.length + 36) ≤ p.relay.credit

/-- The part with the transfer of the frame `f` begun (R125, R126, R169, R175, R176). -/
def Part.sends (f : Frame) (p : Part) : Part :=
  let seq := p.relay.nextSeq.get f.cls
  let link := p.radio.linkSeq
  let header : Carriage :=
    { serviceId := p.radio.serviceId, cls := BitVec.ofNat 8 (classNumber f.cls), sequence := seq }
  let bytes := message 0x10 link (carriagePayload header f.bytes)
  { p with
    relay := { p.relay with
      queues := p.relay.queues.set f.cls (p.relay.queues.get f.cls).tail
      credit := p.relay.credit - 8 * (f.bytes.length + 36)
      nextSeq := p.relay.nextSeq.set f.cls (seq + 1) }
    uplink := { p.uplink with
      entries := p.uplink.entries.mapIdx fun i e =>
        if f.parts.contains i then
          { e with state := .sending, reason := none, carriage := seq }
        else e }
    radio := { p.radio with
      outstanding := p.radio.outstanding ++
        [{ frame := f, carriage := seq, link := link, accept := none }]
      lane := some
        { bytes := bytes, owes := .accept link, ends := transferEnds p.clock.now bytes }
      linkSeq := link + 1 } }

/-- Every queued frame stands in the queue of its own class (R159, R161). -/
def Part.QueuedByClass (p : Part) : Prop := ∀ c, ∀ f ∈ p.relay.queues.get c, f.cls = c

/-- ATTACHED with nothing on the lane and nothing pending, demand settled and on, no class run out. -/
structure Part.Open (p : Part) : Prop where
  attached : p.radio.state = .attached
  free : p.radio.lane = none ∧ p.radio.control = none
  demand : p.radio.demand = true ∧ p.DemandFollows
  drained : p.NoneDrained

/-- As the event that made `x` ends in `q` the send conditions are examined (R173, R174): a busy lane and a module
outside ATTACHED send nothing; on an open lane the candidate starts if it may, and otherwise nothing does. -/
structure Examined (x q : Part) : Prop where
  still : x.Still → Keeps x q
  starts : x.Open → ∀ f, x.Next f → x.Ready f →
    q.relay = (x.sends f).relay ∧ q.uplink = (x.sends f).uplink ∧ q.radio = (x.sends f).radio
  waits : x.Open → x.QueuedByClass → (∀ f, x.Next f → ¬x.Ready f) → Keeps x q ∧ q.radio = x.radio

/-! ### What holds between events -/

/-- A class that drains: HOLD, its drain timer running (R78, R88, R100). -/
def ClassPath.holds (k : ClassPath) : Prop :=
  k.word = .hold ∧ k.reason = .none ∧ k.sub = .draining ∧ k.drain.isSome = true

/-- VOICE while it waits for quiet (R78, R88). -/
def ClassPath.quiets (k : ClassPath) : Prop :=
  k = { word := .radio, reason := .none, sub := .waitingQuiet, drain := none }

/-- The path record of class `c` is one that the service state allows (R78). -/
def Part.Stands (p : Part) (c : ServiceClass) : Prop :=
  let k := p.path.classes.get c
  match p.path.service with
  | .fibre | .suspect => k = onFibre
  | .radio | .proving => k = onRadio (p.relay.shed.get c)
  | .stranded => k = blocked .noPath
  | .forcedRadio =>
    k = if p.radio.state = .attached then onRadio (p.relay.shed.get c) else blocked .noRadio
  | .returning => k = onFibre ∨ k.holds ∨ c = .voice ∧ k.quiets
  | .forcedFibre => k = onFibre ∨ k.holds

/-- The handed verdict is one that the service state stands in (R82 to R87, R94). -/
def Part.Judges (p : Part) : Prop :=
  match p.path.service with
  | .fibre | .proving | .returning => p.path.verdict ≠ .bad
  | .suspect | .radio => p.path.verdict = .bad
  | .stranded => p.path.verdict = .bad → p.radio.state ≠ .attached
  | .forcedFibre | .forcedRadio => True

/-- The path controller between events. -/
structure Part.PathStands (p : Part) : Prop where
  /-- Every class stands as the service state has it (R78). -/
  stands : ∀ c, p.Stands c
  /-- RADIO, PROVING and RETURNING are left as the module leaves ATTACHED (R85, R86, R95). -/
  onAir : p.path.service = .radio ∨ p.path.service = .proving ∨ p.path.service = .returning →
    p.radio.state = .attached
  drainsOnAir : p.DrainsOnAir
  /-- RETURNING ends with the last class (R93). -/
  returns : p.path.service = .returning → ∃ c, p.path.classes.get c ≠ onFibre
  judges : p.Judges
  /-- The forced states stand with the effective force (R77). -/
  forced : (p.path.effective = .fibre ↔ p.path.service = .forcedFibre) ∧
    (p.path.effective = .radio ↔ p.path.service = .forcedRadio)
  /-- A class on FIBRE has nothing queued (R79). -/
  fibre : p.FibreIsEmpty

/-- What holds of the part between events, whatever happens. -/
structure Part.Coherent (p : Part) : Prop where
  path : p.PathStands
  /-- The verdict and causes as handed are the health unit's (R70). -/
  handed : p.path.verdict = p.health.verdict ∧ p.path.causes = p.health.causes
  /-- Shed status is set only while ATTACHED, and never for VOICE or SIGNAL (R164, R171). -/
  shed : (∀ c, p.relay.shed.get c = true → p.radio.state = .attached) ∧
    p.relay.shed.voice = false ∧ p.relay.shed.signal = false
  /-- A request to detach is pending only while ATTACHED, one to attach only in phase PENDING (R111, R114, R117). -/
  control : (∀ b, p.radio.control = some (.detachReq b) → p.radio.state = .attached) ∧
    ∀ n, p.radio.control = some (.attachReq n) → p.radio.phase = .pending
  /-- An attach series is under way exactly in ATTACHING (R113, R114, R116). -/
  phase : p.radio.state = .attaching ↔ p.radio.phase ≠ .none
  /-- The credit stays within the bucket, and at most four frames are outstanding (R126, R167). -/
  bounds : p.relay.credit ≤ 8 * p.relay.depth ∧ p.radio.outstanding.length ≤ 4
  queued : p.QueuedByClass
  /-- No forced request waits on a free lane (R124, R132). -/
  stays : p.Stays
  /-- No class that drains has run empty (R91). -/
  drained : p.NoneDrained
  demand : p.DemandFollows
  run : p.RunFollows

/-! ### Uplink entries -/

/-- The entries that are parts of a frame in a class queue. -/
def Part.queuedParts (p : Part) : List Nat := classes.flatMap fun c => (p.relay.queues.get c).flatMap Frame.parts

/-- The entries that are parts of a frame in the outstanding list. -/
def Part.sentParts (p : Part) : List Nat := p.radio.outstanding.flatMap fun e => e.frame.parts

/-- The state of entry `i`, where there is one. -/
def Part.entryState (p : Part) (i : Nat) : Option EntryState := (p.uplink.entries[i]?).map Entry.state

/-- The uplink entries and the frames of which they are parts (R138, R139). -/
structure Part.EntriesStand (p : Part) : Prop where
  /-- One entry for each descriptor of the table defined, two to a line; none with no table (R138, R142). -/
  table : p.uplink.entries.length * 16 = (p.windows.uplink.map Window.size).getD 0 ∧
    p.uplink.entries.length % 2 = 0
  /-- QUEUED exactly while part of a frame in a class queue. -/
  queued : ∀ i, p.entryState i = some .queued ↔ i ∈ p.queuedParts
  /-- SENDING exactly while part of a frame in the outstanding list. -/
  sending : ∀ i, p.entryState i = some .sending ↔ i ∈ p.sentParts
  /-- No entry is a part of two frames. -/
  once : (p.queuedParts ++ p.sentParts).Nodup
  /-- The reason is none in every state but DISCARDED. -/
  reason : ∀ e ∈ p.uplink.entries, e.state ≠ .discarded → e.reason = none
  /-- The carriage sequence is 0 in IDLE, HELD and QUEUED. -/
  carriage : ∀ e ∈ p.uplink.entries, e.state = .idle ∨ e.state = .held ∨ e.state = .queued → e.carriage = 0
  /-- Every queued frame stands in the queue of its own class (R159, R161). -/
  byClass : p.QueuedByClass

/-! ### Shapes -/

/-- The staging store is in its one form: at most 1024 entries, no line address twice, each a line of a capture window
that holds 32 bytes of which one at least is valid (R134 to R137). -/
def Staging.wf (w : Windows) (st : List Staged) : Bool :=
  st.length ≤ Config.stagingLines && (st.map Staged.line).Nodup &&
    st.all fun e => e.line % 32 = 0 && w.captured e.line && e.lanes.length = 32 && e.lanes.any Option.isSome

/-- The stores of the part have the sizes the spec gives them. -/
structure Part.Sized (p : Part) : Prop where
  header : p.command.header.length = 32
  params : p.command.params.length = 32
  data : p.command.data.length = 16
  banks : p.channel.banks.length = 8
  captures : p.windows.captures.length = 4
  hosts : ∀ e ∈ p.uplink.entries, e.host.length = 16
  staging : Staging.wf p.windows p.uplink.staging = true
  slots : p.delivery.slots.length = 32
  fill : p.delivery.fill < 32

/-- The stores of the part keep their shapes, and the uplink entries follow the frames. -/
structure Part.Shaped (p : Part) : Prop extends p.Sized where
  entries : p.EntriesStand

end Sys2Proof.Machine
end

