-- ==== Sys2Proof/Certificates/Slice0/Obligations.lean ====
section
/-! DEFINITION. The statements for the provers. Each names the rule of spec/ it states; a clause that
rests on a choice of the model names the log entry. -/

open Sys2Proof Sys2Proof.Machine

/-! ### The machine -/

/-- The step takes the command at the front of the queue and runs it with the rest waiting (log 1). -/
def Obligations.StepRunsTheFrontCommand : Prop :=
  ∀ (c : Instr) (rest : List Instr) (p : Part),
    step { pending := c :: rest, part := p } = exec c { pending := rest, part := p }

/-- The model's choice (log 33, log 23): every command is answered by a next state in which the same commands wait.
No rule of the manual stops the part (log 33, DEDUCED), and the model answers in states no run reaches too (log 23,
DESIGN CHOICE). -/
def Obligations.EveryCommandIsAnswered : Prop :=
  ∀ (i : Instr) (s : State), Leads i s fun _ => True

/-- The model's choice (log 1, log 2): with no command waiting one millisecond passes. Of the part only the clock
changes, and the events that fall due are queued, each once, in some order. A timer's expiry is among them exactly
where the timer runs in the state its rule names and has reached its end, by the millisecond now reached (log 3; R34,
R35, R43, R48, R61, R84, R86, R87, R90, R92, R108 to R110, R112, R115 to R117, R129, R163); so are the first
millisecond's levels and a changed OLOS of a module PRESENT (R42, R51), the accrual while ATTACHED (R168), and the
end of a transfer that is over (R119; log 4). The model's readings besides: that the first millisecond carries the
levels of the pins (log 8), that a start whose time passes during a poll falls due when the poll is over (log 27),
and that an attempt past its limit is left wherever it had got to, its data line high or held low, both free (log
28). -/
def Obligations.EmptyQueuePassesAMillisecond : Prop :=
  ∀ p : Part, ∃ t, step { pending := [], part := p } = .next t ∧
    t.part = { p with clock := t.part.clock } ∧ t.part.clock.now = p.clock.now + 1 ∧
    t.part.clock.pins = p.clock.pins ∧ t.pending.Perm (dueEvents t.part) ∧
    let now := p.clock.now + 1
    let pins := p.clock.pins
    let due (x : Timer) : Prop := ∃ m, x = some m ∧ m ≤ now
    let late := p.optical.began + 25 ≤ now
    let o := p.optical
    let y := p.path
    let r := p.radio
    let listens := r.state = .idle ∨ r.state = .attaching ∨ r.state = .attached ∨ r.state = .detaching
    let queued (i : Instr) (cause : Prop) : Prop := i ∈ t.pending ↔ cause
    ((∀ a b c d, queued (.firstMillisecond a b c d)
        (p.clock.firstTaken = false ∧ pins = { opres := a, olos := b, rtest := c, rpres := d })) ∧
      ∀ level, queued (.losChange level)
        (p.clock.firstTaken = true ∧ o.present = true ∧ pins.olos = level ∧ o.losLevel ≠ level)) ∧
    (queued .pollStart (o.present = true ∧ o.poll = .waiting ∧ due o.nextPoll) ∧
      ((∃ n, .pollRetry (.timeout n) ∈ t.pending ∨ ∃ m, .pollRetry (.stuck n m) ∈ t.pending) ↔
        o.poll = .firstAttempt ∧ late) ∧
      ((∃ n, .pollFailed (.timeout n) ∈ t.pending ∨ ∃ m, .pollFailed (.stuck n m) ∈ t.pending) ↔
        o.poll = .retry ∧ late) ∧
      queued .txOffEnd (∃ ends settle, o.window = .txOff ends settle ∧ ends ≤ now) ∧
      queued .settlingEnd (∃ ends, o.window = .settling ends ∧ ends ≤ now) ∧
      queued .automaticRestartExpiry (∃ began, o.run = some began ∧ o.settings.interval ≠ 0 ∧
        began + o.settings.interval * 1000 ≤ now) ∧
      queued .stalenessExpiry (∃ since, p.health.stale = .running since ∧
        since + p.health.settings.reportTimeout ≤ now)) ∧
    (queued .dwellExpiry (y.service = .suspect ∧ due y.dwell) ∧
      queued .proveExpiry (y.service = .proving ∧ due y.prove) ∧
      queued .strandedProveExpiry (y.service = .stranded ∧ due y.strandedProve) ∧
      queued .voiceQuietExpiry (y.classes.voice.sub = .waitingQuiet ∧ due y.quiet) ∧
      queued .voiceStickExpiry (y.classes.voice.sub = .waitingQuiet ∧ due y.stick) ∧
      ∀ c, queued (.drainLimitExpiry c)
        ((y.classes.get c).sub = .draining ∧ due (y.classes.get c).drain)) ∧
    (queued .startTimerExpiry (r.state = .starting ∧ due r.start) ∧
      queued .silenceTimerExpiry (listens ∧ due r.silence) ∧
      queued .recoverTimerExpiry (r.state = .recovering ∧ due r.recover) ∧
      queued .detachTimerExpiry (r.state = .detaching ∧ due r.detach) ∧
      queued .answerTimerExpiry (r.state = .attaching ∧ r.phase = .awaiting ∧ due r.answer) ∧
      queued .retryTimerExpiry (r.phase = .retryWait ∧ due r.retry) ∧
      queued .reAttemptTimerExpiry (due r.reattempt) ∧ queued .lingerExpiry (due r.linger) ∧
      (∀ link, queued (.acceptTimerExpiry link) (∃ e ∈ r.outstanding, e.link = link ∧ due e.accept)) ∧
      queued .transferEnd (∃ x, r.lane = some x ∧ x.ends ≤ now)) ∧
    queued .creditAccrual (r.state = .attached) ∧
    ∀ c, queued (.ageExpiry c)
      (∃ f ∈ p.relay.queues.get c, p.relay.ages.get c ≤ now - f.enqueued)

/-- A changed level of OPRES, RTEST or RPRES is taken at the tenth, twentieth or tenth consecutive sample
that shows it, and not before (R40, R76, R107; log 6). The runs count the samples already seen: a millisecond adds one
to the run of a line whose level differs from the one last taken and starts the others again from 0, and changes
nothing else of the part but the time. -/
def Obligations.LineChangesNeedTheirSamples : Prop :=
  ∀ (p : Part) (t : State), p.clock.firstTaken = true →
    step { pending := [], part := p } = .next t →
    t.part = { p with clock := { p.clock with
      now := p.clock.now + 1
      opticalRun := if p.optical.present = p.clock.pins.opres then 0 else p.clock.opticalRun + 1
      testRun := if p.path.test = p.clock.pins.rtest then 0 else p.clock.testRun + 1
      radioRun := if p.radio.present = p.clock.pins.rpres then 0 else p.clock.radioRun + 1 } } ∧
    (.opticalPresenceFall ∈ t.pending ↔
      p.optical.present = true ∧ p.clock.pins.opres = false ∧ 9 ≤ p.clock.opticalRun) ∧
    ((∃ olos, .opticalPresenceRise olos ∈ t.pending) ↔
      p.optical.present = false ∧ p.clock.pins.opres = true ∧ 9 ≤ p.clock.opticalRun) ∧
    ((∃ active, .radioTestChange active ∈ t.pending) ↔
      p.path.test ≠ p.clock.pins.rtest ∧ 19 ≤ p.clock.testRun) ∧
    (.radioPresenceFall ∈ t.pending ↔
      p.radio.present = true ∧ p.clock.pins.rpres = false ∧ 9 ≤ p.clock.radioRun) ∧
    (.radioPresenceRise ∈ t.pending ↔
      p.radio.present = false ∧ p.clock.pins.rpres = true ∧ 9 ≤ p.clock.radioRun)

/-! ### Resets -/

/-- What part reset leaves, of the values the manual states (R3, R5, R14, R22, R28, R33, R49, R71, R73, R102, R104,
R130, R133, R157, R167, R182, R198, R205). The optical module counts as absent until the first millisecond, which is
the model's choice (log 5). -/
def Obligations.ResetValues : Prop :=
  let p := State.reset.part
  State.reset.pending = [] ∧
  p.channel.banks = List.replicate 8 none ∧ p.channel.learned = false ∧ p.channel.readout = false ∧
  p.windows.uplink = none ∧ p.windows.captures = [none, none, none, none] ∧ p.windows.delivery = none ∧
  p.command =
    { header := List.replicate 32 0, params := List.replicate 32 0, running := none, tag := 0, code := 0,
      result := 0, clamp := 0, refused := 0, data := List.replicate 16 0 } ∧
  p.optical.present = false ∧ p.optical.poll = .waiting ∧ p.optical.nextPoll = none ∧
  p.optical.samples = 0 ∧ p.optical.failures = 0 ∧ p.optical.seedPending = true ∧
  p.optical.window = .none ∧ p.optical.txDisable = false ∧ p.optical.run = none ∧
  p.optical.settings =
    { address := 0x56, offset := 0x20, period := 200, shift := 2,
      factors := [128, 128, 128, 128, 128, 128, 128, 128], offTime := 500, settleTime := 2000,
      interval := 0 } ∧
  p.health.live = 0 ∧ p.health.latched = 0 ∧ p.health.verdict = .pending ∧ p.health.causes = 0 ∧
  p.health.stale = .disarmed ∧ p.health.filter = none ∧
  p.health.settings =
    { alarmLow := 100, warnLow := 200, warnHigh := 5000, alarmHigh := 10000, tempHigh := 85,
      errWarn := 0, errBad := 0, reportTimeout := 1000, latchMask := 0 } ∧
  p.path.service = .fibre ∧ p.path.software = .auto ∧
  (∀ c, p.path.classes.get c = { word := .fibre, reason := .none, sub := .returned, drain := none }) ∧
  p.path.settings =
    { failDwell := 500, losDwell := 50, prove := 60, strandedProve := 5, drainLimit := 500,
      voiceQuiet := 2000, voiceStick := 1800 } ∧
  p.radio.state = .off ∧ p.radio.rpwr = false ∧ p.radio.demand = false ∧ p.radio.manualHold = false ∧
  p.radio.phase = .none ∧ p.radio.attempts = 0 ∧ p.radio.outstanding = [] ∧ p.radio.lane = none ∧
  p.radio.settings = { hot := false, profile := 0, retryCount := 3, linger := 300 } ∧
  (∀ c, p.relay.queues.get c = [] ∧ p.relay.shed.get c = false ∧ p.held c = 0) ∧
  p.relay.limits = ⟨256, 256, 512, 1024⟩ ∧ p.relay.ages = ⟨60, 2000, 1000, 5000⟩ ∧
  p.relay.depth = 8192 ∧
  p.uplink = { staging := [], entries := [] } ∧
  p.delivery.slots = List.replicate 32 none ∧ p.delivery.fill = 0 ∧
  (∀ c, p.delivery.expected.get c = none) ∧
  p.events = { flags := 0, mask := 0, counters := Counters.zero } ∧ p.attention = false

/-- PART_RESET puts every block at its part reset values, whatever it held, samples the straps, and leaves the
channel monitor IN_RESET exactly when the channel reset line is asserted (R8, R13). The input lines stay at the
levels they are driven to, and no command passed is shown (log 26). Values the manual does not give are those of the
reset state (log 5, log 13, log 28). -/
def Obligations.PartResetResetsEveryBlock : Prop :=
  ∀ (strap : BitVec 4) (asserted : Bool) (s : State), Leads (.partReset strap asserted) s fun q =>
    let z := State.reset.part
    q.windows = { z.windows with strap := strap } ∧
    q.windows.anchor = strap.toNat * 0x04000000 + 0x7000 ∧
    q.channel = { z.channel with
      state := if asserted then .inReset else .active, dramReset := asserted } ∧
    q.command = z.command ∧ q.optical = z.optical ∧ q.health = z.health ∧ q.path = z.path ∧
    q.radio = z.radio ∧ q.relay = z.relay ∧ q.uplink = z.uplink ∧ q.delivery = z.delivery ∧
    q.events = z.events ∧ q.clock = { z.clock with pins := s.part.clock.pins }

/-- At the first millisecond the levels of OPRES, OLOS, RTEST and RPRES are taken at once: a poll starts if
the optical module is present, MODULE_ABSENT and LOS follow the lines, and the radio module is powered and
STARTING, or ABSENT (R40, R42, R51, R76, R107). A second FIRST_MILLISECOND does nothing (log 8). -/
def Obligations.FirstMillisecondTakesTheLines : Prop :=
  ∀ (opres olos rtest rpres : Bool) (s : State),
    (s.part.clock.firstTaken = true → exec (.firstMillisecond opres olos rtest rpres) s = .next s) ∧
    (s.part.clock.firstTaken = false →
      Leads (.firstMillisecond opres olos rtest rpres) s fun q =>
        let p := s.part
        let live := (p.health.live.put .moduleAbsent (!opres)).put .los (opres && olos)
        q.clock.firstTaken = true ∧ q.clock.now = p.clock.now ∧
        q.channel = p.channel ∧ q.windows = p.windows ∧ q.delivery = p.delivery ∧
        q.optical.present = opres ∧ q.optical.losLevel = (opres && olos) ∧
        (opres = true → q.optical.poll = .firstAttempt ∧
          q.optical.nextPoll = some (p.clock.now + p.optical.settings.period)) ∧
        (opres = false → q.optical.poll = p.optical.poll ∧ q.optical.nextPoll = p.optical.nextPoll) ∧
        q.optical.settings = p.optical.settings ∧
        q.health = (if live = p.health.live then p.health else p.health.after live) ∧
        q.path.test = rtest ∧ q.path.software = p.path.software ∧
        q.radio.present = rpres ∧ q.radio.rpwr = rpres ∧
        q.radio.state = (if rpres then .starting else .absent) ∧
        q.radio.start = (if rpres then some (p.clock.now + 20000) else none) ∧
        q.radio.settings = p.radio.settings)

/-- Assertion of the channel reset line: IN_RESET, every bank CLOSED, mode unlearned, readout mode off; the
copies of the command slot zeroed, the staging store emptied, the staleness timer disarmed and the four
report conditions cleared (R8, R22, R63, R137). An access it cuts short is handled first, with the beats already
transferred: a cut write as a whole write of the bytes that came, but that a fibre report or a SET_THRESHOLDS it carries
sets and latches its conditions and leaves the one evaluation to the event's end, after the report conditions are
cleared (R60, R64, R68, R72). Of a command it carries that is done in the event, SET_EVENTS, FORCE or RADIO_DETACH, the
result data show flags, service state or module state as the whole event leaves them (R101, R132, R202). The order
within the event is the model's reading (log 20). Asserted already, it does nothing more. Release: ACTIVE, with the bank
table and mode knowledge as assertion left them and no other effect; released already, it does nothing (R7, R8). -/
def Obligations.ChannelReset : Prop :=
  (∀ (cut : CutAccess) (s : State),
    (s.part.channel.state = .inReset → exec (.channelResetAssert cut) s = .next s) ∧
    (s.part.channel.state ≠ .inReset →
      Leads (.channelResetAssert cut) s fun q =>
        let p := cutAccess cut s.part
        let live := clearReports p.health.live
        q.channel = { p.channel with
          state := .inReset, banks := List.replicate 8 none, known0 := false, known1 := false,
          known2 := false, readout := false, dramReset := true } ∧
        q.command.header = List.replicate 32 0 ∧ q.command.params = List.replicate 32 0 ∧
        q.command.tag = p.command.tag ∧ q.command.clamp = p.command.clamp ∧
        q.uplink.staging = [] ∧
        q.uplink.entries.map Entry.host = p.uplink.entries.map Entry.host ∧
        (q.health = { p.health with stale := .disarmed } ∧ live = p.health.live ∨
          live ≠ p.health.live ∧
            q.health = ({ p.health with stale := .disarmed } : Health).after live) ∧
        q.windows = p.windows ∧ q.delivery = p.delivery ∧ q.clock = p.clock ∧
        q.optical.settings = p.optical.settings ∧ q.optical.window = p.optical.window ∧
        q.events.mask = p.events.mask ∧ (∀ f, p.flag f = true → q.flag f = true))) ∧
  (∀ (code : Byte) (h : HeaderBurst) (beats : Nat) (s : State), s.part.Takes h → 0 < beats →
    Leads (.channelResetAssert (.write (headerWrite code h) beats)) s fun q =>
      let shows (data : List Byte) : Prop := q.command.data = padTo 16 data
      (code = 0x03 → shows (leBytes 2 q.events.mask.toNat ++ leBytes 2 q.events.flags.toNat)) ∧
      (code = 0x0D → q.command.result = 0x01 → shows [q.path.service.code, q.path.effective.code]) ∧
      (code = 0x10 → q.command.result = 0x01 → shows [q.radio.state.code, causeCode q.radio.lastDetach])) ∧
  (∀ (w : WriteBurst) (beats : Nat) (s : State), s.part.channel.state = .active →
    let p := s.part
    let ls := carried (p.channel.chopped w.place) (w.place.column.toNat % 8) beats w.lanes
    let came : WriteBurst := { w with lanes := ls }
    let reaches (r : Region) : Prop := p.channel.learned = true ∧
      ∃ row, p.channel.row w.place.bank = some row ∧ p.windows.classify (lineAddress row w.place) = r
    let errored := ((lane ls 2).getD 0).toNat + 256 * ((lane ls 3).getD 0).toNat
    let reports := reaches .report ∧ p.health.settings.reportTimeout ≠ 0 ∧
      (lane ls 0 = some 1 ∨ lane ls 0 = some 2)
    let ps := parameterBlock (mergeLanes p.command.header ls) p.command.params
    let st := thresholdsIn ps
    let sets (tag : BitVec 16) := reaches .header ∧ p.command.running = none ∧
      headerCommand ls = some (0x0A, tag) ∧ st.Rises
    (¬reports → (∀ tag, ¬sets tag) → exec (.lineWrite came) s = .next (s.having (cutAccess (.write w beats) p))) ∧
    (reports → Leads (.channelResetAssert (.write w beats)) s fun q =>
      let h := p.health.setting (p.health.liveReported (lane ls 0 = some 2) errored)
      Judged (clearReports h.live) (cutDown came h p.command p) q ∧
      (h.latched ≠ p.health.latched → q.flag .latched = true)) ∧
    (∀ tag, sets tag → Leads (.channelResetAssert (.write w beats)) s fun q =>
      let under := { p.health with settings := st }
      let h := under.setting (p.health.liveUnder st p.clock.now)
      let k : Command := { p.command with
        tag := tag, code := 0x0A, result := if thresholdsClamp ps = 0 then 0x01 else 0x02
        clamp := thresholdsClamp ps, data := List.replicate 16 0 }
      Judged (clearReports h.live) (raise .commandDone (cutDown came h k p)) q ∧
      (h.latched ≠ p.health.latched → q.flag .latched = true))) ∧
  ∀ s : State,
    (s.part.channel.state = .inReset →
      exec .channelResetRelease s = .next (s.having { s.part with
        channel := { s.part.channel with state := .active, dramReset := false } })) ∧
    (s.part.channel.state ≠ .inReset → exec .channelResetRelease s = .next s)

/-- Of a write cut short after `beats` beats the bytes of the beats that came are carried, in natural order from the
start of the extent, and no others (R8, R10); those and no others have passed to DRAM, whatever the write is (R1,
R8). A read cut short has returned the bytes of the beats that were sent, from DRAM or from the part, and returns no
more (R8). That the line cuts at most one access short, and that the command shown as passed to DRAM is cut so, are
the model's readings (log 10, log 20). -/
def Obligations.CutWriteCarriesItsBeats : Prop :=
  (∀ (chopped : Bool) (start beats : Nat) (ls : List Lane) (b : Nat), start < 8 → b < 32 →
    lane (carried chopped start beats ls) b =
      (if chopped then
        (if b / 16 = start / 4 ∧ b % 16 < 4 * beats then lane ls b else none)
       else if b < 4 * beats then lane ls b else none)) ∧
  (∀ (w : WriteBurst) (beats : Nat) (s : State), s.part.channel.state = .active →
    Leads (.channelResetAssert (.write w beats)) s fun q =>
      q.channel.toDram = some (.named (.write { w with
        lanes := carried (s.part.channel.chopped w.place) (w.place.column.toNat % 8) beats w.lanes }))) ∧
  ∀ (r : ReadBurst) (beats : Nat) (s : State), s.part.channel.state = .active →
    ∃ whole cut, exec (.lineRead r) s = .next whole ∧
      exec (.channelResetAssert (.read r beats)) s = .next cut ∧
      cut.part.channel.toDram = some (.named (.read { r with dram := r.dram.take (4 * beats) })) ∧
      cut.part.channel.toHost = whole.part.channel.toHost.map fun back =>
        { back with bytes := back.bytes.take (4 * beats) }

/-! ### The memory channel -/

/-- The bank table in ACTIVE (R3): an open-row to an OPEN bank and a refresh with a bank OPEN count in
CHANNEL_PROTOCOL; nothing else changes but the command passed to DRAM (R1). -/
def Obligations.BankTable : Prop :=
  ∀ (s : State) (bank : BitVec 3) (row : BitVec 15),
    let p := s.part
    let c := p.channel
    c.state = .active →
    exec (.openRow bank row) s = .next (s.having (count .channelProtocol (if (c.row bank).isSome then 1 else 0)
          { p with channel := { c with
              banks := c.banks.set bank.toNat (some row), toDram := some (.named (.openRow bank row)) } })) ∧
    exec (.closeRow false bank) s = .next (s.having { p with channel := { c with
          banks := c.banks.set bank.toNat none, toDram := some (.named (.closeRow bank)) } }) ∧
    exec (.closeRow true bank) s = .next (s.having { p with channel := { c with
          banks := List.replicate 8 none, toDram := some (.named .closeAll) } }) ∧
    exec .refresh s = .next (s.having (count .channelProtocol (if c.anyOpen then 1 else 0)
          { p with channel := { c with
              banks := List.replicate 8 none, toDram := some (.named .refresh) } }))

/-- A mode-set in ACTIVE (R5, R6). It counts in CHANNEL_PROTOCOL when a bank is OPEN. A valid one records
its register's fields, read from the address bits, and sets the register's known flag; an invalid one
counts once more, clears all three known flags and leaves the recorded fields; register 3 records readout
mode. -/
def Obligations.ModeSet : Prop :=
  ∀ (s : State) (v : BitVec 15),
    let p := s.part
    let c := p.channel
    let n := v.toNat
    let latency := 2 * (n / 16 % 8) + n / 4 % 2
    let sent (r : BitVec 2) (c : Channel) : Part :=
      count .channelProtocol (if p.channel.anyOpen then 1 else 0)
        { p with channel := { c with toDram := some (.named (.modeSet r v)) } }
    let invalid (r : BitVec 2) : Host.Outcome State Fault Refusal :=
      .next (s.having (count .channelProtocol 1 (sent r { c with known0 := false, known1 := false, known2 := false })))
    c.state = .active →
    (∀ m, (n % 4 = 0 ∧ m = BurstMode.fixed8 ∨ n % 4 = 1 ∧ m = .onTheFly ∨ n % 4 = 2 ∧ m = .fixed4) →
      latency ≠ 0 → (latency % 2 = 0 ∨ latency ≤ 5) →
      exec (.modeSet 0 v) s = .next (s.having (sent 0 { c with
        burstMode := m, readOrder := if n / 8 % 2 = 1 then .interleaved else .sequential,
        readLatency := if latency % 2 = 0 then 4 + latency / 2 else 12 + latency / 2,
        known0 := true }))) ∧
    (n % 4 = 3 ∨ latency = 0 ∨ latency % 2 = 1 ∧ 5 < latency → exec (.modeSet 0 v) s = invalid 0) ∧
    (∀ a, (n / 8 % 4 = 0 ∧ a = Additive.zero ∨ n / 8 % 4 = 1 ∧ a = .readLess1 ∨
        n / 8 % 4 = 2 ∧ a = .readLess2) →
      exec (.modeSet 1 v) s = .next (s.having (sent 1 { c with
        additive := a, outputDisable := decide (n / 4096 % 2 = 1), known1 := true }))) ∧
    (n / 8 % 4 = 3 → exec (.modeSet 1 v) s = invalid 1) ∧
    exec (.modeSet 2 v) s = .next (s.having (sent 2 { c with
      writeLatency := 5 + n / 8 % 8, known2 := true })) ∧
    exec (.modeSet 3 v) s = .next (s.having (sent 3 { c with
      readout := decide (n / 4 % 2 = 1) }))

/-- Entry into POWER_DOWN and SELF_REFRESH and the exits (R3, R7, R62): the bank table is kept by power-down and
closed by self-refresh, the staleness timer stands still while the channel sleeps, and an exit in ACTIVE counts.
While it sleeps the exit, named or coded on the pins, leads to ACTIVE with the timer running on; any other command but
no-op and deselect counts in CHANNEL_PROTOCOL and is otherwise ignored; no-op and deselect are not counted;
IN_RESET ignores every command uncounted. The command passes to DRAM, and a read returns what DRAM returned (R1, R7):
this holds of every row that comes over the channel, whatever it would do in ACTIVE; a mode-set coding of a bank
address above 3 counts as one of these commands (log 12). -/
def Obligations.SleepingChannel : Prop :=
  (∀ s : State,
     let p := s.part
     let c := p.channel
     let now := p.clock.now
     let slept : Staleness := match p.health.stale with
       | .running since => .paused (now - since)
       | t => t
     let woken : Staleness := match p.health.stale with
       | .paused passed => .running (now - passed)
       | t => t
     (c.state = .active →
       exec .powerDownEntry s = .next (s.having { p with
         channel := { c with state := .powerDown, toDram := some (.named .powerDownEntry) }
         health := { p.health with stale := slept } }) ∧
       exec .selfRefreshEntry s = .next (s.having (count .channelProtocol (if c.anyOpen then 1 else 0) { p with
           channel := { c with
             state := .selfRefresh, banks := List.replicate 8 none, toDram := some (.named .selfRefreshEntry) }
           health := { p.health with stale := slept } })) ∧
       exec .powerDownExit s = .next (s.having (count .channelProtocol 1
         { p with channel := { c with toDram := some (.named .exit) } }))) ∧
     (c.state = .powerDown ∨ c.state = .selfRefresh →
       exec .powerDownExit s = .next (s.having { p with
         channel := { c with state := .active, toDram := some (.named .exit) }
         health := { p.health with stale := woken } }))) ∧
  (∀ (i : Instr) (sent : DramCommand) (s : State), channelOp i = some sent →
     let p := s.part
     let op := sent.op
     let c := { p.channel with
       toDram := some sent
       toHost := match op with
         | .read r => some { bytes := r.dram, source := .dram }
         | _ => p.channel.toHost }
     (p.channel.state = .powerDown ∨ p.channel.state = .selfRefresh →
       (op ≠ .exit → op ≠ .noOp → op ≠ .deselect →
         exec i s = .next (s.having (count .channelProtocol 1 { p with channel := c }))) ∧
       (op = .noOp ∨ op = .deselect → exec i s = .next (s.having { p with channel := c })) ∧
       (op = .exit → exec i s = .next (s.having { p with
         channel := { c with state := .active }
         health := { p.health with stale := match p.health.stale with
           | .paused passed => .running (p.clock.now - passed)
           | t => t } }))) ∧
     (p.channel.state = .inReset → exec i s = .next (s.having { p with channel := c })))

/-- How a command is coded (R2): chip select, the strobes and write enable, with clock enable steady; an
exit with clock enable rising; the entries with clock enable falling. A command coded on the pins reaches DRAM as it
came, with every pin and its data, in every channel state (R1). Received in ACTIVE it acts as the row of its kind
does, but for what is shown passed; no-op, deselect and calibration have no effect. That the column is address bits 9
to 0 is the model's reading, which R2 does not say (log 36). -/
def Obligations.CommandCoding : Prop :=
  (∀ (b : BitVec 3) (a : BitVec 15) (ls : List Lane) (dram : List Byte) (ras cas we : Bool),
    let place : Burst := { bank := b, column := BitVec.ofNat 10 (a.toNat % 1024),
                           autoClose := decide (a.toNat / 1024 % 2 = 1),
                           chop := decide (a.toNat / 4096 % 2 = 0) }
    let kind (cke : ClockEnable) (cs ras cas we : Bool) : ChannelOp :=
      sortCommand { cke := cke, cs := cs, ras := ras, cas := cas, we := we, bank := b, addr := a,
                    lanes := ls, dram := dram }
    kind .steady false false true true = .openRow b a ∧
    kind .steady false true false true = .read { place := place, dram := dram } ∧
    kind .steady false true false false = .write { place := place, lanes := ls } ∧
    kind .steady false false true false =
      (if a.toNat / 1024 % 2 = 1 then .closeAll else .closeRow b) ∧
    kind .steady false false false true = .refresh ∧
    (b.toNat < 4 →
      kind .steady false false false false = .modeSet (BitVec.ofNat 2 b.toNat) a) ∧
    kind .falling false false false true = .selfRefreshEntry ∧
    kind .falling false true true true = .powerDownEntry ∧
    kind .falling true ras cas we = .powerDownEntry ∧
    (∀ cs, kind .rising cs ras cas we = .exit) ∧
    kind .steady false true true true = .noOp ∧
    kind .steady true ras cas we = .deselect ∧
    kind .steady false true true false = .calibration) ∧
  (∀ (pins : ChannelPins) (s : State),
    Leads (.commandOutOfPlace pins) s fun q => q.channel.toDram = some (.pins pins)) ∧
  ∀ (pins : ChannelPins) (s : State), s.part.channel.state = .active →
    (∀ i, channelOp i = some (.named (sortCommand pins)) → ∃ t, exec i s = .next t ∧
      exec (.commandOutOfPlace pins) s = .next (t.having { t.part with
        channel := { t.part.channel with toDram := some (.pins pins) } })) ∧
    (sortCommand pins = .noOp ∨ sortCommand pins = .deselect ∨ sortCommand pins = .calibration →
      exec (.commandOutOfPlace pins) s = .next (s.having { s.part with
        channel := { s.part.channel with toDram := some (.pins pins) } }))

/-- R4: a read or write in ACTIVE to a CLOSED bank counts in STRAY_ACCESSES and nowhere else, passes to
DRAM, is never captured or substituted, and leaves the bank CLOSED, auto-close or not. -/
def Obligations.StrayAccess : Prop :=
  ∀ (i : Instr) (sent : DramCommand) (b : Burst) (s : State), channelOp i = some sent → sent.op.burst = some b →
    let p := s.part
    p.channel.state = .active → p.channel.row b.bank = none →
    exec i s = .next (s.having (count .strayAccesses 1 { p with
      channel := { p.channel with
        toDram := some sent
        toHost := match sent.op with
          | .read r => some { bytes := r.dram, source := .dram }
          | _ => p.channel.toHost } }))

/-- A read in ACTIVE of an open row (R9, R11, R12, R17, R18): where its line belongs to no block the bytes
of DRAM return; where it does and substitution is in force the owner's line returns, beat i carrying the
four bytes of the position R11 gives, at the latency the channel is set to; where it does and substitution
is not in force DRAM's bytes return and UNLEARNED_ACCESSES counts. An auto-close closes the bank (R3). -/
def Obligations.LineRead : Prop :=
  ∀ (r : ReadBurst) (row : BitVec 15) (s : State),
    let p := s.part
    let c := p.channel
    let place := r.place
    let chopped := c.chopped place
    let start := place.column.toNat % 8
    let address :=
      ((row.toNat * 8 + place.bank.toNat) * 1024 + place.column.toNat / 8 * 8) * 4
    let position (i : Nat) : Nat := match c.readOrder with
      | .sequential => (start + i) % 4 + 4 * ((start / 4 + i / 4) % 2)
      | .interleaved => start ^^^ i
    let banks := if place.autoClose then c.banks.set place.bank.toNat none else c.banks
    let back (r' : ReadReturn) : Part := { p with channel := { c with
      toDram := some (.named (.read r)), toHost := some r', banks := banks } }
    let dram : ReadReturn := { bytes := r.dram, source := .dram }
    c.state = .active → c.row place.bank = some row →
    let owner := ownerLine (p.windows.classify address) p
    (owner = none → exec (.lineRead r) s = .next (s.having (back dram))) ∧
    (∀ line, owner = some line → ¬(c.learned = true ∧ c.readout = false ∧ c.outputDisable = false) →
      exec (.lineRead r) s = .next (s.having (count .unlearnedAccesses 1 (back dram)))) ∧
    (∀ line, owner = some line → c.learned = true → c.readout = false → c.outputDisable = false →
      ∃ bytes,
        exec (.lineRead r) s = .next (s.having (back
          { bytes := bytes,
            source := .part (c.readLatency + (match c.additive with
              | .zero => 0
              | .readLess1 => c.readLatency - 1
              | .readLess2 => c.readLatency - 2)) })) ∧
        bytes.length = (if chopped then 16 else 32) ∧
        ∀ i k, i < (if chopped then 4 else 8) → k < 4 →
          bytes.getD (4 * i + k) 0 = line.getD (4 * position i + k) 0)

/-- A write in ACTIVE of an open row (R9, R17, R18): where its line is captured by no block it reaches DRAM
alone; where one would capture it and mode is unlearned, UNLEARNED_ACCESSES counts and nothing is kept. An
auto-close closes the bank (R3). This holds of every row that writes into memory: each is the write command
of its burst, and acts by where that lands (log 9). -/
def Obligations.WritePassesOrIsWithheld : Prop :=
  ∀ (i : Instr) (w : WriteBurst) (row : BitVec 15) (s : State), writeOf i = some w →
    let p := s.part
    let c := p.channel
    let region := p.windows.classify (lineAddress row w.place)
    let sent : Part := { p with channel := { c with
      toDram := some (.named (.write w))
      banks := if w.place.autoClose then c.banks.set w.place.bank.toNat none else c.banks } }
    exec i s = exec (.lineWrite w) s ∧
    (c.state = .active → c.row w.place.bank = some row →
      (region.capturing = false → exec i s = .next (s.having sent)) ∧
      (region.capturing = true → c.learned = false →
        exec i s = .next (s.having (count .unlearnedAccesses 1 sent))))

/-- What a substituted read finds (R19, R20, R21, R203 and the layouts of chapter 1), byte by byte: every field
of the status page at its place, little-endian, every byte the tables do not name 0, and line 7 all 0; of a
line of the uplink table or of the delivery ring both descriptors, host-side bytes as last captured; of the
delivery area the bytes of the slot's frame, 0 past its length and in an EMPTY slot. -/
def Obligations.SubstitutedLines : Prop :=
  (∀ p : Part, p.command.data.length = 16 →
    let now := p.clock.now
    let left (t : Timer) : Nat := match t with
      | none => 0
      | some d => d - now
    let o := p.optical
    let h := p.health
    let r := p.radio
    let y := p.path
    let c := p.command
    let b (x : Bool) : Nat := if x then 1 else 0
    let field (line i n v : Nat) : Prop :=
      ∃ bytes, ownerLine (.status line) p = some bytes ∧ bytes.length = 32 ∧ slice bytes i n = leBytes n v
    (field 0 0 2 0x2140 ∧ field 0 2 1 0x01 ∧ field 0 3 1 y.service.code.toNat ∧
      field 0 4 1 y.software.code.toNat ∧ field 0 5 1 y.effective.code.toNat ∧
      field 0 6 1 h.verdict.code.toNat ∧ field 0 7 1 r.state.code.toNat ∧
      field 0 16 2 p.events.flags.toNat ∧ field 0 18 1 p.channel.state.code.toNat ∧
      field 0 19 1 (b (p.channel.known0 && p.channel.known1 && p.channel.known2)) ∧ field 0 24 8 0) ∧
    (field 1 0 2 o.temperature.toNat ∧ field 1 2 2 o.supply.toNat ∧ field 1 4 2 o.bias.toNat ∧
      field 1 6 2 o.txPower.toNat ∧ field 1 8 2 o.rxPower.toNat ∧ field 1 10 2 h.corrected ∧
      field 1 12 2 (h.filter.getD 0) ∧ field 1 14 4 o.samples.toNat ∧ field 1 18 2 h.live.toNat ∧
      field 1 20 2 h.latched.toNat ∧ field 1 22 2 h.causes.toNat ∧ field 1 24 1 o.failures ∧ field 1 25 7 0) ∧
    (field 2 0 1 r.quality ∧ field 2 1 1 r.buffers.toNat ∧ field 2 2 2 r.grant.toNat ∧
      field 2 4 2 (p.relay.credit / 8) ∧ field 2 6 1 r.outstanding.length ∧ field 2 7 1 r.attempts ∧
      field 2 8 4 r.serviceId.toNat ∧
      field 2 20 1 (b p.relay.shed.voice + 2 * b p.relay.shed.signal + 4 * b p.relay.shed.interactive +
        8 * b p.relay.shed.bulk) ∧
      field 2 21 1 p.delivery.fill ∧ field 2 22 10 0) ∧
    (field 3 0 2 c.tag.toNat ∧ field 3 2 1 c.code.toNat ∧ field 3 3 1 c.result.toNat ∧
      field 3 4 4 c.clamp.toNat ∧ field 3 8 2 c.refused.toNat ∧ field 3 10 6 0 ∧
      ∀ k, k < 16 → field 3 (16 + k) 1 (c.data.getD k 0).toNat) ∧
    (field 6 0 4 (left y.dwell) ∧ field 6 4 4 (left y.prove) ∧ field 6 8 4 (left y.strandedProve) ∧
      field 6 12 4 (left y.quiet) ∧ field 6 16 4 (left y.stick) ∧
      field 6 28 4 (match h.stale with
        | .disarmed => 0
        | .running since => h.settings.reportTimeout - (now - since)
        | .paused passed => h.settings.reportTimeout - passed)) ∧
    (∀ (n : Nat) (c : ServiceClass),
      [ServiceClass.voice, .signal, .interactive, .bulk][n]? = some c →
      let z := y.classes.get c
      field 0 (8 + n) 1 z.word.code.toNat ∧ field 0 (12 + n) 1 z.reason.code.toNat ∧
      field 0 (20 + n) 1 z.sub.code.toNat ∧
      field 2 (12 + 2 * n) 2 (p.held c) ∧ field 6 (20 + 2 * n) 2 (left z.drain)) ∧
    (∀ (n : Nat) (c : Counter),
      [Counter.strayAccesses, .channelProtocol, .unlearnedAccesses, .stageEvictions, .postsRefused,
        .framesSent, .framesDiscarded, .bytesSent, .linkErrors, .acceptTimeouts, .framesDelivered,
        .deliveryOverruns, .downlinkGaps, .failovers, .returns, .commandsRefusedBusy][n]? = some c →
      field (4 + n / 8) (4 * (n % 8)) 4 (p.events.counters.get c).toNat) ∧
    field 7 0 32 0) ∧
  ([Service.fibre, .suspect, .radio, .stranded, .proving, .returning, .forcedFibre, .forcedRadio].map Service.code =
      [0, 1, 2, 3, 4, 5, 6, 7] ∧
    [Force.auto, .fibre, .radio].map Force.code = [0, 1, 2] ∧
    [Verdict.pending, .good, .warn, .bad].map Verdict.code = [0, 1, 2, 3] ∧
    [Module.absent, .off, .starting, .idle, .attaching, .attached, .detaching, .recovering].map Module.code =
      [0, 1, 2, 3, 4, 5, 6, 7] ∧
    [PathWord.fibre, .radio, .hold, .blocked].map PathWord.code = [0, 1, 2, 3] ∧
    [PathReason.none, .shed, .noPath, .noRadio].map PathReason.code = [0, 1, 2, 3] ∧
    [SubState.onRadio, .waitingQuiet, .draining, .returned].map SubState.code = [0, 1, 2, 3] ∧
    [ChannelState.active, .powerDown, .selfRefresh, .inReset].map ChannelState.code = [0, 1, 2, 3] ∧
    [EntryState.idle, .held, .queued, .sending, .sent, .discarded].map EntryState.code = [0, 1, 2, 3, 4, 5] ∧
    [Discard.incomplete, .outOfWindow, .tooLong, .tooManyParts, .wrongPath, .shed, .noPath, .queueFull, .displaced,
      .aged, .withdrawn, .radioLost, .drainLimit, .linkTimeout, .moduleReject].map Discard.code =
      [1, 2, 3, 4, 5, 6, 7, 8, 9, 10, 11, 12, 13, 14, 15]) ∧
  ∀ (p : Part) (m n : Nat), n < 2 →
    (∀ e, p.uplink.entries[2 * m + n]? = some e → ∃ bytes, ownerLine (.uplink m) p = some bytes ∧
      bytes.length = 32 ∧ ∀ j, j < 16 → bytes.getD (16 * n + j) 0 =
        if j ≤ 8 ∨ j = 12 ∨ j = 13 then e.host.getD j 0
        else if j = 9 then e.state.code
        else if j = 10 then (e.reason.map Discard.code).getD 0
        else if j = 11 then 0
        else (leBytes 2 e.carriage.toNat).getD (j - 14) 0) ∧
    (∃ bytes, ownerLine (.ring m) p = some bytes ∧ bytes.length = 32 ∧
      slice bytes (16 * n) 16 = match p.delivery.slots.getD (2 * m + n) none with
        | none => List.replicate 16 0
        | some f => 1 :: BitVec.ofNat 8 (match f.cls with
            | .voice => 0
            | .signal => 1
            | .interactive => 2
            | .bulk => 3) :: leBytes 2 f.bytes.length ++ leBytes 2 f.carriage.toNat ++
              leBytes 2 f.number.toNat ++ List.replicate 8 0) ∧
    ∃ bytes, ownerLine (.area m) p = some bytes ∧ bytes.length = 32 ∧
      ∀ j, j < 32 → bytes.getD j 0 = match p.delivery.slots.getD (m / 48) none with
        | none => 0
        | some f => f.bytes.getD (m % 48 * 32 + j) 0

/-! ### The command slot -/

/-- Writes to the command slot that carry no command. One to the command parameter line is merged into the parameter
copy: each byte it carries replaces the copy's, every other byte stays, and nothing else changes (R22). One to the
command header line that leaves any of bytes 0 to 3 out is merged into the header copy and nothing else changes,
whichever command row wrote it (R22, R23; that each row is the write of its burst is log 9). -/
def Obligations.SlotWritesMerge : Prop :=
  (∀ (w : AnchorBurst) (s : State),
     let p := s.part
     let place := (anchorWrite 0x120 w).place
     let copy := mergeLanes p.command.params (p.lanesOf (anchorWrite 0x120 w))
     p.AnchorOpen →
     exec (.commandParameterWrite w) s = .next (s.having
       { p with channel := anchorChannel 0x120 w p, command := { p.command with params := copy } }) ∧
     (p.command.params.length = 32 → ∀ b, b < 32 → copy.getD b 0 =
       (if p.channel.chopped place = true ∧ b / 16 ≠ w.start.toNat / 4 then p.command.params.getD b 0
        else (lane w.lanes b).getD (p.command.params.getD b 0)))) ∧
  ((∀ (w : AnchorBurst) (s : State) (b : Nat),
     let p := s.part
     let ls := p.lanesOf (anchorWrite 0x100 w)
     p.AnchorOpen → b < 4 → lane ls b = none →
     exec (.commandHeaderMerge w) s = .next (s.having
       { p with
         channel := anchorChannel 0x100 w p
         command := { p.command with header := mergeLanes p.command.header ls } })) ∧
   ∀ (i : Instr) (code : Byte) (h : HeaderBurst) (s : State), headerRow i = some (code, h) →
     s.part.AnchorOpen → ¬s.part.CarriesCommand h →
     exec i s = .next (s.having
       { s.part with
         channel := slotChannel code h s.part
         command := { s.part.command with header := slotHeader code h s.part } }))

/-- A command that arrives while the unit is BUSY is refused, whatever its code and whichever row wrote it
(COMMAND_REFUSED_BUSY or the row of a command): its tag becomes the last refused tag, COMMANDS_REFUSED_BUSY counts,
its write stays merged, and nothing else changes (R27; that each row is the write of its burst is log 9). -/
def Obligations.RefusedWhileBusy : Prop :=
  ∀ (i : Instr) (code : Byte) (h : HeaderBurst) (s : State), headerRow i = some (code, h) →
    let p := s.part
    p.AnchorOpen → p.CarriesCommand h → p.command.running.isSome = true →
    exec i s = .next (s.having (count .commandsRefusedBusy 1
      { p with
        channel := slotChannel code h p
        command := { p.command with header := slotHeader code h p, refused := h.tag } }))

/-- A code that names no command completes at once with UNKNOWN_COMMAND, and no block sees it (R24, R30).
IDENTIFY shows the part number, the revision, the strap value and the sizes of the staging store, the frame
store and the delivery slots, and changes nothing else (R31). -/
def Obligations.UnknownCommandAndIdentify : Prop :=
  (∀ (code : Byte) (h : HeaderBurst) (s : State), s.part.Takes h →
     code = 0 ∨ 0x11 < code.toNat →
     exec (.unknownCommand code h) s = .next (s.having (answered code h 0x05 0 [] s.part))) ∧
  (∀ (h : HeaderBurst) (s : State), s.part.Takes h →
     exec (.identify h) s = .next (s.having (answered 0x01 h 0x01 0
       [0x40, 0x21, 0x01, BitVec.ofNat 8 s.part.windows.strap.toNat, 0x00, 0x04, 0x00, 0x08, 32]
       s.part)))

/-- SET_EVENTS takes the enable mask and posts it with the flags as the event leaves them (R202); CLEAR_COUNTERS sets
every counter to 0 (R204); neither touches a flag but COMMAND_DONE. A write to the acknowledge line clears the flags
that its bytes 0 and 1 name, where it carries them, and no other; nothing else changes (R200). The attention line is
active exactly while a flag is both set and enabled (R201). -/
def Obligations.FlagsAndCounters : Prop :=
  (∀ (h : HeaderBurst) (s : State), s.part.Takes h →
     let p := s.part
     let mask := BitVec.ofNat 9 (param16 (slotParams 0x03 h p) 0)
     exec (.setEvents h) s = .next (s.having (answered 0x03 h 0x01 0
       (leBytes 2 mask.toNat ++ leBytes 2 (p.events.flags ||| 1).toNat)
       { p with events := { p.events with mask := mask } })) ∧
     exec (.clearCounters h) s = .next (s.having (answered 0x04 h 0x01 0 []
       { p with events := { p.events with counters := Counters.zero } })) ∧
     ∀ c, Counters.zero.get c = 0) ∧
  (∀ (w : AnchorBurst) (s : State), s.part.AnchorOpen →
     let p := s.part
     let ls := p.lanesOf (anchorWrite 0x140 w)
     ∃ flags,
       exec (.acknowledgeWrite w) s = .next (s.having
         { p with
           channel := anchorChannel 0x140 w p, events := { p.events with flags := flags } }) ∧
       ∀ f : Flag, flags.getLsbD f.bit =
         (p.flag f && !((lane ls (f.bit / 8)).getD 0).getLsbD (f.bit % 8))) ∧
  ∀ p : Part, p.attention = true ↔ ∃ f : Flag, p.flag f = true ∧ p.events.mask.getLsbD f.bit = true

/-- DEFINE_UPLINK (R15, R142, R143): the count is clamped to 8 to 256 and made even. An extent that fails a
check gives PARAM_ERROR, a QUEUED or SENDING entry STATE_ERROR; otherwise the table takes the window, and
every entry is fresh. -/
def Obligations.DefineUplink : Prop :=
  ∀ (h : HeaderBurst) (s : State), s.part.Takes h →
    let p := s.part
    let ps := slotParams 0x05 h p
    let given := param16 ps 4
    let n0 := max 8 (min 256 given)
    let n := n0 + n0 % 2
    let w : Window := { base := param32 ps 0, size := 16 * n }
    let clamp : BitVec 32 := if n = given then 0 else 2
    let fits := Admits ({ p.windows with uplink := none } : Windows).regions [w]
    let inUse := ∃ e ∈ p.uplink.entries, e.state = .queued ∨ e.state = .sending
    (¬fits → exec (.defineUplink h) s = .next (s.having (answered 0x05 h 0x03 clamp [] p))) ∧
    (fits → inUse → exec (.defineUplink h) s = .next (s.having (answered 0x05 h 0x04 clamp [] p))) ∧
    (fits → ¬inUse → exec (.defineUplink h) s = .next (s.having
      (answered 0x05 h (if clamp = 0 then 0x01 else 0x02) clamp (leBytes 2 n)
        { p with
          windows := { p.windows with uplink := some w }
          uplink := { p.uplink with
            entries := List.replicate n
              { host := List.replicate 16 0, state := .idle, reason := none, carriage := 0 } } })))

/-- DEFINE_CAPTURE (R15, R137, R144, R145): the size is made whole lines up to 4 MiB, and 0 removes. A slot
above 3 or an extent that fails a check gives PARAM_ERROR; otherwise the slot takes the window, and the
staged lines that no capture window covers any longer are dropped and counted in the result data. -/
def Obligations.DefineCapture : Prop :=
  ∀ (h : HeaderBurst) (s : State), s.part.Takes h →
    let p := s.part
    let ps := slotParams 0x06 h p
    let slot := param8 ps 0
    let given := param32 ps 8
    let size := if given = 0 then 0 else min 4194304 ((given + 31) / 32 * 32)
    let w : Option Window := if size = 0 then none else some { base := param32 ps 4, size := size }
    let clamp : BitVec 32 := if size = given then 0 else 4
    let windows : Windows := { p.windows with captures := p.windows.captures.set slot w }
    let kept := p.uplink.staging.filter fun e => windows.captured e.line
    let fits := slot ≤ 3 ∧
      Admits ({ p.windows with captures := p.windows.captures.set slot none } : Windows).regions w.toList
    (¬fits → exec (.defineCapture h) s = .next (s.having (answered 0x06 h 0x03 clamp [] p))) ∧
    (fits → exec (.defineCapture h) s = .next (s.having
      (answered 0x06 h (if clamp = 0 then 0x01 else 0x02) clamp
        (leBytes 2 (p.uplink.staging.length - kept.length) ++ leBytes 2 kept.length)
        { p with windows := windows, uplink := { p.uplink with staging := kept } })))

/-- DEFINE_DELIVERY (R15, R195, R196): operation 0 defines ring and area where both pass the checks, 1
removes them, any other gives PARAM_ERROR. Every READY slot is discarded, counts in DELIVERY_OVERRUNS and
raises DATA_LOSS; the delivery number and the expected sequences stay. -/
def Obligations.DefineDelivery : Prop :=
  ∀ (h : HeaderBurst) (s : State), s.part.Takes h →
    let p := s.part
    let ps := slotParams 0x07 h p
    let ring : Window := { base := param32 ps 0, size := 512 }
    let area : Window := { base := param32 ps 4, size := 49152 }
    let fits := Admits ({ p.windows with delivery := none } : Windows).regions [ring, area]
    let n := (p.delivery.slots.filter Option.isSome).length
    let emptied (d : Option DeliveryDef) : Part :=
      raiseIf (n != 0) .dataLoss (count .deliveryOverruns n
        { p with
          windows := { p.windows with delivery := d }
          delivery := { p.delivery with slots := List.replicate 32 none, fill := 0 } })
    (param8 ps 8 = 0 → fits → exec (.defineDelivery h) s = .next (s.having
      (answered 0x07 h 0x01 0 [BitVec.ofNat 8 n]
        (emptied (some { ring := ring.base, area := area.base }))))) ∧
    (param8 ps 8 = 0 → ¬fits →
      exec (.defineDelivery h) s = .next (s.having (answered 0x07 h 0x03 0 [] p))) ∧
    (param8 ps 8 = 1 → exec (.defineDelivery h) s = .next (s.having
      (answered 0x07 h 0x01 0 [BitVec.ofNat 8 n] (emptied none)))) ∧
    (1 < param8 ps 8 →
      exec (.defineDelivery h) s = .next (s.having (answered 0x07 h 0x03 0 [] p)))

/-- CLEAR_LATCHES clears every latched copy and latches again each live condition of the latch mask, less
the four that a restart window keeps from latching; LATCHED is raised if one is (R65, R66).
SET_PATH_TIMERS takes its seven settings, each clamped, and leaves the running timers alone (R102, R103). -/
def Obligations.LatchesAndPathTimers : Prop :=
  ∀ (h : HeaderBurst) (s : State), s.part.Takes h →
    let p := s.part
    let again := p.health.live &&& p.health.settings.latchMask &&&
      (if p.health.hold then 0xEE6 else 0xFFF)
    exec (.clearLatches h) s = .next (s.having (answered 0x0B h 0x01 0 []
      (raiseIf (again != 0) .latched { p with health := { p.health with latched := again } }))) ∧
    let ps := slotParams 0x0C h p
    let st : PathSettings :=
      { failDwell := min 10000 (param16 ps 0), losDwell := min 2000 (param16 ps 2),
        prove := max 1 (min 3600 (param16 ps 4)), strandedProve := max 1 (min 600 (param16 ps 6)),
        drainLimit := max 10 (min 5000 (param16 ps 8)),
        voiceQuiet := max 100 (min 10000 (param16 ps 10)),
        voiceStick := max 10 (min 7200 (param16 ps 12)) }
    let clamp := clampMask
      [param16 ps 0, param16 ps 2, param16 ps 4, param16 ps 6, param16 ps 8, param16 ps 10, param16 ps 12]
      [st.failDwell, st.losDwell, st.prove, st.strandedProve, st.drainLimit, st.voiceQuiet, st.voiceStick]
    exec (.setPathTimers h) s = .next (s.having
      (answered 0x0C h (if clamp = 0 then 0x01 else 0x02) clamp []
        { p with path := { p.path with settings := st } }))

/-- The clamp mask has bit n set exactly where value n of the command was changed by clamping (R29). -/
def Obligations.ClampMaskNamesChanges : Prop :=
  ∀ (given taken : List Nat) (n : Nat), n < given.length → given.length ≤ 32 →
    (clampMask given taken).getLsbD n = decide (given.getD n 0 ≠ taken.getD n 0)

/-! ### Commands of the optical monitor and the health unit -/

/-- SET_OPTICS takes its fifteen settings, each clamped, and sets seed pending (R49, R50). With the module present
the schedule restarts with a poll at once. A poll in flight ends first, with a stop condition, wherever its attempt
had got to (a free value, log 28). If the automatic run has reached the new interval it expires: a restart window
begins where the module is present, otherwise the run begins again (R43, R48). The run starts where the new interval
brings its conditions about, stops with interval 0, and otherwise keeps its beginning (R47); that the run is looked
at as the event ends is log 25. -/
def Obligations.SetOptics : Prop :=
  ∀ (h : HeaderBurst) (s : State), s.part.Takes h →
    let p := s.part
    let o := p.optical
    let ps := slotParams 0x08 h p
    let factor (i : Nat) : Nat := max 64 (min 255 (param8 ps (5 + i)))
    let given := param16 ps 17
    let st : OpticalSettings :=
      { address := BitVec.ofNat 8 (max 0x08 (min 0x77 (param8 ps 0)))
        offset := BitVec.ofNat 8 (min 245 (param8 ps 1))
        period := max 100 (min 1000 (param16 ps 2)), shift := min 4 (param8 ps 4)
        factors := [factor 0, factor 1, factor 2, factor 3, factor 4, factor 5, factor 6, factor 7]
        offTime := max 100 (min 2000 (param16 ps 13)), settleTime := min 10000 (param16 ps 15)
        interval := if given = 0 then 0 else max 60 (min 3600 given) }
    let clamp := clampMask
      ([param8 ps 0, param8 ps 1, param16 ps 2, param8 ps 4] ++
        [param8 ps 5, param8 ps 6, param8 ps 7, param8 ps 8, param8 ps 9, param8 ps 10, param8 ps 11,
          param8 ps 12] ++ [param16 ps 13, param16 ps 15, param16 ps 17])
      ([st.address.toNat, st.offset.toNat, st.period, st.shift] ++ st.factors ++
        [st.offTime, st.settleTime, st.interval])
    let result : Byte := if clamp = 0 then 0x01 else 0x02
    let stopped := o.bus ++ brokenOff o.settings (Config.busReached p.clock.now) ++ [.stop]
    let x : Part := { p with optical :=
      if o.present then
        { o with
          settings := st, seedPending := true, poll := .firstAttempt, began := p.clock.now
          nextPoll := some (p.clock.now + st.period)
          bus := (if o.poll = .waiting then [] else stopped) ++ [.start, .send (st.address <<< 1)] }
      else
        { o with
          settings := st, seedPending := true, poll := .waiting
          bus := if o.poll = .waiting then o.bus else stopped } }
    let goesOn := p.path.service = .radio ∧ p.path.verdict = .bad ∧ o.window = .none ∧ st.interval ≠ 0
    Leads (.setOptics h) s fun q =>
      q.command = completed 0x08 h result clamp [] p ∧
      (p.RunReached st → o.present = true →
        EventEnds (answered 0x08 h result clamp [] (windowBegun x)) q ∧ q.optical.run = none) ∧
      (¬p.RunReached st ∨ o.present = false → EventEnds (answered 0x08 h result clamp [] x) q ∧
        (p.Stays → p.NoneDrained →
          (¬goesOn → q.optical.run = none) ∧
          (goesOn → (p.RunReached st ∨ o.run = none → q.optical.run = some p.clock.now) ∧
            (¬p.RunReached st → ∀ began, o.run = some began → q.optical.run = some began))))

/-- FIBRE_RESTART is refused with STATE_ERROR while the module is absent, a restart window runs, or the
service state is FIBRE, SUSPECT, RETURNING or FORCED_FIBRE; otherwise a restart window begins and the command
unit is BUSY with EXECUTING shown (R43, R45). -/
def Obligations.FibreRestart : Prop :=
  ∀ (h : HeaderBurst) (s : State), s.part.Takes h →
    let p := s.part
    let refused := p.optical.present = false ∨ p.optical.window ≠ .none ∨ p.path.service = .fibre ∨
      p.path.service = .suspect ∨ p.path.service = .returning ∨ p.path.service = .forcedFibre
    (refused → exec (.fibreRestart h) s = .next (s.having (answered 0x09 h 0x04 0 [] p))) ∧
    (¬refused → Leads (.fibreRestart h) s fun q =>
      EventEnds (underWay 0x09 h .fibreRestart (windowBegun p)) q ∧
      q.command = (underWay 0x09 h .fibreRestart p).command)

/-- SET_THRESHOLDS gives PARAM_ERROR unless the four receive-power thresholds rise strictly (R71). Otherwise it takes
its settings, evaluates the receive-power conditions against a seeded filter and TEMP_HIGH against the last
temperature, deals with the staleness timer by the new report timeout, latches, and evaluates the verdict once (R72);
that it does so where no condition changes too is the model's reading of R72 beside R68 (log 16). A new latch raises
LATCHED, a new verdict VERDICT_CHANGED, and the path controller takes it (R64, R70, R75); a dwell it cuts to 0
expires in an event of its own (log 35). -/
def Obligations.SetThresholds : Prop :=
  ∀ (h : HeaderBurst) (s : State), s.part.Takes h →
    let p := s.part
    let ps := slotParams 0x0A h p
    let st := thresholdsIn ps
    let clamp := thresholdsClamp ps
    let result : Byte := if clamp = 0 then 0x01 else 0x02
    let stale : Staleness :=
      if st.reportTimeout = 0 ∨ p.health.runsOut st p.clock.now = true then .disarmed else p.health.stale
    (¬st.Rises → exec (.setThresholds h) s = .next (s.having (answered 0x0A h 0x03 clamp [] p))) ∧
    (st.Rises → Leads (.setThresholds h) s fun q =>
      q.command = completed 0x0A h result clamp [] p ∧
      Judged (p.health.liveUnder st p.clock.now) (answered 0x0A h result clamp []
        { p with health := { p.health with settings := st, stale := stale } }) q)

/-- The receive-power conditions and TEMP_HIGH set and clear by their hysteresis, and the evaluation touches
no other condition (R57, R58). -/
def Obligations.ConditionsWithHysteresis : Prop :=
  ∀ (st : HealthSettings) (f : Nat) (t : Int) (live : Conditions),
    let power := powerConditions st f live
    let temp := tempCondition st t live
    let sets (c : Condition) : Prop := match c with
      | .rxLowAlarm => f < st.alarmLow
      | .rxLowWarn => f < st.warnLow
      | .rxHighWarn => st.warnHigh < f
      | .rxHighAlarm => st.alarmHigh < f
      | _ => False
    let clears (c : Condition) : Prop := match c with
      | .rxLowAlarm => st.alarmLow + st.alarmLow / 16 ≤ f
      | .rxLowWarn => st.warnLow + st.warnLow / 16 ≤ f
      | .rxHighWarn => f ≤ st.warnHigh - st.warnHigh / 16
      | .rxHighAlarm => f ≤ st.alarmHigh - st.alarmHigh / 16
      | _ => False
    (∀ c : Condition, power.has c = true ↔
      live.has c = true ∧ ¬clears c ∨ live.has c = false ∧ sets c) ∧
    (temp.has .tempHigh = true ↔
      live.has .tempHigh = true ∧ (st.tempHigh : Int) - 3 < t ∨
      live.has .tempHigh = false ∧ (st.tempHigh : Int) < t) ∧
    ∀ c, c ≠ .tempHigh → temp.has c = live.has c

/-! ### Commands of the path controller, the radio link controller and the relay -/

/-- FORCE sets the software force, or gives PARAM_ERROR for a value above 2, and posts the service state and
the effective force as the event leaves them (R101). A radio-test change sets the level (R76), and the line with it,
its run of samples over (the model's reading, log 6); a level already taken has no effect (log 7). After either
the service state follows the effective force, and does not move where that did not change (R77, R97 to
R99). -/
def Obligations.ForceAndRadioTest : Prop :=
  (∀ (h : HeaderBurst) (s : State), s.part.Takes h →
    let p := s.part
    let n := param8 (slotParams 0x0D h p) 0
    (2 < n → exec (.force h) s = .next (s.having (answered 0x0D h 0x03 0 [] p))) ∧
    ∀ f : Force, n = 0 ∧ f = .auto ∨ n = 1 ∧ f = .fibre ∨ n = 2 ∧ f = .radio →
      let x : Part := { p with path := { p.path with software := f } }
      Leads (.force h) s fun q =>
        let data := [q.path.service.code, q.path.effective.code]
        q.command = completed 0x0D h 0x01 0 data p ∧
        EventEnds (answered 0x0D h 0x01 0 data x) q ∧
        (p.Stays → p.NoneDrained → q.path = x.pathForced p.path.effective)) ∧
  ∀ (active : Bool) (s : State),
    let p := s.part
    let x : Part := { p with
      clock := { p.clock with pins := { p.clock.pins with rtest := active }, testRun := 0 }
      path := { p.path with test := active } }
    (p.path.test = active → exec (.radioTestChange active) s = .next s) ∧
    (p.path.test ≠ active → Leads (.radioTestChange active) s fun q =>
      EventEnds x q ∧ (p.Stays → p.NoneDrained → q.path = x.pathForced p.path.effective))

/-- SET_RADIO takes its four settings, the last three clamped, or gives PARAM_ERROR for a standby value above
1; HOT turns demand on (R112, R130). -/
def Obligations.SetRadio : Prop :=
  ∀ (h : HeaderBurst) (s : State), s.part.Takes h →
    let p := s.part
    let ps := slotParams 0x0E h p
    let st : RadioSettings :=
      { hot := decide (param8 ps 0 = 1), profile := min 7 (param8 ps 1),
        retryCount := min 7 (param8 ps 2), linger := min 86400 (param32 ps 3) }
    let clamp := clampMask [0, param8 ps 1, param8 ps 2, param32 ps 3]
      [0, st.profile, st.retryCount, st.linger]
    let result : Byte := if clamp = 0 then 0x01 else 0x02
    (1 < param8 ps 0 →
      exec (.setRadio h) s = .next (s.having (answered 0x0E h 0x03 clamp [] p))) ∧
    (param8 ps 0 ≤ 1 → Leads (.setRadio h) s fun q =>
      q.command = completed 0x0E h result clamp [] p ∧
      EventEnds (answered 0x0E h result clamp [] { p with radio := { p.radio with settings := st } }) q ∧
      (st.hot = true → q.radio.demand = true ∧ q.radio.linger = none))

/-- RADIO_ATTACH (R112, R114, R131): STATE_ERROR in ABSENT. Otherwise manual hold and demand go on. In ATTACHED it
ends at once with DONE and the figures of the attach (log 22); elsewhere the unit is BUSY, and in IDLE a series
starts, its ATTACH_REQ sent at once where the lane is free. -/
def Obligations.RadioAttach : Prop :=
  ∀ (h : HeaderBurst) (s : State), s.part.Takes h →
    let p := s.part
    let r := p.radio
    let x : Part := { p with radio := { r with manualHold := true, reattempt := none } }
    let bytes := message 0x01 r.linkSeq [BitVec.ofNat 8 r.settings.profile]
    (r.state = .absent → exec (.radioAttach h) s = .next (s.having (answered 0x0F h 0x04 0 [] p))) ∧
    (r.state = .attached → Leads (.radioAttach h) s fun q =>
      let data := [0, BitVec.ofNat 8 r.attempts] ++ leBytes 4 r.serviceId.toNat ++
        leBytes 2 r.grant.toNat ++ [r.buffers] ++ leBytes 4 r.firmware.toNat
      q.command = completed 0x0F h 0x01 0 data p ∧
      EventEnds (answered 0x0F h 0x01 0 data x) q ∧ q.radio.demand = true ∧
      q.radio.control ≠ some (.detachReq false)) ∧
    (r.state ≠ .absent → r.state ≠ .attached → Leads (.radioAttach h) s fun q =>
      EventEnds (underWay 0x0F h .radioAttach x) q ∧
      q.command = (underWay 0x0F h .radioAttach p).command ∧ q.radio.demand = true ∧
      (r.state ≠ .idle → q.radio.state = r.state) ∧
      (r.state = .idle → q.radio.state = .attaching ∧ q.radio.attempts = 1 ∧
        (r.lane = none → q.radio.phase = .awaiting ∧ q.radio.control = none ∧
          q.radio.linkSeq = r.linkSeq + 1 ∧ q.radio.lane =
            some { bytes := bytes, owes := .answer, ends := transferEnds p.clock.now bytes }) ∧
        (r.lane.isSome = true → q.radio.phase = .pending ∧
          q.radio.control = some (.attachReq r.settings.profile) ∧ q.radio.lane = r.lane)))

/-- RADIO_DETACH (R132): STATE_ERROR in RADIO, PROVING and FORCED_RADIO. Otherwise manual hold goes off. In ATTACHED
a forced DETACH_REQ is placed; while the lane is busy the unit is BUSY, and with the lane free the request starts at
once, the module is DETACHING and the command ends with DONE. In any other state it ends at once with DONE. That a
command can end in the event that takes it is the model's reading (log 22). -/
def Obligations.RadioDetach : Prop :=
  ∀ (h : HeaderBurst) (s : State), s.part.Takes h →
    let p := s.part
    let refused := p.path.service = .radio ∨ p.path.service = .proving ∨ p.path.service = .forcedRadio
    let x : Part := { p with radio := { p.radio with manualHold := false } }
    let bytes := message 0x02 p.radio.linkSeq []
    (refused → exec (.radioDetach h) s = .next (s.having (answered 0x10 h 0x04 0 [] p))) ∧
    (¬refused → p.radio.state ≠ .attached → Leads (.radioDetach h) s fun q =>
      let data := [q.radio.state.code, causeCode p.radio.lastDetach]
      q.command = completed 0x10 h 0x01 0 data p ∧ EventEnds (answered 0x10 h 0x01 0 data x) q) ∧
    (¬refused → p.radio.state = .attached → p.radio.lane.isSome = true →
      Leads (.radioDetach h) s fun q =>
        EventEnds (underWay 0x10 h .radioDetach x) q ∧
        q.command = (underWay 0x10 h .radioDetach p).command ∧
        q.radio.control = some (.detachReq true) ∧ q.radio.state = .attached) ∧
    (¬refused → p.radio.state = .attached → p.radio.lane = none →
      Leads (.radioDetach h) s fun q =>
        let data : List Byte := [6, causeCode p.radio.lastDetach]
        q.command = completed 0x10 h 0x01 0 data p ∧ EventEnds (answered 0x10 h 0x01 0 data x) q ∧
        q.radio.state = .detaching ∧ q.radio.control = none ∧
        q.radio.detach = some (p.clock.now + 5000) ∧ q.radio.lane =
          some { bytes := bytes, owes := .nothing, ends := transferEnds p.clock.now bytes })

/-- Discarding frames with a reason (R139, R155, R160): every part of each frame becomes DISCARDED with that
reason, FRAMES_DISCARDED counts each frame, and UPLINK_DONE is raised, with DATA_LOSS where the reason is a
loss; no other entry, counter, flag or block changes. -/
def Obligations.DiscardedFrames : Prop :=
  ∀ (r : Discard) (fs : List Frame) (p : Part),
    let q := discardFrames r fs p
    let loss := r = .aged ∨ r = .queueFull ∨ r = .displaced ∨ r = .radioLost ∨ r = .drainLimit ∨
      r = .linkTimeout ∨ r = .moduleReject
    q = { p with
      uplink := { p.uplink with entries := q.uplink.entries }
      events := { p.events with flags := q.events.flags, counters := q.events.counters } } ∧
    (∀ i, q.uplink.entries[i]? = p.uplink.entries[i]?.map fun e =>
      if ∃ f ∈ fs, i ∈ f.parts then { e with state := .discarded, reason := some r } else e) ∧
    (∀ c, q.events.counters.get c =
      if c = .framesDiscarded then satAdd (p.events.counters.get c) fs.length
      else p.events.counters.get c) ∧
    ∀ f, q.flag f = true ↔
      p.flag f = true ∨ fs ≠ [] ∧ (f = .uplinkDone ∨ f = .dataLoss ∧ loss)

/-- SET_RELAY (R180, R181): PARAM_ERROR where the clamped class limits sum to more than 2048 blocks,
STATE_ERROR where one of them changes while the relay holds a frame. Otherwise the settings are taken, the
credit is limited to the new top, and the queued frames that have reached their class's new age limit are
discarded with AGED, which may run a draining class out (R91, R93). -/
def Obligations.SetRelay : Prop :=
  ∀ (h : HeaderBurst) (s : State), s.part.Takes h →
    let p := s.part
    let ps := slotParams 0x11 h p
    let limit (i : Nat) : Nat := max 48 (min 2048 (param16 ps i))
    let age (i : Nat) : Nat := max 10 (min 10000 (param16 ps i))
    let limits : PerClass Nat := ⟨limit 0, limit 2, limit 4, limit 6⟩
    let ages : PerClass Nat := ⟨age 8, age 10, age 12, age 14⟩
    let depth := max 1572 (min 65535 (param16 ps 16))
    let clamp := clampMask
      [param16 ps 0, param16 ps 2, param16 ps 4, param16 ps 6, param16 ps 8, param16 ps 10,
        param16 ps 12, param16 ps 14, param16 ps 16]
      [limit 0, limit 2, limit 4, limit 6, age 8, age 10, age 12, age 14, depth]
    let result : Byte := if clamp = 0 then 0x01 else 0x02
    let sum := limit 0 + limit 2 + limit 4 + limit 6
    let empty := p.radio.outstanding = [] ∧ ∀ c, p.relay.queues.get c = []
    let old (c : ServiceClass) : List Frame :=
      (p.relay.queues.get c).filter fun f => ages.get c ≤ p.clock.now - f.enqueued
    let young (c : ServiceClass) : List Frame :=
      (p.relay.queues.get c).filter fun f => p.clock.now - f.enqueued < ages.get c
    let x := discardFrames .aged (old .voice ++ old .signal ++ old .interactive ++ old .bulk)
      { p with relay := { p.relay with
          limits := limits, ages := ages, depth := depth, credit := min p.relay.credit (8 * depth)
          queues := PerClass.ofFn young } }
    (2048 < sum → exec (.setRelay h) s = .next (s.having (answered 0x11 h 0x03 clamp [] p))) ∧
    (sum ≤ 2048 → limits ≠ p.relay.limits → ¬empty →
      exec (.setRelay h) s = .next (s.having (answered 0x11 h 0x04 clamp [] p))) ∧
    (sum ≤ 2048 → limits = p.relay.limits ∨ empty → Leads (.setRelay h) s fun q =>
      q.command = completed 0x11 h result clamp [] p ∧
      EventEnds (answered 0x11 h result clamp [] x) q ∧ Examined x q ∧ (p.Stays → q.path = x.pathDrained))

/-- RESTART (R32, R157, R182, R197, R205): the staging store, the class queues, the outstanding list and the delivery
slots are emptied, every uplink entry is IDLE with its fields kept, flags and counters are cleared, and every other
block stays as it was. The frames dropped are not discarded frames. Each DRAINING class then has nothing left and
becomes RETURNED (R91), which may end RETURNING and count in RETURNS (R93). The flags left are COMMAND_DONE, and
PATH_CHANGED where the service state or a path word or reason changed. Module state, demand, pending message and lane
stay. Where the move to FIBRE ends the last want with demand on, the linger timer starts: the model's reading (log 37)
of R112 beside R133; with a setting of 0 it is due at once, an event of its own. -/
def Obligations.Restart : Prop :=
  ∀ (h : HeaderBurst) (s : State), s.part.Takes h →
    let p := s.part
    let draining (c : ServiceClass) : Bool := (p.path.classes.get c).sub = .draining
    let ended : Bool := p.path.service = .returning && classes.any draining &&
      classes.all fun c => draining c || (p.path.classes.get c).sub = .returned
    let service : Service := if ended then .fibre else p.path.service
    let shown (c : ServiceClass) : Bool :=
      draining c && !((p.path.classes.get c).word = .fibre && (p.path.classes.get c).reason = .none)
    let wants : Bool := p.radio.settings.hot || p.radio.manualHold || !(service = .fibre) ||
      p.path.effective = .radio || p.path.verdict = .warn || p.path.verdict = .bad
    exec (.restart h) s = .next (s.having (answered 0x02 h 0x01 0 [] { p with
      uplink :=
        { staging := []
          entries := p.uplink.entries.map fun e =>
            { host := e.host, state := .idle, reason := none, carriage := 0 } }
      relay := { p.relay with queues := ⟨[], [], [], []⟩ }
      radio := { p.radio with
        outstanding := []
        linger := if p.radio.demand ∧ p.radio.linger = none ∧ wants = false then
            some (p.clock.now + p.radio.settings.linger * 1000)
          else p.radio.linger }
      delivery := { p.delivery with slots := List.replicate 32 none, fill := 0 }
      events := { p.events with
        flags := if ended || classes.any shown then Flag.mask .pathChanged else 0
        counters := if ended then { Counters.zero with returns := 1 } else Counters.zero }
      path := { p.path with
        classes := PerClass.ofFn fun c => if draining c then onFibre else p.path.classes.get c
        service := service
        quiet := if ended then none else p.path.quiet
        stick := if ended then none else p.path.stick } }))

/-- A fibre report (R59, R60): with the report timeout not 0 and byte 0 carried and 1 or 2, the staleness timer
restarts, SYNC_LOST follows byte 0, REPORT_STALE clears, ERR_BAD and ERR_WARN follow the errored-block count, and the
verdict is evaluated; that it is evaluated where no condition changes too is the model's reading of R60 beside R68
(log 16), as is a dwell cut to 0 that expires in an event of its own (log 35). Any other write to the line changes
nothing. The staleness timer's expiry sets REPORT_STALE and disarms it (R61); with time left, or paused, it has no
effect (log 3). -/
def Obligations.FibreReports : Prop :=
  (∀ (w : AnchorBurst) (s : State), s.part.AnchorOpen →
    let p := s.part
    let ls := p.lanesOf (anchorWrite 0x160 w)
    let errored := ((lane ls 2).getD 0).toNat + 256 * ((lane ls 3).getD 0).toNat
    let sent : Part := { p with channel := anchorChannel 0x160 w p }
    let taken := p.health.settings.reportTimeout ≠ 0 ∧ (lane ls 0 = some 1 ∨ lane ls 0 = some 2)
    (¬taken → exec (.fibreReport w) s = .next (s.having sent)) ∧
    (taken → Leads (.fibreReport w) s fun q =>
      Judged (p.health.liveReported (lane ls 0 = some 2) errored)
        { sent with health := { p.health with stale := .running p.clock.now } } q)) ∧
  ∀ s : State,
    let p := s.part
    let due := ∃ since, p.health.stale = .running since ∧
      since + p.health.settings.reportTimeout ≤ p.clock.now
    (¬due → exec .stalenessExpiry s = .next s) ∧
    (due → Leads .stalenessExpiry s fun q =>
      Judged (p.health.live.put .reportStale true)
        { p with health := { p.health with stale := .disarmed } } q)

/-- A write to a capture window (R134 to R136): each byte the write carries is stored and becomes valid, the
entry becomes the most recently written, and a new line in a full store evicts the least recently written
entry, which counts. What is staged for a byte is then the byte written, or what was staged before. -/
def Obligations.CaptureWrites : Prop :=
  ∀ (w : WriteBurst) (row : BitVec 15) (s : State),
    let p := s.part
    let c := p.channel
    let address := lineAddress row w.place
    let ls := p.lanesOf w
    let old := p.uplink.staging
    let was := (old.find? fun e => e.line = address).elim [] Staged.lanes
    let entry : Staged :=
      { line := address, lanes := (List.range 32).map fun b => (lane ls b).or (lane was b) }
    let full := (∀ e ∈ old, e.line ≠ address) ∧ 1024 ≤ old.length
    let staging :=
      entry :: (if full then old.take 1023 else old.filter fun e => e.line ≠ address)
    let sent : Part := { p with channel := { c with
      toDram := some (.named (.write w))
      banks := if w.place.autoClose then c.banks.set w.place.bank.toNat none else c.banks } }
    c.state = .active → c.learned = true → c.row w.place.bank = some row →
    p.windows.classify address = .capture →
    ((∀ b, b < 32 → lane ls b = none) → exec (.captureWrite w) s = .next (s.having sent)) ∧
    (¬(∀ b, b < 32 → lane ls b = none) →
      exec (.captureWrite w) s = .next (s.having (count .stageEvictions (if full then 1 else 0)
        { sent with uplink := { p.uplink with staging := staging } }))) ∧
    ∀ a, stagedByte staging a =
      if a / 32 * 32 = address then (lane ls (a % 32)).or (stagedByte old a)
      else stagedByte (if full then old.take 1023 else old) a

/-- RELEASE (R192, R193): on a line of the delivery ring, the slot whose release byte, byte 8 or byte 24, is
carried and holds 1 becomes EMPTY; every other slot, the fill index and the delivery number stay, and an EMPTY
slot stays EMPTY. -/
def Obligations.Releases : Prop :=
  ∀ (w : WriteBurst) (row : BitVec 15) (m : Nat) (s : State),
    let p := s.part
    let c := p.channel
    let ls := p.lanesOf w
    c.state = .active → c.learned = true → c.row w.place.bank = some row →
    p.windows.classify (lineAddress row w.place) = .ring m →
    exec (.release w) s = .next (s.having { p with
      channel := { c with
        toDram := some (.named (.write w))
        banks := if w.place.autoClose then c.banks.set w.place.bank.toNat none else c.banks }
      delivery := { p.delivery with
        slots := p.delivery.slots.mapIdx fun n slot =>
          if n / 2 = m ∧ lane ls (16 * (n % 2) + 8) = some 1 then none else slot } })

/-- A write to a line of the uplink table hands its two descriptors to their entries, descriptor 2m in full and then
2m + 1, in one event (R140), whichever row wrote it (log 9): what the event leaves of entries, queues, counters and
path words is what the second leaves on what the first left, and then, once, drained classes return (R91; log 29) and
the send conditions are examined (log 19): the model's reading, by which a class that the first empties and the
second fills again has not run out. What a post or a withdraw does by itself the statements on them say. Of the other
writes (R140, R141) a descriptor whose give byte is carried while another of its bytes is not is ignored, and counts
in POSTS_REFUSED; any other stores each host-side byte it carries, and leaves the part-side positions, state, reason
and carriage sequence alone. -/
def Obligations.UplinkTableWrites : Prop :=
  (∀ (i : Instr) (w : WriteBurst) (m : Nat) (s : State), writeOf i = some w →
     let p := s.part
     let half (k : Nat) : List Lane := laneSlice (p.lanesOf w) (16 * k) 16
     p.ReachesTable w m →
     let leaves (x q : Part) : Prop := EventEnds x q ∧ Examined x q ∧ (p.Stays → q.path = x.pathDrained)
     Leads i s fun q =>
       leaves (writeDescriptor (2 * m + 1) (half 1) (writeDescriptor (2 * m) (half 0) (p.sent w))) q ∧
       ((∀ b, b < 16 → lane (half 1) b = none) → leaves (writeDescriptor (2 * m) (half 0) (p.sent w)) q) ∧
       ((∀ b, b < 16 → lane (half 0) b = none) →
         leaves (writeDescriptor (2 * m + 1) (half 1) (p.sent w)) q)) ∧
  (∀ (i : Instr) (w : WriteBurst) (m : Nat) (s : State),
     i = .descriptorFieldWrite w ∨ i = .partialDescriptorWrite w ∨ i = .lineWrite w →
     let p := s.part
     let half (k : Nat) : List Lane := laneSlice (p.lanesOf w) (16 * k) 16
     let whole (k : Nat) : Bool := (half k).all Option.isSome
     let part (k : Nat) : Bool := (lane (half k) 7).isSome && !whole k
     let hostByte (b : Nat) : Bool := b ≤ 8 || b = 12 || b = 13
     let next (n : Nat) (e : Entry) : Entry :=
       if n / 2 = m ∧ part (n % 2) = false then
         { e with host := (List.range 16).map fun b =>
             if hostByte b then (lane (half (n % 2)) b).getD (e.host.getD b 0) else e.host.getD b 0 }
       else e
     let x := count .postsRefused ((if part 0 then 1 else 0) + if part 1 then 1 else 0)
       { p.sent w with uplink := { p.uplink with entries := p.uplink.entries.mapIdx next } }
     p.ReachesTable w m → (∀ e ∈ p.uplink.entries, e.host.length = 16) →
     (∀ k, k < 2 → whole k = true → lane (half k) 7 ≠ some 1 ∧ lane (half k) 7 ≠ some 2) →
     Leads i s fun q => EventEnds x q ∧ Examined x q ∧ (p.Stays → p.NoneDrained → q.path = p.path))

/-- A post to an entry that is HELD, QUEUED or SENDING is refused: the entry stays and POSTS_REFUSED counts. A
post with chain set makes any other entry HELD with the fields written. Either way a class byte of 0
restarts the voice quiet timer while VOICE is WAITING_QUIET (R89, R147). A withdraw (R156): a HELD entry
takes the fields written and is discarded with WITHDRAWN; the frame of a QUEUED entry leaves its queue and
all its parts are discarded with WITHDRAWN, which may run its class out where it drains (R91, R93); a
SENDING entry refuses it, which counts in POSTS_REFUSED; in any other state it is ignored. What is asked of the frame
of a QUEUED entry, that it stands in the queue of its class and that the entry is part of no other, is kept by every
step (EveryStepKeepsTheInvariants). -/
def Obligations.PostsAndWithdraws : Prop :=
  (∀ (d : DescriptorBurst) (i : Nat) (e : Entry) (s : State), s.part.Gives 1 d i e →
     let p := s.part
     let q0 := p.path
     let quiet : Timer :=
       if d.cls = 0 ∧ q0.classes.voice.sub = .waitingQuiet then
         some (p.clock.now + q0.settings.voiceQuiet)
       else q0.quiet
     let heard : Part := { p.sent (descriptorWrite 1 d) with path := { q0 with quiet := quiet } }
     let busy := e.state = .held ∨ e.state = .queued ∨ e.state = .sending
     let held : Part := { heard with uplink := { p.uplink with
       entries := p.uplink.entries.set i
         { host := takenHost 1 d e.host, state := .held, reason := none, carriage := 0 } } }
     let leaves (x : Part) : Prop :=
       Leads (.post d) s fun q =>
         EventEnds x q ∧ Examined x q ∧ (p.Stays → p.NoneDrained → q.path = heard.path)
     (busy → leaves (count .postsRefused 1 heard)) ∧ (¬busy → d.chain ≠ 0 → leaves held)) ∧
  (∀ (d : DescriptorBurst) (i : Nat) (e : Entry) (s : State), s.part.Gives 2 d i e →
     let p := s.part
     let sent := p.sent (descriptorWrite 2 d)
     let taken : Part := { sent with uplink := { p.uplink with
       entries := p.uplink.entries.set i { e with host := takenHost 2 d e.host } } }
     let leaves (x : Part) : Prop :=
       Leads (.withdraw d) s fun q => EventEnds x q ∧ Examined x q ∧ (p.Stays → q.path = x.pathDrained)
     (e.state = .held → leaves (discardParts .withdrawn [i] taken)) ∧
     (∀ f c, e.state = .queued → f.cls = c → f ∈ p.relay.queues.get c → i ∈ f.parts →
       (∀ c' g, g ∈ p.relay.queues.get c' → i ∈ g.parts → g = f) →
       leaves (discardParts .withdrawn f.parts
         { taken with relay := { p.relay with
             queues := p.relay.queues.set c ((p.relay.queues.get c).filter fun g => i ∉ g.parts) } })) ∧
     (e.state = .sending → leaves (count .postsRefused 1 sent)) ∧
     (e.state = .idle ∨ e.state = .sent ∨ e.state = .discarded → leaves sent))

/-- A post with chain clear forms a frame (R89, R147 to R155, R161, R162). Its parts are the `n` HELD entries
straight before the entry, modulo the table, and the entry. The first check to fail discards the parts with its
reason, their carriage sequence 0 (that it is cleared then is the model's reading, log 32). A frame that passes joins
the tail of its class queue with the staged bytes of its parts, and its parts become QUEUED; for VOICE the fewest of
the oldest queued frames are discarded with DISPLACED to make room; where VOICE drains, it has not run out by that
(log 29). -/
def Obligations.FrameFormation : Prop :=
  ∀ (d : DescriptorBurst) (i : Nat) (e : Entry) (n : Nat) (s : State), s.part.Gives 1 d i e →
    let p := s.part
    let quiet : Timer :=
      if d.cls = 0 ∧ p.path.classes.voice.sub = .waitingQuiet then
        some (p.clock.now + p.path.settings.voiceQuiet)
      else p.path.quiet
    let heard : Part :=
      { p.sent (descriptorWrite 1 d) with path := { p.path with quiet := quiet } }
    let es := p.uplink.entries.set i { e with host := takenHost 1 d e.host }
    let entry (j : Nat) : Entry := es.getD j e
    let back (j : Nat) : Nat := (i + es.length - j) % es.length
    let parts := (List.range (n + 1)).map fun j => back (n - j)
    let length (j : Nat) : Nat := leNat (slice (entry j).host 4 2)
    let addresses := parts.flatMap fun j =>
      (List.range (length j)).map fun k => leNat (slice (entry j).host 0 4) + k
    let total := (parts.map length).sum
    let cls : ServiceClass :=
      if d.cls = 0 then .voice else if d.cls = 1 then .signal
      else if d.cls = 2 then .interactive else .bulk
    let path := p.path.classes.get cls
    let queue := p.relay.queues.get cls
    let fits (fs : List Frame) : Prop :=
      blocksOf fs + blocksOf (p.sentOf cls) + (total + 31) / 32 ≤ p.relay.limits.get cls
    let fault : Option Discard :=
      if 4 < parts.length then some .tooManyParts
      else if total = 0 ∨ 1536 < total then some .tooLong
      else if ∃ a ∈ addresses, p.windows.captured a = false then some .outOfWindow
      else if ∃ a ∈ addresses, stagedByte p.uplink.staging a = none then some .incomplete
      else if path.word = .fibre then some .wrongPath
      else if path.word = .blocked then some (if path.reason = .shed then .shed else .noPath)
      else if blocksOf queue + blocksOf (p.sentOf cls) + (total + 31) / 32 ≤ p.relay.limits.get cls ∨
          cls = .voice ∧ blocksOf (p.sentOf cls) + (total + 31) / 32 ≤ p.relay.limits.get cls then none
      else some .queueFull
    let frame : Frame :=
      { parts := parts, cls := cls, enqueued := p.clock.now
        bytes := addresses.map fun a => (stagedByte p.uplink.staging a).getD 0 }
    let onParts (f : Entry → Entry) (es : List Entry) : List Entry :=
      es.mapIdx fun j e => if j ∈ parts then f e else e
    let leaves (x : Part) : Prop :=
      Leads (.post d) s fun q =>
        EventEnds x q ∧ Examined x q ∧ (p.Stays → p.NoneDrained → q.path = heard.path)
    e.state ≠ .held → e.state ≠ .queued → e.state ≠ .sending → d.chain = 0 → n < es.length →
    (∀ j, 1 ≤ j → j ≤ n → (entry (back j)).state = .held) → (entry (back (n + 1))).state ≠ .held →
    (∀ r, fault = some r → leaves (discardFrames r [frame]
      { heard with uplink := { p.uplink with
          entries := onParts (fun e => { e with carriage := 0 }) es } })) ∧
    ∀ k, fault = none → k ≤ queue.length → fits (queue.drop k) → (∀ k', k' < k → ¬fits (queue.drop k')) →
      let y := discardFrames .displaced (queue.take k)
        { heard with
          uplink := { p.uplink with entries := es }
          relay := { p.relay with queues := p.relay.queues.set cls (queue.drop k ++ [frame]) } }
      leaves { y with uplink := { y.uplink with
        entries := onParts (fun e => { e with state := .queued, reason := none, carriage := 0 })
          y.uplink.entries } }

/-- Poll starts and second attempts (R34, R35, R39). A start falls due at its time while the poll state is WAITING
and the module PRESENT; a transaction then begins, with the start condition and the address byte, and the next start
is one period later, counted from the millisecond that took this one (log 27). An unanswered first attempt ends with
a stop condition, after the symbols that its cause, or the place it had reached at the time limit, let through (the
list of symbols is the model's, log 28), and the second begins. The second unanswered (R39): the failure count rises,
to 255 at most, and POLL_FAIL sets at 3. A complete transaction (R36, R37, R38, R53 to R58): the ten bytes become the
measurement set, the sample counts and the failures return to 0, POLL_FAIL clears, and the sample by its mark seeds
or moves the filter, the receive-power conditions and TEMP_HIGH follow, and the verdict is evaluated; a dwell it cuts
to 0 expires in an event of its own (log 35). A poll completes up to the time limit itself and is not answered after
it (log 28). An event that cannot come about has no effect (log 3). -/
def Obligations.Polls : Prop :=
  (∀ (cause : Unanswered) (s : State),
     let p := s.part
     let o := p.optical
     let now := p.clock.now
     let begins : List BusSymbol := [.start, .send (o.settings.address <<< 1)]
     let reread : List BusSymbol := [.send o.settings.offset, .start, .send (o.settings.address <<< 1 ||| 1)]
     let ended : List BusSymbol := match cause with
       | .addressWrite => [.stop]
       | .offset => [.send o.settings.offset, .stop]
       | .addressRead => reread ++ [.stop]
       | .timeout reached => brokenOff o.settings reached ++ [.stop]
       | .stuck reached n => brokenOff o.settings reached ++ List.replicate (min n 9) .pulse ++ [.stop]
     let starts := o.present = true ∧ o.poll = .waiting ∧ ∃ t, o.nextPoll = some t ∧ t ≤ now
     let retries := o.poll = .firstAttempt ∧
       ((∃ m, cause = .timeout m) ∨ (∃ m n, cause = .stuck m n) → o.began + 25 ≤ now)
     (starts → exec .pollStart s = .next (s.having { p with optical := { o with
       poll := .firstAttempt, began := now, nextPoll := some (now + o.settings.period), bus := begins } })) ∧
     (¬starts → exec .pollStart s = .next s) ∧
     (retries → exec (.pollRetry cause) s = .next (s.having { p with optical := { o with
       poll := .retry, began := now, bus := o.bus ++ ended ++ begins } })) ∧
     (¬retries → exec (.pollRetry cause) s = .next s)) ∧
  ((∀ (cause : Unanswered) (s : State),
     let p := s.part
     let o := p.optical
     let n := min 255 (o.failures + 1)
     let ended : List BusSymbol := match cause with
       | .addressWrite => [.stop]
       | .offset => [.send o.settings.offset, .stop]
       | .addressRead =>
         [.send o.settings.offset, .start, .send (o.settings.address <<< 1 ||| 1), .stop]
       | .timeout reached => brokenOff o.settings reached ++ [.stop]
       | .stuck reached m => brokenOff o.settings reached ++ List.replicate (min m 9) .pulse ++ [.stop]
     let fails := o.poll = .retry ∧
       ((∃ m, cause = .timeout m) ∨ (∃ m n, cause = .stuck m n) → o.began + 25 ≤ p.clock.now)
     (¬fails → exec (.pollFailed cause) s = .next s) ∧
     (fails → Leads (.pollFailed cause) s
       (Turned (if 3 ≤ n then p.health.live.put .pollFail true else p.health.live)
         { p with optical := { o with poll := .waiting, failures := n, bus := o.bus ++ ended } }))) ∧
   ∀ (b0 b1 b2 b3 b4 b5 b6 b7 b8 b9 : Byte) (s : State),
     let p := s.part
     let o := p.optical
     let h := p.health
     let completes := o.poll ≠ .waiting ∧ p.clock.now ≤ o.began + 25
     let raw := o.window ≠ .none
     let whole : Int := max (-40) (min 100 ((b0 ++ b1).toInt / 256))
     let sample := min 65535
       ((b8 ++ b9).toNat * o.settings.factors.getD ((whole + 40) / 20).toNat 0 / 128)
     let moved (f : Nat) : Nat :=
       ((f : Int) + ((sample : Int) - f).tdiv (2 ^ o.settings.shift)).toNat
     let filtered : Nat := if o.seedPending = true ∨ h.filter = none then sample else moved (h.filter.getD 0)
     let live0 := h.live.put .pollFail false
     let live := tempCondition h.settings whole
       (if raw then live0 else powerConditions h.settings filtered live0)
     (¬completes → exec (.pollComplete [b0, b1, b2, b3, b4, b5, b6, b7, b8, b9]) s = .next s) ∧
     (completes → Leads (.pollComplete [b0, b1, b2, b3, b4, b5, b6, b7, b8, b9]) s (Judged live
       { p with
         optical := { o with
           temperature := b0 ++ b1, supply := b2 ++ b3, bias := b4 ++ b5, txPower := b6 ++ b7
           rxPower := b8 ++ b9, poll := .waiting, samples := satAdd o.samples 1, failures := 0
           seedPending := if raw then o.seedPending else false
           bus := o.bus ++ ([.send o.settings.offset, .start, .send (o.settings.address <<< 1 ||| 1)] ++
             List.replicate 9 (.receive true) ++ [.receive false, .stop]) }
         health := { h with
           lastTemp := some whole, corrected := sample
           filter := if raw then h.filter else some filtered } })))

/-- Presence and loss of signal of the optical module (R40, R41, R42). A fall abandons the poll in flight, stops the
schedule and clears POLL_FAIL and LOS beside setting MODULE_ABSENT; a rise takes LOS from the line and starts the
schedule one period later; while PRESENT a changed level of OLOS sets or clears LOS. The model's readings: a fall
while ABSENT, a rise while PRESENT and a level of OLOS already taken have no effect (log 7); the commands set the
line and end its run of samples (log 6); a fall leaves the level of OLOS as last taken (log 32); how far the attempt
that a fall breaks off had got is a free value (log 28); a dwell cut to 0 by the verdict expires in an event of its
own (log 35). -/
def Obligations.OpticalLines : Prop :=
  ∀ (level : Bool) (s : State),
    let p := s.part
    let o := p.optical
    let live := p.health.live
    let clock (pins : Pins) : Clock := { p.clock with pins := pins, opticalRun := 0 }
    (o.present = false → exec .opticalPresenceFall s = .next s) ∧
    (o.present = true → Leads .opticalPresenceFall s
      (Turned (((live.put .moduleAbsent true).put .pollFail false).put .los false)
        { p with
          clock := clock { p.clock.pins with opres := false }
          optical := { o with
            present := false, nextPoll := none, failures := 0, poll := .waiting
            bus := if o.poll = .waiting then o.bus
              else o.bus ++ brokenOff o.settings (Config.busReached p.clock.now) ++ [.stop] } })) ∧
    (o.present = true → exec (.opticalPresenceRise level) s = .next s) ∧
    (o.present = false → Leads (.opticalPresenceRise level) s
      (Turned ((live.put .moduleAbsent false).put .los level)
        { p with
          clock := clock { p.clock.pins with opres := true, olos := level }
          optical := { o with
            present := true, losLevel := level, seedPending := true
            nextPoll := some (p.clock.now + o.settings.period) } })) ∧
    (o.present = false ∨ o.losLevel = level → exec (.losChange level) s = .next s) ∧
    (o.present = true → o.losLevel ≠ level → Leads (.losChange level) s
      (Turned (live.put .los level)
        { p with
          clock := { p.clock with pins := { p.clock.pins with olos := level } }
          optical := { o with
            losLevel := level, seedPending := if level then o.seedPending else true } }))

/-- Restart windows (R43, R44, R45, R48, R69). TX_OFF ends: the line is released, SETTLING begins, and a
FIBRE_RESTART in execution ends with DONE; with a settle time of 0 the window ends too. SETTLING ends: the window is
over, seed pending is set, the hold goes off and the verdict is evaluated; the automatic run then starts where the
service state is RADIO and the verdict BAD (R47), looked at as the event ends (log 25). A dwell cut to 0 by the
verdict expires in an event of its own (log 35). The automatic run expires: a window begins where the module is
present, and the run is stopped; otherwise the run begins again, with this millisecond as its beginning. Before its
time none has an effect (log 3). -/
def Obligations.RestartWindows : Prop :=
  ∀ s : State,
    let p := s.part
    let o := p.optical
    let now := p.clock.now
    let kept (q : Part) : Prop := p.Stays → p.NoneDrained → q.path = p.path
    let restarting := p.command.running = some .fibreRestart
    let finished : Part := if restarting then
        raise .commandDone
          { p with command := { p.command with
              running := none, result := 0x01, data := List.replicate 16 0 } }
      else p
    let closed (x : Part) : Part := { x with
      optical := { x.optical with window := .none, seedPending := true }
      health := { x.health with hold := false } }
    let rerun (q : Part) : Prop := o.run = none → q.optical.run =
      if q.path.service = .radio ∧ q.path.verdict = .bad ∧ o.settings.interval ≠ 0 then some now else none
    (∀ ends settle, o.window = .txOff ends settle → ends ≤ now →
      let x : Part := { finished with optical := { o with
        txDisable := false, window := .settling (now + settle) } }
      Leads .txOffEnd s fun q =>
        (settle ≠ 0 → EventEnds x q ∧ kept q) ∧
        (settle = 0 → Judged p.health.live (closed x) q ∧ rerun q) ∧
        (restarting → q.command = x.command)) ∧
    ((∀ ends settle, o.window = .txOff ends settle → now < ends) → exec .txOffEnd s = .next s) ∧
    (∀ ends, o.window = .settling ends → ends ≤ now →
      Leads .settlingEnd s fun q => Judged p.health.live (closed p) q ∧ rerun q) ∧
    ((∀ ends, o.window = .settling ends → now < ends) → exec .settlingEnd s = .next s) ∧
    (p.RunReached o.settings → Leads .automaticRestartExpiry s fun q =>
      EventEnds
        (if o.present then windowBegun p else { p with optical := { o with run := some now } }) q ∧
      kept q ∧ (o.present = true → q.optical.run = none) ∧
      (o.present = false → p.RunFollows → p.Stays → p.NoneDrained → q.optical.run = some now)) ∧
    (¬p.RunReached o.settings → exec .automaticRestartExpiry s = .next s)

/-- The expiries of the path controller's timers. The dwell moves to RADIO, counted in FAILOVERS, where the
module is ATTACHED, else to STRANDED (R84); the prove timer begins RETURNING (R86, R88); the stranded-prove timer
moves to FIBRE (R87); the voice quiet and stick timers make VOICE drain (R90); the drain limit makes its class
RETURNED and discards what it has queued (R92, R79). The last class to return ends RETURNING, counted in RETURNS
(R93). An expiry that is not due has no effect (log 3). The stranded-prove timer runs only while the verdict is
not BAD (R87); the clause says what a part in any state would do (log 23). -/
def Obligations.PathTimers : Prop :=
  ∀ (c : ServiceClass) (s : State),
    let p := s.part
    let y := p.path
    let due (t : Timer) : Prop := ∃ m, t = some m ∧ m ≤ p.clock.now
    let expires (i : Instr) (when : Prop) (x : Part) (path : Path) : Prop :=
      (¬when → exec i s = .next s) ∧
      (when → Leads i s fun q =>
        EventEnds x q ∧ (p.Still → Keeps x q) ∧
        (p.Stays → p.NoneDrained → q.path = path ∧ q.events.counters = x.events.counters))
    let returns (path : Path) (x : Part) : Part := count .returns (if path.handedBack then 1 else 0) x
    let spoken : Path :=
      { y with classes := y.classes.set .voice (p.drains .voice), quiet := none, stick := none }
    let limited : Path := { y with classes := y.classes.set c onFibre }
    let waited := y.service = .stranded ∧ due y.strandedProve
    let fibred := p.unqueued .drainLimit fun _ => true
    expires .dwellExpiry (y.service = .suspect ∧ due y.dwell)
      (count .failovers (if p.radio.state = .attached then 1 else 0) p) p.pathDwelt ∧
    expires .proveExpiry (y.service = .proving ∧ due y.prove)
      (p.unqueued .drainLimit fun c => c ≠ .voice && p.relay.shed.get c) p.pathReturning ∧
    (¬waited → exec .strandedProveExpiry s = .next s) ∧
    (waited → Leads .strandedProveExpiry s fun q =>
      EventEnds fibred q ∧ (p.Stays → p.NoneDrained → q.path = p.pathFibre) ∧
      (y.verdict ≠ .bad → (p.Still → Keeps fibred q) ∧
        (p.Stays → p.NoneDrained → q.events.counters = fibred.events.counters))) ∧
    expires .voiceQuietExpiry (y.classes.voice.sub = .waitingQuiet ∧ due y.quiet)
      (returns spoken p) spoken.returned ∧
    expires .voiceStickExpiry (y.classes.voice.sub = .waitingQuiet ∧ due y.stick)
      (returns spoken p) spoken.returned ∧
    ((∀ d, (y.classes.get d).sub = .draining → (y.classes.get d).word ≠ .fibre) →
      expires (.drainLimitExpiry c) ((y.classes.get c).sub = .draining ∧ due (y.classes.get c).drain)
        (returns limited
          (p.unqueued .drainLimit fun d => d = c || (y.classes.get d).word = .fibre))
        limited.returned)

/-- The entries to ABSENT, STARTING and RECOVERING (R106, R107, R109, R110, R111): a presence fall, a presence rise
in ABSENT, the start and silence timers, the recover timer, and RESET_NOTICE. The frames outstanding, and from
ATTACHED those queued, are lost; timers, attach series, pending request and, but for STARTING, the transfer end. The
path controller takes it where the module leaves ATTACHED (R75). A RADIO_ATTACH in execution ends with FAILED except
at STARTING (R131), a RADIO_DETACH with DONE (R132). Where the cause is not there nothing happens (log 3, log 7). The
model's readings besides: a presence command sets RPRES and ends its run of samples (log 6), and a transfer that goes
on through STARTING starts no answer timer (log 24). -/
def Obligations.ModuleRestarts : Prop :=
  ∀ (i : Instr) (s : State),
    let p := s.part
    let r := p.radio
    let due (t : Timer) : Prop := ∃ m, t = some m ∧ m ≤ p.clock.now
    let clock (level : Bool) : Clock :=
      { p.clock with pins := { p.clock.pins with rpres := level }, radioRun := 0 }
    let listens := r.state = .idle ∨ r.state = .attaching ∨ r.state = .attached ∨ r.state = .detaching
    let ended (result : Byte) (data : List Byte) : Command :=
      { p.command with running := none, result := result, data := padTo 16 data }
    let goes (when : Prop) (new : Module) (y : Part) : Prop :=
      (¬when → exec i s = .next s) ∧
      (when → Leads i s fun q =>
        let z : Part := { y.lost with radio := y.radio.restarted new p.clock.now }
        EventEnds z q ∧ Keeps z q ∧
        q.radio = { z.radio with demand := q.radio.demand, linger := q.radio.linger } ∧
        (p.DrainsOnAir → q.path = if r.state = .attached then z.pathLost else p.path) ∧
        q.command =
          (match p.command.running with
          | some .radioAttach =>
            if new = .starting then p.command
            else ended 0x06
              ([5, BitVec.ofNat 8 r.attempts] ++ List.replicate 7 0 ++ leBytes 4 r.firmware.toNat)
          | some .radioDetach => ended 0x01 [new.code, causeCode r.lastDetach]
          | _ => p.command))
    (i = .radioPresenceFall → goes (r.present = true) .absent
      { p with clock := clock false, radio := { r with present := false } }) ∧
    (i = .radioPresenceRise → goes (r.state = .absent) .starting
      { p with clock := clock true, radio := { r with present := true } }) ∧
    (i = .startTimerExpiry → goes (r.state = .starting ∧ due r.start) .recovering p) ∧
    (i = .silenceTimerExpiry → goes (listens ∧ due r.silence) .recovering p) ∧
    (i = .recoverTimerExpiry → goes (r.state = .recovering ∧ due r.recover) .starting p) ∧
    (i = .resetNotice → goes (listens ∨ r.state = .starting) .starting p)

/-- READY, DETACHED and the detach timer (R108, R115 to R118, R122). READY records its figures in every state that
receives it, which the rules say of STARTING, IDLE and ATTACHED and the model of ATTACHING and DETACHING too (log
17). From STARTING, ATTACHING, ATTACHED and DETACHING it moves the module to IDLE; DETACHED moves it there from
ATTACHED and DETACHING, its cause kept, and the detach timer from DETACHING. Leaving ATTACHED so is a radio loss. A
READY while ATTACHING leaves the transfer no answer timer to start (log 24). In IDLE a new series starts at once
where demand is on and no re-attempt wait runs (R113). A DETACHED with no meaning counts in LINK_ERRORS; a state that
does not receive ignores both (R106); a detach timer that is not due, or not in DETACHING, has no effect (log 3). -/
def Obligations.ModuleIdles : Prop :=
  ∀ (firmware : BitVec 32) (buffers cause : Byte) (s : State),
    let p := s.part
    let r := p.radio
    let now := p.clock.now
    let deaf := r.state = .absent ∨ r.state = .off ∨ r.state = .recovering
    let heard : Timer := if r.state = .starting then r.silence else some (now + 3000)
    let known : Radio := { r with silence := heard, firmware := firmware, maxBuffers := buffers }
    let left : Radio := { r with
      silence := heard
      lastDetach := some (if cause = 1 then .requested else if cause = 3 then .coverage else .network) }
    let error := count .linkErrors 1 { p with radio := { r with silence := heard } }
    let idles (i : Instr) (x : Part) (path : Path) : Prop := Leads i s fun q =>
      EventEnds x q ∧ Keeps x q ∧ (p.DrainsOnAir → q.path = path) ∧
      q.radio.state =
        (if q.radio.demand = true ∧ x.radio.reattempt = none then .attaching else .idle) ∧
      (q.radio.state = .attaching → q.radio.attempts = 1)
    let loses (i : Instr) (y : Radio) : Prop :=
      let x : Part := { p.lost with radio := { y with
        state := .idle, detach := none, outstanding := [], control := none } }
      idles i x x.pathLost
    let ends (i : Instr) (y : Radio) : Prop :=
      idles i { p with radio := { y with state := .idle, detach := none } } p.path
    (deaf → exec (.ready firmware buffers) s = .next s ∧ exec (.detached cause) s = .next s) ∧
    (r.state = .starting →
      idles (.ready firmware buffers)
        { p with radio := { known with state := .idle, start := none, silence := some (now + 3000) } } p.path) ∧
    (r.state = .idle → idles (.ready firmware buffers) { p with radio := known } p.path) ∧
    (r.state = .attaching →
      idles (.ready firmware buffers)
        { p with radio := { known with
          state := .idle, phase := .none, answer := none, retry := none, lane := r.lane.map unanswered
          control := match r.control with
            | some (.attachReq _) => none
            | c => c } } p.path) ∧
    (r.state = .attached → loses (.ready firmware buffers) known ∧ loses (.detached cause) left) ∧
    (r.state = .detaching → ends (.ready firmware buffers) known ∧ ends (.detached cause) left) ∧
    (r.state = .starting ∨ r.state = .idle ∨ r.state = .attaching ∧ r.phase ≠ .awaiting →
      Leads (.detached cause) s fun q => EventEnds error q ∧ Keeps error q) ∧
    ((∃ m, r.detach = some m ∧ m ≤ now) → r.state = .detaching → ends .detachTimerExpiry r) ∧
    (¬(∃ m, r.detach = some m ∧ m ≤ now) ∨ r.state ≠ .detaching → exec .detachTimerExpiry s = .next s)

/-- Failed attempts and the timers of the attach series (R112 to R116). An attempt fails by ATTACH_FAIL, by DETACHED
or by the answer timer, each only while an answer is awaited: within the retry count and with demand on it is tried
again 10 s later; otherwise the series ends in IDLE, and with demand on the re-attempt wait begins, which ends a
RADIO_ATTACH in execution with FAILED (R131). A transfer of the request still under way starts no answer timer (the
model's reading, log 24). The retry timer starts the next attempt; the re-attempt timer a new series where demand is
on in IDLE; the linger timer turns demand off, which acts by R113. An ATTACH_FAIL with no meaning counts in
LINK_ERRORS (R122); an expiry that is not due has no effect (log 3). -/
def Obligations.AttachAttempts : Prop :=
  ∀ (byte : Byte) (s : State),
    let p := s.part
    let r := p.radio
    let now := p.clock.now
    let due (t : Timer) : Prop := ∃ m, t = some m ∧ m ≤ now
    let awaited := r.state = .attaching ∧ r.phase = .awaiting
    let again := r.attempts ≤ r.settings.retryCount ∧ r.demand = true
    let why : Failure := if byte = 1 then .noCoverage else if byte = 2 then .denied
      else if byte = 3 then .busy else .moduleError
    let failed (why : Failure) (silence : Timer) : Part :=
      let y : Radio := { r with
        silence := silence, lastFailure := why, answer := none, lane := r.lane.map unanswered }
      if again then { p with radio := { y with phase := .retryWait, retry := some (now + 10000) } }
      else { p with radio := { y with
        state := .idle, phase := .none, retry := none
        control := match r.control with
          | some (.attachReq _) => none
          | c => c
        reattempt := if r.demand then some (now + 120000) else none } }
    let fails (i : Instr) (why : Failure) (silence : Timer) : Prop := Leads i s fun q =>
      let x := failed why silence
      EventEnds x q ∧ Keeps x q ∧
      (p.DrainsOnAir → q.path = p.path) ∧
      (p.DemandFollows → r.control = none → p.DrainsOnAir → q.radio = x.radio) ∧
      (p.command.running ≠ some .radioDetach → q.command =
        if p.command.running = some .radioAttach ∧ r.demand = true ∧ r.settings.retryCount < r.attempts then
          { p.command with
            running := none, result := 0x06
            data := padTo 16 ([why.code, BitVec.ofNat 8 r.attempts] ++ List.replicate 7 0 ++
              leBytes 4 r.firmware.toNat) }
        else p.command)
    let bytes := message 0x01 r.linkSeq [BitVec.ofNat 8 r.settings.profile]
    let next : Radio := { r with attempts := r.attempts + 1, retry := none }
    (awaited → fails (.attachFail byte) why (some (now + 3000)) ∧
      fails (.detached byte) .noAnswer (some (now + 3000))) ∧
    (¬awaited → r.state ≠ .absent → r.state ≠ .off → r.state ≠ .recovering →
      Leads (.attachFail byte) s fun q =>
        let x := count .linkErrors 1 { p with radio := { r with
          silence := if r.state = .starting then r.silence else some (now + 3000) } }
        EventEnds x q ∧ Examined x q) ∧
    (r.state = .absent ∨ r.state = .off ∨ r.state = .recovering → exec (.attachFail byte) s = .next s) ∧
    (awaited → due r.answer → fails .answerTimerExpiry .noAnswer r.silence) ∧
    (¬(awaited ∧ due r.answer) → exec .answerTimerExpiry s = .next s) ∧
    (r.phase = .retryWait → due r.retry → Leads .retryTimerExpiry s fun q =>
      let x : Part := { p with radio := { next with
        phase := .pending, control := some (.attachReq r.settings.profile) } }
      EventEnds x q ∧ Examined x q ∧
      (r.state = .attaching → r.demand = true → p.DemandFollows → p.DrainsOnAir → q.radio =
        if r.lane.isSome then x.radio
        else { next with
          phase := .awaiting, control := none, linkSeq := r.linkSeq + 1
          lane := some { bytes := bytes, owes := .answer, ends := transferEnds now bytes } })) ∧
    (¬(r.phase = .retryWait ∧ due r.retry) → exec .retryTimerExpiry s = .next s) ∧
    (due r.reattempt → Leads .reAttemptTimerExpiry s fun q =>
      let x : Part := { p with radio := { r with reattempt := none } }
      EventEnds x q ∧ Examined x q ∧
      (r.state = .idle → q.radio.state = (if q.radio.demand = true then .attaching else .idle) ∧
        (q.radio.state = .attaching → q.radio.attempts = 1))) ∧
    (¬due r.reattempt → exec .reAttemptTimerExpiry s = .next s) ∧
    (due r.linger → Leads .lingerExpiry s fun q =>
      let x : Part := { p with radio := { r with demand := false, linger := none } }
      EventEnds x q ∧ Examined x q ∧
      (p.wants = false → p.NoneDrained → q.radio.demand = false ∧
        (r.state = .idle → q.radio.state = .idle ∧ q.radio.reattempt = none) ∧
        (r.state = .attaching → r.phase ≠ .awaiting →
          q.radio.state = .idle ∧ q.radio.phase = .none ∧ q.radio.reattempt = none) ∧
        (r.state = .attaching → r.phase = .awaiting → r.control = none → q.radio.state = .attaching) ∧
        (r.state = .attached → r.control = none →
          if r.lane.isSome then q.radio.state = .attached ∧ q.radio.control = some (.detachReq false)
          else q.radio.state = .detaching))) ∧
    (¬due r.linger → exec .lingerExpiry s = .next s)

/-- SIGNAL_REPORT and ATTACH_OK (R115, R122, R123, R164 to R166, R170, R194). A report replaces quality, grant and
buffer count; a grant changed while ATTACHED sheds and readmits classes, a class newly shed loses its queue with
SHED, and the path controller takes it (R80). ATTACH_OK in phase AWAITING attaches the module: the credit is full,
every class not shed before the new grant sheds it, the expected sequences are unknown, STRANDED on a BAD verdict
goes to RADIO (R87), FORCED_RADIO to its words (R97), and a RADIO_ATTACH in execution ends with DONE (R131); a
transfer still under way starts no answer timer (log 24). Elsewhere either counts in LINK_ERRORS. -/
def Obligations.Grants : Prop :=
  ∀ (quality buffers : Byte) (serviceId : BitVec 32) (grant : BitVec 16) (s : State),
    let p := s.part
    let r := p.radio
    let now := p.clock.now
    let deaf := r.state = .absent ∨ r.state = .off ∨ r.state = .recovering
    let awaited := r.state = .attaching ∧ r.phase = .awaiting
    let limited : Byte := if buffers.toNat ≤ r.maxBuffers.toNat then buffers else r.maxBuffers
    let heard : Radio :=
      { r with silence := if r.state = .starting then r.silence else some (now + 3000) }
    let error := count .linkErrors 1 { p with radio := heard }
    let reported : Part := { p with radio := { heard with
      quality := min 4 quality.toNat, grant := grant, buffers := limited } }
    let sheds (was : PerClass Bool) (x : Part) : Part :=
      let new := shedBy grant.toNat was
      Part.unqueued .shed (fun c => new.get c && !was.get c)
        { x with relay := { x.relay with shed := new } }
    let attached : Part := sheds ⟨false, false, false, false⟩ { p with
      radio := { heard with
        state := .attached, phase := .none, answer := none, timeouts := 0, serviceId := serviceId
        grant := grant, buffers := limited, lane := r.lane.map unanswered }
      relay := { p.relay with credit := 8 * p.relay.depth }
      delivery := { p.delivery with expected := ⟨none, none, none, none⟩ } }
    let leaves (i : Instr) (x : Part) (path : Path) : Prop := Leads i s fun q =>
      EventEnds x q ∧ Examined { x with path := path } q ∧
      (p.Stays → p.NoneDrained → p.DrainsOnAir → q.path = path)
    (deaf → exec (.signalReport quality grant buffers) s = .next s ∧
      exec (.attachOk serviceId grant buffers) s = .next s) ∧
    (r.state = .starting → leaves (.signalReport quality grant buffers) error p.path) ∧
    (¬deaf → ¬awaited → leaves (.attachOk serviceId grant buffers) error p.path) ∧
    (¬deaf → r.state ≠ .starting → (r.state ≠ .attached ∨ r.grant = grant) →
      leaves (.signalReport quality grant buffers) reported p.path) ∧
    (r.state = .attached → r.grant ≠ grant → p.FibreIsEmpty →
      leaves (.signalReport quality grant buffers) (sheds p.relay.shed reported)
        ((sheds p.relay.shed reported).pathShedding p.relay.shed)) ∧
    let joined : Path := match p.path.service with
      | .stranded => if p.path.verdict = .bad then attached.pathRadio else p.path
      | .forcedRadio => attached.pathForcedRadio
      | _ => p.path
    let elsewhere := p.path.service ≠ .radio ∧ p.path.service ≠ .proving ∧ p.path.service ≠ .returning
    (awaited → p.FibreIsEmpty → Leads (.attachOk serviceId grant buffers) s fun q =>
      EventEnds attached q ∧ (r.lane.isSome = true → Keeps attached q) ∧
      (p.DrainsOnAir → elsewhere → Examined { attached with path := joined } q) ∧
      (r.control = none →
        (q.radio.demand = true → q.radio.state = .attached) ∧
        (p.DrainsOnAir → p.path.service ≠ .radio → p.path.service ≠ .proving →
          p.path.service ≠ .returning → q.path = joined)) ∧
      (p.command.running ≠ some .radioDetach → q.command =
        if p.command.running = some .radioAttach then
          { p.command with
            running := none, result := 0x01
            data := padTo 16 ([0, BitVec.ofNat 8 r.attempts] ++ leBytes 4 serviceId.toNat ++
              leBytes 2 grant.toNat ++ [limited] ++ leBytes 4 r.firmware.toNat) }
        else p.command))

/-- The answers to a frame (R122, R126 to R129). An UP_ACCEPT that matches a frame of the outstanding list makes
its parts SENT and counts it; an UP_REJECT and the accept timer discard it, with MODULE_REJECT and LINK_TIMEOUT. Each
takes the first such frame from the list, and a class that drains and has run out with it is RETURNED (R91, R93). While ATTACHED
a reject NOT_ATTACHED moves the module to IDLE, and the third timeout in a row to RECOVERING, both as a radio loss.
An answer that matches nothing counts in LINK_ERRORS; a timer that has not expired has no effect (log 3). -/
def Obligations.Answers : Prop :=
  ∀ (link : BitVec 16) (buffers reason : Byte) (e : Sent) (s : State),
    let p := s.part
    let r := p.radio
    let now := p.clock.now
    let deaf := r.state = .absent ∨ r.state = .off ∨ r.state = .recovering
    let attached := r.state = .attached
    let due := ∃ m, e.accept = some m ∧ m ≤ now
    let unmatched := ∀ x ∈ r.outstanding, x.link ≠ link
    let matched := r.outstanding.find? (fun x => x.link = link) = some e
    let rest := r.outstanding.eraseP fun x => x.link = link
    let limited : Byte := if buffers.toNat ≤ r.maxBuffers.toNat then buffers else r.maxBuffers
    let heard : Radio :=
      { r with silence := if r.state = .starting then r.silence else some (now + 3000) }
    let error := count .linkErrors 1 { p with radio := heard }
    let accepted := raise .uplinkDone (count .bytesSent e.frame.bytes.length (count .framesSent 1
      (mark e.frame.parts (Entry.move .sent)
        { p with radio := { heard with outstanding := rest, buffers := limited, timeouts := 0 } })))
    let rejected := discardParts .moduleReject e.frame.parts
      { p with radio := { heard with outstanding := rest, timeouts := 0 } }
    let n := min 3 (r.timeouts + 1)
    let expired := count .acceptTimeouts 1 (discardParts .linkTimeout e.frame.parts
      { p with radio := { r with outstanding := rest, timeouts := n } })
    let leaves (i : Instr) (x : Part) : Prop := Leads i s fun q =>
      EventEnds x q ∧ Examined x q ∧ (p.Stays → q.path = x.pathDrained)
    let loses (i : Instr) (z : Part) (more : Part → Prop) : Prop := Leads i s fun q =>
      EventEnds z q ∧ Keeps z q ∧ (p.DrainsOnAir → q.path = z.pathLost) ∧ more q
    (deaf → exec (.upAccept link buffers) s = .next s ∧ exec (.upReject link reason) s = .next s) ∧
    (¬deaf → unmatched → leaves (.upAccept link buffers) error ∧ leaves (.upReject link reason) error) ∧
    (¬deaf → matched → leaves (.upAccept link buffers) accepted) ∧
    (¬deaf → matched → reason ≠ 3 ∨ ¬attached → leaves (.upReject link reason) rejected) ∧
    (matched → reason = 3 → attached →
      loses (.upReject link reason)
        { rejected.lost with radio := { rejected.radio with
          state := .idle, detach := none, outstanding := [], control := none } }
        fun q =>
          q.radio.state =
            (if q.radio.demand = true ∧ r.reattempt = none then .attaching else .idle) ∧
          (q.radio.state = .attaching → q.radio.attempts = 1)) ∧
    (unmatched ∨ matched ∧ ¬due → exec (.acceptTimerExpiry link) s = .next s) ∧
    (matched → due → n < 3 ∨ ¬attached → leaves (.acceptTimerExpiry link) expired) ∧
    (matched → due → n = 3 → attached →
      let z : Part := { expired.lost with radio := expired.radio.restarted .recovering now }
      loses (.acceptTimerExpiry link) z fun q =>
        q.radio = { z.radio with demand := q.radio.demand, linger := q.radio.linger })

/-- A message as received (R106, R121, R122). One that fails a check counts once in LINK_ERRORS and does nothing
else; one that passes them acts as the row of its type does, which is the model's choice of what MESSAGE_DROPPED
carries (log 21). A state that receives no messages ignores it. -/
def Obligations.Messages : Prop :=
  ∀ (m : RawMessage) (s : State),
    let p := s.part
    let deaf := p.radio.state = .absent ∨ p.radio.state = .off ∨ p.radio.state = .recovering
    (deaf → exec (.messageDropped m) s = .next s) ∧
    (¬deaf → ¬Passes m → exec (.messageDropped m) s = .next (s.having (count .linkErrors 1 p))) ∧
    (Passes m → ∃ i, checkMessage m = some i ∧ exec (.messageDropped m) s = exec i.row s)

/-- What the part sends on its lane: each byte as a start bit, eight data bits, least significant first, and a stop
bit, with no gap between them, and then the line idle for 50 microseconds; at 125 ns a bit that is the time the
transfer takes (R119). Reading back what the module sends (R119 to R121): the message of every inbound kind, its
frame of at most 1536 bytes, is read as that kind with every field. Given as MESSAGE_DROPPED it acts as its row does,
which is the model's choice of what that command carries (log 21). -/
def Obligations.MessageCoding : Prop :=
  (∀ (p : Part) (t : Transfer), p.radio.lane = some t →
    let bits := p.sending
    let n := t.bytes.length
    (∀ i b, t.bytes[i]? = some b →
      bits[10 * i]? = some .start ∧
      (∀ j, j < 8 → bits[10 * i + 1 + j]? = some (.data (b.getLsbD j))) ∧
      bits[10 * i + 9]? = some .stop) ∧
    (∀ k, 10 * n ≤ k → k < 10 * n + 400 → bits[k]? = some .idle) ∧
    bits.length = 10 * n + 400 ∧ transferNanoseconds t.bytes = 125 * bits.length) ∧
  ∀ (i : Inbound) (link : BitVec 16) (s : State),
    (∀ h f, i = .dataDown h f → f.length ≤ 1536) →
    checkMessage { bytes := i.encode link, stopBits := true } = some i ∧
      exec (.messageDropped { bytes := i.encode link, stopBits := true }) s = exec i.row s

/-- DATA_DOWN (R186 to R191, R194). Outside ATTACHED, and for an empty frame, it counts in LINK_ERRORS. Otherwise the
sequence check is made for its class and counts the frames missed; then the frame fills the slot at the fill index, or
is dropped as an overrun where that slot is READY or delivery is undefined. A frame longer than 1536 bytes makes a
message that fails a check (log 30). -/
def Obligations.DataDown : Prop :=
  ∀ (h : Carriage) (frame : List Byte) (s : State),
    let p := s.part
    let r := p.radio
    let d := p.delivery
    let deaf := r.state = .absent ∨ r.state = .off ∨ r.state = .recovering
    let heard : Part := { p with radio := { r with
      silence := if r.state = .starting then r.silence else some (p.clock.now + 3000) } }
    let cls : ServiceClass := if h.cls = 0 then .voice else if h.cls = 1 then .signal
      else if h.cls = 2 then .interactive else .bulk
    let ahead : Nat :=
      match d.expected.get cls with
      | none => 0
      | some e => (h.sequence - e).toNat
    let late := 32767 < ahead
    let checked : Part := count .downlinkGaps (if late then 0 else ahead) { heard with delivery := { d with
      expected := if late then d.expected else d.expected.set cls (some (h.sequence + 1)) } }
    let full := (d.slots.getD d.fill none).isSome = true ∨ p.windows.delivery = none
    let overrun := raise .dataLoss (count .deliveryOverruns 1 checked)
    let slot : Slot := { cls := cls, bytes := frame, carriage := h.sequence, number := d.number }
    let filled := raiseIf (p.channel.state = .selfRefresh) .wake (raise .downlinkReady
      (count .framesDelivered 1 { checked with delivery := { checked.delivery with
        slots := d.slots.set d.fill (some slot), fill := (d.fill + 1) % 32, number := d.number + 1 } }))
    let leaves (x : Part) : Prop := Leads (.dataDown h frame) s fun q =>
      EventEnds x q ∧ Examined x q ∧ (p.Stays → p.NoneDrained → q.path = p.path)
    (deaf → exec (.dataDown h frame) s = .next s) ∧
    (¬deaf → 1536 < frame.length →
      exec (.dataDown h frame) s = .next (s.having (count .linkErrors 1 p))) ∧
    (¬deaf → frame.length ≤ 1536 → r.state ≠ .attached ∨ frame = [] →
      leaves (count .linkErrors 1 heard)) ∧
    (r.state = .attached → frame ≠ [] → frame.length ≤ 1536 →
      (full → leaves overrun) ∧ (¬full → leaves filled))

/-- The control messages and the end of a transfer (R113, R114, R117, R119, R124 to R126). A pending request starts
where the lane is free: an ATTACH_REQ makes the phase AWAITING, a DETACH_REQ the module DETACHING, which is no radio
loss (R111, R171). At the end of a transfer the answer timer or the frame's accept timer starts, and what is pending
takes the lane, a control message first. A start that cannot be has no effect (log 14). TRANSFER_END ends the transfer
on the lane whenever it comes: that it is not held to the transfer's length is the model's choice (log 4). -/
def Obligations.Lane : Prop :=
  ∀ (s : State),
    let p := s.part
    let r := p.radio
    let now := p.clock.now
    let asked (profile : Nat) : Prop :=
      r.lane = none ∧ r.control = some (.attachReq profile) ∧ r.state = .attaching
    let leaving (forced : Bool) : Prop :=
      r.lane = none ∧ r.control = some (.detachReq forced) ∧ r.state = .attached
    (∀ profile, asked profile → Leads .attachReqStart s fun q =>
      let x : Part := { p with radio := r.requests profile now }
      EventEnds x q ∧ Keeps x q ∧
        q.radio = { x.radio with demand := q.radio.demand, linger := q.radio.linger }) ∧
    ((∀ profile, ¬asked profile) → exec .attachReqStart s = .next s) ∧
    (∀ forced, leaving forced → Leads .detachReqStart s fun q =>
      let x := Part.parted { p with radio := r.departs now }
      EventEnds x q ∧ Keeps x q ∧ (p.DrainsOnAir → q.path = x.pathLost) ∧
        q.radio = { x.radio with demand := q.radio.demand, linger := q.radio.linger } ∧
        q.command =
          if p.command.running = some .radioDetach then
            { p.command with
              running := none, result := 0x01, data := padTo 16 [6, causeCode r.lastDetach] }
          else p.command) ∧
    ((∀ forced, ¬leaving forced) → exec .detachReqStart s = .next s) ∧
    (r.lane = none → exec .transferEnd s = .next s) ∧
    ∀ t, r.lane = some t → Leads .transferEnd s fun q =>
      let y : Radio := { r with
        lane := none
        answer := if t.owes = .answer then some (now + 30000) else r.answer
        outstanding := r.outstanding.map fun e =>
          if t.owes = .accept e.link then { e with accept := some (now + 200) } else e }
      let x : Part := { p with radio := y }
      EventEnds x q ∧ Examined x q ∧
      (r.control ≠ some (.detachReq true) → p.NoneDrained → q.path = p.path) ∧
      (r.control = none → r.state ≠ .attached → r.state ≠ .idle →
        (r.state = .attaching → r.phase = .awaiting) →
        q.radio = { y with demand := q.radio.demand, linger := q.radio.linger }) ∧
      (r.control = none → r.state ≠ .attached → p.DemandFollows → p.NoneDrained →
        (r.state = .idle → r.demand = true → r.reattempt.isSome = true) →
        (r.state = .idle → r.demand = false → r.reattempt = none) →
        (r.state = .attaching → r.phase = .awaiting ∨ r.demand = true) → q.radio = y) ∧
      (p.DemandFollows → p.DrainsOnAir → ∀ profile, r.control = some (.attachReq profile) →
        r.state = .attaching → r.demand = true → q.radio = y.requests profile now) ∧
      (p.DemandFollows → p.NoneDrained → ∀ forced, r.control = some (.detachReq forced) →
        r.state = .attached →
        (if forced = true then
            p.path.service ≠ .radio ∧ p.path.service ≠ .proving ∧ p.path.service ≠ .forcedRadio
          else r.demand = false) →
        q.radio = { y.departs now with demand := q.radio.demand, linger := q.radio.linger })

/-- Pacing, ageing and the start of a send (R163, R167 to R169, R172 to R176). A millisecond of accrual adds the
grant to the credit, up to the top. A frame that has reached its class's age limit is discarded with AGED, wherever it
stands. A candidate whose conditions all hold starts: it leaves the head of its queue, its cost leaves the credit, it
takes its class's carriage sequence and the link sequence, and its parts are SENDING. What cannot be has no effect
(log 3, log 14). -/
def Obligations.Sends : Prop :=
  ∀ (c : ServiceClass) (s : State),
    let p := s.part
    let aged (f : Frame) : Bool := p.relay.ages.get c ≤ p.clock.now - f.enqueued
    let accrued : Part := { p with relay := { p.relay with
      credit := min (8 * p.relay.depth) (p.relay.credit + p.radio.grant.toNat) } }
    (p.radio.state ≠ .attached → exec .creditAccrual s = .next s) ∧
    (p.radio.state = .attached → Leads .creditAccrual s fun q =>
      EventEnds accrued q ∧ Examined accrued q ∧ (p.Stays → p.NoneDrained → q.path = p.path)) ∧
    ((∀ f ∈ p.relay.queues.get c, aged f = false) → exec (.ageExpiry c) s = .next s) ∧
    (∀ f, (p.relay.queues.get c).find? aged = some f → Leads (.ageExpiry c) s fun q =>
      let x := discardParts .aged f.parts { p with relay := { p.relay with
        queues := p.relay.queues.set c ((p.relay.queues.get c).erase f) } }
      EventEnds x q ∧ Examined x q ∧ (p.Stays → q.path = x.pathDrained)) ∧
    (∀ f, p.Next f → p.Ready f → Leads .dataUpStart s fun q =>
      let x := p.sends f
      EventEnds x q ∧ Keeps x q ∧ (p.NoneDrained → q.path = p.path) ∧
        q.radio = { x.radio with
          demand := q.radio.demand, linger := q.radio.linger, control := q.radio.control }) ∧
    (p.QueuedByClass → (∀ f, p.Next f → ¬p.Ready f) → exec .dataUpStart s = .next s)

/-- Whatever command is in front, and in a millisecond with none waiting, the part stays coherent: the path
records stand as the service state, the shed status and the module state have them, demand, the automatic
run, the pending request and the attach series follow the state, credit and outstanding list stay within
their bounds (R47, R77 to R79, R82 to R87, R91, R94, R111 to R117, R124, R126, R132, R164, R167, R171; log
15, log 25, log 29). The stores of the part keep their sizes, and the staging store its form (R14, R19, R22,
R134 to R137, R182). The uplink entries follow the frames (R138, R139): one entry for each descriptor defined; QUEUED
exactly while part of a queued frame, SENDING exactly while part of an outstanding one, no entry part of two frames; the
reason none in every state but DISCARDED; the carriage sequence 0 in IDLE, HELD and QUEUED; every queued
frame in the queue of its class. -/
def Obligations.EveryStepKeepsTheInvariants : Prop :=
  ∀ s t : State, step s = .next t →
    (s.part.Coherent → t.part.Coherent) ∧ (s.part.Shaped → t.part.Shaped)

/-- A part reset leaves the part as those invariants ask, whatever the straps, the channel reset line and the input
lines, and so does the reset state. -/
def Obligations.ResetHasTheInvariants : Prop :=
  (∀ strap asserted pins,
    (Part.reset strap asserted pins).Coherent ∧ (Part.reset strap asserted pins).Shaped) ∧
  State.reset.part.Coherent ∧ State.reset.part.Shaped

/-- Whatever the command, a part reset apart: where the service state or a class's path word or reason differs
afterward, PATH_CHANGED is set (R81); where the module state differs, RADIO_CHANGED is set (R106). -/
def Obligations.ChangesAreReported : Prop :=
  ∀ (i : Instr) (s t : State), (∀ strap asserted, i ≠ .partReset strap asserted) →
    exec i s = .next t →
    let p := s.part
    let q := t.part
    let shown (x : Part) (c : ServiceClass) := ((x.path.classes.get c).word, (x.path.classes.get c).reason)
    (p.path.service ≠ q.path.service ∨ (∃ c, shown p c ≠ shown q c) →
      q.flag .pathChanged = true) ∧
    (p.radio.state ≠ q.radio.state → q.flag .radioChanged = true)
end

