-- ==== Sys2Proof/Laws/State.lean ====
section
/-! SUPPORT. What each update of the part leaves at each block: one lemma for each, true by `rfl`. -/

namespace Sys2Proof.Machine

variable (p : Part)

/-! ### withClock -/

@[simp] theorem withClock_clock (x : Clock) : (p.withClock x).clock = x := rfl
@[simp] theorem withClock_channel (x : Clock) : (p.withClock x).channel = p.channel := rfl
@[simp] theorem withClock_windows (x : Clock) : (p.withClock x).windows = p.windows := rfl
@[simp] theorem withClock_command (x : Clock) : (p.withClock x).command = p.command := rfl
@[simp] theorem withClock_optical (x : Clock) : (p.withClock x).optical = p.optical := rfl
@[simp] theorem withClock_health (x : Clock) : (p.withClock x).health = p.health := rfl
@[simp] theorem withClock_path (x : Clock) : (p.withClock x).path = p.path := rfl
@[simp] theorem withClock_radio (x : Clock) : (p.withClock x).radio = p.radio := rfl
@[simp] theorem withClock_relay (x : Clock) : (p.withClock x).relay = p.relay := rfl
@[simp] theorem withClock_uplink (x : Clock) : (p.withClock x).uplink = p.uplink := rfl
@[simp] theorem withClock_delivery (x : Clock) : (p.withClock x).delivery = p.delivery := rfl
@[simp] theorem withClock_events (x : Clock) : (p.withClock x).events = p.events := rfl

/-! ### withChannel -/

@[simp] theorem withChannel_clock (x : Channel) : (p.withChannel x).clock = p.clock := rfl
@[simp] theorem withChannel_channel (x : Channel) : (p.withChannel x).channel = x := rfl
@[simp] theorem withChannel_windows (x : Channel) : (p.withChannel x).windows = p.windows := rfl
@[simp] theorem withChannel_command (x : Channel) : (p.withChannel x).command = p.command := rfl
@[simp] theorem withChannel_optical (x : Channel) : (p.withChannel x).optical = p.optical := rfl
@[simp] theorem withChannel_health (x : Channel) : (p.withChannel x).health = p.health := rfl
@[simp] theorem withChannel_path (x : Channel) : (p.withChannel x).path = p.path := rfl
@[simp] theorem withChannel_radio (x : Channel) : (p.withChannel x).radio = p.radio := rfl
@[simp] theorem withChannel_relay (x : Channel) : (p.withChannel x).relay = p.relay := rfl
@[simp] theorem withChannel_uplink (x : Channel) : (p.withChannel x).uplink = p.uplink := rfl
@[simp] theorem withChannel_delivery (x : Channel) : (p.withChannel x).delivery = p.delivery := rfl
@[simp] theorem withChannel_events (x : Channel) : (p.withChannel x).events = p.events := rfl

/-! ### withOptical -/

@[simp] theorem withOptical_clock (x : Optical) : (p.withOptical x).clock = p.clock := rfl
@[simp] theorem withOptical_channel (x : Optical) : (p.withOptical x).channel = p.channel := rfl
@[simp] theorem withOptical_windows (x : Optical) : (p.withOptical x).windows = p.windows := rfl
@[simp] theorem withOptical_command (x : Optical) : (p.withOptical x).command = p.command := rfl
@[simp] theorem withOptical_optical (x : Optical) : (p.withOptical x).optical = x := rfl
@[simp] theorem withOptical_health (x : Optical) : (p.withOptical x).health = p.health := rfl
@[simp] theorem withOptical_path (x : Optical) : (p.withOptical x).path = p.path := rfl
@[simp] theorem withOptical_radio (x : Optical) : (p.withOptical x).radio = p.radio := rfl
@[simp] theorem withOptical_relay (x : Optical) : (p.withOptical x).relay = p.relay := rfl
@[simp] theorem withOptical_uplink (x : Optical) : (p.withOptical x).uplink = p.uplink := rfl
@[simp] theorem withOptical_delivery (x : Optical) : (p.withOptical x).delivery = p.delivery := rfl
@[simp] theorem withOptical_events (x : Optical) : (p.withOptical x).events = p.events := rfl

/-! ### withHealth -/

@[simp] theorem withHealth_clock (x : Health) : (p.withHealth x).clock = p.clock := rfl
@[simp] theorem withHealth_channel (x : Health) : (p.withHealth x).channel = p.channel := rfl
@[simp] theorem withHealth_windows (x : Health) : (p.withHealth x).windows = p.windows := rfl
@[simp] theorem withHealth_command (x : Health) : (p.withHealth x).command = p.command := rfl
@[simp] theorem withHealth_optical (x : Health) : (p.withHealth x).optical = p.optical := rfl
@[simp] theorem withHealth_health (x : Health) : (p.withHealth x).health = x := rfl
@[simp] theorem withHealth_path (x : Health) : (p.withHealth x).path = p.path := rfl
@[simp] theorem withHealth_radio (x : Health) : (p.withHealth x).radio = p.radio := rfl
@[simp] theorem withHealth_relay (x : Health) : (p.withHealth x).relay = p.relay := rfl
@[simp] theorem withHealth_uplink (x : Health) : (p.withHealth x).uplink = p.uplink := rfl
@[simp] theorem withHealth_delivery (x : Health) : (p.withHealth x).delivery = p.delivery := rfl
@[simp] theorem withHealth_events (x : Health) : (p.withHealth x).events = p.events := rfl

/-! ### withPath -/

@[simp] theorem withPath_clock (x : Path) : (p.withPath x).clock = p.clock := rfl
@[simp] theorem withPath_channel (x : Path) : (p.withPath x).channel = p.channel := rfl
@[simp] theorem withPath_windows (x : Path) : (p.withPath x).windows = p.windows := rfl
@[simp] theorem withPath_command (x : Path) : (p.withPath x).command = p.command := rfl
@[simp] theorem withPath_optical (x : Path) : (p.withPath x).optical = p.optical := rfl
@[simp] theorem withPath_health (x : Path) : (p.withPath x).health = p.health := rfl
@[simp] theorem withPath_path (x : Path) : (p.withPath x).path = x := rfl
@[simp] theorem withPath_radio (x : Path) : (p.withPath x).radio = p.radio := rfl
@[simp] theorem withPath_relay (x : Path) : (p.withPath x).relay = p.relay := rfl
@[simp] theorem withPath_uplink (x : Path) : (p.withPath x).uplink = p.uplink := rfl
@[simp] theorem withPath_delivery (x : Path) : (p.withPath x).delivery = p.delivery := rfl
@[simp] theorem withPath_events (x : Path) : (p.withPath x).events = p.events := rfl

/-! ### withRadio -/

@[simp] theorem withRadio_clock (x : Radio) : (p.withRadio x).clock = p.clock := rfl
@[simp] theorem withRadio_channel (x : Radio) : (p.withRadio x).channel = p.channel := rfl
@[simp] theorem withRadio_windows (x : Radio) : (p.withRadio x).windows = p.windows := rfl
@[simp] theorem withRadio_command (x : Radio) : (p.withRadio x).command = p.command := rfl
@[simp] theorem withRadio_optical (x : Radio) : (p.withRadio x).optical = p.optical := rfl
@[simp] theorem withRadio_health (x : Radio) : (p.withRadio x).health = p.health := rfl
@[simp] theorem withRadio_path (x : Radio) : (p.withRadio x).path = p.path := rfl
@[simp] theorem withRadio_radio (x : Radio) : (p.withRadio x).radio = x := rfl
@[simp] theorem withRadio_relay (x : Radio) : (p.withRadio x).relay = p.relay := rfl
@[simp] theorem withRadio_uplink (x : Radio) : (p.withRadio x).uplink = p.uplink := rfl
@[simp] theorem withRadio_delivery (x : Radio) : (p.withRadio x).delivery = p.delivery := rfl
@[simp] theorem withRadio_events (x : Radio) : (p.withRadio x).events = p.events := rfl

/-! ### withUplink -/

@[simp] theorem withUplink_clock (x : Uplink) : (p.withUplink x).clock = p.clock := rfl
@[simp] theorem withUplink_channel (x : Uplink) : (p.withUplink x).channel = p.channel := rfl
@[simp] theorem withUplink_windows (x : Uplink) : (p.withUplink x).windows = p.windows := rfl
@[simp] theorem withUplink_command (x : Uplink) : (p.withUplink x).command = p.command := rfl
@[simp] theorem withUplink_optical (x : Uplink) : (p.withUplink x).optical = p.optical := rfl
@[simp] theorem withUplink_health (x : Uplink) : (p.withUplink x).health = p.health := rfl
@[simp] theorem withUplink_path (x : Uplink) : (p.withUplink x).path = p.path := rfl
@[simp] theorem withUplink_radio (x : Uplink) : (p.withUplink x).radio = p.radio := rfl
@[simp] theorem withUplink_relay (x : Uplink) : (p.withUplink x).relay = p.relay := rfl
@[simp] theorem withUplink_uplink (x : Uplink) : (p.withUplink x).uplink = x := rfl
@[simp] theorem withUplink_delivery (x : Uplink) : (p.withUplink x).delivery = p.delivery := rfl
@[simp] theorem withUplink_events (x : Uplink) : (p.withUplink x).events = p.events := rfl

/-! ### withDelivery -/

@[simp] theorem withDelivery_clock (x : Delivery) : (p.withDelivery x).clock = p.clock := rfl
@[simp] theorem withDelivery_channel (x : Delivery) : (p.withDelivery x).channel = p.channel := rfl
@[simp] theorem withDelivery_windows (x : Delivery) : (p.withDelivery x).windows = p.windows := rfl
@[simp] theorem withDelivery_command (x : Delivery) : (p.withDelivery x).command = p.command := rfl
@[simp] theorem withDelivery_optical (x : Delivery) : (p.withDelivery x).optical = p.optical := rfl
@[simp] theorem withDelivery_health (x : Delivery) : (p.withDelivery x).health = p.health := rfl
@[simp] theorem withDelivery_path (x : Delivery) : (p.withDelivery x).path = p.path := rfl
@[simp] theorem withDelivery_radio (x : Delivery) : (p.withDelivery x).radio = p.radio := rfl
@[simp] theorem withDelivery_relay (x : Delivery) : (p.withDelivery x).relay = p.relay := rfl
@[simp] theorem withDelivery_uplink (x : Delivery) : (p.withDelivery x).uplink = p.uplink := rfl
@[simp] theorem withDelivery_delivery (x : Delivery) : (p.withDelivery x).delivery = x := rfl
@[simp] theorem withDelivery_events (x : Delivery) : (p.withDelivery x).events = p.events := rfl

/-! ### withEvents -/

@[simp] theorem withEvents_clock (x : Events) : (p.withEvents x).clock = p.clock := rfl
@[simp] theorem withEvents_channel (x : Events) : (p.withEvents x).channel = p.channel := rfl
@[simp] theorem withEvents_windows (x : Events) : (p.withEvents x).windows = p.windows := rfl
@[simp] theorem withEvents_command (x : Events) : (p.withEvents x).command = p.command := rfl
@[simp] theorem withEvents_optical (x : Events) : (p.withEvents x).optical = p.optical := rfl
@[simp] theorem withEvents_health (x : Events) : (p.withEvents x).health = p.health := rfl
@[simp] theorem withEvents_path (x : Events) : (p.withEvents x).path = p.path := rfl
@[simp] theorem withEvents_radio (x : Events) : (p.withEvents x).radio = p.radio := rfl
@[simp] theorem withEvents_relay (x : Events) : (p.withEvents x).relay = p.relay := rfl
@[simp] theorem withEvents_uplink (x : Events) : (p.withEvents x).uplink = p.uplink := rfl
@[simp] theorem withEvents_delivery (x : Events) : (p.withEvents x).delivery = p.delivery := rfl
@[simp] theorem withEvents_events (x : Events) : (p.withEvents x).events = x := rfl

/-! ### raise -/

@[simp] theorem raise_clock (f : Flag) : (raise f p).clock = p.clock := rfl
@[simp] theorem raise_channel (f : Flag) : (raise f p).channel = p.channel := rfl
@[simp] theorem raise_windows (f : Flag) : (raise f p).windows = p.windows := rfl
@[simp] theorem raise_command (f : Flag) : (raise f p).command = p.command := rfl
@[simp] theorem raise_optical (f : Flag) : (raise f p).optical = p.optical := rfl
@[simp] theorem raise_health (f : Flag) : (raise f p).health = p.health := rfl
@[simp] theorem raise_path (f : Flag) : (raise f p).path = p.path := rfl
@[simp] theorem raise_radio (f : Flag) : (raise f p).radio = p.radio := rfl
@[simp] theorem raise_relay (f : Flag) : (raise f p).relay = p.relay := rfl
@[simp] theorem raise_uplink (f : Flag) : (raise f p).uplink = p.uplink := rfl
@[simp] theorem raise_delivery (f : Flag) : (raise f p).delivery = p.delivery := rfl

/-! ### raiseIf -/

@[simp] theorem raiseIf_clock (b : Bool) (f : Flag) : (raiseIf b f p).clock = p.clock := by cases b <;> rfl
@[simp] theorem raiseIf_channel (b : Bool) (f : Flag) : (raiseIf b f p).channel = p.channel := by cases b <;> rfl
@[simp] theorem raiseIf_windows (b : Bool) (f : Flag) : (raiseIf b f p).windows = p.windows := by cases b <;> rfl
@[simp] theorem raiseIf_command (b : Bool) (f : Flag) : (raiseIf b f p).command = p.command := by cases b <;> rfl
@[simp] theorem raiseIf_optical (b : Bool) (f : Flag) : (raiseIf b f p).optical = p.optical := by cases b <;> rfl
@[simp] theorem raiseIf_health (b : Bool) (f : Flag) : (raiseIf b f p).health = p.health := by cases b <;> rfl
@[simp] theorem raiseIf_path (b : Bool) (f : Flag) : (raiseIf b f p).path = p.path := by cases b <;> rfl
@[simp] theorem raiseIf_radio (b : Bool) (f : Flag) : (raiseIf b f p).radio = p.radio := by cases b <;> rfl
@[simp] theorem raiseIf_relay (b : Bool) (f : Flag) : (raiseIf b f p).relay = p.relay := by cases b <;> rfl
@[simp] theorem raiseIf_uplink (b : Bool) (f : Flag) : (raiseIf b f p).uplink = p.uplink := by cases b <;> rfl
@[simp] theorem raiseIf_delivery (b : Bool) (f : Flag) : (raiseIf b f p).delivery = p.delivery := by cases b <;> rfl

/-! ### count -/

@[simp] theorem count_clock (c : Counter) (n : Nat) : (count c n p).clock = p.clock := rfl
@[simp] theorem count_channel (c : Counter) (n : Nat) : (count c n p).channel = p.channel := rfl
@[simp] theorem count_windows (c : Counter) (n : Nat) : (count c n p).windows = p.windows := rfl
@[simp] theorem count_command (c : Counter) (n : Nat) : (count c n p).command = p.command := rfl
@[simp] theorem count_optical (c : Counter) (n : Nat) : (count c n p).optical = p.optical := rfl
@[simp] theorem count_health (c : Counter) (n : Nat) : (count c n p).health = p.health := rfl
@[simp] theorem count_path (c : Counter) (n : Nat) : (count c n p).path = p.path := rfl
@[simp] theorem count_radio (c : Counter) (n : Nat) : (count c n p).radio = p.radio := rfl
@[simp] theorem count_relay (c : Counter) (n : Nat) : (count c n p).relay = p.relay := rfl
@[simp] theorem count_uplink (c : Counter) (n : Nat) : (count c n p).uplink = p.uplink := rfl
@[simp] theorem count_delivery (c : Counter) (n : Nat) : (count c n p).delivery = p.delivery := rfl

/-! ### mark -/

@[simp] theorem mark_clock (is : List Nat) (f : Entry → Entry) : (mark is f p).clock = p.clock := rfl
@[simp] theorem mark_channel (is : List Nat) (f : Entry → Entry) : (mark is f p).channel = p.channel := rfl
@[simp] theorem mark_windows (is : List Nat) (f : Entry → Entry) : (mark is f p).windows = p.windows := rfl
@[simp] theorem mark_command (is : List Nat) (f : Entry → Entry) : (mark is f p).command = p.command := rfl
@[simp] theorem mark_optical (is : List Nat) (f : Entry → Entry) : (mark is f p).optical = p.optical := rfl
@[simp] theorem mark_health (is : List Nat) (f : Entry → Entry) : (mark is f p).health = p.health := rfl
@[simp] theorem mark_path (is : List Nat) (f : Entry → Entry) : (mark is f p).path = p.path := rfl
@[simp] theorem mark_radio (is : List Nat) (f : Entry → Entry) : (mark is f p).radio = p.radio := rfl
@[simp] theorem mark_relay (is : List Nat) (f : Entry → Entry) : (mark is f p).relay = p.relay := rfl
@[simp] theorem mark_delivery (is : List Nat) (f : Entry → Entry) : (mark is f p).delivery = p.delivery := rfl
@[simp] theorem mark_events (is : List Nat) (f : Entry → Entry) : (mark is f p).events = p.events := rfl

/-! ### setQueue -/

@[simp] theorem setQueue_clock (c : ServiceClass) (q : List Frame) : (setQueue c q p).clock = p.clock := rfl
@[simp] theorem setQueue_channel (c : ServiceClass) (q : List Frame) : (setQueue c q p).channel = p.channel := rfl
@[simp] theorem setQueue_windows (c : ServiceClass) (q : List Frame) : (setQueue c q p).windows = p.windows := rfl
@[simp] theorem setQueue_command (c : ServiceClass) (q : List Frame) : (setQueue c q p).command = p.command := rfl
@[simp] theorem setQueue_optical (c : ServiceClass) (q : List Frame) : (setQueue c q p).optical = p.optical := rfl
@[simp] theorem setQueue_health (c : ServiceClass) (q : List Frame) : (setQueue c q p).health = p.health := rfl
@[simp] theorem setQueue_path (c : ServiceClass) (q : List Frame) : (setQueue c q p).path = p.path := rfl
@[simp] theorem setQueue_radio (c : ServiceClass) (q : List Frame) : (setQueue c q p).radio = p.radio := rfl
@[simp] theorem setQueue_uplink (c : ServiceClass) (q : List Frame) : (setQueue c q p).uplink = p.uplink := rfl
@[simp] theorem setQueue_delivery (c : ServiceClass) (q : List Frame) : (setQueue c q p).delivery = p.delivery := rfl
@[simp] theorem setQueue_events (c : ServiceClass) (q : List Frame) : (setQueue c q p).events = p.events := rfl

/-! ### postClamp -/

@[simp] theorem postClamp_clock (m : BitVec 32) : (postClamp m p).clock = p.clock := rfl
@[simp] theorem postClamp_channel (m : BitVec 32) : (postClamp m p).channel = p.channel := rfl
@[simp] theorem postClamp_windows (m : BitVec 32) : (postClamp m p).windows = p.windows := rfl
@[simp] theorem postClamp_optical (m : BitVec 32) : (postClamp m p).optical = p.optical := rfl
@[simp] theorem postClamp_health (m : BitVec 32) : (postClamp m p).health = p.health := rfl
@[simp] theorem postClamp_path (m : BitVec 32) : (postClamp m p).path = p.path := rfl
@[simp] theorem postClamp_radio (m : BitVec 32) : (postClamp m p).radio = p.radio := rfl
@[simp] theorem postClamp_relay (m : BitVec 32) : (postClamp m p).relay = p.relay := rfl
@[simp] theorem postClamp_uplink (m : BitVec 32) : (postClamp m p).uplink = p.uplink := rfl
@[simp] theorem postClamp_delivery (m : BitVec 32) : (postClamp m p).delivery = p.delivery := rfl
@[simp] theorem postClamp_events (m : BitVec 32) : (postClamp m p).events = p.events := rfl

/-! ### startTimed -/

@[simp] theorem startTimed_clock (t : Timed) : (startTimed t p).clock = p.clock := rfl
@[simp] theorem startTimed_channel (t : Timed) : (startTimed t p).channel = p.channel := rfl
@[simp] theorem startTimed_windows (t : Timed) : (startTimed t p).windows = p.windows := rfl
@[simp] theorem startTimed_optical (t : Timed) : (startTimed t p).optical = p.optical := rfl
@[simp] theorem startTimed_health (t : Timed) : (startTimed t p).health = p.health := rfl
@[simp] theorem startTimed_path (t : Timed) : (startTimed t p).path = p.path := rfl
@[simp] theorem startTimed_radio (t : Timed) : (startTimed t p).radio = p.radio := rfl
@[simp] theorem startTimed_relay (t : Timed) : (startTimed t p).relay = p.relay := rfl
@[simp] theorem startTimed_uplink (t : Timed) : (startTimed t p).uplink = p.uplink := rfl
@[simp] theorem startTimed_delivery (t : Timed) : (startTimed t p).delivery = p.delivery := rfl
@[simp] theorem startTimed_events (t : Timed) : (startTimed t p).events = p.events := rfl

/-! ### finish -/

@[simp] theorem finish_clock (r : Byte) (d : List Byte) : (finish r d p).clock = p.clock := rfl
@[simp] theorem finish_channel (r : Byte) (d : List Byte) : (finish r d p).channel = p.channel := rfl
@[simp] theorem finish_windows (r : Byte) (d : List Byte) : (finish r d p).windows = p.windows := rfl
@[simp] theorem finish_optical (r : Byte) (d : List Byte) : (finish r d p).optical = p.optical := rfl
@[simp] theorem finish_health (r : Byte) (d : List Byte) : (finish r d p).health = p.health := rfl
@[simp] theorem finish_path (r : Byte) (d : List Byte) : (finish r d p).path = p.path := rfl
@[simp] theorem finish_radio (r : Byte) (d : List Byte) : (finish r d p).radio = p.radio := rfl
@[simp] theorem finish_relay (r : Byte) (d : List Byte) : (finish r d p).relay = p.relay := rfl
@[simp] theorem finish_uplink (r : Byte) (d : List Byte) : (finish r d p).uplink = p.uplink := rfl
@[simp] theorem finish_delivery (r : Byte) (d : List Byte) : (finish r d p).delivery = p.delivery := rfl

/-! ### takeResult -/

@[simp] theorem takeResult_clock (c : Byte) (t : BitVec 16) : (takeResult c t p).clock = p.clock := rfl
@[simp] theorem takeResult_channel (c : Byte) (t : BitVec 16) : (takeResult c t p).channel = p.channel := rfl
@[simp] theorem takeResult_windows (c : Byte) (t : BitVec 16) : (takeResult c t p).windows = p.windows := rfl
@[simp] theorem takeResult_optical (c : Byte) (t : BitVec 16) : (takeResult c t p).optical = p.optical := rfl
@[simp] theorem takeResult_health (c : Byte) (t : BitVec 16) : (takeResult c t p).health = p.health := rfl
@[simp] theorem takeResult_path (c : Byte) (t : BitVec 16) : (takeResult c t p).path = p.path := rfl
@[simp] theorem takeResult_radio (c : Byte) (t : BitVec 16) : (takeResult c t p).radio = p.radio := rfl
@[simp] theorem takeResult_relay (c : Byte) (t : BitVec 16) : (takeResult c t p).relay = p.relay := rfl
@[simp] theorem takeResult_uplink (c : Byte) (t : BitVec 16) : (takeResult c t p).uplink = p.uplink := rfl
@[simp] theorem takeResult_delivery (c : Byte) (t : BitVec 16) : (takeResult c t p).delivery = p.delivery := rfl
@[simp] theorem takeResult_events (c : Byte) (t : BitVec 16) : (takeResult c t p).events = p.events := rfl

/-! ### setBank -/

@[simp] theorem setBank_clock (b : BitVec 3) (r : Option (BitVec 15)) : (setBank b r p).clock = p.clock := rfl
@[simp] theorem setBank_windows (b : BitVec 3) (r : Option (BitVec 15)) : (setBank b r p).windows = p.windows := rfl
@[simp] theorem setBank_command (b : BitVec 3) (r : Option (BitVec 15)) : (setBank b r p).command = p.command := rfl
@[simp] theorem setBank_optical (b : BitVec 3) (r : Option (BitVec 15)) : (setBank b r p).optical = p.optical := rfl
@[simp] theorem setBank_health (b : BitVec 3) (r : Option (BitVec 15)) : (setBank b r p).health = p.health := rfl
@[simp] theorem setBank_path (b : BitVec 3) (r : Option (BitVec 15)) : (setBank b r p).path = p.path := rfl
@[simp] theorem setBank_radio (b : BitVec 3) (r : Option (BitVec 15)) : (setBank b r p).radio = p.radio := rfl
@[simp] theorem setBank_relay (b : BitVec 3) (r : Option (BitVec 15)) : (setBank b r p).relay = p.relay := rfl
@[simp] theorem setBank_uplink (b : BitVec 3) (r : Option (BitVec 15)) : (setBank b r p).uplink = p.uplink := rfl
@[simp] theorem setBank_delivery (b : BitVec 3) (r : Option (BitVec 15)) : (setBank b r p).delivery = p.delivery := rfl
@[simp] theorem setBank_events (b : BitVec 3) (r : Option (BitVec 15)) : (setBank b r p).events = p.events := rfl

/-! ### Fields inside a block -/

@[simp] theorem raise_mask (f : Flag) : (raise f p).events.mask = p.events.mask := rfl
@[simp] theorem raise_counters (f : Flag) : (raise f p).events.counters = p.events.counters := rfl
@[simp] theorem raise_flags (f : Flag) : (raise f p).events.flags = p.events.flags ||| f.mask := rfl
@[simp] theorem raiseIf_mask (b : Bool) (f : Flag) :
    (raiseIf b f p).events.mask = p.events.mask := by cases b <;> rfl
@[simp] theorem raiseIf_counters (b : Bool) (f : Flag) :
    (raiseIf b f p).events.counters = p.events.counters := by cases b <;> rfl
@[simp] theorem count_mask (c : Counter) (n : Nat) :
    (count c n p).events.mask = p.events.mask := rfl
@[simp] theorem count_flags (c : Counter) (n : Nat) :
    (count c n p).events.flags = p.events.flags := rfl
@[simp] theorem count_counters (c : Counter) (n : Nat) :
    (count c n p).events.counters =
      p.events.counters.put c (satAdd (p.events.counters.get c) n) := rfl
@[simp] theorem mark_staging (is : List Nat) (f : Entry → Entry) :
    (mark is f p).uplink.staging = p.uplink.staging := rfl
@[simp] theorem mark_entries (is : List Nat) (f : Entry → Entry) :
    (mark is f p).uplink.entries = markEntries is f p.uplink.entries := rfl
@[simp] theorem setQueue_queues (c : ServiceClass) (q : List Frame) :
    (setQueue c q p).relay.queues = p.relay.queues.set c q := rfl

/-- A class record read back where it was written. -/
@[simp] theorem PerClass.get_set_same {α : Type} (x : PerClass α) (c : ServiceClass) (v : α) :
    (x.set c v).get c = v := by cases c <;> rfl

/-- A class record read at another class. -/
theorem PerClass.get_set_other {α : Type} (x : PerClass α) {c d : ServiceClass} (v : α) (h : d ≠ c) :
    (x.set c v).get d = x.get d := by cases c <;> cases d <;> first | rfl | exact absurd rfl h

@[simp] theorem PerClass.get_ofFn {α : Type} (f : ServiceClass → α) (c : ServiceClass) :
    (PerClass.ofFn f).get c = f c := by cases c <;> rfl

/-- A counter read back where it was written. -/
@[simp] theorem Counters.get_put_same (cs : Counters) (c : Counter) (v : BitVec 32) :
    (cs.put c v).get c = v := by cases c <;> rfl

/-- A counter read where another was written. -/
theorem Counters.get_put_other (cs : Counters) {c d : Counter} (v : BitVec 32) (h : d ≠ c) :
    (cs.put c v).get d = cs.get d := by
  cases c <;> cases d <;> first | rfl | exact absurd rfl h

/-- A counter increased by nothing is unchanged. -/
@[simp] theorem count_zero (c : Counter) : count c 0 p = p := by
  have h : satAdd (p.events.counters.get c) 0 = p.events.counters.get c := by
    unfold satAdd
    apply BitVec.eq_of_toNat_eq
    have := (p.events.counters.get c).isLt
    simp only [BitVec.toNat_ofNat]
    omega
  unfold count
  rw [h]
  cases c <;> rfl

/-- The classes are all four. -/
@[simp] theorem mem_classes (c : ServiceClass) : c ∈ classes := by cases c <;> decide

end Sys2Proof.Machine
end

