-- ==== Sys2Proof/Laws/Frame.lean ====
section
/-! SUPPORT. What the operations of an event leave alone (`EventFrame`), up to the end of the event. -/

namespace Sys2Proof.Machine

theorem EventFrame.refl (p : Part) : EventFrame p p :=
  ⟨rfl, rfl, rfl, rfl, rfl, rfl, rfl, rfl, rfl, rfl, rfl, rfl⟩

theorem EventFrame.trans {p q r : Part} (h : EventFrame p q) (k : EventFrame q r) : EventFrame p r where
  clock := k.clock.trans h.clock
  channel := k.channel.trans h.channel
  windows := k.windows.trans h.windows
  health := k.health.trans h.health
  delivery := k.delivery.trans h.delivery
  command := by rw [k.command, h.command]
  optical := by rw [k.optical, h.optical]
  path := by rw [k.path, h.path]
  radio := by rw [k.radio, h.radio]
  relay := by rw [k.relay, h.relay]
  uplink := by rw [k.uplink, h.uplink]
  events := by rw [k.events, h.events]

/-- `EventFrame.trans` with the later part given first. -/
theorem EventFrame.after {p q r : Part} (k : EventFrame q r) (h : EventFrame p q) : EventFrame p r :=
  h.trans k

/-- An `if` keeps what both its branches keep. -/
theorem EventFrame.ite {c : Prop} [Decidable c] {p q r : Part} (h : EventFrame p q)
    (k : EventFrame p r) : EventFrame p (if c then q else r) := by split <;> assumption

theorem raise_frame (f : Flag) (p : Part) : EventFrame p (raise f p) :=
  ⟨rfl, rfl, rfl, rfl, rfl, rfl, rfl, rfl, rfl, rfl, rfl, rfl⟩

theorem raiseIf_frame (b : Bool) (f : Flag) (p : Part) : EventFrame p (raiseIf b f p) := by
  cases b
  · exact EventFrame.refl p
  · exact raise_frame f p

theorem count_frame (c : Counter) (n : Nat) (p : Part) : EventFrame p (count c n p) :=
  ⟨rfl, rfl, rfl, rfl, rfl, rfl, rfl, rfl, rfl, rfl, rfl, rfl⟩

theorem mark_frame (is : List Nat) (f : Entry → Entry) (p : Part) : EventFrame p (mark is f p) :=
  ⟨rfl, rfl, rfl, rfl, rfl, rfl, rfl, rfl, rfl, rfl, rfl, rfl⟩

theorem setQueue_frame (c : ServiceClass) (q : List Frame) (p : Part) :
    EventFrame p (setQueue c q p) :=
  ⟨rfl, rfl, rfl, rfl, rfl, rfl, rfl, rfl, rfl, rfl, rfl, rfl⟩

theorem finish_frame (r : Byte) (d : List Byte) (p : Part) : EventFrame p (finish r d p) :=
  ⟨rfl, rfl, rfl, rfl, rfl, rfl, rfl, rfl, rfl, rfl, rfl, rfl⟩

theorem discardParts_frame (r : Discard) (is : List Nat) (p : Part) :
    EventFrame p (discardParts r is p) :=
  (((mark_frame is _ p).trans (count_frame _ _ _)).trans (raise_frame _ _)).trans
    (raiseIf_frame _ _ _)

theorem discardFrames_frame (r : Discard) (fs : List Frame) (p : Part) :
    EventFrame p (discardFrames r fs p) := by
  unfold discardFrames
  induction fs generalizing p with
  | nil => exact EventFrame.refl p
  | cons f fs ih => exact (discardParts_frame r f.parts p).trans (ih _)

theorem discardQueue_frame (r : Discard) (c : ServiceClass) (p : Part) :
    EventFrame p (discardQueue r c p) :=
  (setQueue_frame c [] p).trans (discardFrames_frame r _ _)

theorem discardQueues_frame (r : Discard) (cs : List ServiceClass) (p : Part) :
    EventFrame p (discardQueues r cs p) := by
  unfold discardQueues
  induction cs generalizing p with
  | nil => exact EventFrame.refl p
  | cons c cs ih => exact (discardQueue_frame r c p).trans (ih _)

theorem discardOutstanding_frame (r : Discard) (p : Part) :
    EventFrame p (discardOutstanding r p) :=
  EventFrame.after (discardFrames_frame r _ _)
    ⟨rfl, rfl, rfl, rfl, rfl, rfl, rfl, rfl, rfl, rfl, rfl, rfl⟩

theorem discardFibre_frame (r : Discard) (p : Part) : EventFrame p (discardFibre r p) :=
  discardQueues_frame r _ p

theorem enterRadioSide_frame (svc : Service) (p : Part) : EventFrame p (enterRadioSide svc p) :=
  ⟨rfl, rfl, rfl, rfl, rfl, rfl, rfl, rfl, rfl, rfl, rfl, rfl⟩

theorem enterStranded_frame (p : Part) : EventFrame p (enterStranded p) :=
  ⟨rfl, rfl, rfl, rfl, rfl, rfl, rfl, rfl, rfl, rfl, rfl, rfl⟩

theorem dwellEnds_frame (p : Part) : EventFrame p (dwellEnds p) :=
  EventFrame.ite ((enterRadioSide_frame _ p).trans (count_frame _ _ _)) (enterStranded_frame p)

theorem enterSuspect_frame (p : Part) : EventFrame p (enterSuspect p) := by
  unfold enterSuspect
  exact EventFrame.ite
    (EventFrame.after (dwellEnds_frame _)
      ⟨rfl, rfl, rfl, rfl, rfl, rfl, rfl, rfl, rfl, rfl, rfl, rfl⟩)
    ⟨rfl, rfl, rfl, rfl, rfl, rfl, rfl, rfl, rfl, rfl, rfl, rfl⟩

theorem enterFibre_frame (r : Discard) (p : Part) : EventFrame p (enterFibre r p) := by
  unfold enterFibre
  have h : EventFrame p (discardFibre r
      { p with path :=
          { p.path.idle with
            service := .fibre, classes := PerClass.ofFn fun _ => ClassPath.fibre } }) :=
    EventFrame.after (discardFibre_frame r _)
      ⟨rfl, rfl, rfl, rfl, rfl, rfl, rfl, rfl, rfl, rfl, rfl, rfl⟩
  exact EventFrame.ite (h.trans (enterSuspect_frame _)) h

theorem enterReturning_frame (p : Part) : EventFrame p (enterReturning p) := by
  unfold enterReturning
  exact EventFrame.after (discardFibre_frame _ _)
      ⟨rfl, rfl, rfl, rfl, rfl, rfl, rfl, rfl, rfl, rfl, rfl, rfl⟩

theorem mapClasses_frame (sel : ServiceClass → Bool) (f : ServiceClass → ClassPath) (p : Part) :
    EventFrame p (p.withPath (p.path.mapClasses sel f)) :=
  ⟨rfl, rfl, rfl, rfl, rfl, rfl, rfl, rfl, rfl, rfl, rfl, rfl⟩

theorem returnEnds_frame (p : Part) : EventFrame p (returnEnds p) :=
  EventFrame.ite
    (EventFrame.after (count_frame _ _ _)
      ⟨rfl, rfl, rfl, rfl, rfl, rfl, rfl, rfl, rfl, rfl, rfl, rfl⟩)
    (EventFrame.refl p)

theorem returnDrained_frame (p : Part) : EventFrame p (returnDrained p) :=
  EventFrame.ite (EventFrame.refl p) ((mapClasses_frame _ _ p).trans (returnEnds_frame _))

theorem pathAttached_frame (p : Part) : EventFrame p (pathAttached p) := by
  unfold pathAttached
  split
  · exact EventFrame.ite (enterRadioSide_frame _ p) (EventFrame.refl p)
  · exact enterRadioSide_frame _ p
  · exact EventFrame.refl p

theorem pathDetached_frame (p : Part) : EventFrame p (pathDetached p) := by
  unfold pathDetached
  split
  · exact enterStranded_frame p
  · exact enterFibre_frame _ p
  · exact enterFibre_frame _ p
  · exact enterRadioSide_frame _ p
  · exact (mapClasses_frame _ _ p).trans (discardFibre_frame _ _)
  · exact EventFrame.refl p

theorem pathShed_frame (was : PerClass Bool) (p : Part) : EventFrame p (pathShed was p) := by
  unfold pathShed
  dsimp only
  split
  · exact mapClasses_frame _ _ p
  · exact mapClasses_frame _ _ p
  · exact EventFrame.ite (mapClasses_frame _ _ p) (EventFrame.refl p)
  · exact EventFrame.ite (EventFrame.refl p)
      (((mapClasses_frame _ _ p).trans (discardFibre_frame _ _)).trans (returnEnds_frame _))
  · exact EventFrame.ite (EventFrame.refl p)
      ((mapClasses_frame _ _ p).trans (discardFibre_frame _ _))
  · exact EventFrame.refl p

theorem voiceDrains_frame (p : Part) : EventFrame p (voiceDrains p) :=
  ⟨rfl, rfl, rfl, rfl, rfl, rfl, rfl, rfl, rfl, rfl, rfl, rfl⟩

theorem enterForcedFibre_frame (p : Part) : EventFrame p (enterForcedFibre p) := by
  unfold enterForcedFibre
  exact EventFrame.after (discardFibre_frame _ _)
      ⟨rfl, rfl, rfl, rfl, rfl, rfl, rfl, rfl, rfl, rfl, rfl, rfl⟩

theorem leaveForced_frame (was : Force) (p : Part) : EventFrame p (leaveForced was p) := by
  unfold leaveForced
  split
  · exact EventFrame.ite
      (EventFrame.ite (enterRadioSide_frame _ p) (enterStranded_frame p))
      (EventFrame.ite (enterReturning_frame p) (enterFibre_frame _ p))
  · exact enterFibre_frame _ p

theorem takeForce_frame (was : Force) (p : Part) : EventFrame p (takeForce was p) := by
  unfold takeForce
  refine EventFrame.ite (EventFrame.refl p) ?_
  split
  · exact enterRadioSide_frame _ p
  · exact enterForcedFibre_frame p
  · exact leaveForced_frame was p

theorem takePost_frame (b : Byte) (p : Part) : EventFrame p (takePost b p) :=
  EventFrame.ite ⟨rfl, rfl, rfl, rfl, rfl, rfl, rfl, rfl, rfl, rfl, rfl, rfl⟩ (EventFrame.refl p)

theorem endAttach_frame (r b : Byte) (p : Part) : EventFrame p (endAttach r b p) :=
  EventFrame.ite (finish_frame _ _ p) (EventFrame.refl p)

theorem endDetach_frame (r : Byte) (p : Part) : EventFrame p (endDetach r p) :=
  EventFrame.ite (finish_frame _ _ p) (EventFrame.refl p)

theorem startSeries_frame (p : Part) : EventFrame p (startSeries p) :=
  ⟨rfl, rfl, rfl, rfl, rfl, rfl, rfl, rfl, rfl, rfl, rfl, rfl⟩

/-- An update of the fields of the radio link controller that an event may change. -/
theorem withRadio_frame {p : Part} {r : Radio}
    (h : r = { p.radio with
      state := r.state, detach := r.detach, demand := r.demand, linger := r.linger,
      phase := r.phase, attempts := r.attempts, answer := r.answer, retry := r.retry,
      reattempt := r.reattempt, outstanding := r.outstanding, lane := r.lane,
      control := r.control, linkSeq := r.linkSeq }) : EventFrame p (p.withRadio r) :=
  ⟨rfl, rfl, rfl, rfl, rfl, rfl, rfl, rfl, h, rfl, rfl, rfl⟩

theorem radioLoss_frame (p : Part) : EventFrame p (radioLoss p) :=
  (((discardOutstanding_frame _ p).trans (discardQueues_frame _ _ _))).trans (withRadio_frame rfl)

theorem leftAttached_frame (p : Part) : EventFrame p (leftAttached p) :=
  EventFrame.after (pathDetached_frame _)
      ⟨rfl, rfl, rfl, rfl, rfl, rfl, rfl, rfl, rfl, rfl, rfl, rfl⟩

theorem demandAfter_frame (p : Part) : EventFrame p (p.withRadio (demandAfter p)) := by
  refine withRadio_frame ?_
  unfold demandAfter
  dsimp only
  split
  · rfl
  · split
    · split <;> rfl
    · rfl

theorem demandActs_frame (p : Part) : EventFrame p (demandActs p) := by
  unfold demandActs
  dsimp only
  split
  · split
    · exact EventFrame.ite (startSeries_frame p) (EventFrame.refl p)
    · exact EventFrame.ite (withRadio_frame rfl) (EventFrame.refl p)
    · exact EventFrame.refl p
  · split
    · exact withRadio_frame rfl
    · split
      · exact EventFrame.refl p
      · exact withRadio_frame rfl
    · exact EventFrame.ite (withRadio_frame rfl) (EventFrame.refl p)
    · exact EventFrame.refl p

theorem reviewDemand_frame (p : Part) : EventFrame p (reviewDemand p) :=
  (demandAfter_frame p).trans (demandActs_frame _)

theorem reviewForced_frame (p : Part) : EventFrame p (reviewForced p) :=
  EventFrame.ite ((withRadio_frame rfl).trans (endDetach_frame _ _)) (EventFrame.refl p)

theorem reviewRun_frame (p : Part) : EventFrame p (reviewRun p) :=
  ⟨rfl, rfl, rfl, rfl, rfl, rfl, rfl, rfl, rfl, rfl, rfl, rfl⟩

theorem settle_frame (p : Part) : EventFrame p (settle p) :=
  ((reviewForced_frame p).trans (reviewDemand_frame _)).trans (reviewRun_frame _)

theorem startDataUp_frame (f : Frame) (p : Part) : EventFrame p (startDataUp f p) := by
  unfold startDataUp
  exact EventFrame.trans ((setQueue_frame _ _ p).trans (mark_frame _ _ _))
    ⟨rfl, rfl, rfl, rfl, rfl, rfl, rfl, rfl, rfl, rfl, rfl, rfl⟩

theorem trySend_frame (p : Part) : EventFrame p (trySend p) := by
  unfold trySend
  split
  · exact EventFrame.ite (startDataUp_frame _ p) (EventFrame.refl p)
  · exact EventFrame.refl p

theorem startAttachReq_frame (n : Nat) (p : Part) : EventFrame p (startAttachReq n p) :=
  ⟨rfl, rfl, rfl, rfl, rfl, rfl, rfl, rfl, rfl, rfl, rfl, rfl⟩

theorem moduleTo_detaching_frame (p : Part) : EventFrame p (moduleTo .detaching p) := by
  unfold moduleTo
  have h : EventFrame p (p.withRadio (p.radio.move .detaching p.clock.now)) := withRadio_frame rfl
  by_cases a : p.attached
  · simpa [a, Module.restarts] using h.trans (leftAttached_frame _)
  · simpa [a, Module.restarts] using h

theorem startDetachReq_frame (p : Part) : EventFrame p (startDetachReq p) :=
  (withRadio_frame rfl).trans (moduleTo_detaching_frame _)

theorem takeLane_frame (p : Part) : EventFrame p (takeLane p) := by
  unfold takeLane
  refine EventFrame.ite (EventFrame.refl p) ?_
  split
  · exact EventFrame.ite (startAttachReq_frame _ p) (EventFrame.refl p)
  · exact EventFrame.ite ((startDetachReq_frame p).trans (settle_frame _)) (EventFrame.refl p)
  · exact trySend_frame p

theorem reviewDetach_frame (p : Part) : EventFrame p (reviewDetach p) :=
  EventFrame.ite (EventFrame.refl p) (endDetach_frame _ p)

theorem noteChanges_frame (b p : Part) : EventFrame p (noteChanges b p) :=
  (raiseIf_frame _ _ p).trans (raiseIf_frame _ _ _)

/-- All that the end of an event can do lies inside `EventFrame`. -/
theorem closeEvent_frame (b p : Part) : EventFrame p (closeEvent b p) :=
  ((((returnDrained_frame p).trans (settle_frame _)).trans (takeLane_frame _)).trans
    (reviewDetach_frame _)).trans (noteChanges_frame b _)

/-- What the rule of an event leaves, the end of the event leaves, inside `EventFrame`. -/
theorem event_frame (f : Part → Part) (p : Part) : EventFrame (f p) (event f p) :=
  closeEvent_frame p (f p)

end Sys2Proof.Machine
end

