-- ==== Sys2Proof/Laws/Channel.lean ====
section
/-! SUPPORT. How a write command reaches its owner: one lemma for a line access, one for the anchor
lines, one for the command slot. -/

namespace Sys2Proof.Machine

/-! ### Rows that come over the channel -/

/-- A row that writes into memory is its write command (log 9). -/
theorem exec_writeOf {i : Instr} {w : WriteBurst} (h : writeOf i = some w) (s : State) :
    exec i s = .next (s.having (channelWrite w s.part)) := by
  cases i <;> cases h <;> rfl

/-- A row that comes over the channel acts by its kind, and has passed to DRAM as the row gives it (R1, R2). -/
theorem exec_channelOp {i : Instr} {c : DramCommand} (h : channelOp i = some c) (s : State) :
    exec i s = .next (s.having (match c with
      | .named op => channelCommand op s.part
      | .pins pins => pinsCommand pins s.part)) := by
  cases i <;> cases h <;> rfl

/-- What forwarding records (R1). -/
theorem forward_eq (op : ChannelOp) (p : Part) :
    forward op p =
      { p with channel := { p.channel with
          toDram := some (.named op)
          toHost := match op with
            | .read r => some { bytes := r.dram, source := .dram }
            | _ => p.channel.toHost } } := by
  cases op <;> rfl

/-- A command that comes as pins acts by its kind and is shown passed as it came (R1). -/
theorem pinsCommand_eq (c : ChannelPins) (p : Part) :
    pinsCommand c p =
      { channelCommand (sortCommand c) p with
        channel := { (channelCommand (sortCommand c) p).channel with toDram := some (.pins c) } } := rfl

/-! ### Line accesses -/

/-- A write to a line that no block captures (R17). -/
theorem writeAccess_plain {p : Part} {a : Nat} (ls : List Lane)
    (h : (p.windows.classify a).capturing = false) : writeAccess a ls p = p := by
  simp [writeAccess, writeAccessBy, h]

/-- A write whose capture is withheld (R18). -/
theorem writeAccess_withheld {p : Part} {a : Nat} (ls : List Lane)
    (h : (p.windows.classify a).capturing = true) (hl : p.channel.learned = false) :
    writeAccess a ls p = count .unlearnedAccesses 1 p := by
  simp [writeAccess, writeAccessBy, h, hl]

/-- A captured write goes to the block its region names (R17). -/
theorem writeAccess_handed {p : Part} {a : Nat} (ls : List Lane)
    (h : (p.windows.classify a).capturing = true) (hl : p.channel.learned = true) :
    writeAccess a ls p = handWrite (p.windows.classify a) a ls p := by
  simp [writeAccess, writeAccessBy, h, hl]

/-- A read is substituted with the line its region's block supplies (R17). -/
theorem readAccess_line {p : Part} {a : Nat} {line : Option (List Byte)} (chopped : Bool)
    (start : Nat) (h : ownerLine (p.windows.classify a) p = line) :
    readAccess a chopped start p = substitute line chopped start p := by
  have e : readAccess a chopped start p =
      substitute (ownerLine (p.windows.classify a) p) chopped start p := by rfl
  rw [e, h]

/-- A line no block supplies (R17). -/
theorem substitute_none (chopped : Bool) (start : Nat) (p : Part) :
    substitute none chopped start p = p := rfl

/-- A substituted read (R11, R12, R17). -/
theorem substitute_some {p : Part} (line : List Byte) (chopped : Bool) (start : Nat)
    (hs : p.channel.substitutes = true) :
    substitute (some line) chopped start p =
      returned
        { bytes := beatsOf p.channel.readOrder chopped start line,
          source := .part p.channel.latency } p := by
  simp only [substitute, hs, if_true]

/-- A read whose substitution is withheld (R18). -/
theorem substitute_withheld {p : Part} (line : List Byte) (chopped : Bool) (start : Nat)
    (hs : p.channel.substitutes = false) :
    substitute (some line) chopped start p = count .unlearnedAccesses 1 p := by
  simp only [substitute, hs, Bool.false_eq_true, if_false]

/-- What the part passes on changes nothing the status page shows. -/
theorem statusLine_forward (op : ChannelOp) (p : Part) (i : Nat) :
    statusLine (forward op p) i = statusLine p i := by
  rw [forward_eq]
  unfold statusLine statusLine0 statusLine1 statusLine2 statusLine3 counterLine statusLine6
  rfl

/-- The line a block supplies does not depend on the command that reads it. -/
theorem ownerLine_forward (op : ChannelOp) (region : Region) (p : Part) :
    ownerLine region (forward op p) = ownerLine region p := by
  cases region with
  | status i => exact congrArg some (statusLine_forward op p i)
  | uplink m => simp only [ownerLine, forward_eq, uplinkLine]
  | ring m => simp only [ownerLine, forward_eq]
  | area m => simp only [ownerLine, forward_eq]
  | _ => rfl

/-- What a write in ACTIVE to an OPEN bank does (R3, R9). -/
theorem channelWrite_open {p : Part} {w : WriteBurst} {row : BitVec 15}
    (ha : p.channel.state = .active) (hr : p.channel.row w.place.bank = some row) :
    channelWrite w p =
      autoClosed w.place
        (writeAccess (lineAddress row w.place) (p.lanesOf w) (passed (.write w) p)) := by
  have hr' : (passed (.write w) p).channel.row w.place.bank = some row := hr
  unfold channelWrite channelCommand
  rw [ha]
  simp only [forward, activeCommand, activeWrite, access]
  change (match (passed (.write w) p).channel.row w.place.bank with | none => _ | some row => _) = _
  rw [hr']
  rfl

/-- What a read in ACTIVE to an OPEN bank does (R3, R9). -/
theorem channelRead_open {p : Part} {r : ReadBurst} {row : BitVec 15}
    (ha : p.channel.state = .active) (hr : p.channel.row r.place.bank = some row) :
    channelCommand (.read r) p =
      autoClosed r.place
        (readAccess (lineAddress row r.place) (p.channel.chopped r.place) (startPosition r.place)
          (forward (.read r) p)) := by
  have hr' : (forward (.read r) p).channel.row r.place.bank = some row := hr
  unfold channelCommand
  rw [ha]
  simp only [activeCommand, activeRead, access]
  rw [hr']
  rfl

/-- The line address of an anchor line (R9, R13). -/
theorem anchor_address (strap : BitVec 4) (offset : Nat) (w : AnchorBurst) (h0 : offset % 32 = 0)
    (h1 : offset < 4096) :
    lineAddress (BitVec.ofNat 15 (strap.toNat * 2048)) (anchorWrite offset w).place =
      0x7000 + strap.toNat * 0x04000000 + offset := by
  have hs := strap.isLt
  have hw := w.start.isLt
  simp only [lineAddress, anchorWrite, BitVec.toNat_ofNat]
  have e1 : strap.toNat * 2048 % 2 ^ 15 = strap.toNat * 2048 := Nat.mod_eq_of_lt (by omega)
  have e2 : (offset / 4 + w.start.toNat) % 2 ^ 10 = offset / 4 + w.start.toNat :=
    Nat.mod_eq_of_lt (by omega)
  rw [e1, e2]
  have e3 : (offset / 4 + w.start.toNat) / 8 * 8 = offset / 4 := by omega
  rw [e3, show (7 : BitVec 3).toNat = 7 from rfl]
  omega

/-- The start position of an anchor write (R9). -/
theorem anchor_start (offset : Nat) (w : AnchorBurst) (h0 : offset % 32 = 0) :
    startPosition (anchorWrite offset w).place = w.start.toNat := by
  have hw := w.start.isLt
  simp only [startPosition, anchorWrite, BitVec.toNat_ofNat]
  omega

/-- A line of the anchor block is classified by its offset (R13, R17). -/
theorem classify_anchor (w : Windows) (offset : Nat) (h : offset < 4096) :
    w.classify (0x7000 + w.strap.toNat * 0x04000000 + offset) = anchorRegion offset := by
  unfold Windows.classify
  have h1 : w.anchorBlock.covers (0x7000 + w.strap.toNat * 0x04000000 + offset) = true := by
    simp [Window.covers, Windows.anchorBlock, Windows.anchor]; omega
  have h2 : 0x7000 + w.strap.toNat * 0x04000000 + offset - w.anchor = offset :=
    Nat.add_sub_cancel_left _ _
  rw [if_pos h1, h2]

/-- A write to an anchor line reaches the block its offset names (R13, R17). -/
theorem anchorWrite_reaches {p : Part} (h : p.AnchorOpen) (offset : Nat) (w : AnchorBurst)
    (h0 : offset % 32 = 0) (h1 : offset < 4096) (hc : (anchorRegion offset).capturing = true) :
    channelWrite (anchorWrite offset w) p =
      autoClosed (anchorWrite offset w).place
        (handWrite (anchorRegion offset) (0x7000 + p.windows.strap.toNat * 0x04000000 + offset)
          (p.lanesOf (anchorWrite offset w)) (passed (.write (anchorWrite offset w)) p)) := by
  rw [channelWrite_open h.active h.row, anchor_address _ _ _ h0 h1]
  congr 1
  unfold writeAccess writeAccessBy
  have e : (passed (.write (anchorWrite offset w)) p).windows.classify
      (0x7000 + p.windows.strap.toNat * 0x04000000 + offset) = anchorRegion offset :=
    classify_anchor p.windows offset h1
  have hl : (passed (.write (anchorWrite offset w)) p).channel.learned = true := h.learned
  simp only [e, hc, hl, Bool.not_true, Bool.false_eq_true, if_false, if_true]

theorem lane_carried (chopped : Bool) (start beats : Nat) (ls : List Lane) (i : Nat) (h : i < 32) :
    lane (carried chopped start beats ls) i =
      if carries chopped start beats (i / 4) then lane ls i else none := by
  simp [lane, carried, List.getD, h]

/-- Every lane of the extent is carried by a whole burst (R10). -/
theorem carries_whole (chopped : Bool) (start pos : Nat) (h : pos < 8) :
    carries chopped start 8 pos = (!chopped || decide (pos / 4 = start / 4)) := by
  cases chopped
  · simp [carries, h]
  · have : pos % 4 < 8 := by omega
    simp [carries, this]

/-- Of a write that carries a command bytes 0 to 3 are the code, byte 1 and the tag (R23). -/
theorem slot_lanes {p : Part} {h : HeaderBurst} (hc : p.CarriesCommand h) (code : Byte) :
    lane (p.lanesOf (headerWrite code h)) 0 = some code ∧
      lane (p.lanesOf (headerWrite code h)) 1 = h.second ∧
      lane (p.lanesOf (headerWrite code h)) 2 = some (BitVec.ofNat 8 h.tag.toNat) ∧
      lane (p.lanesOf (headerWrite code h)) 3 = some (BitVec.ofNat 8 (h.tag.toNat / 256)) := by
  have hcar : carries (p.channel.chopped (headerWrite code h).place)
      (startPosition (headerWrite code h).place) 8 0 = true := by
    rw [carries_whole _ _ _ (by omega)]
    have hst : startPosition (headerWrite code h).place = h.start.toNat :=
      anchor_start _ _ (by decide)
    rw [hst]
    cases hch : p.channel.chopped (headerWrite code h).place
    · rfl
    · have := hc.2 hch
      simp; omega
  unfold Part.lanesOf
  refine ⟨?_, ?_, ?_, ?_⟩ <;>
    (rw [lane_carried _ _ _ _ _ (by omega)]; simp only [Nat.reduceDiv, hcar, if_true]; rfl)

theorem tag_of_lanes (t : BitVec 16) :
    BitVec.ofNat 16 (leNat [BitVec.ofNat 8 t.toNat, BitVec.ofNat 8 (t.toNat / 256)]) = t := by
  apply BitVec.eq_of_toNat_eq
  have := t.isLt
  simp [leNat, BitVec.toNat_ofNat]
  omega

/-- All that posting at the end of an event can do: other result data, sixteen bytes (R8). -/
theorem postAtEnd_eq (c : Option CommandName) (p : Part) :
    postAtEnd c p = p ∨
      ∃ data, postAtEnd c p = { p with command := { p.command with data := padTo 16 data } } := by
  unfold postAtEnd
  split
  · exact .inl rfl
  · rename_i data _
    split
    · exact .inr ⟨data, rfl⟩
    · exact .inl rfl

/-- A header write that carries bytes 0 to 3 is a command (R23). -/
theorem writeHeader_command {ls : List Lane} {code b1 t0 t1 : Byte} (p : Part)
    (l0 : lane ls 0 = some code) (l1 : lane ls 1 = some b1) (l2 : lane ls 2 = some t0)
    (l3 : lane ls 3 = some t1) :
    writeHeader ls p =
      commandArrives code (BitVec.ofNat 16 (leNat [t0, t1]))
        (parameterBlock (mergeLanes p.command.header ls) p.command.params)
        { p with command := { p.command with header := mergeLanes p.command.header ls } } := by
  have e : headerCommand ls = some (code, BitVec.ofNat 16 (leNat [t0, t1])) := by
    unfold headerCommand; simp only [l0, l1, l2, l3]
  unfold writeHeader writeHeaderBy commandArrives
  rw [e]

/-- A command write reaches the command unit: the copy is merged and the command arrives (R22, R23). -/
theorem slotWrite_reaches {p : Part} {h : HeaderBurst} (ha : p.AnchorOpen) (hc : p.CarriesCommand h)
    (code : Byte) :
    slotWrite code h p =
      autoClosed (headerWrite code h).place
        (commandArrives code h.tag (slotParams code h p)
          { passed (.write (headerWrite code h)) p with
            command := { p.command with header := slotHeader code h p } }) := by
  unfold slotWrite
  have := anchorWrite_reaches ha headerOffset
    { start := h.start, autoClose := h.autoClose, chop := h.chop,
      lanes := some code :: h.second :: (leBytes 2 h.tag.toNat).map some ++ h.rest }
    (by decide) (by decide) (by decide)
  change channelWrite (headerWrite code h) p = _ at this
  rw [this]
  have hreg : anchorRegion headerOffset = .header := by decide
  rw [hreg]
  obtain ⟨l0, l1, l2, l3⟩ := slot_lanes hc code
  obtain ⟨b1, hb1⟩ := Option.isSome_iff_exists.mp hc.1
  rw [hb1] at l1
  have hw := writeHeader_command (passed (.write (headerWrite code h)) p) l0 l1 l2 l3
  rw [tag_of_lanes] at hw
  exact congrArg _ hw

/-- The part a command's owner finds: the write passed on, the copy merged, the result area taken
(R22, R24). -/
def takenPart (code : Byte) (h : HeaderBurst) (p : Part) : Part :=
  takeResult code h.tag
    { passed (.write (headerWrite code h)) p with
      command := { p.command with header := slotHeader code h p } }

/-- A command the part is free to take runs (R24). -/
theorem slotWrite_runs {p : Part} {h : HeaderBurst} (ht : p.Takes h) {code : Byte} {c : CommandName}
    (hc : commandOf code = some c) :
    slotWrite code h p =
      autoClosed (headerWrite code h).place
        (runCommand c (slotParams code h p) (takenPart code h p)) := by
  rw [slotWrite_reaches ht.anchor ht.carries]
  unfold commandArrives commandArrivesBy
  have : ({ passed (.write (headerWrite code h)) p with
            command := { p.command with header := slotHeader code h p } } : Part).command.running =
      none := ht.idle
  rw [this]
  simp only [Option.isSome_none, Bool.false_eq_true, if_false, hc]
  rfl

end Sys2Proof.Machine
end

