-- ==== Sys2Proof/Laws/Close.lean ====
section
/-! SUPPORT. The end of an event, field by field: what each of its parts changes, and when it leaves the
path, the queues and the module alone. -/

namespace Sys2Proof.Machine

/-! ### Ending a command -/

@[simp] theorem endDetach_path (r : Byte) (p : Part) : (endDetach r p).path = p.path := by
  unfold endDetach; split <;> rfl
@[simp] theorem endDetach_radio (r : Byte) (p : Part) : (endDetach r p).radio = p.radio := by
  unfold endDetach; split <;> rfl
@[simp] theorem endDetach_relay (r : Byte) (p : Part) : (endDetach r p).relay = p.relay := by
  unfold endDetach; split <;> rfl
@[simp] theorem endDetach_uplink (r : Byte) (p : Part) : (endDetach r p).uplink = p.uplink := by
  unfold endDetach; split <;> rfl
@[simp] theorem endDetach_optical (r : Byte) (p : Part) : (endDetach r p).optical = p.optical := by
  unfold endDetach; split <;> rfl
@[simp] theorem endDetach_counters (r : Byte) (p : Part) :
    (endDetach r p).events.counters = p.events.counters := by
  unfold endDetach; split <;> rfl
@[simp] theorem endAttach_path (r b : Byte) (p : Part) : (endAttach r b p).path = p.path := by
  unfold endAttach; split <;> rfl
@[simp] theorem endAttach_radio (r b : Byte) (p : Part) : (endAttach r b p).radio = p.radio := by
  unfold endAttach; split <;> rfl
@[simp] theorem endAttach_relay (r b : Byte) (p : Part) : (endAttach r b p).relay = p.relay := by
  unfold endAttach; split <;> rfl
@[simp] theorem endAttach_uplink (r b : Byte) (p : Part) : (endAttach r b p).uplink = p.uplink := by
  unfold endAttach; split <;> rfl
@[simp] theorem endAttach_optical (r b : Byte) (p : Part) : (endAttach r b p).optical = p.optical := by
  unfold endAttach; split <;> rfl
@[simp] theorem endAttach_counters (r b : Byte) (p : Part) :
    (endAttach r b p).events.counters = p.events.counters := by
  unfold endAttach; split <;> rfl

/-! ### Settling: demand, the forced request, the automatic run -/

/-- `q` differs from `p` in the radio link controller, a finished RADIO_DETACH, flags and the run. -/
structure SettleFrame (p q : Part) : Prop where
  frame : EventFrame p q
  path : q.path = p.path
  relay : q.relay = p.relay
  uplink : q.uplink = p.uplink
  counters : q.events.counters = p.events.counters
  outstanding : q.radio.outstanding = p.radio.outstanding
  linkSeq : q.radio.linkSeq = p.radio.linkSeq
  lane : q.radio.lane.isSome = p.radio.lane.isSome
  attached : q.attached = p.attached

theorem SettleFrame.refl (p : Part) : SettleFrame p p :=
  ⟨EventFrame.refl p, rfl, rfl, rfl, rfl, rfl, rfl, rfl, rfl⟩

theorem SettleFrame.trans {p q r : Part} (h : SettleFrame p q) (k : SettleFrame q r) :
    SettleFrame p r :=
  ⟨h.frame.trans k.frame, k.path.trans h.path, k.relay.trans h.relay, k.uplink.trans h.uplink,
    k.counters.trans h.counters, k.outstanding.trans h.outstanding, k.linkSeq.trans h.linkSeq,
    k.lane.trans h.lane, k.attached.trans h.attached⟩

theorem reviewForced_settle (p : Part) : SettleFrame p (reviewForced p) := by
  refine ⟨reviewForced_frame p, ?_, ?_, ?_, ?_, ?_, ?_, ?_, ?_⟩ <;>
    unfold reviewForced <;> split <;> simp [Part.attached]

theorem demandAfter_settle (p : Part) : SettleFrame p (p.withRadio (demandAfter p)) := by
  refine ⟨demandAfter_frame p, rfl, rfl, rfl, rfl, ?_, ?_, ?_, ?_⟩ <;>
    simp only [withRadio_radio, Part.attached] <;> unfold demandAfter <;> dsimp only <;>
    (repeat' split) <;> rfl

theorem demandActs_settle (p : Part) : SettleFrame p (demandActs p) := by
  refine ⟨demandActs_frame p, ?_, ?_, ?_, ?_, ?_, ?_, ?_, ?_⟩ <;>
    simp only [demandActs, Part.attached] <;> (repeat' split) <;>
    simp_all [startSeries, Radio.placeAttach, Radio.endSeries]

theorem reviewDemand_settle (p : Part) : SettleFrame p (reviewDemand p) :=
  (demandAfter_settle p).trans (demandActs_settle _)

theorem reviewRun_settle (p : Part) : SettleFrame p (reviewRun p) :=
  ⟨reviewRun_frame p, rfl, rfl, rfl, rfl, rfl, rfl, rfl, rfl⟩

theorem settle_settle (p : Part) : SettleFrame p (settle p) :=
  ((reviewForced_settle p).trans (reviewDemand_settle _)).trans (reviewRun_settle _)

theorem reviewDetach_settle (p : Part) : SettleFrame p (reviewDetach p) := by
  refine ⟨reviewDetach_frame p, ?_, ?_, ?_, ?_, ?_, ?_, ?_, ?_⟩ <;>
    unfold reviewDetach <;> split <;> simp_all [Part.attached]

theorem raiseIf_settle (b : Bool) (f : Flag) (p : Part) : SettleFrame p (raiseIf b f p) :=
  ⟨raiseIf_frame b f p, by simp, by simp, by simp, by simp, by simp, by simp, by simp,
    by simp [Part.attached]⟩

theorem noteChanges_settle (b p : Part) : SettleFrame p (noteChanges b p) :=
  (raiseIf_settle _ _ p).trans (raiseIf_settle _ _ _)

/-! ### When the lane takes nothing -/

/-- The lane can take no frame and no detach request: it is busy, or the module is not ATTACHED. -/
def Part.still (p : Part) : Prop := p.radio.lane.isSome = true ∨ p.attached = false

/-- A message can start only an attach request where the lane is still. -/
theorem takeLane_still {p : Part} (h : p.still) :
    takeLane p = p ∨ ∃ n, takeLane p = startAttachReq n p := by
  rcases h with h | h
  · left; simp [takeLane, h]
  · unfold takeLane
    split
    · exact .inl rfl
    · split
      · split
        · exact .inr ⟨_, rfl⟩
        · exact .inl rfl
      · simp [h]
      · left
        unfold trySend
        split
        · simp [Part.maySend, h]
        · rfl

/-- What the end of an event leaves where the lane is still: the path records as R91 leaves them, the
relay and the uplink entries as they were. -/
theorem closeEvent_still {b p : Part} (h : p.still) :
    (closeEvent b p).path = (returnDrained p).path ∧ (closeEvent b p).relay = p.relay ∧
      (closeEvent b p).uplink = p.uplink ∧
      (closeEvent b p).radio.outstanding = p.radio.outstanding ∧
      (closeEvent b p).attached = p.attached ∧
      (closeEvent b p).radio.lane.isSome = (takeLane (settle (returnDrained p))).radio.lane.isSome := by
  have hr : (returnDrained p).radio = p.radio ∧ (returnDrained p).relay = p.relay ∧
      (returnDrained p).uplink = p.uplink := by
    unfold returnDrained returnEnds
    split
    · exact ⟨rfl, rfl, rfl⟩
    · split <;> exact ⟨rfl, rfl, rfl⟩
  have hs := settle_settle (returnDrained p)
  have hst : (settle (returnDrained p)).still := by
    rcases h with h | h
    · left; rw [hs.lane, hr.1]; exact h
    · right; rw [hs.attached]; simp only [Part.attached, hr.1]; exact h
  have hd := reviewDetach_settle (takeLane (settle (returnDrained p)))
  have hn := noteChanges_settle b (reviewDetach (takeLane (settle (returnDrained p))))
  have ht := hd.trans hn
  change (noteChanges b _).path = _ ∧ (noteChanges b _).relay = _ ∧ (noteChanges b _).uplink = _ ∧
    (noteChanges b _).radio.outstanding = _ ∧ (noteChanges b _).attached = _ ∧
    (noteChanges b _).radio.lane.isSome = _
  rw [ht.path, ht.relay, ht.uplink, ht.outstanding, ht.attached, ht.lane]
  have key : (takeLane (settle (returnDrained p))).path = (settle (returnDrained p)).path ∧
      (takeLane (settle (returnDrained p))).relay = (settle (returnDrained p)).relay ∧
      (takeLane (settle (returnDrained p))).uplink = (settle (returnDrained p)).uplink ∧
      (takeLane (settle (returnDrained p))).radio.outstanding =
        (settle (returnDrained p)).radio.outstanding ∧
      (takeLane (settle (returnDrained p))).attached = (settle (returnDrained p)).attached := by
    rcases takeLane_still hst with e | ⟨n, e⟩ <;> rw [e]
    · exact ⟨rfl, rfl, rfl, rfl, rfl⟩
    · exact ⟨rfl, rfl, rfl, rfl, rfl⟩
  obtain ⟨k1, k2, k3, k4, k5⟩ := key
  rw [k1, k2, k3, k4, k5, hs.path, hs.relay, hs.uplink, hs.outstanding, hs.attached]
  refine ⟨rfl, hr.2.1, hr.2.2, by rw [hr.1], ?_, rfl⟩
  simp only [Part.attached, hr.1]

/-- With no class DRAINING, R91 changes nothing. -/
theorem returnDrained_none {p : Part} (h : ∀ c, (p.path.classes.get c).sub ≠ .draining) :
    returnDrained p = p := by
  unfold returnDrained
  have : p.drainedClasses = [] := by
    unfold Part.drainedClasses
    rw [List.filter_eq_nil_iff]
    intro c _
    simp [Part.draining, h c]
  rw [if_pos this]

/-! ### Flags only rise, which counters move, and host-side copies stay -/

theorem Mild.refl (p : Part) : Mild p p := ⟨fun _ h => h, fun _ _ _ _ => rfl, rfl⟩
theorem Mild.trans {p q r : Part} (h : Mild p q) (k : Mild q r) : Mild p r :=
  ⟨fun f hf => k.flags f (h.flags f hf),
    fun c h1 h2 h3 => (k.counters c h1 h2 h3).trans (h.counters c h1 h2 h3), k.hosts.trans h.hosts⟩
/-- `Mild.trans` with the later part given first. -/
theorem Mild.after {p q r : Part} (k : Mild q r) (h : Mild p q) : Mild p r := h.trans k
theorem Mild.of_eq {p q : Part} (he : q.events = p.events)
    (hu : q.uplink.entries.map Entry.host = p.uplink.entries.map Entry.host) : Mild p q :=
  ⟨fun f hf => by unfold Part.flag at *; rw [he]; exact hf, fun _ _ _ _ => by rw [he], hu⟩
theorem Mild.ite {c : Prop} [Decidable c] {p q r : Part} (h : Mild p q) (k : Mild p r) :
    Mild p (if c then q else r) := by split <;> assumption

/-- A flag just raised is set. -/
@[simp] theorem raise_flag (f : Flag) (p : Part) : (raise f p).flag f = true := by
  cases f <;> simp [Part.flag, Flag.mask, Flag.bit]

/-- Marking entries keeps their host-side copies when the marking does. -/
theorem markEntries_hosts {f : Entry → Entry} (hf : ∀ e, (f e).host = e.host) (is : List Nat)
    (es : List Entry) : (markEntries is f es).map Entry.host = es.map Entry.host := by
  unfold markEntries
  apply List.ext_getElem
  · simp
  · intro i h1 h2
    simp only [List.getElem_map, List.getElem_mapIdx]
    split
    · exact hf _
    · rfl

theorem raise_mild (f : Flag) (p : Part) : Mild p (raise f p) :=
  ⟨fun g hg => by unfold Part.flag at *; simp only [raise_flags, BitVec.getLsbD_or, hg, Bool.true_or],
    fun _ _ _ _ => rfl, rfl⟩

theorem raiseIf_mild (b : Bool) (f : Flag) (p : Part) : Mild p (raiseIf b f p) := by
  cases b
  · exact Mild.refl p
  · exact raise_mild f p

theorem finish_mild (r : Byte) (d : List Byte) (p : Part) : Mild p (finish r d p) :=
  Mild.after (raise_mild _ _) (Mild.of_eq rfl rfl)

theorem count_mild {c : Counter} (n : Nat) (p : Part)
    (h : c = .framesDiscarded ∨ c = .returns ∨ c = .failovers) : Mild p (count c n p) := by
  refine ⟨fun _ hf => hf, fun d h1 h2 h3 => ?_, rfl⟩
  rw [count_counters]
  apply Counters.get_put_other
  rcases h with h | h | h <;> subst h <;> assumption

theorem mark_mild {f : Entry → Entry} (hf : ∀ e, (f e).host = e.host) (is : List Nat) (p : Part) :
    Mild p (mark is f p) := Mild.of_eq rfl (markEntries_hosts hf is _)

theorem discardParts_mild (r : Discard) (is : List Nat) (p : Part) : Mild p (discardParts r is p) :=
  (((mark_mild (f := Entry.discard r) (fun _ => rfl) is p).trans
    (count_mild _ _ (.inl rfl))).trans (raise_mild _ _)).trans (raiseIf_mild _ _ _)

theorem discardFrames_mild (r : Discard) (fs : List Frame) (p : Part) :
    Mild p (discardFrames r fs p) := by
  unfold discardFrames
  induction fs generalizing p with
  | nil => exact Mild.refl p
  | cons f fs ih => exact (discardParts_mild r f.parts p).trans (ih _)

theorem discardQueue_mild (r : Discard) (c : ServiceClass) (p : Part) :
    Mild p (discardQueue r c p) :=
  Mild.after (discardFrames_mild r _ _) (Mild.of_eq rfl rfl)

theorem discardQueues_mild (r : Discard) (cs : List ServiceClass) (p : Part) :
    Mild p (discardQueues r cs p) := by
  unfold discardQueues
  induction cs generalizing p with
  | nil => exact Mild.refl p
  | cons c cs ih => exact (discardQueue_mild r c p).trans (ih _)

theorem discardFrames_radio (r : Discard) (fs : List Frame) (p : Part) :
    (discardFrames r fs p).radio = p.radio := by
  unfold discardFrames
  induction fs generalizing p with
  | nil => rfl
  | cons f fs ih => exact (ih _).trans (by unfold discardParts; simp)

theorem discardQueues_radio (r : Discard) (cs : List ServiceClass) (p : Part) :
    (discardQueues r cs p).radio = p.radio := by
  unfold discardQueues
  induction cs generalizing p with
  | nil => rfl
  | cons c cs ih => exact (ih _).trans (discardFrames_radio r _ _)

theorem discardFibre_attached (r : Discard) (p : Part) : (discardFibre r p).attached = p.attached := by
  unfold Part.attached discardFibre
  rw [discardQueues_radio]

theorem discardFibre_mild (r : Discard) (p : Part) : Mild p (discardFibre r p) :=
  discardQueues_mild r _ p

theorem discardOutstanding_mild (r : Discard) (p : Part) : Mild p (discardOutstanding r p) :=
  Mild.after (discardFrames_mild r _ _) (Mild.of_eq rfl rfl)

theorem SettleFrame.mild {p q : Part} (h : SettleFrame p q)
    (hf : ∀ f, p.flag f = true → q.flag f = true) : Mild p q :=
  ⟨hf, fun _ _ _ _ => by rw [h.counters], by rw [h.uplink]⟩

theorem endDetach_mild (r : Byte) (p : Part) : Mild p (endDetach r p) :=
  Mild.ite (finish_mild _ _ p) (Mild.refl p)

theorem endAttach_mild (r b : Byte) (p : Part) : Mild p (endAttach r b p) :=
  Mild.ite (finish_mild _ _ p) (Mild.refl p)

theorem returnEnds_mild (p : Part) : Mild p (returnEnds p) :=
  Mild.ite (Mild.after (count_mild _ _ (.inr (.inl rfl))) (Mild.of_eq rfl rfl)) (Mild.refl p)

theorem returnDrained_mild (p : Part) : Mild p (returnDrained p) :=
  Mild.ite (Mild.refl p) (Mild.after (returnEnds_mild _) (Mild.of_eq rfl rfl))

theorem reviewDemand_events (p : Part) : (reviewDemand p).events = p.events := by
  unfold reviewDemand demandActs
  dsimp only
  (repeat' split) <;> rfl

theorem settle_mild (p : Part) : Mild p (settle p) := by
  have h1 : Mild p (reviewForced p) :=
    Mild.ite (Mild.after (endDetach_mild _ _) (Mild.of_eq rfl rfl)) (Mild.refl p)
  have h2 : Mild (reviewForced p) (reviewDemand (reviewForced p)) :=
    Mild.of_eq (reviewDemand_events _) (by rw [(reviewDemand_settle _).uplink])
  exact (h1.trans h2).trans (Mild.of_eq rfl rfl)

theorem startDataUp_mild (f : Frame) (p : Part) : Mild p (startDataUp f p) :=
  Mild.of_eq rfl
    (markEntries_hosts (f := fun e => { e.move .sending with carriage := p.relay.nextSeq.get f.cls })
      (fun _ => rfl) _ _)

theorem trySend_mild (p : Part) : Mild p (trySend p) := by
  unfold trySend
  split
  · exact Mild.ite (startDataUp_mild _ p) (Mild.refl p)
  · exact Mild.refl p

theorem reviewDetach_mild (p : Part) : Mild p (reviewDetach p) :=
  Mild.ite (Mild.refl p) (endDetach_mild _ p)

theorem noteChanges_mild (b p : Part) : Mild p (noteChanges b p) :=
  (raiseIf_mild _ _ p).trans (raiseIf_mild _ _ _)

theorem dwellEnds_mild (p : Part) : Mild p (dwellEnds p) :=
  Mild.ite (Mild.after (count_mild _ _ (.inr (.inr rfl))) (Mild.of_eq rfl rfl)) (Mild.of_eq rfl rfl)

theorem enterSuspect_mild (p : Part) : Mild p (enterSuspect p) :=
  Mild.ite (Mild.after (dwellEnds_mild _) (Mild.of_eq rfl rfl)) (Mild.of_eq rfl rfl)

theorem enterFibre_mild (r : Discard) (p : Part) : Mild p (enterFibre r p) := by
  unfold enterFibre
  have h1 : Mild p (discardFibre r
      { p with path :=
          { p.path.idle with
            service := .fibre, classes := PerClass.ofFn fun _ => ClassPath.fibre } }) :=
    Mild.after (discardFibre_mild r _) (Mild.of_eq rfl rfl)
  exact Mild.ite (h1.trans (enterSuspect_mild _)) h1

theorem enterReturning_mild (p : Part) : Mild p (enterReturning p) := by
  unfold enterReturning
  exact Mild.after (discardFibre_mild _ _) (Mild.of_eq rfl rfl)

theorem pathDetached_mild (p : Part) : Mild p (pathDetached p) := by
  unfold pathDetached
  split
  · exact Mild.of_eq rfl rfl
  · exact enterFibre_mild _ p
  · exact enterFibre_mild _ p
  · exact Mild.of_eq rfl rfl
  · exact Mild.after (discardFibre_mild _ _) (Mild.of_eq rfl rfl)
  · exact Mild.refl p

theorem pathAttached_mild (p : Part) : Mild p (pathAttached p) := by
  unfold pathAttached
  split
  · exact Mild.ite (Mild.of_eq rfl rfl) (Mild.refl p)
  · exact Mild.of_eq rfl rfl
  · exact Mild.refl p

theorem pathShed_mild (was : PerClass Bool) (p : Part) : Mild p (pathShed was p) := by
  unfold pathShed
  dsimp only
  split
  · exact Mild.of_eq rfl rfl
  · exact Mild.of_eq rfl rfl
  · exact Mild.ite (Mild.of_eq rfl rfl) (Mild.refl p)
  · exact Mild.ite (Mild.refl p)
      (Mild.after (returnEnds_mild _) (Mild.after (discardFibre_mild _ _) (Mild.of_eq rfl rfl)))
  · exact Mild.ite (Mild.refl p) (Mild.after (discardFibre_mild _ _) (Mild.of_eq rfl rfl))
  · exact Mild.refl p

theorem takeForce_mild (was : Force) (p : Part) : Mild p (takeForce was p) := by
  unfold takeForce enterForcedFibre leaveForced
  refine Mild.ite (Mild.refl p) ?_
  split
  · exact Mild.of_eq rfl rfl
  · exact Mild.after (discardFibre_mild _ _) (Mild.of_eq rfl rfl)
  · split
    · exact Mild.ite (Mild.ite (Mild.of_eq rfl rfl) (Mild.of_eq rfl rfl))
        (Mild.ite (enterReturning_mild p) (enterFibre_mild _ p))
    · exact enterFibre_mild _ p

theorem startDetachReq_mild (p : Part) : Mild p (startDetachReq p) := by
  unfold startDetachReq moduleTo
  simp only [Module.restarts, reduceCtorEq, or_self, decide_true, Bool.not_true, Bool.and_false,
    Bool.false_eq_true, if_false]
  refine Mild.ite ?_ (Mild.of_eq rfl rfl)
  exact Mild.after (pathDetached_mild _) (Mild.of_eq rfl rfl)

theorem takeLane_mild (p : Part) : Mild p (takeLane p) := by
  unfold takeLane
  refine Mild.ite (Mild.refl p) ?_
  split
  · exact Mild.ite (Mild.of_eq rfl rfl) (Mild.refl p)
  · exact Mild.ite ((startDetachReq_mild p).trans (settle_mild _)) (Mild.refl p)
  · exact trySend_mild p

/-- The end of an event lowers no flag, moves no counter but the path controller's and FRAMES_DISCARDED, and changes no
host-side copy. -/
theorem closeEvent_mild (b p : Part) : Mild p (closeEvent b p) :=
  ((((returnDrained_mild p).trans (settle_mild _)).trans (takeLane_mild _)).trans
    (reviewDetach_mild _)).trans (noteChanges_mild b _)

/-! ### A request to detach at the end of an event -/

/-- With the service state RADIO, PROVING or FORCED_RADIO no detach request is pending on an ATTACHED
module once the event has settled (R113, R132). -/
theorem settle_noDetach {p : Part}
    (hs : p.path.service = .radio ∨ p.path.service = .proving ∨ p.path.service = .forcedRadio)
    (ha : (settle p).attached = true) (b : Bool) : (settle p).radio.control ≠ some (.detachReq b) := by
  have hc : (settle p).radio.control = (reviewDemand (reviewForced p)).radio.control := rfl
  rw [(settle_settle p).attached] at ha
  have h1 : (reviewForced p).radio.control ≠ some (.detachReq true) := by
    unfold reviewForced
    split
    · simp
    · rename_i hn; intro h; exact hn ⟨h, hs⟩
  have h2 : (reviewForced p).path = p.path := (reviewForced_settle p).path
  have h3 : (reviewForced p).attached = true := by rw [(reviewForced_settle p).attached]; exact ha
  generalize reviewForced p = q at *
  rw [hc]
  have hw : q.wants = true := by
    unfold Part.wants
    rw [h2]
    rcases hs with h | h | h <;> simp [h]
  have hd : demandAfter q = { q.radio with demand := true, linger := none } := by
    unfold demandAfter; simp [hw]
  have hst : q.radio.state = .attached := by simpa [Part.attached] using h3
  unfold reviewDemand demandActs
  rw [hd]
  simp only [withRadio_radio, if_true, hst]
  split
  · simp
  · rename_i hne
    simp only [withRadio_radio] at hne ⊢
    cases b
    · exact hne
    · exact h1

/-- The lane takes no detach request in RADIO, PROVING and FORCED_RADIO. -/
theorem takeLane_settled_path {p : Part} (h1 : p.path.service ≠ .returning)
    (h2 : p.path.service ≠ .forcedFibre) : (takeLane (settle p)).path = p.path := by
  have hp := (settle_settle p).path
  unfold takeLane
  split
  · exact hp
  · split
    · split <;> exact hp
    · rename_i b hc
      split
      · rename_i ha
        by_cases hs : p.path.service = .radio ∨ p.path.service = .proving ∨
            p.path.service = .forcedRadio
        · exact absurd hc (settle_noDetach hs ha b)
        · have hq : ((settle p).path.service = .fibre ∨ (settle p).path.service = .suspect ∨
              (settle p).path.service = .stranded) := by
            rw [hp]; revert hs h1 h2; cases p.path.service <;> simp
          rw [(settle_settle _).path]
          generalize settle p = q at *
          rw [← hp]
          unfold startDetachReq moduleTo
          simp only [Module.restarts]
          have e : ∀ r : Part, r.path = q.path → (leftAttached r).path = q.path := by
            intro r hr
            unfold leftAttached pathDetached
            dsimp only
            rw [hr]
            rcases hq with h | h | h <;> simp [h]
          have ha' : (Part.withRadio q { q.radio with
              lane := some
                { bytes := message Type.detachReq q.radio.linkSeq [], owes := .nothing,
                  ends := transferEnds q.clock.now (message Type.detachReq q.radio.linkSeq []) }
              linkSeq := q.radio.linkSeq + 1, control := none }).attached = true := ha
          simp only [ha', decide_true, Bool.not_true, Bool.and_false, Bool.false_eq_true, if_false,
            if_true, reduceCtorEq, or_self]
          exact e _ rfl
      · exact hp
    · unfold trySend
      split
      · split
        · exact hp
        · exact hp
      · exact hp

/-- The end of an event leaves the path controller as it is where no class drains and the service state
is neither RETURNING nor FORCED_FIBRE. -/
theorem closeEvent_path {b p : Part} (hd : ∀ c, (p.path.classes.get c).sub ≠ .draining)
    (h1 : p.path.service ≠ .returning) (h2 : p.path.service ≠ .forcedFibre) :
    (closeEvent b p).path = p.path := by
  have hn := (noteChanges_settle b (reviewDetach (takeLane (settle (returnDrained p))))).path
  have hv := (reviewDetach_settle (takeLane (settle (returnDrained p)))).path
  unfold closeEvent
  rw [hn, hv, returnDrained_none hd]
  exact takeLane_settled_path h1 h2

/-- With no forced request pending and the service state not FIBRE, demand leaves no request to detach. -/
theorem settle_noRequest {p : Part} (hs : p.path.service ≠ .fibre)
    (hn : p.radio.control ≠ some (.detachReq true)) (ha : (settle p).attached = true) (b : Bool) :
    (settle p).radio.control ≠ some (.detachReq b) := by
  have hc : (settle p).radio.control = (reviewDemand (reviewForced p)).radio.control := rfl
  rw [(settle_settle p).attached] at ha
  have hr : reviewForced p = p := by
    unfold reviewForced
    rw [if_neg (fun h => hn h.1)]
  rw [hc, hr]
  have hw : p.wants = true := by
    unfold Part.wants
    simp [hs]
  have hd : demandAfter p = { p.radio with demand := true, linger := none } := by
    unfold demandAfter; simp [hw]
  have hst : p.radio.state = .attached := by simpa [Part.attached] using ha
  unfold reviewDemand demandActs
  rw [hd]
  simp only [withRadio_radio, if_true, hst]
  split
  · simp
  · rename_i hne
    simp only [withRadio_radio] at hne ⊢
    cases b
    · exact hne
    · exact hn

/-- The lane moves the path controller only by a forced request, or in a service state of `takeLane_settled_path`
that it leaves alone. -/
theorem takeLane_stays_path {p : Part} (h : p.Stays) : (takeLane (settle p)).path = p.path := by
  have hp := (settle_settle p).path
  by_cases h1 : p.path.service ≠ .returning ∧ p.path.service ≠ .forcedFibre
  · exact takeLane_settled_path h1.1 h1.2
  · have hf : p.path.service ≠ .fibre := by
      intro hf; apply h1; rw [hf]; exact ⟨by simp, by simp⟩
    unfold takeLane
    split
    · exact hp
    · rename_i hl
      have hn : p.radio.control ≠ some (.detachReq true) := by
        rcases h with h | h
        · exact h
        · rw [(settle_settle p).lane, h] at hl; exact absurd rfl hl
      split
      · split <;> exact hp
      · rename_i b hc
        split
        · rename_i ha
          exact absurd hc (settle_noRequest hf hn ha b)
        · exact hp
      · unfold trySend
        split
        · split
          · exact hp
          · exact hp
        · exact hp

/-- The end of an event does to the path controller what R91 asks, and nothing else, where no forced request
can start. -/
theorem closeEvent_path_stays {b p : Part} (h : p.Stays) :
    (closeEvent b p).path = (returnDrained p).path := by
  have hn := (noteChanges_settle b (reviewDetach (takeLane (settle (returnDrained p))))).path
  have hv := (reviewDetach_settle (takeLane (settle (returnDrained p)))).path
  have hr : (returnDrained p).radio = p.radio := by
    unfold returnDrained returnEnds
    split
    · rfl
    · split <;> rfl
  unfold closeEvent
  rw [hn, hv]
  apply takeLane_stays_path
  unfold Part.Stays at *
  rw [hr]
  exact h

/-! ### The command unit and the module at the end of an event -/

theorem endDetach_command {r : Byte} {p : Part} (h : p.command.running ≠ some .radioDetach) :
    endDetach r p = p := if_neg h

theorem returnDrained_command (p : Part) :
    (returnDrained p).command = p.command ∧ (returnDrained p).radio = p.radio := by
  unfold returnDrained returnEnds
  split
  · exact ⟨rfl, rfl⟩
  · split <;> exact ⟨rfl, rfl⟩

theorem reviewDemand_command (p : Part) : (reviewDemand p).command = p.command := by
  unfold reviewDemand demandActs
  dsimp only
  (repeat' split) <;> rfl

theorem settle_command {p : Part} (h : p.command.running ≠ some .radioDetach) :
    (settle p).command = p.command := by
  change (reviewDemand (reviewForced p)).command = _
  rw [reviewDemand_command]
  unfold reviewForced
  split
  · rw [endDetach_command (by simpa using h)]; rfl
  · rfl

theorem discardFrames_command (r : Discard) (fs : List Frame) (p : Part) :
    (discardFrames r fs p).command = p.command := by
  unfold discardFrames
  induction fs generalizing p with
  | nil => rfl
  | cons f fs ih => exact (ih _).trans (by unfold discardParts; simp)

theorem discardQueues_command (r : Discard) (cs : List ServiceClass) (p : Part) :
    (discardQueues r cs p).command = p.command := by
  unfold discardQueues
  induction cs generalizing p with
  | nil => rfl
  | cons c cs ih => exact (ih _).trans (discardFrames_command r _ _)

theorem enterFibre_command (r : Discard) (p : Part) : (enterFibre r p).command = p.command := by
  have h : ∀ q : Part, (enterSuspect q).command = q.command := by
    intro q
    have hd : ∀ q : Part, (dwellEnds q).command = q.command := by
      intro q; unfold dwellEnds; split <;> rfl
    unfold enterSuspect
    dsimp only
    rw [apply_ite Part.command, hd]
    exact ite_self _
  unfold enterFibre
  dsimp only
  split
  · exact (h _).trans (discardQueues_command _ _ _)
  · exact discardQueues_command _ _ _

theorem pathDetached_command (p : Part) : (pathDetached p).command = p.command := by
  unfold pathDetached
  split
  · rfl
  · exact enterFibre_command _ p
  · exact enterFibre_command _ p
  · rfl
  · exact discardQueues_command _ _ _
  · rfl

theorem startDetachReq_command (p : Part) : (startDetachReq p).command = p.command := by
  unfold startDetachReq moduleTo
  simp only [Module.restarts, reduceCtorEq, or_self, decide_true, Bool.not_true, Bool.and_false,
    Bool.false_eq_true, if_false]
  split
  · exact pathDetached_command _
  · rfl

/-- The end of an event ends no command but a RADIO_DETACH. -/
theorem closeEvent_command {b p : Part} (h : p.command.running ≠ some .radioDetach) :
    (closeEvent b p).command = p.command := by
  have h1 : (returnDrained p).command = p.command := (returnDrained_command p).1
  have h2 : (settle (returnDrained p)).command = p.command :=
    (settle_command (by rw [h1]; exact h)).trans h1
  have h3 : (takeLane (settle (returnDrained p))).command = p.command := by
    unfold takeLane
    split
    · exact h2
    · split
      · split <;> exact h2
      · split
        · have e := startDetachReq_command (settle (returnDrained p))
          exact (settle_command (by rw [e, h2]; exact h)).trans (e.trans h2)
        · exact h2
      · unfold trySend
        split
        · split <;> exact h2
        · exact h2
  have h4 : (reviewDetach (takeLane (settle (returnDrained p)))).command = p.command := by
    unfold reviewDetach
    split
    · exact h3
    · rw [endDetach_command (by rw [h3]; exact h)]; exact h3
  unfold closeEvent noteChanges
  simpa using h4

/-- The lane takes nothing while the module is neither ATTACHED nor ATTACHING. -/
theorem takeLane_none {p : Part} (ha : p.attached = false) (hn : p.radio.state ≠ .attaching) :
    takeLane p = p := by
  unfold takeLane
  split
  · rfl
  · split
    · rfl
    · simp [ha]
    · unfold trySend
      split
      · simp [Part.maySend, ha]
      · rfl

/-- In a module state that demand does not act on and the lane does not serve, the end of an event changes
of the radio link controller only demand, its linger timer and the pending control message. -/
theorem closeEvent_module {b p : Part} (h1 : p.radio.state ≠ .idle) (h2 : p.radio.state ≠ .attaching)
    (h3 : p.radio.state ≠ .attached) :
    (closeEvent b p).radio =
      { p.radio with
        demand := (closeEvent b p).radio.demand, linger := (closeEvent b p).radio.linger,
        control := (closeEvent b p).radio.control } := by
  have key : ∃ d l c, (settle (returnDrained p)).radio =
      { p.radio with demand := d, linger := l, control := c } := by
    change ∃ d l c, (reviewDemand (reviewForced (returnDrained p))).radio = _
    have hf : ∃ c, (reviewForced (returnDrained p)).radio = { p.radio with control := c } := by
      unfold reviewForced
      split
      · exact ⟨none, by rw [endDetach_radio, (returnDrained_command p).2]; rfl⟩
      · exact ⟨p.radio.control, (returnDrained_command p).2⟩
    obtain ⟨c, hc⟩ := hf
    generalize reviewForced (returnDrained p) = q at hc
    have hd : ∃ d l, demandAfter q = { q.radio with demand := d, linger := l } := by
      unfold demandAfter
      dsimp only
      (repeat' split) <;> exact ⟨_, _, rfl⟩
    obtain ⟨d, l, hd⟩ := hd
    refine ⟨d, l, c, ?_⟩
    unfold reviewDemand demandActs
    rw [hd, hc]
    simp only [withRadio_radio]
    revert h1 h2 h3
    cases p.radio.state <;> simp
  obtain ⟨d, l, c, hk⟩ := key
  have hl : takeLane (settle (returnDrained p)) = settle (returnDrained p) :=
    takeLane_none (by unfold Part.attached; rw [hk]; simpa using h3) (by rw [hk]; exact h2)
  have hq : (closeEvent b p).radio = (settle (returnDrained p)).radio := by
    unfold closeEvent noteChanges reviewDetach
    rw [hl]
    simp only [raiseIf_radio]
    split
    · rfl
    · exact endDetach_radio _ _
  rw [hq, hk]

end Sys2Proof.Machine
end

