-- ==== Sys2Proof/Laws/Coding.lean ====
section
/-! SUPPORT. The messages of the radio module link: the bits on the line, and reading a message back (R119 to R121). -/

namespace Sys2Proof.Machine

/-! ### Bits on the line (R119) -/

@[simp] theorem byteOnLine_length (b : Byte) : (byteOnLine b).length = 10 := rfl

/-- The bits of a run of bytes: ten to a byte, in order. -/
theorem bytesOnLine_length (bs : List Byte) : (bs.flatMap byteOnLine).length = 10 * bs.length := by
  induction bs with
  | nil => rfl
  | cons b bs ih => simp only [List.flatMap_cons, List.length_append, ih, byteOnLine_length, List.length_cons]; omega

/-- Bit `k` of byte `i` of a run of bytes. -/
theorem bytesOnLine_bit {bs : List Byte} {i k : Nat} {b : Byte} (hi : bs[i]? = some b) (hk : k < 10) :
    (bs.flatMap byteOnLine)[10 * i + k]? = (byteOnLine b)[k]? := by
  induction bs generalizing i with
  | nil => simp at hi
  | cons c bs ih =>
    rw [List.flatMap_cons]
    cases i with
    | zero =>
      obtain rfl : c = b := by simpa using hi
      rw [Nat.mul_zero, Nat.zero_add, List.getElem?_append_left (by simpa using hk)]
    | succ i =>
      rw [List.getElem?_append_right (by simp only [byteOnLine_length]; omega), byteOnLine_length,
        show 10 * (i + 1) + k - 10 = 10 * i + k by omega]
      exact ih (by simpa using hi)

/-- The line of a message: its bytes' bits, and then the gap. -/
theorem messageOnLine_length (bs : List Byte) : (messageOnLine bs).length = 10 * bs.length + gapBits := by
  unfold messageOnLine
  rw [List.length_append, bytesOnLine_length, List.length_replicate]

/-- A transfer lasts as long as the bits it puts on the line. -/
theorem transferNanoseconds_line (bs : List Byte) :
    transferNanoseconds bs = bitNanoseconds * (messageOnLine bs).length := by
  rw [messageOnLine_length, transferNanoseconds, Nat.mul_comm]

/-! ### Reading back -/

theorem beBytes_two (v : Nat) : beBytes 2 v = [BitVec.ofNat 8 (v / 256), BitVec.ofNat 8 v] := rfl

theorem field_two (bs : List Byte) (i : Nat) : field bs i 2 = (bs.getD (i + 1) 0).toNat + 256 * (bs.getD i 0).toNat := by
  unfold field beNat slice
  simp [List.range_succ, leNat]

theorem field_four (bs : List Byte) (i : Nat) : field bs i 4 = (bs.getD (i + 3) 0).toNat + 256 * ((bs.getD (i + 2) 0).toNat + 256 * ((bs.getD (i + 1) 0).toNat + 256 * (bs.getD i 0).toNat)) := by
  unfold field beNat slice
  simp [List.range_succ, leNat]

theorem readPayload_some (type : Byte) (link : BitVec 16) (pl : List Byte) :
    (readPayload type link pl).isSome = true ↔ Fits type pl := by
  unfold readPayload Fits
  split
  case h_10 h1 h2 h3 h4 h5 h6 h7 h8 h9 =>
    have e : ∀ n : Nat, n < 256 → (type = BitVec.ofNat 8 n ↔ type.toNat = n) := by
      intro n hn
      rw [← BitVec.toNat_inj, BitVec.toNat_ofNat, Nat.mod_eq_of_lt hn]
    simp only [Option.isSome_none, Bool.false_eq_true, false_iff]
    have f := fun n hn => (e n hn).mp
    rintro (⟨h, _⟩ | ⟨h, _⟩ | ⟨h | h | h | h, _⟩ | ⟨h, _⟩ | ⟨h, _⟩ | ⟨h, _⟩) <;> subst h <;> simp_all
  all_goals
    rename_i h
    have hty : type = BitVec.ofNat 8 type.toNat := by simp
    rw [h] at hty
    subst hty
    simp
    try (split <;> simp_all)

theorem checkMessage_some (m : RawMessage) : Passes m ↔ (checkMessage m).isSome = true := by
  constructor
  · intro h
    unfold checkMessage
    dsimp only
    rw [if_neg (by rw [h.stops]; simp), if_neg, if_neg (by simpa using h.check)]
    · exact (readPayload_some _ _ _).mpr h.payload
    · have := h.long; have := h.length; unfold longestMessage; omega
  · intro h
    unfold checkMessage at h
    dsimp only at h
    split at h
    · simp at h
    · rename_i h1
      split at h
      · simp at h
      · rename_i h2
        split at h
        · simp at h
        · rename_i h3
          unfold longestMessage at h2
          exact ⟨by simpa using h1, by omega, by omega, by simpa using h3, (readPayload_some _ _ _).mp h⟩

theorem readPayload_down {type : Byte} {link : BitVec 16} {pl : List Byte} {h : Carriage} {f : List Byte}
    (hm : readPayload type link pl = some (.dataDown h f)) : f = pl.drop 12 := by
  unfold readPayload at hm
  split at hm
  all_goals try (split at hm)
  all_goals simp_all

theorem checkMessage_short {m : RawMessage} {h : Carriage} {f : List Byte} (hm : checkMessage m = some (.dataDown h f)) : f.length ≤ 1536 := by
  have hp := (checkMessage_some m).mpr (by rw [hm]; rfl)
  unfold checkMessage at hm
  dsimp only at hm
  split at hm
  · simp at hm
  · split at hm
    · simp at hm
    · split at hm
      · simp at hm
      · rw [readPayload_down hm]
        simp only [List.length_drop, List.length_take]
        have := hp.long
        omega

theorem checkMessage_message (type : Byte) (link : BitVec 16) (pl : List Byte) (hl : pl.length ≤ 1548) :
    checkMessage { bytes := message type link pl, stopBits := true } = readPayload type link pl := by
  obtain ⟨body, hb⟩ : ∃ body, body = [type, 0] ++ beBytes 2 pl.length ++ beBytes 2 link.toNat ++ [0, 0] ++ pl := ⟨_, rfl⟩
  have hm : message type link pl = body ++ beBytes 2 (crc16 body).toNat := by rw [hb]; rfl
  have hbl : body.length = 8 + pl.length := by rw [hb]; simp [beBytes_two]; omega
  have hml : (message type link pl).length = 10 + pl.length := by rw [hm]; simp [beBytes_two, hbl]; omega
  have htake : (message type link pl).take ((message type link pl).length - 2) = body := by
    rw [hml, hm, List.take_left']; omega
  have h2 : ∀ v, v < 65536 → (BitVec.ofNat 8 v).toNat + 256 * (BitVec.ofNat 8 (v / 256)).toNat = v := by
    intro v hv; simp only [BitVec.toNat_ofNat]; omega
  have hlen : field (message type link pl) 2 2 = pl.length := by
    rw [field_two, hm, hb]; simp [beBytes_two]
    have := h2 pl.length (by omega)
    simpa using this
  have hlink : field (message type link pl) 4 2 = link.toNat := by
    rw [field_two, hm, hb]; simp [beBytes_two]
    have := h2 link.toNat link.isLt
    simpa using this
  have hcrc : field (message type link pl) ((message type link pl).length - 2) 2 = (crc16 body).toNat := by
    have e : (message type link pl).length - 2 = body.length := by rw [hml, hbl]; omega
    rw [field_two, e, hm]
    have := h2 (crc16 body).toNat (crc16 body).isLt
    simpa [beBytes_two, List.getD_eq_getElem?_getD] using this
  unfold checkMessage
  dsimp only
  rw [if_neg (by simp), if_neg (by rw [hlen, hml]; unfold longestMessage; omega), if_neg (by rw [hcrc, htake]; simp), htake, hlink]
  have e1 : (message type link pl).getD 0 0 = type := by rw [hm, hb]; rfl
  have e2 : body.drop 8 = pl := by rw [hb]; rfl
  rw [e1, e2]; simp

end Sys2Proof.Machine
end

