-- ==== Sys2Proof/Laws/Health.lean ====
section
/-! SUPPORT. What a change of the live conditions does to the health unit, the handed verdict and the
flags (R64 to R70): one lemma for each operation. -/

namespace Sys2Proof.Machine

theorem takeVerdict_frame (b c : Bool) (p : Part) : EventFrame p (takeVerdict b c p) := by
  have upd : ∀ (f : Path → Path), (∀ q : Path, f q = { q with
      service := (f q).service, classes := (f q).classes, dwell := (f q).dwell, prove := (f q).prove,
      strandedProve := (f q).strandedProve, quiet := (f q).quiet, stick := (f q).stick }) →
      EventFrame p { p with path := f p.path } := fun f h =>
    ⟨rfl, rfl, rfl, rfl, rfl, rfl, rfl, h _, rfl, rfl, rfl, rfl⟩
  unfold takeVerdict
  split
  · exact EventFrame.ite (enterSuspect_frame p) (EventFrame.refl p)
  · exact EventFrame.ite
      (EventFrame.ite
        (upd (fun q => { q with dwell := q.dwell.map fun d => min d (p.clock.now + p.path.settings.losDwell) })
          fun _ => rfl) (EventFrame.refl p))
      (upd (fun q => { q with service := .fibre, dwell := none }) fun _ => rfl)
  · exact EventFrame.ite (EventFrame.refl p)
      (upd (fun q => { q with service := .proving, prove := p.after (p.path.settings.prove * 1000) })
        fun _ => rfl)
  · exact EventFrame.ite (upd (fun q => { q with service := .radio, prove := none }) fun _ => rfl)
      (EventFrame.refl p)
  · refine EventFrame.ite (EventFrame.ite (EventFrame.refl p)
      (EventFrame.ite (enterRadioSide_frame _ p) (upd (fun q => { q with strandedProve := none })
        fun _ => rfl))) ?_
    exact EventFrame.ite
      (upd (fun q => { q with strandedProve := p.after (p.path.settings.strandedProve * 1000) })
        fun _ => rfl) (EventFrame.refl p)
  · exact EventFrame.ite (enterRadioSide_frame _ p) (EventFrame.refl p)
  · exact EventFrame.refl p
  · exact EventFrame.refl p

/-- The health unit after an evaluation (R68, R69). -/
theorem evaluate_health (p : Part) :
    (evaluate p).health =
      { p.health with
        verdict := if p.health.hold then p.health.verdict else (verdictOf p.health.live).1
        causes := if p.health.hold then p.health.causes else (verdictOf p.health.live).2 } := by
  unfold evaluate
  dsimp only
  split
  · rename_i h
    rcases h with h | ⟨h1, h2⟩
    · rw [if_pos h, if_pos h]
    · rw [h1, h2, ite_self, ite_self]
  · rename_i h
    rw [(takeVerdict_frame _ _ _).health]
    have hh : p.health.hold = false := by
      cases e : p.health.hold
      · rfl
      · exact absurd (Or.inl e) h
    simp [hh]

/-- The health unit after the live conditions change (R64 to R69). -/
theorem conditionsTo_health (live : Conditions) (p : Part) :
    (conditionsTo live p).health = p.health.after live := by
  unfold conditionsTo
  rw [evaluate_health]
  simp [setLive, Health.after]

/-- An event that changes nothing of the live conditions leaves the health unit as it is, which is what a
new evaluation would leave when the verdict stands evaluated. -/
theorem conditionsChange_health (live : Conditions) (p : Part) :
    (conditionsChange live p).health = if live = p.health.live then p.health else p.health.after live := by
  unfold conditionsChange
  split
  · rfl
  · exact conditionsTo_health live p

/-- Outside the health unit an evaluation changes the verdict and causes as handed, and what the end of
an event may (R70, R75). -/
theorem evaluate_frame (p : Part) :
    EventFrame
      { p with
        health := (evaluate p).health
        path := { p.path with
          verdict := (evaluate p).path.verdict, causes := (evaluate p).path.causes } }
      (evaluate p) := by
  unfold evaluate
  dsimp only
  split
  · exact EventFrame.refl p
  · generalize hx : ({ raiseIf ((verdictOf p.health.live).1 != p.health.verdict) .verdictChanged
        (p.withHealth { p.health with
          verdict := (verdictOf p.health.live).1, causes := (verdictOf p.health.live).2 }) with
        path := { (raiseIf ((verdictOf p.health.live).1 != p.health.verdict) .verdictChanged
          (p.withHealth { p.health with
            verdict := (verdictOf p.health.live).1,
            causes := (verdictOf p.health.live).2 })).path with
          verdict := (verdictOf p.health.live).1, causes := (verdictOf p.health.live).2 } } : Part) = x
    have h := takeVerdict_frame p.isBad (p.path.causes.has .los) x
    generalize takeVerdict p.isBad (p.path.causes.has .los) x = r at *
    have hv : r.path.verdict = (verdictOf p.health.live).1 ∧
        r.path.causes = (verdictOf p.health.live).2 := by
      rw [h.path, ← hx]; exact ⟨rfl, rfl⟩
    have hxp : x.path = { p.path with
        verdict := (verdictOf p.health.live).1, causes := (verdictOf p.health.live).2 } := by
      rw [← hx]; simp
    refine ⟨?_, ?_, ?_, rfl, ?_, ?_, ?_, ?_, ?_, ?_, ?_, ?_⟩
    · rw [h.clock, ← hx]; simp
    · rw [h.channel, ← hx]; simp
    · rw [h.windows, ← hx]; simp
    · rw [h.delivery, ← hx]; simp
    · rw [h.command, ← hx]; simp
    · rw [h.optical, ← hx]; simp
    · rw [h.path, hxp]
    · rw [h.radio, ← hx]; simp
    · rw [h.relay, ← hx]; simp
    · rw [h.uplink, ← hx]; simp
    · rw [h.events, ← hx]; simp

theorem conditionsTo_frame (live : Conditions) (p : Part) :
    EventFrame
      { p with
        health := (conditionsTo live p).health
        path := { p.path with
          verdict := (conditionsTo live p).path.verdict,
          causes := (conditionsTo live p).path.causes } }
      (conditionsTo live p) := by
  have h := evaluate_frame (setLive live p)
  change EventFrame
      { p with
        health := (evaluate (setLive live p)).health
        path := { p.path with
          verdict := (evaluate (setLive live p)).path.verdict,
          causes := (evaluate (setLive live p)).path.causes } }
      (evaluate (setLive live p))
  generalize evaluate (setLive live p) = r at *
  have hs : (setLive live p) =
      { p with
        health := (setLive live p).health
        events := { p.events with flags := (setLive live p).events.flags } } := by
    unfold setLive raiseIf
    dsimp only
    split <;> rfl
  rw [hs] at h
  exact ⟨h.clock, h.channel, h.windows, rfl, h.delivery, h.command, h.optical, h.path, h.radio, h.relay,
    h.uplink, h.events⟩

theorem takeVerdict_mild (b c : Bool) (p : Part) : Mild p (takeVerdict b c p) := by
  unfold takeVerdict
  split
  · exact Mild.ite (enterSuspect_mild p) (Mild.refl p)
  · exact Mild.ite (Mild.ite (Mild.of_eq rfl rfl) (Mild.refl p)) (Mild.of_eq rfl rfl)
  · exact Mild.ite (Mild.refl p) (Mild.of_eq rfl rfl)
  · exact Mild.ite (Mild.of_eq rfl rfl) (Mild.refl p)
  · exact Mild.ite (Mild.ite (Mild.refl p) (Mild.ite (Mild.of_eq rfl rfl) (Mild.of_eq rfl rfl)))
      (Mild.ite (Mild.of_eq rfl rfl) (Mild.refl p))
  · exact Mild.ite (Mild.of_eq rfl rfl) (Mild.refl p)
  · exact Mild.refl p
  · exact Mild.refl p

theorem evaluate_mild (p : Part) : Mild p (evaluate p) := by
  unfold evaluate
  refine Mild.ite (Mild.refl p) (Mild.after (takeVerdict_mild _ _ _) ?_)
  have h : Mild p (p.withHealth { p.health with
      verdict := (verdictOf p.health.live).1, causes := (verdictOf p.health.live).2 }) :=
    Mild.of_eq rfl rfl
  have h2 := h.trans (raiseIf_mild ((verdictOf p.health.live).1 != p.health.verdict) .verdictChanged _)
  generalize raiseIf _ .verdictChanged _ = q at *
  exact h2.trans (Mild.of_eq rfl rfl)

theorem conditionsTo_mild (live : Conditions) (p : Part) : Mild p (conditionsTo live p) := by
  refine Mild.after (evaluate_mild _) ?_
  unfold setLive
  exact Mild.after (raiseIf_mild _ _ _) (Mild.of_eq rfl rfl)

theorem conditionsChange_frame (live : Conditions) (p : Part) :
    EventFrame
      { p with
        health := (conditionsChange live p).health
        path := { p.path with
          verdict := (conditionsChange live p).path.verdict,
          causes := (conditionsChange live p).path.causes } }
      (conditionsChange live p) := by
  unfold conditionsChange
  split
  · exact EventFrame.refl p
  · exact conditionsTo_frame live p

theorem conditionsChange_mild (live : Conditions) (p : Part) : Mild p (conditionsChange live p) :=
  Mild.ite (Mild.refl p) (conditionsTo_mild live p)

/-- A handed verdict touches no command in execution. -/
theorem takeVerdict_command (a b : Bool) (p : Part) : (takeVerdict a b p).command = p.command := by
  have hd : ∀ q : Part, (dwellEnds q).command = q.command := by
    intro q; unfold dwellEnds; split <;> rfl
  have hs : ∀ q : Part, (enterSuspect q).command = q.command := by
    intro q
    unfold enterSuspect
    dsimp only
    rw [apply_ite Part.command, hd]
    exact ite_self _
  unfold takeVerdict
  split <;> (repeat' split) <;> first | rfl | exact hs _

theorem conditionsTo_command (l : Conditions) (p : Part) : (conditionsTo l p).command = p.command := by
  have hr : ∀ b f (q : Part), (raiseIf b f q).command = q.command := by
    intro b f q; cases b <;> rfl
  unfold conditionsTo evaluate setLive
  dsimp only
  split
  · rw [hr]; rfl
  · rw [takeVerdict_command]
    simp

end Sys2Proof.Machine
end

