-- ==== Sys2Proof/Laws/Radio.lean ====
section
/-! SUPPORT. What the moves of the module state do: the radio link controller's record, and the frame of
everything else (R107 to R111, R117, R118, R170, R171). -/

namespace Sys2Proof.Machine

/-! ### The path controller leaves the radio link controller alone -/

theorem dwellEnds_radio (p : Part) : (dwellEnds p).radio = p.radio := by
  unfold dwellEnds; split <;> rfl

theorem enterSuspect_radio (p : Part) : (enterSuspect p).radio = p.radio := by
  unfold enterSuspect
  dsimp only
  rw [apply_ite Part.radio, dwellEnds_radio]
  exact ite_self _

theorem enterFibre_radio (r : Discard) (p : Part) : (enterFibre r p).radio = p.radio := by
  unfold enterFibre
  dsimp only
  split
  · exact (enterSuspect_radio _).trans (discardQueues_radio _ _ _)
  · exact discardQueues_radio _ _ _

theorem pathDetached_radio (p : Part) : (pathDetached p).radio = p.radio := by
  unfold pathDetached
  split
  · rfl
  · exact enterFibre_radio _ p
  · exact enterFibre_radio _ p
  · rfl
  · exact discardQueues_radio _ _ _
  · rfl

theorem leftAttached_radio (p : Part) : (leftAttached p).radio = p.radio := pathDetached_radio _

theorem discardOutstanding_radio (r : Discard) (p : Part) :
    (discardOutstanding r p).radio = { p.radio with outstanding := [] } :=
  discardFrames_radio r _ _

theorem radioLoss_radio (p : Part) :
    (radioLoss p).radio = { p.radio with outstanding := [], control := none } := by
  unfold radioLoss
  simp only [withRadio_radio, discardQueues_radio, discardOutstanding_radio]

/-- The radio link controller at entry to ABSENT, RECOVERING or STARTING (R111). -/
theorem enterEffects_radio (new : Module) (p : Part) :
    (enterEffects new p).radio =
      { p.radio.endSeries with
        outstanding := [], control := none, reattempt := none, detach := none, silence := none,
        start := none, recover := none, timeouts := 0
        lane := if new = .starting then p.radio.lane.map Transfer.noAnswer else none } := by
  unfold enterEffects
  dsimp only
  rw [withRadio_radio, discardOutstanding_radio]
  rfl

theorem discardFrames_clock (r : Discard) (fs : List Frame) (p : Part) :
    (discardFrames r fs p).clock = p.clock := (discardFrames_frame r fs p).clock

theorem radioLoss_clock (p : Part) : (radioLoss p).clock = p.clock := (radioLoss_frame p).clock

theorem enterEffects_clock (new : Module) (p : Part) : (enterEffects new p).clock = p.clock :=
  (discardOutstanding_frame _ p).clock

/-- The radio link controller after a move to ABSENT, RECOVERING or STARTING (R107, R110, R111). -/
theorem moduleTo_restarts_radio {new : Module} (h : new.restarts = true) (p : Part) :
    (moduleTo new p).radio =
      Radio.move new p.clock.now
        { p.radio.endSeries with
          outstanding := [], control := none, reattempt := none, detach := none, silence := none,
          start := none, recover := none, timeouts := 0
          lane := if new = .starting then p.radio.lane.map Transfer.noAnswer else none } := by
  have hl : ∀ (c : Bool) (q : Part), (if c then leftAttached q else q).radio = q.radio := by
    intro c q; split
    · exact leftAttached_radio q
    · rfl
  unfold moduleTo
  simp only [h, if_true]
  have he : ∀ (c : Prop) [Decidable c] (q : Part),
      (if c then endAttach Result.failed 5 q else q).radio = q.radio := by
    intro c _ q; split
    · exact endAttach_radio _ _ q
    · rfl
  rw [he, hl, withRadio_radio]
  have hc : ∀ c : Bool, (enterEffects new (if c then radioLoss p else p)).clock = p.clock := by
    intro c
    rw [enterEffects_clock]
    split
    · exact radioLoss_clock p
    · rfl
  rw [hc, enterEffects_radio]
  split
  · rw [radioLoss_radio]
    rfl
  · rfl

/-- The radio link controller after a move to IDLE, which from ATTACHED is a radio loss (R111, R118). -/
theorem moduleTo_idle_radio (p : Part) :
    (moduleTo .idle p).radio =
      if p.attached then { p.radio with state := .idle, outstanding := [], control := none }
      else { p.radio with state := .idle } := by
  unfold moduleTo
  simp only [Module.restarts, reduceCtorEq, or_self, decide_false, Bool.not_false, Bool.and_true,
    Bool.false_eq_true, if_false]
  by_cases ha : p.attached
  · simp only [ha, if_true, leftAttached_radio, withRadio_radio, radioLoss_radio]
    rfl
  · simp only [ha, Bool.false_eq_true, if_false, withRadio_radio]
    rfl

/-- Outside the radio link controller a move of the module changes only what the end of an event may. -/
theorem moduleTo_frame (new : Module) (p : Part) :
    EventFrame { p with radio := (moduleTo new p).radio } (moduleTo new p) := by
  have swap : ∀ {q r : Part}, EventFrame q r → ∀ x, EventFrame { q with radio := x } { r with radio := x } :=
    fun h x => ⟨h.clock, h.channel, h.windows, h.health, h.delivery, h.command, h.optical, h.path, rfl,
      h.relay, h.uplink, h.events⟩
  have setR : ∀ (q : Part) (y x : Radio), EventFrame { q with radio := x } { (q.withRadio y) with radio := x } :=
    fun q y x => EventFrame.refl _
  generalize hx : (moduleTo new p).radio = x
  have e : moduleTo new p = { moduleTo new p with radio := x } := by rw [← hx]
  rw [e]
  clear hx e
  unfold moduleTo
  dsimp only
  have h1 : ∀ c : Bool, EventFrame { p with radio := x } { (if c then radioLoss p else p) with radio := x } := by
    intro c; split
    · exact swap (radioLoss_frame p) x
    · exact EventFrame.refl _
  generalize hp1 : (if (p.attached && !decide (new = Module.detaching)) = true then radioLoss p else p) = p1
  have h1' : EventFrame { p with radio := x } { p1 with radio := x } := by rw [← hp1]; exact h1 _
  have h2 : EventFrame { p with radio := x }
      { (if new.restarts = true then enterEffects new p1 else p1) with radio := x } := by
    refine h1'.trans ?_
    split
    · exact swap (discardOutstanding_frame .radioLost p1) x
    · exact EventFrame.refl _
  generalize (if new.restarts = true then enterEffects new p1 else p1) = p2 at *
  have h4 : EventFrame { p with radio := x }
      { (if p.attached = true then leftAttached (p2.withRadio (p2.radio.move new p2.clock.now))
          else p2.withRadio (p2.radio.move new p2.clock.now)) with radio := x } := by
    refine h2.trans ?_
    split
    · exact swap (q := p2.withRadio (p2.radio.move new p2.clock.now)) (leftAttached_frame _) x
    · exact EventFrame.refl _
  generalize (if p.attached = true then leftAttached (p2.withRadio (p2.radio.move new p2.clock.now))
          else p2.withRadio (p2.radio.move new p2.clock.now)) = p4 at *
  refine h4.trans ?_
  split
  · exact swap (endAttach_frame _ _ _) x
  · exact EventFrame.refl _

theorem leftAttached_mild (p : Part) : Mild p (leftAttached p) :=
  Mild.after (pathDetached_mild _) (Mild.of_eq rfl rfl)

theorem radioLoss_mild (p : Part) : Mild p (radioLoss p) := by
  have h : Mild p (discardQueues .radioLost classes (discardOutstanding .radioLost p)) :=
    (discardOutstanding_mild .radioLost p).trans (discardQueues_mild .radioLost classes _)
  unfold radioLoss
  dsimp only
  generalize discardQueues .radioLost classes (discardOutstanding .radioLost p) = q at *
  exact h.trans (Mild.of_eq rfl rfl)

theorem enterEffects_mild (new : Module) (p : Part) : Mild p (enterEffects new p) := by
  have h := discardOutstanding_mild .radioLost p
  unfold enterEffects
  dsimp only
  generalize discardOutstanding .radioLost p = q at *
  exact h.trans (Mild.of_eq rfl rfl)

theorem move_state (new : Module) (now : Nat) (r : Radio) : (r.move new now).state = new := by
  cases new <;> rfl

/-- A move of the module lowers no flag and moves no counter but the path controller's and
FRAMES_DISCARDED. -/
theorem moduleTo_mild (new : Module) (p : Part) : Mild p (moduleTo new p) := by
  unfold moduleTo
  dsimp only
  have h1 : ∀ c : Bool, Mild p (if c then radioLoss p else p) :=
    fun c => Mild.ite (radioLoss_mild p) (Mild.refl p)
  have h1 := h1 (p.attached && !decide (new = Module.detaching))
  generalize (if (p.attached && !decide (new = Module.detaching)) = true then radioLoss p else p) = p1 at *
  have h2 : Mild p (if new.restarts = true then enterEffects new p1 else p1) :=
    h1.trans (Mild.ite (enterEffects_mild new p1) (Mild.refl p1))
  generalize (if new.restarts = true then enterEffects new p1 else p1) = p2 at *
  have h3 : Mild p (p2.withRadio (p2.radio.move new p2.clock.now)) :=
    h2.trans (Mild.of_eq rfl rfl)
  generalize (p2.withRadio (p2.radio.move new p2.clock.now)) = p3 at *
  have h4 : Mild p (if p.attached = true then leftAttached p3 else p3) :=
    h3.trans (Mild.ite (leftAttached_mild p3) (Mild.refl p3))
  exact h4.trans (Mild.ite (endAttach_mild _ _ _) (Mild.refl _))

end Sys2Proof.Machine
end

