-- ==== Sys2Proof/Laws/Demand.lean ====
section
/-! SUPPORT. Radio demand and the automatic restart run after an event (R47, R112). -/

namespace Sys2Proof.Machine

/-- `DemandFollows` reads the wants, demand and the linger timer alone. -/
theorem Part.DemandFollows.of_eq {p q : Part} (h : p.DemandFollows) (hw : q.wants = p.wants)
    (hd : q.radio.demand = p.radio.demand) (hl : q.radio.linger = p.radio.linger) :
    q.DemandFollows := by
  unfold Part.DemandFollows at *
  rw [hw, hd, hl]
  exact h

/-- The wants read the path controller, the settings and manual hold alone (R112). -/
theorem wants_eq {p q : Part} (hp : q.path = p.path) (hs : q.radio.settings = p.radio.settings)
    (hm : q.radio.manualHold = p.radio.manualHold) : q.wants = p.wants := by
  unfold Part.wants
  rw [hp, hs, hm]

theorem demandAfter_follows (p : Part) : (p.withRadio (demandAfter p)).DemandFollows := by
  have hw : (p.withRadio (demandAfter p)).wants = p.wants := by
    apply wants_eq (p := p) (q := p.withRadio (demandAfter p)) rfl <;> unfold demandAfter <;> dsimp only [withRadio_radio] <;> (repeat' split) <;> rfl
  unfold Part.DemandFollows
  rw [hw]
  unfold demandAfter
  dsimp only [withRadio_radio]
  by_cases h : p.wants = true
  · simp [h]
  · simp only [Bool.not_eq_true] at h
    simp only [h, Bool.false_eq_true, if_false]
    refine ⟨by simp, fun _ => ?_⟩
    by_cases hd : p.radio.demand = true
    · by_cases hl : p.radio.linger = none
      · by_cases h0 : p.radio.settings.linger = 0 <;> simp [hd, hl, h0, Part.after]
      · simp only [hd, hl, and_false, if_false]
        intro _
        exact Option.isSome_iff_ne_none.mpr hl
    · simp [hd]

theorem demandActs_demand (p : Part) :
    (demandActs p).radio.demand = p.radio.demand ∧ (demandActs p).radio.linger = p.radio.linger ∧
      (demandActs p).wants = p.wants := by
  unfold demandActs
  dsimp only
  (repeat' split) <;> exact ⟨rfl, rfl, rfl⟩

theorem settle_follows (p : Part) : (settle p).DemandFollows ∧ (settle p).RunFollows := by
  constructor
  · have h := demandAfter_follows (reviewForced p)
    have h2 := demandActs_demand ((reviewForced p).withRadio (demandAfter (reviewForced p)))
    have h3 : (reviewDemand (reviewForced p)).DemandFollows := h.of_eq h2.2.2 h2.1 h2.2.1
    exact h3.of_eq (wants_eq rfl rfl rfl) rfl rfl
  · change (reviewRun (reviewDemand (reviewForced p))).RunFollows
    generalize reviewDemand (reviewForced p) = q
    unfold Part.RunFollows reviewRun Part.isBad
    dsimp only
    by_cases h : q.path.service = .radio ∧ decide (q.path.verdict = .bad) = true ∧
        q.optical.window = .none ∧ q.optical.settings.interval ≠ 0
    · rw [if_pos h]
      simpa using h
    · rw [if_neg h]
      simpa using h

theorem takeLane_follows {p : Part} (h : p.DemandFollows ∧ p.RunFollows) :
    (takeLane p).DemandFollows ∧ (takeLane p).RunFollows := by
  unfold takeLane
  split
  · exact h
  · split
    · split
      · exact ⟨h.1.of_eq (wants_eq rfl rfl rfl) rfl rfl, h.2⟩
      · exact h
    · split
      · exact settle_follows _
      · exact h
    · unfold trySend
      split
      · split
        · exact ⟨h.1.of_eq (wants_eq rfl rfl rfl) rfl rfl, h.2⟩
        · exact h
      · exact h

theorem endDetach_follows {r : Byte} {p : Part} (h : p.DemandFollows ∧ p.RunFollows) :
    (endDetach r p).DemandFollows ∧ (endDetach r p).RunFollows := by
  unfold endDetach
  split
  · exact ⟨h.1.of_eq (wants_eq rfl rfl rfl) rfl rfl, h.2⟩
  · exact h

theorem raiseIf_follows {b : Bool} {f : Flag} {p : Part} (h : p.DemandFollows ∧ p.RunFollows) :
    (raiseIf b f p).DemandFollows ∧ (raiseIf b f p).RunFollows := by
  cases b
  · exact h
  · exact ⟨h.1.of_eq (wants_eq rfl rfl rfl) rfl rfl, h.2⟩

/-- Every event ends with demand and the automatic run as R112 and R47 ask. -/
theorem closeEvent_follows (b p : Part) :
    (closeEvent b p).DemandFollows ∧ (closeEvent b p).RunFollows := by
  unfold closeEvent noteChanges
  apply raiseIf_follows
  apply raiseIf_follows
  have h := takeLane_follows (settle_follows (returnDrained p))
  unfold reviewDetach
  split
  · exact h
  · exact endDetach_follows h

/-! ### The module at the end of an event, with demand on -/

theorem reviewForced_radio (p : Part) :
    (reviewForced p).radio = { p.radio with control := (reviewForced p).radio.control } := by
  unfold reviewForced
  split <;> simp

/-- In IDLE with a want holding and no re-attempt wait, a series starts (R113, R114). -/
theorem settle_idle {p : Part} (hs : p.radio.state = .idle) (hw : p.wants = true)
    (hr : p.radio.reattempt = none) :
    (settle p).radio =
      { p.radio with
        demand := true, linger := none, attempts := 1, phase := .pending, retry := none
        control := some (.attachReq p.radio.settings.profile), state := .attaching
        reattempt := none } := by
  change (demandActs ((reviewForced p).withRadio (demandAfter (reviewForced p)))).radio = _
  have h1 := reviewForced_radio p
  have hw' : (reviewForced p).wants = true := by
    rw [wants_eq (reviewForced_settle p).path (by rw [h1]) (by rw [h1])]; exact hw
  generalize reviewForced p = q at *
  have hd : demandAfter q = { q.radio with demand := true, linger := none } := by
    unfold demandAfter; simp [hw']
  rw [hd]
  unfold demandActs
  have hq : q.radio.state = .idle := by rw [h1]; exact hs
  have hq2 : q.radio.reattempt = none := by rw [h1]; exact hr
  dsimp only [withRadio_radio]
  simp only [if_true, hq, hq2]
  unfold startSeries Radio.placeAttach
  simp only [withRadio_radio]
  rw [h1]

/-- With a want holding, a module that is neither IDLE nor ATTACHED keeps its state. -/
theorem settle_waits {p : Part} (h1 : p.radio.state ≠ .idle) (h2 : p.radio.state ≠ .attached)
    (hw : p.wants = true) :
    (settle p).radio =
      { p.radio with demand := true, linger := none, control := (reviewForced p).radio.control } := by
  change (demandActs ((reviewForced p).withRadio (demandAfter (reviewForced p)))).radio = _
  have h3 := reviewForced_radio p
  have hw' : (reviewForced p).wants = true := by
    rw [wants_eq (reviewForced_settle p).path (by rw [h3]) (by rw [h3])]; exact hw
  generalize reviewForced p = q at *
  have hd : demandAfter q = { q.radio with demand := true, linger := none } := by
    unfold demandAfter; simp [hw']
  rw [hd]
  have hq : q.radio.state = p.radio.state := by rw [h3]
  unfold demandActs
  dsimp only [withRadio_radio]
  simp only [if_true]
  split
  · rename_i h; exact absurd (hq.symm.trans h) h1
  · rename_i h; exact absurd (hq.symm.trans h) h2
  · simp only [withRadio_radio]; rw [h3]

/-- What the last two stages of an event leave of the module. -/
theorem closeEvent_radio (b p : Part) :
    (closeEvent b p).radio = (takeLane (settle (returnDrained p))).radio := by
  unfold closeEvent noteChanges reviewDetach
  have hr : ∀ (b : Bool) f (q : Part), (raiseIf b f q).radio = q.radio := by
    intro b f q; cases b <;> rfl
  rw [hr, hr]
  split
  · rfl
  · exact endDetach_radio _ _

/-- A DETACH_REQ that begins its transfer (R117, R125). -/
theorem startDetachReq_radio (p : Part) :
    (startDetachReq p).radio =
      { p.radio with
        lane := some
          { bytes := message Type.detachReq p.radio.linkSeq [], owes := .nothing,
            ends := transferEnds p.clock.now (message Type.detachReq p.radio.linkSeq []) }
        linkSeq := p.radio.linkSeq + 1, control := none, state := .detaching
        detach := some (p.clock.now + detachTime) } := by
  unfold startDetachReq moduleTo
  simp only [Module.restarts, decide_true, Bool.not_true, Bool.and_false, Bool.false_eq_true, if_false,
    reduceCtorEq, or_self]
  rw [apply_ite Part.radio, leftAttached_radio, ite_self]
  rfl

/-- In ATTACHED with a want holding, a request to detach that is not forced is withdrawn (R113). -/
theorem settle_attached {p : Part} (hs : p.radio.state = .attached) (hw : p.wants = true) :
    (settle p).radio =
        { p.radio with demand := true, linger := none, control := (settle p).radio.control } ∧
      (settle p).radio.control ≠ some (.detachReq false) := by
  change (demandActs ((reviewForced p).withRadio (demandAfter (reviewForced p)))).radio =
      { p.radio with
        demand := true, linger := none
        control := (demandActs ((reviewForced p).withRadio (demandAfter (reviewForced p)))).radio.control } ∧
    (demandActs ((reviewForced p).withRadio (demandAfter (reviewForced p)))).radio.control ≠ _
  have h3 := reviewForced_radio p
  have hw' : (reviewForced p).wants = true := by
    rw [wants_eq (reviewForced_settle p).path (by rw [h3]) (by rw [h3])]; exact hw
  generalize reviewForced p = q at *
  have hd : demandAfter q = { q.radio with demand := true, linger := none } := by
    unfold demandAfter; simp [hw']
  rw [hd]
  have hq : q.radio.state = .attached := by rw [h3]; exact hs
  unfold demandActs
  dsimp only [withRadio_radio]
  simp only [if_true, hq]
  split
  · simp only [withRadio_radio]
    refine ⟨?_, by simp⟩
    rw [h3, ← hs]
  · rename_i hn
    simp only [withRadio_radio] at hn ⊢
    refine ⟨?_, hn⟩
    rw [h3, ← hs]

theorem demandAfter_eq (p : Part) :
    demandAfter p = { p.radio with demand := (demandAfter p).demand, linger := (demandAfter p).linger } := by
  unfold demandAfter
  dsimp only
  (repeat' split) <;> rfl

/-- Where no forced request is to be withdrawn, settling touches no command, and of the module only demand
and its timer where demand has no move to make: a request to detach is pending in ATTACHED, or the module is
outside IDLE, ATTACHING and ATTACHED (R113, R132). -/
theorem settle_steady {p : Part}
    (hf : ¬(p.radio.control = some (.detachReq true) ∧
      (p.path.service = .radio ∨ p.path.service = .proving ∨ p.path.service = .forcedRadio)))
    (hs : p.radio.state = .attached ∧ p.radio.control = some (.detachReq true) ∨
      p.radio.state ≠ .idle ∧ p.radio.state ≠ .attaching ∧ p.radio.state ≠ .attached) :
    (settle p).command = p.command ∧
      (settle p).radio =
        { p.radio with demand := (settle p).radio.demand, linger := (settle p).radio.linger } := by
  have hr : reviewForced p = p := if_neg hf
  have e : settle p = reviewRun (demandActs (p.withRadio (demandAfter p))) := by
    unfold settle reviewDemand; rw [hr]
  have hd := demandAfter_eq p
  have key : demandActs (p.withRadio (demandAfter p)) = p.withRadio (demandAfter p) := by
    generalize demandAfter p = r at *
    have h1 : r.state = p.radio.state := by rw [hd]
    have h2 : r.control = p.radio.control := by rw [hd]
    unfold demandActs
    dsimp only [withRadio_radio]
    rcases hs with ⟨ha, hc⟩ | ⟨ha, hb, hc⟩
    · rw [h1, ha, h2, hc]
      simp
    · rw [h1]
      revert ha hb hc
      cases p.radio.state <;> simp
  rw [e, key]
  refine ⟨rfl, ?_⟩
  exact hd

theorem noteChanges_command (b p : Part) : (noteChanges b p).command = p.command := by
  have hr : ∀ (b : Bool) f (q : Part), (raiseIf b f q).command = q.command := by
    intro b f q; cases b <;> rfl
  unfold noteChanges
  rw [hr, hr]

theorem returnDrained_service (p : Part) :
    (returnDrained p).path.service = p.path.service ∨ (returnDrained p).path.service = .fibre := by
  unfold returnDrained returnEnds
  split
  · exact .inl rfl
  · split
    · exact .inr rfl
    · exact .inl rfl

end Sys2Proof.Machine
end

