-- ==== Sys2Proof/Laws/Events.lean ====
section
/-! SUPPORT. What raising a flag, counting, and marking entries leave at each flag, counter and entry. -/

namespace Sys2Proof.Machine

theorem counters_get_put (cs : Counters) (c d : Counter) (v : BitVec 32) :
    (cs.put c v).get d = if d = c then v else cs.get d := by
  cases c <;> cases d <;> rfl

theorem satAdd_add (v : BitVec 32) (m n : Nat) : satAdd (satAdd v m) n = satAdd v (m + n) := by
  apply BitVec.eq_of_toNat_eq
  unfold satAdd
  simp only [BitVec.toNat_ofNat]
  have := v.isLt
  omega

theorem satAdd_zero (v : BitVec 32) : satAdd v 0 = v := by
  apply BitVec.eq_of_toNat_eq
  unfold satAdd
  simp only [BitVec.toNat_ofNat]
  have := v.isLt
  omega

theorem flag_mask_bit (f g : Flag) : f.mask.getLsbD g.bit = decide (g = f) := by
  cases f <;> cases g <;> decide

theorem raise_flag_iff (f g : Flag) (p : Part) :
    (raise f p).flag g = true ↔ p.flag g = true ∨ g = f := by
  unfold raise Part.flag
  simp [BitVec.getLsbD_or, flag_mask_bit]

theorem isLoss_iff (r : Discard) : r.isLoss = true ↔
    r = .aged ∨ r = .queueFull ∨ r = .displaced ∨ r = .radioLost ∨ r = .drainLimit ∨
      r = .linkTimeout ∨ r = .moduleReject := by
  cases r <;> simp [Discard.isLoss]

theorem markEntries_get (parts : List Nat) (f : Entry → Entry) (es : List Entry) (i : Nat) :
    (markEntries parts f es)[i]? = es[i]?.map fun e => if i ∈ parts then f e else e := by
  unfold markEntries
  rw [List.getElem?_mapIdx]
  congr 1; funext e
  simp

/-- Discarding one frame's parts changes entries, flags and counters alone. -/
theorem discardParts_only (r : Discard) (parts : List Nat) (p : Part) :
    discardParts r parts p = { p with
      uplink := { p.uplink with entries := markEntries parts (Entry.discard r) p.uplink.entries }
      events := { p.events with
        flags := (discardParts r parts p).events.flags
        counters := p.events.counters.put .framesDiscarded
          (satAdd (p.events.counters.get .framesDiscarded) 1) } } := by
  unfold discardParts raiseIf
  split <;> rfl

end Sys2Proof.Machine
end

