-- ==== Sys2Proof/Laws/Path.lean ====
section
/-! SUPPORT. What the transitions of the path controller come to once the event has ended (R77, R82 to R99). -/

namespace Sys2Proof.Machine

theorem PerClass.ext_get {α : Type} {x y : PerClass α} (h : ∀ c, x.get c = y.get c) : x = y := by
  cases x; cases y
  have h1 := h .voice; have h2 := h .signal; have h3 := h .interactive; have h4 := h .bulk
  simp only [PerClass.get] at h1 h2 h3 h4
  subst h1 h2 h3 h4; rfl

@[simp] theorem PerClass.ofFn_get' {α : Type} (x : PerClass α) : PerClass.ofFn x.get = x :=
  PerClass.ext_get fun c => by cases c <;> rfl

/-- Class `c` is DRAINING with nothing queued and nothing outstanding (R91). -/
abbrev Part.ranEmpty (p : Part) (c : ServiceClass) : Prop :=
  (p.path.classes.get c).sub = .draining ∧ p.relay.queues.get c = [] ∧ p.sentOf c = []

theorem mem_drainedClasses (p : Part) (c : ServiceClass) : c ∈ p.drainedClasses ↔ p.ranEmpty c := by
  unfold Part.drainedClasses Part.ranEmpty
  rw [List.mem_filter]
  have : c ∈ classes := by cases c <;> decide
  simp [this, Part.draining, and_assoc]

/-- What R91 makes of the path controller where RETURNING does not end with it. -/
theorem returnDrained_path {p : Part}
    (h : p.path.service = .returning → p.path.classes.voice.sub = .waitingQuiet) :
    (returnDrained p).path =
      { p.path with
        classes := PerClass.ofFn fun c => if p.ranEmpty c then onFibre else p.path.classes.get c } := by
  have hcl : (PerClass.ofFn fun c => if p.drainedClasses.contains c then ClassPath.fibre else p.path.classes.get c) =
      PerClass.ofFn fun c => if p.ranEmpty c then onFibre else p.path.classes.get c := by
    apply congrArg
    funext c
    by_cases hc : p.ranEmpty c
    · rw [if_pos hc, if_pos (by simpa using (mem_drainedClasses p c).mpr hc)]; rfl
    · rw [if_neg hc, if_neg (by simpa using fun hm => hc ((mem_drainedClasses p c).mp hm))]
  unfold returnDrained
  split
  · rename_i h0
    have : (PerClass.ofFn fun c => if p.ranEmpty c then onFibre else p.path.classes.get c) = p.path.classes := by
      apply PerClass.ext_get
      intro c
      have hc : ¬p.ranEmpty c := fun hc => by
        have := (mem_drainedClasses p c).mpr hc
        rw [h0] at this; simp at this
      rw [PerClass.get_ofFn, if_neg hc]
    rw [this]
  · unfold returnEnds
    rw [if_neg]
    · simp only [withPath_path, Path.mapClasses]
      rw [hcl]
    · rintro ⟨hs, hall⟩
      have hv := hall .voice (by decide)
      have hw := h hs
      simp only [withPath_path, Path.mapClasses, PerClass.get_ofFn] at hv
      split at hv
      · rename_i hc
        have := (mem_drainedClasses p .voice).mp (by simpa using hc)
        have h1 : p.path.classes.voice.sub = .draining := this.1
        rw [hw] at h1; cases h1
      · have h1 : p.path.classes.voice.sub = .returned := hv
        rw [hw] at h1; cases h1

/-! ### What discarding queued frames leaves alone -/

theorem discardFrames_path (r : Discard) (fs : List Frame) (p : Part) :
    (discardFrames r fs p).path = p.path ∧ (discardFrames r fs p).relay = p.relay := by
  unfold discardFrames
  induction fs generalizing p with
  | nil => exact ⟨rfl, rfl⟩
  | cons f fs ih =>
    have h := ih (discardParts r f.parts p)
    have e : (discardParts r f.parts p).path = p.path ∧ (discardParts r f.parts p).relay = p.relay := by
      unfold discardParts; simp
    exact ⟨h.1.trans e.1, h.2.trans e.2⟩

theorem discardQueue_path (r : Discard) (c : ServiceClass) (p : Part) :
    (discardQueue r c p).path = p.path ∧
      (discardQueue r c p).relay = { p.relay with queues := p.relay.queues.set c [] } := by
  have h := discardFrames_path r (p.relay.queues.get c) (setQueue c [] p)
  exact ⟨h.1, h.2⟩

theorem PerClass.get_set {α : Type} (x : PerClass α) (c d : ServiceClass) (v : α) :
    (x.set c v).get d = if d = c then v else x.get d := by
  cases c <;> cases d <;> rfl

theorem discardQueues_path (r : Discard) (cs : List ServiceClass) (p : Part) :
    (discardQueues r cs p).path = p.path ∧
      (discardQueues r cs p).relay = { p.relay with queues := (discardQueues r cs p).relay.queues } ∧
      ∀ c, (discardQueues r cs p).relay.queues.get c = if c ∈ cs then [] else p.relay.queues.get c := by
  unfold discardQueues
  induction cs generalizing p with
  | nil => exact ⟨rfl, rfl, fun c => by simp⟩
  | cons d cs ih =>
    have h := ih (discardQueue r d p)
    have e := discardQueue_path r d p
    refine ⟨h.1.trans e.1, ?_, fun c => ?_⟩
    · have h2 := h.2.1
      rw [e.2] at h2
      exact h2
    · rw [List.foldl_cons, h.2.2 c, e.2]
      simp only [PerClass.get_set, List.mem_cons]
      by_cases hc : c ∈ cs
      · simp [hc]
      · by_cases hd : c = d <;> simp [hc, hd]

theorem discardQueues_sent (r : Discard) (cs : List ServiceClass) (p : Part) (c : ServiceClass) :
    (discardQueues r cs p).sentOf c = p.sentOf c := by
  unfold Part.sentOf
  rw [discardQueues_radio]

/-- Discarding the queues of the classes on FIBRE (R79). -/
theorem discardFibre_path (r : Discard) (p : Part) :
    (discardFibre r p).path = p.path ∧ (discardFibre r p).radio = p.radio ∧
      (∀ c, (discardFibre r p).sentOf c = p.sentOf c) ∧
      (discardFibre r p).relay.shed = p.relay.shed ∧
      ∀ c, (p.path.classes.get c).word ≠ .fibre →
        (discardFibre r p).relay.queues.get c = p.relay.queues.get c := by
  have h := discardQueues_path r (classes.filter fun c => (p.path.classes.get c).word = .fibre) p
  refine ⟨h.1, discardQueues_radio _ _ _, fun c => discardQueues_sent _ _ _ c,
    (show _ = _ from by unfold discardFibre; rw [h.2.1]), fun c hc => ?_⟩
  have h2 := h.2.2 c
  rw [if_neg (by simp [List.mem_filter, hc])] at h2
  exact h2

/-! ### Service states -/

theorem record_radio (p : Part) (svc : Service) (c : ServiceClass)
    (h : svc ≠ .stranded ∧ svc ≠ .forcedRadio) :
    p.record svc .onRadio none c = onRadio (p.relay.shed.get c) := by
  unfold Part.record pathWord onRadio
  cases svc <;> simp at h ⊢ <;> split <;> simp

theorem record_forcedRadio (p : Part) (c : ServiceClass) :
    p.record .forcedRadio .onRadio none c =
      if p.radio.state = .attached then onRadio (p.relay.shed.get c) else blocked .noRadio := by
  unfold Part.record pathWord onRadio blocked Part.attached
  by_cases h : p.radio.state = .attached <;> by_cases hs : p.relay.shed.get c <;> simp [h, hs]

theorem enterRadioSide_radio (p : Part) : (enterRadioSide .radio p).path = p.pathRadio := by
  unfold enterRadioSide Part.pathRadio Path.inState
  dsimp only
  have : PerClass.ofFn (p.record .radio .onRadio none) = PerClass.ofFn fun c => onRadio (p.relay.shed.get c) :=
    congrArg _ (funext fun c => record_radio p .radio c (by simp))
  rw [this]
  rfl

theorem enterRadioSide_forced (p : Part) : (enterRadioSide .forcedRadio p).path = p.pathForcedRadio := by
  unfold enterRadioSide Part.pathForcedRadio Path.inState
  dsimp only
  rw [show PerClass.ofFn (p.record .forcedRadio .onRadio none) = _ from
    congrArg _ (funext fun c => record_forcedRadio p c)]
  rfl

theorem enterStranded_path (p : Part) : (enterStranded p).path = p.pathStranded := by
  unfold enterStranded enterRadioSide Part.pathStranded Path.inState
  simp only [Part.isBad, decide_eq_true_eq]
  rfl

theorem dwellEnds_path (p : Part) : (dwellEnds p).path = p.pathDwelt := by
  unfold dwellEnds Part.pathDwelt Part.attached
  by_cases h : p.radio.state = .attached
  · simp only [h, decide_true, if_true]
    exact enterRadioSide_radio p
  · simp only [h, decide_false, Bool.false_eq_true, if_false]
    exact enterStranded_path p

/-- No class drains in `q`, and its service state is not one in which classes drain. -/
def Path.undrained (q : Path) : Prop :=
  (∀ c, (q.classes.get c).sub ≠ .draining) ∧ q.service ≠ .returning ∧ q.service ≠ .forcedFibre

theorem inState_undrained {q : Path} {svc : Service} {f : ServiceClass → ClassPath}
    (hf : ∀ c, (f c).sub ≠ .draining) (h1 : svc ≠ .returning) (h2 : svc ≠ .forcedFibre) :
    (q.inState svc f).undrained :=
  ⟨fun c => by unfold Path.inState; rw [PerClass.get_ofFn]; exact hf c, h1, h2⟩

theorem pathRadio_undrained (p : Part) : p.pathRadio.undrained :=
  inState_undrained (fun c => by simp [onRadio]) (by simp) (by simp)

theorem pathForcedRadio_undrained (p : Part) : p.pathForcedRadio.undrained :=
  inState_undrained (fun c => by split <;> simp [onRadio, blocked]) (by simp) (by simp)

theorem pathStranded_undrained (p : Part) : p.pathStranded.undrained :=
  have h : (p.path.inState .stranded fun _ => blocked .noPath).undrained :=
    inState_undrained (fun c => by simp [blocked]) (by simp) (by simp)
  ⟨h.1, h.2.1, h.2.2⟩

theorem pathDwelt_undrained (p : Part) : p.pathDwelt.undrained := by
  unfold Part.pathDwelt
  split
  · exact pathRadio_undrained p
  · exact pathStranded_undrained p

theorem pathFibre_undrained (p : Part) : p.pathFibre.undrained := by
  have h : ∀ svc, svc ≠ .returning → svc ≠ .forcedFibre →
      (p.path.inState svc fun _ => onFibre).undrained := fun svc h1 h2 =>
    inState_undrained (fun c => by simp [onFibre]) h1 h2
  unfold Part.pathFibre
  generalize (if p.path.causes.has .los = true then p.path.settings.losDwell
    else p.path.settings.failDwell) = d
  dsimp only
  split
  · split
    · exact pathDwelt_undrained p
    · exact ⟨(h .suspect (by simp) (by simp)).1, by simp [Path.inState], by simp [Path.inState]⟩
  · exact h .fibre (by simp) (by simp)

/-- The end of an event keeps the path controller where no class drains. -/
theorem closeEvent_undrained {b p : Part} {q : Path} (h : p.path = q) (hu : q.undrained) :
    (closeEvent b p).path = q := by
  subst h
  exact closeEvent_path hu.1 hu.2.1 hu.2.2

theorem enterFibre_path (r : Discard) (p : Part) : (enterFibre r p).path = p.pathFibre := by
  unfold enterFibre
  dsimp only
  generalize hq : discardFibre r { p with path :=
    { p.path.idle with service := .fibre, classes := PerClass.ofFn fun _ => ClassPath.fibre } } = q
  have hp : q.path = p.path.inState .fibre fun _ => onFibre := by
    rw [← hq, (discardFibre_path _ _).1]; rfl
  have hr : q.radio = p.radio := by rw [← hq, (discardFibre_path _ _).2.1]
  have hc : q.clock = p.clock := by
    rw [← hq]; exact (discardQueues_frame _ _ _).clock
  have hrel : q.relay.shed = p.relay.shed := by
    rw [← hq]
    exact (discardFibre_path _ _).2.2.2.1
  clear hq
  unfold Part.pathFibre Part.isBad
  rw [hp]
  by_cases hb : p.path.verdict = .bad
  · have hb' : (p.path.inState .fibre fun _ => onFibre).verdict = .bad := hb
    simp only [hb', hb, decide_true, if_true]
    unfold enterSuspect
    dsimp only
    rw [hp]
    have e : (p.path.inState .fibre fun _ => onFibre).causes = p.path.causes := rfl
    have e1 : (p.path.inState .fibre fun _ => onFibre).settings = p.path.settings := rfl
    rw [e, e1]
    generalize (if p.path.causes.has .los = true then p.path.settings.losDwell
      else p.path.settings.failDwell) = d
    by_cases hd : d = 0
    · rw [if_pos hd, if_pos hd, dwellEnds_path]
      unfold Part.pathDwelt Part.pathRadio Part.pathStranded
      simp only [hr, hrel, hc]
      rfl
    · rw [if_neg hd, if_neg hd]
      simp only [Part.after, hc]
      rfl
  · have hb' : ¬(p.path.inState .fibre fun _ => onFibre).verdict = .bad := hb
    simp only [hb', hb, decide_false, Bool.false_eq_true, if_false]
    exact hp

/-- A state in which classes drain, once the event that enters it has ended (R88, R91, R98). -/
theorem drainState_closed {b z : Part} {r : Discard} {f : ServiceClass → ClassPath} (h : z.Stays)
    (hc : z.path.classes = PerClass.ofFn f) (hw : ∀ c, (f c).sub = .draining → (f c).word ≠ .fibre)
    (hv : z.path.service = .returning → (f .voice).sub = .waitingQuiet) :
    (closeEvent b (discardFibre r z)).path =
      { z.path with
        classes := PerClass.ofFn fun c =>
          if (f c).sub = .draining ∧ z.relay.queues.get c = [] ∧ z.sentOf c = [] then onFibre
          else f c } := by
  obtain ⟨h1, h2, h3, _, h5⟩ := discardFibre_path r z
  have hst : (discardFibre r z).Stays := by
    unfold Part.Stays at *
    rw [h2]; exact h
  have hg : ∀ c, z.path.classes.get c = f c := fun c => by rw [hc, PerClass.get_ofFn]
  have hr := returnDrained_path (p := discardFibre r z) (by
    rw [h1]; intro hs; exact (congrArg ClassPath.sub (hg .voice)).trans (hv hs))
  have e : (PerClass.ofFn fun c => if (discardFibre r z).ranEmpty c then onFibre
      else (discardFibre r z).path.classes.get c) = PerClass.ofFn fun c =>
        if (f c).sub = .draining ∧ z.relay.queues.get c = [] ∧ z.sentOf c = [] then onFibre
          else f c := by
    apply congrArg
    funext c
    have hgc : (discardFibre r z).path.classes.get c = f c := by rw [h1, hg]
    have hrc : (discardFibre r z).ranEmpty c ↔
        (f c).sub = .draining ∧ z.relay.queues.get c = [] ∧ z.sentOf c = [] := by
      unfold Part.ranEmpty
      rw [hgc, h3]
      by_cases hsub : (f c).sub = .draining
      · rw [h5 c (by rw [hg]; exact hw c hsub)]
      · exact ⟨fun hc => absurd hc.1 hsub, fun hc => absurd hc.1 hsub⟩
    by_cases hcc : (discardFibre r z).ranEmpty c
    · rw [if_pos hcc, if_pos (hrc.mp hcc)]
    · rw [if_neg hcc, if_neg (fun hc => hcc (hrc.mpr hc)), hgc]
  rw [closeEvent_path_stays hst, hr, e, h1]

/-- The records RETURNING begins with, before R91 (R88). -/
def Part.returningStart (p : Part) (c : ServiceClass) : ClassPath :=
  match c with
  | .voice => { word := .radio, reason := .none, sub := .waitingQuiet, drain := none }
  | c => if p.relay.shed.get c then ClassPath.fibre else p.drainRecord

/-- RETURNING as entered, once its event has ended (R88, R91). -/
theorem enterReturning_closed {b p : Part} (h : p.Stays) :
    (closeEvent b (enterReturning p)).path = p.pathReturning := by
  have hf : enterReturning p = discardFibre .drainLimit { p with path :=
      { p.path.idle with
        service := .returning
        classes := PerClass.ofFn p.returningStart
        quiet := p.after p.path.settings.voiceQuiet
        stick := p.after (p.path.settings.voiceStick * 1000) } } := rfl
  have e : (PerClass.ofFn fun c =>
      if (p.returningStart c).sub = .draining ∧ p.relay.queues.get c = [] ∧ p.sentOf c = [] then onFibre
      else p.returningStart c) = PerClass.ofFn fun c =>
        match c with
        | .voice => { word := .radio, reason := .none, sub := .waitingQuiet, drain := none }
        | c => if p.relay.shed.get c then onFibre else p.drains c := by
    apply congrArg
    funext c
    unfold Part.returningStart
    by_cases hs : p.relay.shed.get c
    · cases c <;> simp [hs, ClassPath.fibre, onFibre]
    · cases c <;> simp [hs, Part.drains, Part.drainRecord, Part.after]
  rw [hf, drainState_closed (f := p.returningStart) (by exact h) rfl ?_ (fun _ => rfl)]
  · exact congrArg (fun x : PerClass ClassPath =>
      ({ p.path with
        service := .returning, classes := x, dwell := none, prove := none, strandedProve := none
        quiet := some (p.clock.now + p.path.settings.voiceQuiet)
        stick := some (p.clock.now + p.path.settings.voiceStick * 1000) } : Path)) e
  · intro c
    unfold Part.returningStart
    by_cases hs : p.relay.shed.get c <;> cases c <;>
      simp [hs, Part.drainRecord, ClassPath.fibre]

/-- The records FORCED_FIBRE begins with, before R91 (R98). -/
def Part.forcedStart (p : Part) (c : ServiceClass) : ClassPath :=
  match (p.path.classes.get c).word with
  | .radio => p.drainRecord
  | .hold => p.path.classes.get c
  | .fibre => ClassPath.fibre
  | .blocked => ClassPath.fibre

/-- FORCED_FIBRE as entered, once its event has ended (R91, R98). -/
theorem enterForcedFibre_closed {b p : Part} (h : p.Stays) :
    (closeEvent b (enterForcedFibre p)).path = p.pathForcedFibre := by
  have hf : enterForcedFibre p = discardFibre .drainLimit { p with path :=
      { p.path.idle with service := .forcedFibre, classes := PerClass.ofFn p.forcedStart } } := rfl
  have e : (PerClass.ofFn fun c =>
      if (p.forcedStart c).sub = .draining ∧ p.relay.queues.get c = [] ∧ p.sentOf c = [] then onFibre
      else p.forcedStart c) = PerClass.ofFn fun c =>
        match (p.path.classes.get c).word with
        | .radio => p.drains c
        | .hold =>
          if (p.path.classes.get c).sub = .draining ∧ p.relay.queues.get c = [] ∧ p.sentOf c = [] then
            onFibre
          else p.path.classes.get c
        | .fibre => onFibre
        | .blocked => onFibre := by
    apply congrArg
    funext c
    unfold Part.forcedStart
    cases hw : (p.path.classes.get c).word
    · simp [ClassPath.fibre, onFibre]
    · simp [Part.drains, Part.drainRecord, Part.after]
    · simp
    · simp [ClassPath.fibre, onFibre]
  rw [hf, drainState_closed (f := p.forcedStart) (by exact h) rfl ?_ (by intro hs; cases hs)]
  · exact congrArg (fun x : PerClass ClassPath =>
      ({ p.path with
        service := .forcedFibre, classes := x, dwell := none, prove := none, strandedProve := none
        quiet := none, stick := none } : Path)) e
  · intro c hd
    unfold Part.forcedStart at *
    cases hw : (p.path.classes.get c).word <;> simp [hw, ClassPath.fibre, Part.drainRecord] at hd ⊢

theorem returnDrained_keeps {p : Part} (h : p.NoneDrained) : returnDrained p = p := by
  unfold returnDrained
  rw [if_pos]
  rw [List.eq_nil_iff_forall_not_mem]
  intro c hc
  have := (mem_drainedClasses p c).mp hc
  exact h c this.1 this.2

/-- How the path controller follows the effective force, once the event has ended (R77, R97 to R99). -/
theorem takeForce_closed {b p : Part} {was : Force} (h : p.Stays) (hn : p.NoneDrained) :
    (closeEvent b (takeForce was p)).path = p.pathForced was := by
  unfold takeForce Part.pathForced
  split
  · rw [closeEvent_path_stays h, returnDrained_keeps hn]
  · cases he : p.path.effective
    · dsimp only
      unfold leaveForced
      cases was
      · rename_i hne; exact absurd he hne
      · simp only [if_true]
        exact closeEvent_undrained (enterFibre_path _ _) (pathFibre_undrained p)
      · simp only [reduceCtorEq, if_false, Part.isBad, Part.attached]
        by_cases hb : p.path.verdict = .bad
        · simp only [hb, decide_true, if_true]
          by_cases ha : p.radio.state = .attached
          · simp only [ha, decide_true, if_true]
            exact closeEvent_undrained (enterRadioSide_radio p) (pathRadio_undrained p)
          · simp only [ha, decide_false, Bool.false_eq_true, if_false]
            exact closeEvent_undrained (enterStranded_path p) (pathStranded_undrained p)
        · simp only [hb, decide_false, Bool.false_eq_true, if_false]
          by_cases ha : p.radio.state = .attached
          · simp only [ha, decide_true, if_true]
            exact enterReturning_closed h
          · simp only [ha, decide_false, Bool.false_eq_true, if_false]
            exact closeEvent_undrained (enterFibre_path _ _) (pathFibre_undrained p)
    · exact enterForcedFibre_closed h
    · exact closeEvent_undrained (enterRadioSide_forced p) (pathForcedRadio_undrained p)

end Sys2Proof.Machine
end

