-- ==== Sys2Proof/Laws/Slot.lean ====
section
/-! SUPPORT. What a command written into the slot comes to: its owner runs on the part as taken, and the
result shows in the result area (R22 to R26). -/

namespace Sys2Proof.Machine

/-- A command row whose command the part is free to take runs its command (R24). -/
theorem slot_exec {i : Instr} {code : Byte} {h : HeaderBurst} {c : CommandName} {s : State}
    (hr : headerRow i = some (code, h)) (ht : s.part.Takes h) (hc : commandOf code = some c) :
    exec i s = .next (s.having (autoClosed (headerWrite code h).place
      (runCommand c (slotParams code h s.part) (takenPart code h s.part)))) := by
  have hw : writeOf i = some (headerWrite code h) := by
    cases i <;> cases hr <;> rfl
  rw [exec_writeOf hw]
  exact congrArg _ (congrArg _ (slotWrite_runs ht hc))

/-- The bank's closing shows in the channel monitor alone (R3). -/
theorem autoClosed_eq (b : Burst) (p : Part) :
    autoClosed b p = { p with channel := (autoClosed b p).channel } := by
  unfold autoClosed setBank
  split <;> rfl

/-- The closing of the bank commutes with what leaves the channel monitor as the write left it. -/
theorem autoClosed_channel {b : Burst} {p q : Part} (h : q.channel = p.channel) :
    (autoClosed b q).channel = (autoClosed b p).channel := by
  unfold autoClosed setBank
  split <;> simp [h]

/-- What a write leaves beside the channel monitor, with the bank closed where asked. -/
theorem autoClosed_passed {b : Burst} {op : ChannelOp} {p x : Part}
    (h : x.channel = (passed op p).channel) :
    autoClosed b x = { x with channel := (autoClosed b (passed op p)).channel } := by
  rw [autoClosed_eq, autoClosed_channel h]

/-- A command that its owner completes at once, having changed `p` to `x`, is answered (R25). -/
theorem finish_answered {code : Byte} {h : HeaderBurst} {r : Byte} {clamp : BitVec 32} {d : List Byte}
    {p x q : Part}
    (hq : q = finish r d
      { x with
        channel := (passed (.write (headerWrite code h)) p).channel
        command := { (takenPart code h p).command with clamp := clamp } })
    (hx : x.channel = p.channel) (hc : x.command = p.command) :
    autoClosed (headerWrite code h).place q = answered code h r clamp d x := by
  rw [autoClosed_eq, hq]
  have e1 : slotChannel code h x = slotChannel code h p := by
    unfold slotChannel
    apply autoClosed_channel
    simp [passed, Part.withChannel, hx]
  have e2 : completed code h r clamp d x = completed code h r clamp d p := by
    unfold completed slotHeader Part.lanesOf
    rw [hx, hc]
  unfold answered
  rw [e1, e2]
  have e3 := autoClosed_channel (b := (headerWrite code h).place)
    (q := finish r d
      { x with
        channel := (passed (.write (headerWrite code h)) p).channel
        command := { (takenPart code h p).command with clamp := clamp } })
    (p := passed (.write (headerWrite code h)) p) rfl
  rw [e3]
  rfl

/-- The end of an event keeps what `EventEnds` speaks of. -/
theorem closeEvent_ends (b p : Part) : EventEnds p (closeEvent b p) :=
  ⟨closeEvent_frame b p, closeEvent_mild b p⟩

theorem EventEnds.refl (p : Part) : EventEnds p p := ⟨EventFrame.refl p, Mild.refl p⟩

theorem EventEnds.trans {p q r : Part} (h : EventEnds p q) (k : EventEnds q r) : EventEnds p r :=
  ⟨h.frame.trans k.frame, h.mild.trans k.mild⟩

/-- A change of channel monitor and command unit on both sides. -/
theorem EventEnds.swap {p q : Part} (h : EventEnds p q) (c : Channel) (d e : Command)
    (hd : e = { d with running := e.running, result := e.result, data := e.data }) :
    EventEnds { p with channel := c, command := d } { q with channel := c, command := e } :=
  ⟨⟨h.frame.clock, rfl, h.frame.windows, h.frame.health, h.frame.delivery, hd, h.frame.optical,
    h.frame.path, h.frame.radio, h.frame.relay, h.frame.uplink, h.frame.events⟩,
    ⟨h.mild.flags, h.mild.counters, h.mild.hosts⟩⟩

/-- Both sides with COMMAND_DONE raised. -/
theorem EventEnds.raise {p q : Part} (h : EventEnds p q) (f : Flag) :
    EventEnds (Machine.raise f p) (Machine.raise f q) := by
  refine ⟨⟨h.frame.clock, h.frame.channel, h.frame.windows, h.frame.health, h.frame.delivery,
    h.frame.command, h.frame.optical, h.frame.path, h.frame.radio, h.frame.relay, h.frame.uplink, ?_⟩,
    ⟨?_, h.mild.counters, h.mild.hosts⟩⟩
  · have := h.frame.events
    unfold Machine.raise
    dsimp only
    rw [this]
  · intro g hg
    unfold Part.flag at *
    simp only [raise_flags, BitVec.getLsbD_or, Bool.or_eq_true] at *
    exact hg.imp (h.mild.flags g) id

/-- A command that acts by an event and completes in it (R25): beside the answer, what the event leaves of
`x`, the part as the command's own effect makes it. -/
theorem slot_ends {code : Byte} {h : HeaderBurst} {r : Byte} {clamp : BitVec 32} {d : List Byte}
    {p x q : Part}
    (he : EventEnds
      { x with
        channel := (passed (.write (headerWrite code h)) p).channel
        command := { (takenPart code h p).command with clamp := clamp } } q)
    (hc : q.command = { (takenPart code h p).command with clamp := clamp })
    (hx : x.channel = p.channel) (hxc : x.command = p.command) :
    EventEnds (answered code h r clamp d x)
        (autoClosed (headerWrite code h).place (finish r d q)) ∧
      (autoClosed (headerWrite code h).place (finish r d q)).command =
        completed code h r clamp d p := by
  have hq : q.channel = (passed (.write (headerWrite code h)) p).channel := he.frame.channel
  have e : autoClosed (headerWrite code h).place (finish r d q) =
      Machine.raise .commandDone
        { q with channel := slotChannel code h p, command := completed code h r clamp d p } := by
    rw [autoClosed_passed (op := .write (headerWrite code h)) (p := p) (x := finish r d q) hq]
    unfold finish
    rw [hc]
    rfl
  have e1 : slotChannel code h x = slotChannel code h p := by
    unfold slotChannel
    apply autoClosed_channel
    simp [passed, Part.withChannel, hx]
  have e2 : completed code h r clamp d x = completed code h r clamp d p := by
    unfold completed slotHeader Part.lanesOf
    rw [hx, hxc]
  rw [e]
  refine ⟨?_, rfl⟩
  unfold answered
  rw [e1, e2]
  exact (he.swap (slotChannel code h p) _ _ rfl).raise .commandDone

/-- As `slot_ends`, for the end of the event that the command's own effect `y` begins. -/
theorem slot_event {code : Byte} {h : HeaderBurst} {r : Byte} {clamp : BitVec 32} {d : List Byte}
    {p x y b : Part} (hidle : p.command.running = none)
    (he : EventEnds
      { x with
        channel := (passed (.write (headerWrite code h)) p).channel
        command := { (takenPart code h p).command with clamp := clamp } } y)
    (hyc : y.command = { (takenPart code h p).command with clamp := clamp })
    (hx : x.channel = p.channel) (hxc : x.command = p.command) :
    EventEnds (answered code h r clamp d x)
        (autoClosed (headerWrite code h).place (finish r d (closeEvent b y))) ∧
      (autoClosed (headerWrite code h).place (finish r d (closeEvent b y))).command =
        completed code h r clamp d p := by
  refine slot_ends (he.trans (closeEvent_ends b y)) ?_ hx hxc
  rw [closeEvent_command, hyc]
  rw [hyc]
  change p.command.running ≠ _
  rw [hidle]
  simp

/-- A timed command that acts by an event and goes on (R26). -/
theorem slot_runs {code : Byte} {h : HeaderBurst} {t : Timed} {p x q : Part}
    (he : EventEnds
      { x with
        channel := (passed (.write (headerWrite code h)) p).channel
        command := { (takenPart code h p).command with running := some t } } q)
    (hx : x.channel = p.channel) (hxc : x.command = p.command) :
    EventEnds (underWay code h t x) (autoClosed (headerWrite code h).place q) ∧
      (autoClosed (headerWrite code h).place q).command = q.command := by
  have hq : q.channel = (passed (.write (headerWrite code h)) p).channel := he.frame.channel
  have e1 : slotChannel code h x = slotChannel code h p := by
    unfold slotChannel
    apply autoClosed_channel
    simp [passed, Part.withChannel, hx]
  have e2 : completed code h 0x80 0 [] x = completed code h 0x80 0 [] p := by
    unfold completed slotHeader Part.lanesOf
    rw [hx, hxc]
  rw [autoClosed_passed (op := .write (headerWrite code h)) (p := p) (x := q) hq]
  refine ⟨?_, rfl⟩
  unfold underWay
  rw [e1, e2]
  exact he.swap (slotChannel code h p) _ _ he.frame.command

/-! ### Writes that reach a block -/

theorem sent_eq (w : WriteBurst) (p : Part) :
    autoClosed w.place (passed (.write w) p) = { p with channel := { p.channel with
      toDram := some (.named (.write w))
      banks := if w.place.autoClose then p.channel.banks.set w.place.bank.toNat none else p.channel.banks } } := by
  unfold autoClosed setBank passed
  split <;> rfl

theorem autoClosed_sent {w : WriteBurst} {p x : Part} (h : x.channel = (passed (.write w) p).channel) :
    autoClosed w.place x = { x with channel := { p.channel with
      toDram := some (.named (.write w))
      banks := if w.place.autoClose then p.channel.banks.set w.place.bank.toNat none else p.channel.banks } } := by
  rw [autoClosed_passed h, sent_eq]

theorem write_reaches {p : Part} {w : WriteBurst} {row : BitVec 15} {r : Region} (ha : p.channel.state = .active) (hl : p.channel.learned = true) (hr : p.channel.row w.place.bank = some row) (hc : p.windows.classify (lineAddress row w.place) = r) (hcap : r.capturing = true) :
    channelWrite w p = autoClosed w.place (handWrite r (lineAddress row w.place) (p.lanesOf w) (passed (.write w) p)) := by
  rw [channelWrite_open ha hr]
  congr 1
  unfold writeAccess writeAccessBy
  have e : (passed (.write w) p).windows.classify (lineAddress row w.place) = r := hc
  have hl : (passed (.write w) p).channel.learned = true := hl
  simp only [e, hcap, hl, Bool.not_true, Bool.false_eq_true, if_false, if_true]

theorem captured_of_classify {w : Windows} {a : Nat} (h : w.classify a = .capture) : w.captured a = true := by
  unfold Windows.classify at h
  split at h
  · exfalso; revert h; unfold anchorRegion; (repeat' split) <;> simp
  · split at h
    · cases h
    · split at h
      · assumption
      · exfalso; revert h; (repeat' split) <;> simp

end Sys2Proof.Machine
end

