-- ==== Sys2Proof/Laws/Keep.lean ====
section
/-! SUPPORT. What the end of an event keeps of the queues and entries where nothing can start, and how discards
commute with the queues. -/

namespace Sys2Proof.Machine

theorem still_iff {p : Part} : p.Still ↔ p.still := by
  unfold Part.Still Part.still Part.attached
  simp

/-- The end of an event of which nothing starts raises at most three flags, and counts at most a return. -/
theorem closeEvent_still_flags (b : Part) {p : Part} (h : p.Still) :
    (∀ c, c ≠ .returns → (closeEvent b p).events.counters.get c = p.events.counters.get c) ∧
      ∀ f, (closeEvent b p).flag f = true →
        p.flag f = true ∨ f = .pathChanged ∨ f = .radioChanged ∨ f = .commandDone := by
  have hret : (∀ c, c ≠ .returns →
      (returnDrained p).events.counters.get c = p.events.counters.get c) ∧
      (returnDrained p).events.flags = p.events.flags ∧ (returnDrained p).radio = p.radio := by
    unfold returnDrained returnEnds
    split
    · exact ⟨fun _ _ => rfl, rfl, rfl⟩
    · split
      · refine ⟨fun c hc => ?_, rfl, rfl⟩
        change (Counters.put _ _ _).get c = _
        rw [counters_get_put, if_neg hc]
        rfl
      · exact ⟨fun _ _ => rfl, rfl, rfl⟩
  have hdet : ∀ r (q : Part), (endDetach r q).events.counters = q.events.counters ∧
      ∀ f, (endDetach r q).flag f = true → q.flag f = true ∨ f = .commandDone := by
    intro r q
    unfold endDetach
    split
    · exact ⟨rfl, fun f hf => (raise_flag_iff .commandDone f _).mp hf⟩
    · exact ⟨rfl, fun f hf => .inl hf⟩
  have hs := settle_settle (returnDrained p)
  have hsf : ∀ f, (settle (returnDrained p)).flag f = true →
      p.flag f = true ∨ f = .commandDone := by
    intro f hf
    have e : (settle (returnDrained p)).events = (reviewForced (returnDrained p)).events := by
      change (reviewDemand (reviewForced (returnDrained p))).events = _
      rw [reviewDemand_events]
    have hr : ∀ f, (returnDrained p).flag f = p.flag f := by
      intro f; unfold Part.flag; rw [hret.2.1]
    unfold Part.flag at hf
    rw [e] at hf
    change (reviewForced (returnDrained p)).flag f = true at hf
    unfold reviewForced at hf
    split at hf
    · rcases (hdet _ _).2 f hf with h | h
      · left; rw [← hr]; exact h
      · exact .inr h
    · left; rw [← hr]; exact hf
  have hst : (settle (returnDrained p)).still := by
    rcases still_iff.mp h with h | h
    · left; rw [hs.lane, hret.2.2]; exact h
    · right; rw [hs.attached]; simp only [Part.attached, hret.2.2]; exact h
  have ht : (takeLane (settle (returnDrained p))).events = (settle (returnDrained p)).events := by
    rcases takeLane_still hst with e | ⟨n, e⟩ <;> rw [e]
    rfl
  have hd : (reviewDetach (takeLane (settle (returnDrained p)))).events.counters =
      (returnDrained p).events.counters ∧
      ∀ f, (reviewDetach (takeLane (settle (returnDrained p)))).flag f = true →
        p.flag f = true ∨ f = .commandDone := by
    have htf : ∀ f, (takeLane (settle (returnDrained p))).flag f = true →
        p.flag f = true ∨ f = .commandDone := by
      intro f hf; unfold Part.flag at hf; rw [ht] at hf; exact hsf f hf
    unfold reviewDetach
    split
    · exact ⟨by rw [ht, hs.counters], htf⟩
    · refine ⟨by rw [(hdet _ _).1, ht, hs.counters], fun f hf => ?_⟩
      rcases (hdet _ _).2 f hf with h | h
      · exact htf f h
      · exact .inr h
  unfold closeEvent
  generalize reviewDetach (takeLane (settle (returnDrained p))) = z at *
  have hr : ∀ (b : Bool) f (q : Part), (raiseIf b f q).events.counters = q.events.counters ∧
      ∀ g, (raiseIf b f q).flag g = true → q.flag g = true ∨ g = f := by
    intro b f q
    cases b
    · exact ⟨rfl, fun g hg => .inl hg⟩
    · exact ⟨rfl, fun g hg => (raise_flag_iff f g q).mp hg⟩
  unfold noteChanges
  refine ⟨fun c hc => ?_, fun f hf => ?_⟩
  · rw [(hr _ _ _).1, (hr _ _ _).1, hd.1]; exact hret.1 c hc
  · rcases (hr _ _ _).2 f hf with h | h
    · rcases (hr _ _ _).2 f h with h | h
      · rcases hd.2 f h with h | h
        · exact .inl h
        · exact .inr (.inr (.inr h))
      · exact .inr (.inl h)
    · exact .inr (.inr (.inl h))

theorem closeEvent_keeps (b : Part) {p : Part} (h : p.Still) : Keeps p (closeEvent b p) := by
  have k := closeEvent_still (b := b) (still_iff.mp h)
  have f := closeEvent_still_flags b h
  exact ⟨k.2.1, k.2.2.1, k.2.2.2.1, f.1, f.2⟩

theorem Keeps.trans {p q r : Part} (h : Keeps p q) (k : Keeps q r) : Keeps p r :=
  ⟨k.relay.trans h.relay, k.uplink.trans h.uplink, k.outstanding.trans h.outstanding,
    fun c hc => (k.counters c hc).trans (h.counters c hc),
    fun f hf => (k.flags f hf).elim (h.flags f) .inr⟩

/-- A change of channel monitor and command unit on both sides. -/
theorem Keeps.swap {p q : Part} (h : Keeps p q) (c d : Channel) (a e : Command) :
    Keeps { p with channel := c, command := a } { q with channel := d, command := e } :=
  ⟨h.relay, h.uplink, h.outstanding, h.counters, h.flags⟩

/-- COMMAND_DONE raised on the later side. -/
theorem Keeps.done {p q : Part} (h : Keeps p q) : Keeps p (raise .commandDone q) :=
  ⟨h.relay, h.uplink, h.outstanding, h.counters, fun f hf =>
    ((raise_flag_iff .commandDone f q).mp hf).elim (h.flags f) fun e => .inr (.inr (.inr e))⟩

theorem discardFrames_append (r : Discard) (a b : List Frame) (p : Part) :
    discardFrames r (a ++ b) p = discardFrames r b (discardFrames r a p) := by
  unfold discardFrames; rw [List.foldl_append]

/-- Discarding reads and writes nothing of the relay. -/
theorem discardParts_setQueue (r : Discard) (is : List Nat) (c : ServiceClass) (l : List Frame) (p : Part) :
    setQueue c l (discardParts r is p) = discardParts r is (setQueue c l p) := by
  unfold discardParts raiseIf setQueue; split <;> rfl
theorem discardFrames_setQueue (r : Discard) (fs : List Frame) (c : ServiceClass) (l : List Frame) (p : Part) :
    setQueue c l (discardFrames r fs p) = discardFrames r fs (setQueue c l p) := by
  unfold discardFrames
  induction fs generalizing p with
  | nil => rfl
  | cons f fs ih => rw [List.foldl_cons, List.foldl_cons, ih, discardParts_setQueue]


theorem settle_events {p : Part} (h : p.command.running ≠ some .radioDetach) :
    (settle p).events = p.events := by
  change (reviewDemand (reviewForced p)).events = _
  rw [reviewDemand_events]
  unfold reviewForced
  split
  · rw [endDetach_command (by simpa using h)]; rfl
  · rfl

/-- Where nothing can start and no RADIO_DETACH is in execution, the end of an event counts what R91 and R93 do
and raises the two flags of what changed (R81, R106). -/
theorem closeEvent_still_events {b p : Part} (h : p.Still)
    (hc : p.command.running ≠ some .radioDetach) :
    (closeEvent b p).events.counters = (returnDrained p).events.counters ∧
      ∀ g, (closeEvent b p).flag g = true → p.flag g = true ∨
        g = .pathChanged ∧ pathMoved b.path (closeEvent b p).path = true ∨
        g = .radioChanged ∧ (b.radio.state != (closeEvent b p).radio.state) = true := by
  have h1 := returnDrained_command p
  have hc1 : (returnDrained p).command.running ≠ some .radioDetach := by rw [h1.1]; exact hc
  have hs := settle_settle (returnDrained p)
  have hst : (settle (returnDrained p)).still := by
    rcases still_iff.mp h with h | h
    · left; rw [hs.lane, h1.2]; exact h
    · right; rw [hs.attached]; simp only [Part.attached, h1.2]; exact h
  have he := settle_events hc1
  have hcs : (settle (returnDrained p)).command.running ≠ some .radioDetach := by
    rw [settle_command hc1]; exact hc1
  have ht : (takeLane (settle (returnDrained p))).events = (returnDrained p).events ∧
      (takeLane (settle (returnDrained p))).command.running ≠ some .radioDetach := by
    rcases takeLane_still hst with e | ⟨n, e⟩ <;> rw [e]
    · exact ⟨he, hcs⟩
    · exact ⟨he, hcs⟩
  have hd : reviewDetach (takeLane (settle (returnDrained p))) =
      takeLane (settle (returnDrained p)) := by
    unfold reviewDetach
    split
    · rfl
    · exact endDetach_command ht.2
  have e : closeEvent b p = noteChanges b (takeLane (settle (returnDrained p))) := by
    unfold closeEvent; rw [hd]
  have hflags : (returnDrained p).events.flags = p.events.flags := by
    unfold returnDrained returnEnds
    split
    · rfl
    · split <;> rfl
  rw [e]
  generalize takeLane (settle (returnDrained p)) = z at *
  have hp : ∀ (b : Bool) f (q : Part), (raiseIf b f q).path = q.path ∧ (raiseIf b f q).radio = q.radio ∧
      (raiseIf b f q).events.counters = q.events.counters := by
    intro b f q; cases b <;> exact ⟨rfl, rfl, rfl⟩
  unfold noteChanges
  rw [(hp _ _ _).1, (hp _ _ _).1, (hp _ _ _).2.1, (hp _ _ _).2.1, (hp _ _ _).2.2, (hp _ _ _).2.2, ht.1]
  refine ⟨rfl, fun g hg => ?_⟩
  have hz : ∀ g, z.flag g = p.flag g := by
    intro g; unfold Part.flag; rw [ht.1, hflags]
  have hr : ∀ (b : Bool) f (q : Part), (raiseIf b f q).flag g = true → q.flag g = true ∨ g = f ∧ b = true := by
    intro b f q hq
    cases b
    · exact .inl hq
    · exact ((raise_flag_iff f g q).mp hq).imp id fun h => ⟨h, rfl⟩
  rcases hr _ _ _ hg with h | ⟨h, h'⟩
  · rcases hr _ _ _ h with h | ⟨h, h'⟩
    · left; rw [← hz]; exact h
    · exact .inr (.inl ⟨h, h'⟩)
  · exact .inr (.inr ⟨h, h'⟩)

end Sys2Proof.Machine
end

