-- ==== Sys2Proof/Laws/Judge.lean ====
section
/-! SUPPORT. What an event comes to that makes new live conditions (R64 to R70, R75, R82 to R94). -/

namespace Sys2Proof.Machine

theorem enterSuspect_path (p : Part) :
    (enterSuspect p).path =
      if (if p.path.causes.has .los then p.path.settings.losDwell else p.path.settings.failDwell) = 0 then
        p.pathDwelt
      else { p.path with service := .suspect, dwell := some (p.clock.now +
        if p.path.causes.has .los then p.path.settings.losDwell else p.path.settings.failDwell) } := by
  unfold enterSuspect
  dsimp only
  generalize (if p.path.causes.has .los then p.path.settings.losDwell
    else p.path.settings.failDwell) = d
  split
  · rw [dwellEnds_path]; rfl
  · rfl

theorem dwellEnds_relay (p : Part) : (dwellEnds p).relay = p.relay := by
  unfold dwellEnds; split <;> rfl

theorem enterSuspect_relay (p : Part) : (enterSuspect p).relay = p.relay := by
  unfold enterSuspect
  dsimp only
  generalize (if p.path.causes.has .los then p.path.settings.losDwell
    else p.path.settings.failDwell) = d
  split
  · exact dwellEnds_relay _
  · rfl

theorem takeVerdict_radio (a b : Bool) (p : Part) : (takeVerdict a b p).radio = p.radio := by
  unfold takeVerdict
  split
  · rw [apply_ite Part.radio, enterSuspect_radio, ite_self]
  all_goals (repeat' split) <;> rfl

theorem takeVerdict_relay (a b : Bool) (p : Part) : (takeVerdict a b p).relay = p.relay := by
  unfold takeVerdict
  split
  · rw [apply_ite Part.relay, enterSuspect_relay, ite_self]
  all_goals (repeat' split) <;> rfl

/-- The path controller as a verdict is handed to it. -/
theorem takeVerdict_path (was : Path) (p : Part) :
    (takeVerdict (decide (was.verdict = .bad)) (was.causes.has .los) p).path = p.pathJudged was := by
  unfold takeVerdict Part.pathJudged Part.isBad
  dsimp only
  generalize was.causes.has .los = l
  generalize hb : decide (p.path.verdict = .bad) = b
  generalize decide (was.verdict = .bad) = c
  cases p.path.service with
  | fibre =>
    cases b
    · rfl
    · simp only [if_true, Bool.not_true, Bool.false_eq_true, if_false]
      exact enterSuspect_path p
  | suspect => cases b <;> cases c <;> cases l <;> simp <;> split <;> rfl
  | radio => cases b <;> rfl
  | proving => cases b <;> rfl
  | stranded =>
    cases b <;> cases c <;> simp [Part.attached]
    · rfl
    · split
      · exact enterRadioSide_radio p
      · rfl
  | returning =>
    cases b
    · rfl
    · exact enterRadioSide_radio p
  | forcedFibre => rfl
  | forcedRadio => rfl

/-- After a verdict is taken no class has run empty that had not before. -/
theorem pathJudged_noneDrained {p : Part} (was : Path) (h : p.NoneDrained) {q : Part}
    (hp : q.path = p.pathJudged was) (hq : q.relay.queues = p.relay.queues)
    (ho : q.radio.outstanding = p.radio.outstanding) : q.NoneDrained := by
  have hd : (p.pathJudged was).classes = p.path.classes ∨ (p.pathJudged was).undrained := by
    have hw := pathDwelt_undrained p
    have hr := pathRadio_undrained p
    unfold Part.pathJudged
    dsimp only
    (repeat' split) <;> first | exact .inl rfl | exact .inr hw | exact .inr hr
  intro c hc
  have hs : q.sentOf c = p.sentOf c := by unfold Part.sentOf; rw [ho]
  rw [hs, hq]
  rw [hp] at hc
  rcases hd with hd | hd
  · rw [hd] at hc; exact h c hc
  · exact absurd hc (hd.1 c)

theorem setLive_eq (live : Conditions) (p : Part) :
    setLive live p = raiseIf ((p.health.after live).latched != p.health.latched) .latched
      { p with health := { p.health with live := live, latched := (p.health.after live).latched } } := by
  unfold setLive
  dsimp only
  have : (p.health.latchable (live &&& ~~~p.health.live) &&& ~~~p.health.latched != 0) =
      ((p.health.after live).latched != p.health.latched) := by
    unfold Health.after
    dsimp only
    generalize p.health.latchable (live &&& ~~~p.health.live) = a
    generalize p.health.latched = b
    have : (a &&& ~~~b = 0) ↔ (b ||| a = b) := by
      constructor
      · intro h
        apply BitVec.eq_of_getLsbD_eq
        intro i hi
        have := congrArg (fun x => x.getLsbD i) h
        simp only [BitVec.getLsbD_and, BitVec.getLsbD_not, hi, decide_true, Bool.true_and] at this
        simp only [BitVec.getLsbD_or]
        revert this
        cases a.getLsbD i <;> cases b.getLsbD i <;> simp
      · intro h
        apply BitVec.eq_of_getLsbD_eq
        intro i hi
        have := congrArg (fun x => x.getLsbD i) h
        simp only [BitVec.getLsbD_or] at this
        simp only [BitVec.getLsbD_and, BitVec.getLsbD_not, hi, decide_true, Bool.true_and]
        revert this
        cases a.getLsbD i <;> cases b.getLsbD i <;> simp
    by_cases h : a &&& ~~~b = 0
    · have := this.mp h; simp_all
    · have := mt this.mpr h
      rw [show (a &&& ~~~b != 0) = true from by simpa using h,
        show (b ||| a != b) = true from by simpa using this]
  rw [this]
  rfl

theorem setLive_path (live : Conditions) (p : Part) :
    (setLive live p).path = p.path ∧ (setLive live p).radio = p.radio ∧
      (setLive live p).relay = p.relay := by
  unfold setLive raiseIf
  dsimp only
  split <;> exact ⟨rfl, rfl, rfl⟩

/-- An evaluation, as `conditionsTo` makes it. -/
theorem evaluate_cases (live : Conditions) (x : Part) :
    let same := x.health.hold = true ∨ verdictOf live = (x.health.verdict, x.health.causes)
    (same → conditionsTo live x = setLive live x) ∧
      (¬same → ∃ z : Part,
        z.path = { x.path with verdict := (verdictOf live).1, causes := (verdictOf live).2 } ∧
        z.radio = x.radio ∧ z.relay = x.relay ∧ z.clock = x.clock ∧ Mild (setLive live x) z ∧
        ((verdictOf live).1 ≠ x.health.verdict → z.flag .verdictChanged = true) ∧
        conditionsTo live x =
          takeVerdict (decide (x.path.verdict = .bad)) (x.path.causes.has .los) z) := by
  intro same
  have hsl := setLive_path live x
  have hh : (setLive live x).health.hold = x.health.hold ∧
      (setLive live x).health.verdict = x.health.verdict ∧
      (setLive live x).health.causes = x.health.causes ∧ (setLive live x).health.live = live ∧
      (setLive live x).clock = x.clock := by
    unfold setLive raiseIf
    dsimp only
    split <;> exact ⟨rfl, rfl, rfl, rfl, rfl⟩
  unfold conditionsTo
  generalize setLive live x = w at *
  have hiff : (w.health.hold = true ∨
      (verdictOf w.health.live).1 = w.health.verdict ∧ (verdictOf w.health.live).2 = w.health.causes) ↔
      same := by
    rw [hh.1, hh.2.1, hh.2.2.1, hh.2.2.2.1]
    exact or_congr Iff.rfl (by rw [Prod.ext_iff])
  constructor
  · intro h
    exact if_pos (hiff.mpr h)
  · intro h
    have e : evaluate w = _ := if_neg (fun hc => h (hiff.mp hc))
    refine ⟨{ raiseIf ((verdictOf w.health.live).1 != w.health.verdict) .verdictChanged
        (w.withHealth { w.health with
          verdict := (verdictOf w.health.live).1, causes := (verdictOf w.health.live).2 }) with
        path := { w.path with
          verdict := (verdictOf w.health.live).1, causes := (verdictOf w.health.live).2 } },
      ?_, ?_, ?_, ?_, ?_, ?_, ?_⟩
    · rw [hh.2.2.2.1, hsl.1]
    · refine Eq.trans ?_ hsl.2.1
      unfold raiseIf; dsimp only; split <;> rfl
    · refine Eq.trans ?_ hsl.2.2
      unfold raiseIf; dsimp only; split <;> rfl
    · refine Eq.trans ?_ hh.2.2.2.2
      unfold raiseIf; dsimp only; split <;> rfl
    · have h1 : Mild w (w.withHealth { w.health with
          verdict := (verdictOf w.health.live).1, causes := (verdictOf w.health.live).2 }) :=
        Mild.of_eq rfl rfl
      have h2 := h1.trans
        (raiseIf_mild ((verdictOf w.health.live).1 != w.health.verdict) .verdictChanged _)
      exact ⟨h2.flags, h2.counters, h2.hosts⟩
    · intro hv
      rw [hh.2.2.2.1, hh.2.1]
      have : ((verdictOf live).1 != x.health.verdict) = true := by simpa using hv
      rw [this]
      exact raise_flag .verdictChanged _
    · rw [e, ← hsl.1]
      congr 1
      unfold raiseIf; split <;> rfl

/-- What new live conditions `live` make of the part `x` within an event, before the event ends (R64 to R70, R75). -/
structure Turns (live : Conditions) (x z : Part) : Prop where
  ends : EventEnds
    { x with
      health := x.health.after live
      path := { x.path with verdict := z.path.verdict, causes := z.path.causes } } z
  latched : (x.health.after live).latched ≠ x.health.latched → z.flag .latched = true
  changed : (x.health.after live).verdict ≠ x.health.verdict → z.flag .verdictChanged = true
  path : z.path =
    if x.health.hold ∨ verdictOf live = (x.health.verdict, x.health.causes) then x.path
    else
      ({ x with path := { x.path with
        verdict := (verdictOf live).1, causes := (verdictOf live).2 } } : Part).pathJudged x.path
  radio : z.radio = x.radio
  relay : z.relay = x.relay

/-- What an evaluation does within its event. -/
theorem conditionsTo_turns (live : Conditions) (x : Part) : Turns live x (conditionsTo live x) := by
  have hfr := conditionsTo_frame live x
  have hmi := conditionsTo_mild live x
  have hhe := conditionsTo_health live x
  have hc := evaluate_cases live x
  have hsl := setLive_path live x
  dsimp only at hc
  have hne : (x.health.after live).verdict ≠ x.health.verdict →
      ¬(x.health.hold = true ∨ verdictOf live = (x.health.verdict, x.health.causes)) := by
    rintro h (h1 | h1)
    · apply h; unfold Health.after; dsimp only; rw [if_pos h1]
    · apply h; unfold Health.after; dsimp only; rw [h1, ite_self]
  refine ⟨⟨?_, Mild.after hmi (Mild.of_eq rfl rfl)⟩, fun h => ?_, fun h => ?_, ?_, ?_, ?_⟩
  · rw [hhe] at hfr
    exact hfr
  · have h0 : (setLive live x).flag .latched = true := by
      rw [setLive_eq]
      have : ((x.health.after live).latched != x.health.latched) = true := by simpa using h
      rw [this]
      exact raise_flag .latched _
    exact (evaluate_mild _).flags _ h0
  · obtain ⟨z, -, -, -, -, -, hz, e⟩ := hc.2 (hne h)
    rw [e]
    apply (takeVerdict_mild _ _ _).flags
    apply hz
    intro hv
    apply h
    unfold Health.after
    dsimp only
    rw [hv, ite_self]
  all_goals by_cases hsame : x.health.hold = true ∨ verdictOf live = (x.health.verdict, x.health.causes)
  · rw [if_pos hsame, hc.1 hsame, hsl.1]
  · rw [if_neg hsame]
    obtain ⟨z, h1, h2, h3, h4, -, -, e⟩ := hc.2 hsame
    rw [e, takeVerdict_path x.path z]
    unfold Part.pathJudged Part.pathDwelt Part.pathRadio Part.pathStranded
    rw [h1, h2, h3, h4]
  · rw [hc.1 hsame, hsl.2.1]
  · obtain ⟨z, -, h2, -, -, -, -, e⟩ := hc.2 hsame
    rw [e, takeVerdict_radio, h2]
  · rw [hc.1 hsame, hsl.2.2]
  · obtain ⟨z, -, -, h3, -, -, -, e⟩ := hc.2 hsame
    rw [e, takeVerdict_relay, h3]

/-- The end of an event that makes new live conditions (R64 to R70, R75). -/
theorem Turns.close {live : Conditions} {x z : Part} (h : Turns live x z) (b : Part) :
    Judged live x (closeEvent b z) := by
  have hm := closeEvent_mild b z
  have hends := (closeEvent_ends b z).frame
  refine ⟨?_, fun k => hm.flags _ (h.latched k), fun k => hm.flags _ (h.changed k), fun hs hn => ?_⟩
  · have h2 := h.ends.trans (closeEvent_ends b z)
    have hv : (closeEvent b z).path.verdict = z.path.verdict ∧ (closeEvent b z).path.causes = z.path.causes := by
      rw [hends.path]; exact ⟨rfl, rfl⟩
    rw [hv.1, hv.2]
    exact h2
  · have hs' : z.Stays := by unfold Part.Stays; rw [h.radio]; exact hs
    have hn' : z.NoneDrained := by
      have hp := h.path
      split at hp
      · exact fun c => by unfold Part.sentOf; rw [hp, h.radio, h.relay]; exact hn c
      · exact pathJudged_noneDrained x.path
          (p := { x with path := { x.path with verdict := (verdictOf live).1, causes := (verdictOf live).2 } })
          hn hp (by rw [h.relay]) (by rw [h.radio])
    rw [closeEvent_path_stays hs', returnDrained_keeps hn', h.path]

theorem conditionsTo_judged (b : Part) (live : Conditions) (x : Part) :
    Judged live x (closeEvent b (conditionsTo live x)) := (conditionsTo_turns live x).close b

/-- What else the event does to the channel monitor, the command unit, the staging store and the staleness timer has
no part in it. -/
theorem Turns.beside {live : Conditions} {x z : Part} (h : Turns live x z) (c : Channel) (k l : Command)
    (hl : l = { k with running := l.running, result := l.result, data := l.data }) (u : List Staged) (t : Staleness) :
    Turns live
      { x with
        channel := c, command := k, uplink := { x.uplink with staging := u }
        health := { x.health with stale := t } }
      { z with
        channel := c, command := l, uplink := { z.uplink with staging := u }
        health := { z.health with stale := t } } :=
  ⟨⟨⟨h.ends.frame.clock, rfl, h.ends.frame.windows,
      congrArg (fun y : Health => { y with stale := t }) h.ends.frame.health, h.ends.frame.delivery,
      hl, h.ends.frame.optical, h.ends.frame.path, h.ends.frame.radio,
      h.ends.frame.relay, congrArg (fun y : Uplink => { y with staging := u }) h.ends.frame.uplink, h.ends.frame.events⟩,
    ⟨h.ends.mild.flags, h.ends.mild.counters, h.ends.mild.hosts⟩⟩,
    h.latched, h.changed, h.path, h.radio, h.relay⟩

/-- The channel monitor has no part in it. -/
theorem Judged.swapChannel {live : Conditions} {x q : Part} (h : Judged live x q) (c : Channel) :
    Judged live { x with channel := c } { q with channel := c } :=
  ⟨⟨⟨h.ends.frame.clock, rfl, h.ends.frame.windows, h.ends.frame.health, h.ends.frame.delivery,
      h.ends.frame.command, h.ends.frame.optical, h.ends.frame.path, h.ends.frame.radio,
      h.ends.frame.relay, h.ends.frame.uplink, h.ends.frame.events⟩,
    ⟨h.ends.mild.flags, h.ends.mild.counters, h.ends.mild.hosts⟩⟩,
    h.latched, h.changed, h.path⟩

theorem conditionsChange_turned (b : Part) (live : Conditions) (x : Part) :
    Turned live x (closeEvent b (conditionsChange live x)) := by
  unfold Turned conditionsChange
  split
  · refine ⟨closeEvent_ends b x, fun hs hn => ?_⟩
    rw [closeEvent_path_stays hs, returnDrained_keeps hn]
  · exact conditionsTo_judged b live x

end Sys2Proof.Machine
end

