-- ==== Sys2Proof/Laws/Queues.lean ====
section
/-! SUPPORT. Whole class queues discarded, as one list of frames; what an event counts where no request to
detach starts. -/

namespace Sys2Proof.Machine

/-! ### Discarding does not look at path or radio -/

theorem discardParts_withPath (r : Discard) (is : List Nat) (y : Path) (p : Part) :
    discardParts r is { p with path := y } = { discardParts r is p with path := y } := by
  unfold discardParts raiseIf; split <;> rfl

theorem discardFrames_withPath (r : Discard) (fs : List Frame) (y : Path) (p : Part) :
    discardFrames r fs { p with path := y } = { discardFrames r fs p with path := y } := by
  unfold discardFrames
  induction fs generalizing p with
  | nil => rfl
  | cons f fs ih => rw [List.foldl_cons, List.foldl_cons, discardParts_withPath, ih]

theorem discardParts_withRadio (r : Discard) (is : List Nat) (y : Radio) (p : Part) :
    discardParts r is { p with radio := y } = { discardParts r is p with radio := y } := by
  unfold discardParts raiseIf; split <;> rfl

theorem discardFrames_withRadio (r : Discard) (fs : List Frame) (y : Radio) (p : Part) :
    discardFrames r fs { p with radio := y } = { discardFrames r fs p with radio := y } := by
  unfold discardFrames
  induction fs generalizing p with
  | nil => rfl
  | cons f fs ih => rw [List.foldl_cons, List.foldl_cons, discardParts_withRadio, ih]

theorem discardParts_withRelay (r : Discard) (is : List Nat) (y : Relay) (p : Part) :
    discardParts r is { p with relay := y } = { discardParts r is p with relay := y } := by
  unfold discardParts raiseIf; split <;> rfl

theorem discardFrames_withRelay (r : Discard) (fs : List Frame) (y : Relay) (p : Part) :
    discardFrames r fs { p with relay := y } = { discardFrames r fs p with relay := y } := by
  unfold discardFrames
  induction fs generalizing p with
  | nil => rfl
  | cons f fs ih => rw [List.foldl_cons, List.foldl_cons, discardParts_withRelay, ih]

/-! ### Whole queues -/

theorem discardQueues_eq (r : Discard) (cs : List ServiceClass) (h : cs.Nodup) (p : Part) :
    discardQueues r cs p =
      discardFrames r (cs.flatMap p.relay.queues.get)
        { p with relay := { p.relay with
            queues := PerClass.ofFn fun c => if c ∈ cs then [] else p.relay.queues.get c } } := by
  unfold discardQueues
  induction cs generalizing p with
  | nil =>
    have : (PerClass.ofFn fun c => if c ∈ ([] : List ServiceClass) then [] else p.relay.queues.get c) =
        p.relay.queues := by
      apply PerClass.ext_get; intro c; rw [PerClass.get_ofFn]; rfl
    rw [this]; rfl
  | cons c cs ih =>
    have hn := List.nodup_cons.mp h
    rw [List.foldl_cons, ih hn.2]
    unfold discardQueue
    have hq : (discardFrames r (p.relay.queues.get c) (setQueue c [] p)).relay =
        { p.relay with queues := p.relay.queues.set c [] } := (discardFrames_path _ _ _).2
    rw [hq]
    have h1 : cs.flatMap (p.relay.queues.set c []).get = cs.flatMap p.relay.queues.get := by
      rw [List.flatMap_def, List.flatMap_def]
      refine congrArg _ (List.map_congr_left fun d hd => ?_)
      rw [PerClass.get_set, if_neg]
      rintro rfl; exact hn.1 hd
    have h2 : (PerClass.ofFn fun d => if d ∈ cs then [] else (p.relay.queues.set c []).get d) =
        PerClass.ofFn fun d => if d ∈ c :: cs then [] else p.relay.queues.get d := by
      apply congrArg; funext d
      rw [PerClass.get_set]
      by_cases hd : d = c
      · subst hd; simp
      · simp [hd]
    show discardFrames r (cs.flatMap (p.relay.queues.set c []).get)
      { discardFrames r (p.relay.queues.get c) (setQueue c [] p) with relay := { p.relay with
            queues := PerClass.ofFn fun d => if d ∈ cs then [] else (p.relay.queues.set c []).get d } } = _
    rw [h1, h2, ← discardFrames_withRelay, ← discardFrames_append]
    rfl

theorem discardQueues_unqueued (r : Discard) (sel : ServiceClass → Bool) (p : Part) :
    discardQueues r (classes.filter sel) p = p.unqueued r sel := by
  rw [discardQueues_eq r _ (List.Nodup.filter _ (by decide))]
  unfold Part.unqueued
  have : (fun c => if c ∈ classes.filter sel then [] else p.relay.queues.get c) =
      fun c => if sel c then [] else p.relay.queues.get c := by
    funext c
    have : c ∈ classes := by cases c <;> decide
    simp [this]
  rw [this]

theorem discardFibre_unqueued (r : Discard) (p : Part) :
    discardFibre r p = p.unqueued r fun c => (p.path.classes.get c).word = .fibre :=
  discardQueues_unqueued r _ p

theorem unqueued_withPath (r : Discard) (sel : ServiceClass → Bool) (y : Path) (p : Part) :
    ({ p with path := y } : Part).unqueued r sel = { p.unqueued r sel with path := y } := by
  unfold Part.unqueued
  exact discardFrames_withPath r _ y { p with relay := { p.relay with
    queues := PerClass.ofFn fun c => if sel c then [] else p.relay.queues.get c } }

theorem unqueued_radio (r : Discard) (sel : ServiceClass → Bool) (p : Part) :
    (p.unqueued r sel).radio = p.radio := discardFrames_radio _ _ _

theorem unqueued_path (r : Discard) (sel : ServiceClass → Bool) (p : Part) :
    (p.unqueued r sel).path = p.path := (discardFrames_path _ _ _).1

theorem unqueued_clock (r : Discard) (sel : ServiceClass → Bool) (p : Part) :
    (p.unqueued r sel).clock = p.clock := discardFrames_clock _ _ _

theorem unqueued_queues (r : Discard) (sel : ServiceClass → Bool) (p : Part) (c : ServiceClass) :
    (p.unqueued r sel).relay.queues.get c = if sel c then [] else p.relay.queues.get c := by
  unfold Part.unqueued
  rw [(discardFrames_path _ _ _).2]
  exact PerClass.get_ofFn _ c

theorem unqueued_mild (r : Discard) (sel : ServiceClass → Bool) (p : Part) : Mild p (p.unqueued r sel) := by
  rw [← discardQueues_unqueued]; exact discardQueues_mild _ _ p

/-! ### What is counted where no request to detach starts -/

theorem takeLane_stays_counters {p : Part} (h : p.Stays) :
    (takeLane (settle p)).events.counters = p.events.counters := by
  have hs := (settle_settle p).counters
  unfold takeLane
  split
  · exact hs
  · rename_i hl
    split
    · split
      · exact hs
      · exact hs
    · rename_i f hc
      by_cases ha : (settle p).attached
      · rw [if_pos ha]
        by_cases hf : p.path.service = .fibre
        · have h1 : (startDetachReq (settle p)).events = (settle p).events := by
            unfold startDetachReq moduleTo
            simp only [Module.restarts, reduceCtorEq, or_self, decide_true, Bool.not_true, Bool.and_false,
              Bool.false_eq_true, if_false]
            have hp : (settle p).path.service = .fibre := by rw [(settle_settle p).path]; exact hf
            split
            · unfold leftAttached pathDetached
              simp only [Part.withRadio, hp]
            · rfl
          rw [(settle_settle _).counters, h1, hs]
        · have hn : p.radio.control ≠ some (.detachReq true) := by
            rcases h with h | h
            · exact h
            · exfalso; apply hl; rw [(settle_settle p).lane]; exact h
          exact absurd hc (settle_noRequest hf hn ha f)
      · rw [if_neg ha]; exact hs
    · unfold trySend
      split
      · split
        · exact hs
        · exact hs
      · exact hs

theorem reviewDetach_counters (p : Part) :
    (reviewDetach p).events.counters = p.events.counters := by
  unfold reviewDetach
  split
  · rfl
  · unfold endDetach; split <;> rfl

/-- Where no forced request to detach can start an event counts, as it ends, only an ended RETURNING. -/
theorem closeEvent_stays_counters {b p : Part} (h : p.Stays) :
    (closeEvent b p).events.counters = (returnDrained p).events.counters := by
  have hr : (returnDrained p).Stays := by
    unfold Part.Stays; rw [(returnDrained_command p).2]; exact h
  have hn := (noteChanges_settle b (reviewDetach (takeLane (settle (returnDrained p))))).counters
  unfold closeEvent
  rw [hn, reviewDetach_counters, takeLane_stays_counters hr]

end Sys2Proof.Machine
end

