-- ==== Sys2Proof/Laws/Moves.lean ====
section
/-! SUPPORT. Ending a command beside an evaluation, moves of the path controller alone, and the ends of
RETURNING. -/

namespace Sys2Proof.Machine

theorem evaluate_eq (p : Part) : evaluate p = conditionsTo p.health.live p := by
  have : setLive p.health.live p = p := by
    unfold setLive Health.latchable
    simp [raiseIf, Part.withHealth]
  unfold conditionsTo; rw [this]

theorem finish_raiseIf (r : Byte) (d : List Byte) (b : Bool) (f : Flag) (p : Part) :
    finish r d (raiseIf b f p) = raiseIf b f (finish r d p) := by
  cases b
  · rfl
  · unfold finish raiseIf raise
    simp only [if_true, Bool.true_eq_false, BitVec.or_assoc, BitVec.or_comm Flag.commandDone.mask]

theorem finish_enterSuspect (r : Byte) (d : List Byte) (p : Part) :
    finish r d (enterSuspect p) = enterSuspect (finish r d p) := by
  unfold enterSuspect
  dsimp only
  rw [show (finish r d p).path = p.path from rfl]
  generalize (if p.path.causes.has .los then p.path.settings.losDwell
    else p.path.settings.failDwell) = w
  by_cases h : w = 0
  · rw [if_pos h, if_pos h]
    unfold dwellEnds
    by_cases ha : p.attached
    · rw [if_pos (by exact ha), if_pos (by exact ha)]; rfl
    · rw [if_neg (by exact ha), if_neg (by exact ha)]; rfl
  · rw [if_neg h, if_neg h]; rfl

theorem finish_takeVerdict (r : Byte) (d : List Byte) (a b : Bool) (p : Part) :
    finish r d (takeVerdict a b p) = takeVerdict a b (finish r d p) := by
  unfold takeVerdict
  rw [show (finish r d p).path = p.path from rfl, show (finish r d p).isBad = p.isBad from rfl,
    show (finish r d p).attached = p.attached from rfl]
  cases p.path.service <;> cases p.isBad <;> cases a <;> cases p.attached <;>
    simp only [if_true, if_false, Bool.false_eq_true, finish_enterSuspect, Bool.true_and, Bool.false_and] <;>
    (repeat' split) <;> rfl

theorem finish_conditionsTo (r : Byte) (d : List Byte) (live : Conditions) (p : Part) :
    finish r d (conditionsTo live p) = conditionsTo live (finish r d p) := by
  have h1 : finish r d (setLive live p) = setLive live (finish r d p) := finish_raiseIf r d _ _ _
  unfold conditionsTo
  rw [← h1]
  generalize setLive live p = x
  unfold evaluate
  dsimp only
  rw [show (finish r d x).health = x.health from rfl]
  by_cases h : x.health.hold = true ∨ (verdictOf x.health.live).1 = x.health.verdict ∧ (verdictOf x.health.live).2 = x.health.causes
  · rw [if_pos h, if_pos h]
  · rw [if_neg h, if_neg h, finish_takeVerdict]
    refine congrArg (takeVerdict _ _) ?_
    have := finish_raiseIf r d ((verdictOf x.health.live).1 != x.health.verdict) .verdictChanged (x.withHealth
            { x.health with verdict := (verdictOf x.health.live).1, causes := (verdictOf x.health.live).2 })
    exact congrArg (fun y : Part => ({ y with path := { y.path with verdict := (verdictOf x.health.live).1, causes := (verdictOf x.health.live).2 } } : Part)) this

theorem kept_of {b x p : Part} (h1 : x.path = p.path) (h2 : x.radio = p.radio) (h3 : x.relay = p.relay)
    (hs : p.Stays) (hn : p.NoneDrained) : (closeEvent b x).path = p.path := by
  have hs' : x.Stays := by unfold Part.Stays; rw [h2]; exact hs
  have hn' : x.NoneDrained := by
    intro c; unfold Part.sentOf; rw [h1, h2, h3]; exact hn c
  rw [closeEvent_path_stays hs', returnDrained_keeps hn', h1]

theorem due_iff (t : Timer) (now : Nat) : Timer.due t now = true ↔ ∃ m, t = some m ∧ m ≤ now := by
  cases t <;> simp [Timer.due]

theorem over_iff (q : Path) : q.handedBack = true ↔ q.service = .returning ∧ ∀ c ∈ classes, (q.classes.get c).sub = .returned := by
  unfold Path.handedBack; simp

theorem returnEnds_eq (p : Part) :
    returnEnds p = count .returns (if p.path.handedBack then 1 else 0) { p with path := p.path.returned } := by
  unfold returnEnds Path.returned
  by_cases h : p.path.handedBack
  · rw [if_pos ((over_iff _).mp h), if_pos h, if_pos h]
  · rw [if_neg (fun g => h ((over_iff _).mpr g)), if_neg h, if_neg h]
    unfold count; rw [satAdd_zero]
    have : p.events.counters.put .returns (p.events.counters.get .returns) = p.events.counters := by
      rfl
    rw [this]

theorem EventEnds.trans' {x z q : Part} (h : EventEnds x z) (k : EventEnds z q) : EventEnds x q :=
  ⟨h.frame.trans k.frame, h.mild.trans k.mild⟩

theorem ends_of_path {x z : Part} (h : z = { x with path := z.path })
    (hp : z.path = { x.path with
      service := z.path.service, classes := z.path.classes, dwell := z.path.dwell, prove := z.path.prove,
      strandedProve := z.path.strandedProve, quiet := z.path.quiet, stick := z.path.stick }) :
    EventEnds x z := by
  have hev : z.events = x.events := by rw [h]
  have hu : z.uplink = x.uplink := by rw [h]
  refine ⟨?_, Mild.of_eq hev (by rw [hu])⟩
  have e := EventFrame.refl z
  constructor <;> first | exact hp | (rw [h])

theorem keeps_of_path {x z : Part} (h : z = { x with path := z.path }) : Keeps x z := by
  have hev : z.events = x.events := by rw [h]
  refine ⟨by rw [h], by rw [h], by rw [h], fun c _ => by rw [hev], fun f hf => .inl ?_⟩
  unfold Part.flag at *; rw [← hev]; exact hf

theorem moved_ends {b x z : Part} (h : z = { x with path := z.path })
    (hp : z.path = { x.path with
      service := z.path.service, classes := z.path.classes, dwell := z.path.dwell, prove := z.path.prove,
      strandedProve := z.path.strandedProve, quiet := z.path.quiet, stick := z.path.stick }) :
    EventEnds x (closeEvent b z) ∧ (x.Still → Keeps x (closeEvent b z)) := by
  refine ⟨(ends_of_path h hp).trans' (closeEvent_ends b z), fun hs => ?_⟩
  have hr : z.radio = x.radio := by rw [h]
  have : z.Still := by unfold Part.Still at *; rw [hr]; exact hs
  exact (keeps_of_path h).trans (closeEvent_keeps b this)

theorem returnDrained_waiting {z : Part}
    (h : z.path.service = .returning → z.path.classes.voice.sub = .waitingQuiet) :
    (returnDrained z).events.counters = z.events.counters := by
  unfold returnDrained
  split
  · rfl
  · unfold returnEnds
    rw [if_neg]
    · rfl
    · rintro ⟨hs, hall⟩
      have hv := hall .voice (by decide)
      have hw := h hs
      simp only [withPath_path, Path.mapClasses, PerClass.get_ofFn] at hv
      split at hv
      · rename_i hc
        have := (mem_drainedClasses z .voice).mp (by simpa using hc)
        have h1 : z.path.classes.voice.sub = .draining := this.1
        rw [hw] at h1; cases h1
      · have h1 : z.path.classes.voice.sub = .returned := hv
        rw [hw] at h1; cases h1

theorem returnEnds_eq' (p : Part) :
    returnEnds p = { count .returns (if p.path.handedBack then 1 else 0) p with path := p.path.returned } := by
  rw [returnEnds_eq]; rfl

theorem ends_count {n : Nat} {x q : Part} (h : EventEnds x q) : EventEnds (count .returns n x) q :=
  ⟨⟨h.frame.clock, h.frame.channel, h.frame.windows, h.frame.health, h.frame.delivery, h.frame.command, h.frame.optical, h.frame.path, h.frame.radio, h.frame.relay, h.frame.uplink, h.frame.events⟩,
   ⟨h.mild.flags, fun c h1 h2 h3 => (h.mild.counters c h1 h2 h3).trans (by
      show _ = (x.events.counters.put .returns _).get c
      rw [counters_get_put, if_neg h2]), h.mild.hosts⟩⟩

theorem keeps_count {n : Nat} {x q : Part} (h : Keeps x q) : Keeps (count .returns n x) q :=
  ⟨h.relay, h.uplink, h.outstanding, fun c h2 => (h.counters c h2).trans (by
      show _ = (x.events.counters.put .returns _).get c
      rw [counters_get_put, if_neg h2]), h.flags⟩

end Sys2Proof.Machine
end

