-- ==== Sys2Proof/Laws/Module.lean ====
section
/-! SUPPORT. Moves of the module as whole changes of the part (R111, R117, R118). -/

namespace Sys2Proof.Machine

theorem unqueued_empty {r : Discard} {sel : ServiceClass → Bool} {p : Part}
    (h : ∀ c, p.relay.queues.get c = []) : p.unqueued r sel = p := by
  unfold Part.unqueued
  have h1 : (classes.filter sel).flatMap p.relay.queues.get = [] := by
    rw [List.flatMap_eq_nil_iff]; exact fun c _ => h c
  have h2 : (PerClass.ofFn fun c => if sel c then [] else p.relay.queues.get c) = p.relay.queues := by
    apply PerClass.ext_get; intro c; rw [PerClass.get_ofFn, h c, ite_self]
  rw [h1, h2]; rfl

theorem discardFibre_empty {r : Discard} {p : Part} (h : ∀ c, p.relay.queues.get c = []) :
    discardFibre r p = p := by
  rw [discardFibre_unqueued, unqueued_empty h]

theorem enterSuspect_moves {p : Part} (ha : p.attached = false) :
    enterSuspect p = { p with path := (enterSuspect p).path } := by
  unfold enterSuspect
  dsimp only
  generalize (if p.path.causes.has .los then p.path.settings.losDwell
    else p.path.settings.failDwell) = d
  by_cases h : d = 0
  · rw [if_pos h]
    unfold dwellEnds
    have : ¬Part.attached { p with path := { p.path with service := .suspect, dwell := p.after d } } = true := by
      intro h; exact absurd (ha.symm.trans h) (by simp)
    rw [if_neg this]
    rfl
  · rw [if_neg h]

theorem enterFibre_empty {r : Discard} {p : Part} (h : ∀ c, p.relay.queues.get c = [])
    (ha : p.attached = false) : enterFibre r p = { p with path := p.pathFibre } := by
  have h1 := enterFibre_path r p
  have h2 : enterFibre r p = { p with path := (enterFibre r p).path } := by
    unfold enterFibre
    dsimp only
    rw [discardFibre_empty (p := { p with path :=
        { p.path.idle with service := .fibre, classes := PerClass.ofFn fun _ => ClassPath.fibre } }) h]
    split
    · exact enterSuspect_moves (p := { p with path :=
        { p.path.idle with service := .fibre, classes := PerClass.ofFn fun _ => ClassPath.fibre } }) ha
    · rfl
  rw [h2, h1]

theorem pathDetached_empty {p : Part} (h : ∀ c, p.relay.queues.get c = []) (ha : p.attached = false) :
    pathDetached p = { p with path := p.pathLost } := by
  have hs : ¬p.radio.state = .attached := by simpa [Part.attached] using ha
  unfold pathDetached Part.pathLost
  cases hv : p.path.service <;> dsimp only
  · rw [← enterStranded_path]; rfl
  · exact enterFibre_empty h ha
  · exact enterFibre_empty h ha
  · rw [discardFibre_empty
      (p := p.withPath (Path.mapClasses p.draining (fun _ => ClassPath.fibre) p.path)) h]
    simp only [Path.mapClasses, Part.withPath, Part.draining, decide_eq_true_eq]
    rfl
  · have := enterRadioSide_forced p
    unfold Part.pathForcedRadio at this
    simp only [if_neg hs] at this
    rw [← this]; rfl

/-- What a radio loss discards, and nothing else of it. -/
def Part.bare (p : Part) : Part :=
  (discardFrames .radioLost (p.radio.outstanding.map Sent.frame)
    { p with radio := { p.radio with outstanding := [] } }).unqueued .radioLost fun _ => true

theorem bare_queues (p : Part) (c : ServiceClass) : p.bare.relay.queues.get c = [] := by
  unfold Part.bare; rw [unqueued_queues]; rfl

theorem bare_clock (p : Part) : p.bare.clock = p.clock := by
  unfold Part.bare; rw [unqueued_clock, discardFrames_clock]

theorem radioLoss_bare (p : Part) : radioLoss p = { p.bare with radio := (radioLoss p).radio } := by
  have h := discardQueues_unqueued .radioLost (fun _ => true) (discardOutstanding .radioLost p)
  rw [show classes.filter (fun _ => true) = classes from rfl] at h
  have h2 : radioLoss p = (discardQueues .radioLost classes (discardOutstanding .radioLost p)).withRadio
    { (discardQueues .radioLost classes (discardOutstanding .radioLost p)).radio with control := none } := rfl
  rw [h2, h]
  rfl

theorem enterEffects_none (new : Module) {p : Part} (h : p.radio.outstanding = []) :
    enterEffects new p = { p with radio := (enterEffects new p).radio } := by
  have h2 : discardOutstanding .radioLost p = { p with radio := { p.radio with outstanding := [] } } := by
    unfold discardOutstanding; rw [h]; rfl
  unfold enterEffects
  rw [h2]
  rfl

theorem lost_attached {p : Part} (h : p.radio.state = .attached) :
    p.lost = { p.bare with relay := { p.bare.relay with shed := ⟨false, false, false, false⟩ } } := if_pos h

theorem lost_else {p : Part} (h : p.radio.state ≠ .attached) :
    p.lost = discardOutstanding .radioLost p := if_neg h

theorem leftAttached_bare {L : Part} (h : ∀ c, L.relay.queues.get c = []) (ha : L.radio.state ≠ .attached) :
    leftAttached L =
      { L with
        relay := { L.relay with shed := ⟨false, false, false, false⟩ }
        path := Part.pathLost { L with
          relay := { L.relay with shed := ⟨false, false, false, false⟩ } } } := by
  unfold leftAttached
  exact pathDetached_empty
    (p := { L with relay := { L.relay with shed := PerClass.ofFn fun _ => false } }) h
    (decide_eq_false ha)

theorem pathLost_radio {p : Part} {X : Radio} (h : X.state = p.radio.state) :
    Part.pathLost { p with radio := X } = p.pathLost := by
  unfold Part.pathLost Part.pathFibre Part.pathDwelt Part.pathRadio Part.pathStranded
  simp only [h]

theorem ended_radio (c : Prop) [Decidable c] (w : Part) :
    (if c then endAttach Result.failed 5 w else w).radio = w.radio := by
  split
  · exact endAttach_radio _ _ w
  · rfl

/-- From ATTACHED, a move that is no requested detach. -/
theorem moduleTo_lost {new : Module} (h1 : new ≠ .detaching) (h2 : new ≠ .attached) {p : Part}
    (ha : p.radio.state = .attached) :
    let z : Part := { p.lost with radio := (moduleTo new p).radio }
    let w : Part := { z with path := z.pathLost }
    moduleTo new p = if new = .absent ∨ new = .recovering then endAttach Result.failed 5 w else w := by
  have hat : p.attached = true := decide_eq_true ha
  obtain ⟨Y, hY⟩ : ∃ Y : Radio, (if new.restarts then enterEffects new (radioLoss p) else radioLoss p) =
      { p.bare with radio := Y } := by
    have h3 := radioLoss_bare p
    by_cases hr : new.restarts = true
    · rw [if_pos hr, enterEffects_none new (by rw [radioLoss_radio])]
      generalize (enterEffects new (radioLoss p)).radio = Y
      rw [h3]; exact ⟨Y, rfl⟩
    · rw [if_neg hr]; exact ⟨_, h3⟩
  have hm : moduleTo new p =
      if new = .absent ∨ new = .recovering then
        endAttach Result.failed 5 (leftAttached { p.bare with radio := Y.move new p.clock.now })
      else leftAttached { p.bare with radio := Y.move new p.clock.now } := by
    unfold moduleTo
    simp only [hat, decide_eq_false h1, Bool.not_false, Bool.and_true, if_true]
    rw [hY, ← bare_clock p]
    rfl
  have hl := leftAttached_bare (L := { p.bare with radio := Y.move new p.clock.now }) (bare_queues p)
    (by show (Y.move new p.clock.now).state ≠ _; rw [move_state]; exact h2)
  rw [hl] at hm
  have hr : (moduleTo new p).radio = Y.move new p.clock.now := by
    rw [hm, ended_radio]
  rw [hr, lost_attached ha]
  exact hm

/-- Outside ATTACHED, a move to ABSENT, RECOVERING or STARTING. -/
theorem moduleTo_down {new : Module} (h : new.restarts = true) {p : Part} (ha : p.radio.state ≠ .attached) :
    let z : Part := { p.lost with radio := (moduleTo new p).radio }
    moduleTo new p = if new = .absent ∨ new = .recovering then endAttach Result.failed 5 z else z := by
  have hat : p.attached = false := decide_eq_false ha
  have hm : moduleTo new p =
      if new = .absent ∨ new = .recovering then
        endAttach Result.failed 5 { discardOutstanding .radioLost p with
          radio := (enterEffects new p).radio.move new (enterEffects new p).clock.now }
      else { discardOutstanding .radioLost p with
        radio := (enterEffects new p).radio.move new (enterEffects new p).clock.now } := by
    unfold moduleTo
    simp only [hat, Bool.false_and, Bool.false_eq_true, if_false, h, if_true]
    rfl
  have hr : (moduleTo new p).radio = (enterEffects new p).radio.move new (enterEffects new p).clock.now := by
    rw [hm, ended_radio]
  rw [hr, lost_else ha]
  exact hm

theorem restarted_radio {new : Module} (h : new.restarts = true) (p : Part) :
    (moduleTo new p).radio = p.radio.restarted new p.clock.now := by
  rw [moduleTo_restarts_radio h]
  have hu : (Transfer.noAnswer) = unanswered := by
    funext t; cases t with | mk b o e => cases o <;> rfl
  rw [hu]
  cases new <;> first | (cases h; done) | rfl

/-- end of an event that leaves the module down -/
theorem closeEvent_down {b z : Part} (h1 : z.radio.state ≠ .idle) (h2 : z.radio.state ≠ .attaching)
    (h3 : z.radio.state ≠ .attached) (hc : z.radio.control = none) :
    (closeEvent b z).radio = { z.radio with demand := (closeEvent b z).radio.demand, linger := (closeEvent b z).radio.linger } ∧
    (closeEvent b z).command = if z.command.running = some .radioDetach then
      { z.command with running := none, result := 0x01, data := padTo 16 [z.radio.state.code, causeCode z.radio.lastDetach] } else z.command := by
  have hd := returnDrained_command z
  have hst := settle_steady (p := returnDrained z) (by rw [hd.2, hc]; simp) (.inr (by rw [hd.2]; exact ⟨h1, h2, h3⟩))
  rw [hd.1, hd.2] at hst
  have hna : ¬(settle (returnDrained z)).attached = true := by
    unfold Part.attached; rw [hst.2]; simpa using h3
  have hl : takeLane (settle (returnDrained z)) = settle (returnDrained z) := by
    refine takeLane_none (by simpa using hna) ?_
    rw [hst.2]; exact h2
  have hq : (closeEvent b z).radio = (settle (returnDrained z)).radio := by
    rw [closeEvent_radio, hl]
  refine ⟨?_, ?_⟩
  · rw [hq]; exact hst.2
  · unfold closeEvent
    rw [noteChanges_command, hl]
    unfold reviewDetach
    rw [if_neg hna]
    unfold endDetach
    rw [hst.1]
    by_cases hr : z.command.running = some .radioDetach
    · rw [if_pos hr, if_pos hr]
      unfold detachData
      rw [hst.2]
      show ({ (settle (returnDrained z)).command with
        running := none, result := Result.done
        data := padTo 16 [z.radio.state.code, causeCode z.radio.lastDetach] } : Command) = _
      rw [hst.1]
      rfl
    · rw [if_neg hr, if_neg hr]; exact hst.1

/-- `a` has the force, the handed verdict and the settings of `b`. -/
def sameFive (a b : Path) : Prop :=
  a.software = b.software ∧ a.test = b.test ∧ a.verdict = b.verdict ∧ a.causes = b.causes ∧ a.settings = b.settings

theorem path_frame {a b : Path} (h : sameFive a b) : a = { b with
      service := a.service, classes := a.classes, dwell := a.dwell, prove := a.prove,
      strandedProve := a.strandedProve, quiet := a.quiet, stick := a.stick } := by
  obtain ⟨h1, h2, h3, h4, h5⟩ := h
  cases a; cases b; simp_all

theorem pathDwelt_same (p : Part) : sameFive p.pathDwelt p.path := by
  unfold Part.pathDwelt; split <;> exact ⟨rfl, rfl, rfl, rfl, rfl⟩

theorem pathFibre_same (p : Part) : sameFive p.pathFibre p.path := by
  unfold Part.pathFibre
  dsimp only
  generalize (if p.path.causes.has .los then p.path.settings.losDwell else p.path.settings.failDwell) = d
  split
  · split
    · exact pathDwelt_same p
    · exact ⟨rfl, rfl, rfl, rfl, rfl⟩
  · exact ⟨rfl, rfl, rfl, rfl, rfl⟩

theorem pathLost_same (p : Part) : sameFive p.pathLost p.path := by
  unfold Part.pathLost
  split <;> first | exact pathFibre_same p | exact ⟨rfl, rfl, rfl, rfl, rfl⟩


theorem unqueued_withRadio (r : Discard) (sel : ServiceClass → Bool) (y : Radio) (p : Part) :
    ({ p with radio := y } : Part).unqueued r sel = { p.unqueued r sel with radio := y } := by
  unfold Part.unqueued
  exact discardFrames_withRadio r _ y { p with relay := { p.relay with
    queues := PerClass.ofFn fun c => if sel c then [] else p.relay.queues.get c } }

theorem lost_withRadio {p : Part} {ρ : Radio} (h1 : ρ.state = p.radio.state) (h2 : ρ.outstanding = p.radio.outstanding)
    (X : Radio) : ({ ({ p with radio := ρ } : Part).lost with radio := X } : Part) = { p.lost with radio := X } := by
  have e : ∀ σ : Radio, discardFrames .radioLost (p.radio.outstanding.map Sent.frame) { p with radio := σ } =
      { discardFrames .radioLost (p.radio.outstanding.map Sent.frame) p with radio := σ } := fun σ => discardFrames_withRadio _ _ _ _
  unfold Part.lost
  dsimp only
  rw [h2]
  have e1 := e { ρ with outstanding := [] }
  have e2 := e { p.radio with outstanding := [] }
  rw [e1, e2]
  generalize discardFrames .radioLost (p.radio.outstanding.map Sent.frame) p = D
  by_cases ha : p.radio.state = .attached
  · have u1 := unqueued_withRadio .radioLost (fun _ => true) { ρ with outstanding := [] } D
    have u2 := unqueued_withRadio .radioLost (fun _ => true) { p.radio with outstanding := [] } D
    rw [if_pos ha, if_pos (h1.trans ha), u1, u2]
  · rw [if_neg ha, if_neg (by rw [h1]; exact ha)]; try rfl

theorem lost_command (p : Part) : p.lost.command = p.command ∧ p.lost.path = p.path ∧ p.lost.clock = p.clock := by
  unfold Part.lost
  dsimp only
  split
  · unfold Part.unqueued
    exact ⟨by rw [discardFrames_command, discardFrames_command], by rw [(discardFrames_path _ _ _).1]; exact (discardFrames_path _ _ _).1, by rw [discardFrames_clock]; exact discardFrames_clock _ _ _⟩
  · exact ⟨discardFrames_command _ _ _, (discardFrames_path _ _ _).1, discardFrames_clock _ _ _⟩

theorem demandActs_idle {p : Part} (h : p.radio.state = .idle) :
    demandActs p = if p.radio.demand then (if p.radio.reattempt = none then startSeries p else p)
      else p.withRadio { p.radio with reattempt := none } := by
  unfold demandActs; dsimp only; rw [h]

theorem settle_idles {z : Part} (hs : z.radio.state = .idle) :
    (settle z).radio.state = (if (settle z).radio.demand = true ∧ z.radio.reattempt = none then .attaching else .idle) ∧
      ((settle z).radio.state = .attaching → (settle z).radio.attempts = 1) := by
  have hr : (reviewForced z).radio = { z.radio with control := (reviewForced z).radio.control } := reviewForced_radio z
  change (reviewDemand (reviewForced z)).radio.state = _ ∧ _
  have e : (settle z).radio = (reviewDemand (reviewForced z)).radio := rfl
  rw [e]
  generalize (reviewForced z) = w at *
  have hd := demandAfter_eq w
  have h1 : (w.withRadio (demandAfter w)).radio.state = .idle := by
    show (demandAfter w).state = _; rw [hd]; rw [hr]; exact hs
  have h2 : (w.withRadio (demandAfter w)).radio.reattempt = z.radio.reattempt := by
    show (demandAfter w).reattempt = _; rw [hd]; rw [hr]
  unfold reviewDemand
  generalize w.withRadio (demandAfter w) = v at *
  have hv := demandActs_idle h1
  by_cases hdm : v.radio.demand = true
  · rw [if_pos hdm] at hv
    by_cases hre : v.radio.reattempt = none
    · rw [if_pos hre] at hv
      rw [hv]
      have h3 : (startSeries v).radio.demand = true := hdm
      rw [h3, if_pos ⟨rfl, h2 ▸ hre⟩]
      exact ⟨rfl, fun _ => rfl⟩
    · rw [if_neg hre] at hv
      rw [hv, if_neg (fun g => hre (h2.trans g.2)), h1]
      exact ⟨rfl, fun g => by cases g⟩
  · rw [if_neg hdm] at hv
    rw [hv]
    have h3 : ¬(v.withRadio { v.radio with reattempt := none }).radio.demand = true := hdm
    rw [if_neg (fun g => h3 g.1)]
    exact ⟨h1, fun g => by rw [show (v.withRadio { v.radio with reattempt := none }).radio.state = v.radio.state from rfl, h1] at g; cases g⟩

theorem closeEvent_idles {b z : Part} (hs : z.radio.state = .idle) :
    (closeEvent b z).radio.state = (if (closeEvent b z).radio.demand = true ∧ z.radio.reattempt = none then .attaching else .idle) ∧
      ((closeEvent b z).radio.state = .attaching → (closeEvent b z).radio.attempts = 1) := by
  have hr := (returnDrained_command z).2
  have h := settle_idles (z := returnDrained z) (by rw [hr]; exact hs)
  rw [hr] at h
  rw [closeEvent_radio]
  generalize settle (returnDrained z) = w at *
  have hst : w.radio.state ≠ .attached := by
    rw [h.1]; split <;> simp
  have hl : (takeLane w).radio.state = w.radio.state ∧ (takeLane w).radio.demand = w.radio.demand ∧ (takeLane w).radio.attempts = w.radio.attempts := by
    have ha : w.attached = false := decide_eq_false hst
    unfold takeLane
    split
    · exact ⟨rfl, rfl, rfl⟩
    · split
      · split <;> exact ⟨rfl, rfl, rfl⟩
      · rw [if_neg (by rw [ha]; simp)]; exact ⟨rfl, rfl, rfl⟩
      · unfold trySend
        split
        · rw [if_neg (by simp [Part.maySend, ha])]; exact ⟨rfl, rfl, rfl⟩
        · exact ⟨rfl, rfl, rfl⟩
  rw [hl.1, hl.2.1, hl.2.2]
  exact h

theorem same_path {b z p : Part} (h1 : z.path = p.path) (h2 : z.radio.state ≠ .attached) (hn : p.radio.state ≠ .attached)
    (ha : p.DrainsOnAir) : (closeEvent b z).path = p.path := by
  have hd : ∀ c, (z.path.classes.get c).sub ≠ .draining := by
    intro c g; rw [h1] at g; exact hn (ha c g).1
  rw [(closeEvent_still (still_iff.mp (.inr h2))).1, returnDrained_none hd, h1]

theorem lost_path {b z p : Part} (hz : z.path = p.path) (h2 : z.radio.state ≠ .attached)
    (ha : p.DrainsOnAir) :
    (closeEvent b { z with path := z.pathLost }).path = z.pathLost := by
  have hd : ∀ c, (z.pathLost.classes.get c).sub ≠ .draining := by
    intro c
    have hy := ha c
    rw [← hz] at hy
    unfold Part.pathLost
    cases hs : z.path.service
    case forcedFibre =>
      simp only [PerClass.get_ofFn]
      split
      · simp [onFibre]
      · assumption
    case returning => exact (pathFibre_undrained z).1 c
    case proving => exact (pathFibre_undrained z).1 c
    case radio => exact (pathStranded_undrained z).1 c
    case forcedRadio => simp [Path.inState, blocked]
    all_goals
      intro g
      have := (hy g).2
      rw [hs] at this
      simp at this
  rw [(closeEvent_still (p := { z with path := z.pathLost }) (still_iff.mp (.inr h2))).1, returnDrained_none hd]

theorem takeReady_of (fw : BitVec 32) (mb : Byte) (p : Part) (m : Module) :
    p.radio.state = m → takeReady fw mb p =
      let q := p.withRadio { p.radio with firmware := fw, maxBuffers := mb }
      match m with
      | .starting => q.withRadio { q.radio with state := .idle, start := none, silence := p.after silenceTime }
      | .attaching => q.withRadio { q.radio.endSeries with state := .idle }
      | .attached => moduleToIdle q
      | .detaching => moduleToIdle q
      | _ => q := by rintro rfl; rfl

theorem takeDetached_of (c : Byte) (p : Part) (m : Module) :
    p.radio.state = m → takeDetached c p =
      let kept := p.withRadio { p.radio with lastDetach := some (causeOfByte c) }
      match m with
      | .attaching => if p.awaiting then failAttempt .noAnswer p else linkError p
      | .attached => moduleToIdle kept
      | .detaching => moduleToIdle kept
      | _ => linkError p := by rintro rfl; rfl

theorem demandAfter_same {z : Part} (h : z.DemandFollows) : demandAfter z = z.radio := by
  unfold demandAfter
  dsimp only
  cases hw : z.wants
  · rw [if_neg (by simp)]
    by_cases hd : z.radio.demand = true
    · have := h.2 hw hd
      rw [if_neg]
      rintro ⟨_, hl⟩
      rw [hl] at this; cases this
    · rw [if_neg (fun g => hd g.1)]
  · rw [if_pos rfl]
    have := h.1 hw
    generalize z.radio = r at *
    cases r; simp_all

theorem settle_same {z : Part} (h : z.DemandFollows) (hc : z.radio.control ≠ some (.detachReq true)) :
    (settle z).radio = (demandActs z).radio := by
  have hr : reviewForced z = z := if_neg (fun g => hc g.1)
  have e : (settle z).radio = (reviewDemand (reviewForced z)).radio := rfl
  rw [e, hr]
  unfold reviewDemand
  rw [demandAfter_same h]
  rfl

theorem undrained_of {z p : Part} (h1 : z.path = p.path) (hn : p.radio.state ≠ .attached) (ha : p.DrainsOnAir) :
    returnDrained z = z := returnDrained_none fun c g => by rw [h1] at g; exact hn (ha c g).1

/-- The end of an event that leaves nothing to start, where demand stands as it should. -/
theorem closeEvent_acts {b z : Part} {R : Radio} (h : z.DemandFollows) (hc : z.radio.control ≠ some (.detachReq true))
    (hu : returnDrained z = z) (hd : (demandActs z).radio = R) (h1 : R.control = none) (h2 : R.state ≠ .attached) :
    (closeEvent b z).radio = R := by
  have hse := settle_same h hc
  rw [closeEvent_radio, hu]
  rw [hd] at hse
  generalize settle z = w at *
  have hna : w.attached = false := by
    unfold Part.attached; rw [hse]; exact decide_eq_false h2
  have : takeLane w = w := by
    unfold takeLane
    split
    · rfl
    · rw [hse, h1]
      dsimp only
      unfold trySend
      split
      · rw [if_neg (by simp [Part.maySend, hna])]
      · rfl
  rw [this, hse]

theorem failAttempt_eq (why : Failure) (p : Part) :
    failAttempt why p =
      let y : Radio := { p.radio with
        lastFailure := why, answer := none, lane := p.radio.lane.map unanswered }
      if p.radio.attempts ≤ p.radio.settings.retryCount ∧ p.radio.demand = true then
        { p with radio := { y with phase := .retryWait, retry := some (p.clock.now + 10000) } }
      else
        let z : Part := { p with radio := { y with
          state := .idle, phase := .none, retry := none
          control := match p.radio.control with
            | some (.attachReq _) => none
            | c => c
          reattempt := if p.radio.demand then some (p.clock.now + 120000) else p.radio.reattempt } }
        if p.radio.demand then endAttach Result.failed why.code z else z := by
  have hu : (Transfer.noAnswer) = unanswered := by
    funext t; cases t with | mk b o e => cases o <;> rfl
  have hl : Option.map unanswered (Option.map unanswered p.radio.lane) = Option.map unanswered p.radio.lane := by
    cases p.radio.lane with
    | none => rfl
    | some t => cases t with | mk b o e => cases o <;> rfl
  unfold failAttempt
  rw [hu]
  dsimp only
  by_cases h1 : p.radio.attempts ≤ p.radio.settings.retryCount ∧ p.radio.demand = true
  · rw [if_pos h1, if_pos h1]; rfl
  · rw [if_neg h1, if_neg h1]
    cases hd : p.radio.demand
    · simp only [Bool.false_eq_true, if_false]
      unfold Radio.endSeries
      rw [hu]
      dsimp only
      rw [hl]; rfl
    · simp only [if_true]
      unfold Radio.endSeries
      rw [hu]
      dsimp only
      rw [hl]; rfl

theorem reviewForced_fibre {z : Part} (h : z.path.service = .fibre) : reviewForced z = z :=
  if_neg (fun g => by rw [h] at g; simp at g)

theorem settle_unwanted {z : Part} (h : z.wants = false) (hd : z.radio.demand = false) :
    (settle z).radio = (demandActs z).radio ∧ (settle z).wants = false ∧ (settle z).radio.demand = false := by
  have hsv : z.path.service = .fibre := by
    unfold Part.wants at h
    simp only [Bool.or_eq_false_iff, Bool.not_eq_false', decide_eq_true_eq] at h
    exact h.1.1.1.2
  have hf : z.DemandFollows := ⟨fun g => (by rw [h] at g; cases g), fun _ g => (by rw [hd] at g; cases g)⟩
  have e : (settle z).radio = (demandActs z).radio := by
    have e : (settle z).radio = (reviewDemand (reviewForced z)).radio := rfl
    rw [e, reviewForced_fibre hsv]
    unfold reviewDemand
    rw [demandAfter_same hf]
    rfl
  have ha := demandActs_demand z
  refine ⟨e, ?_, by rw [e, ha.1, hd]⟩
  have h1 := (settle_settle z).path
  have h2 := (settle_settle z).frame.radio
  rw [wants_eq h1 (by rw [h2]) (by rw [h2])]
  exact h

theorem takeLane_unwanted {w : Part} (h : w.wants = false) (hd : w.radio.demand = false) :
    (takeLane w).radio.demand = false := by
  have hsv : w.path.service = .fibre := by
    unfold Part.wants at h
    simp only [Bool.or_eq_false_iff, Bool.not_eq_false', decide_eq_true_eq] at h
    exact h.1.1.1.2
  unfold takeLane
  split
  · exact hd
  · split
    · split
      · exact hd
      · exact hd
    · split
      · have hr := startDetachReq_radio w
        have hp : (startDetachReq w).path = w.path := by
          unfold startDetachReq moduleTo
          simp only [Module.restarts, reduceCtorEq, or_self, decide_true, Bool.not_true, Bool.and_false,
            Bool.false_eq_true, if_false]
          split
          · unfold leftAttached pathDetached
            simp only [Part.withRadio, hsv]
          · rfl
        refine (settle_unwanted ?_ ?_).2.2
        · rw [wants_eq hp (by rw [hr]) (by rw [hr])]; exact h
        · rw [hr]; exact hd
      · exact hd
    · unfold trySend
      split
      · split
        · exact hd
        · exact hd
      · exact hd

end Sys2Proof.Machine
end

