-- ==== Sys2Proof/Laws/Messages.lean ====
section
/-! SUPPORT. What an inbound message does as a whole, and what a change of shed status moves (R80, R106, R109,
R115, R164). -/

namespace Sys2Proof.Machine

theorem unqueued_none {r : Discard} {sel : ServiceClass → Bool} {p : Part}
    (h : ∀ c, sel c = true → p.relay.queues.get c = []) : p.unqueued r sel = p := by
  unfold Part.unqueued
  have h1 : (classes.filter sel).flatMap p.relay.queues.get = [] := by
    rw [List.flatMap_eq_nil_iff]; exact fun c hc => h c (List.mem_filter.mp hc).2
  have h2 : (PerClass.ofFn fun c => if sel c then [] else p.relay.queues.get c) = p.relay.queues := by
    apply PerClass.ext_get; intro c; rw [PerClass.get_ofFn]
    split
    · rename_i hc; rw [h c hc]
    · rfl
  rw [h1, h2]; rfl

theorem shedBy_eq (g : Nat) (was : PerClass Bool) : (PerClass.ofFn fun c => shedAfter g c (was.get c)) = shedBy g was := by
  apply PerClass.ext_get
  intro c
  rw [PerClass.get_ofFn]
  cases c
  · rfl
  · rfl
  · rfl
  · rfl

theorem applyShedding_eq (p : Part) :
    applyShedding p = pathShed p.relay.shed
      (Part.unqueued .shed (fun c => (shedBy p.radio.grant.toNat p.relay.shed).get c && !p.relay.shed.get c)
        { p with relay := { p.relay with shed := shedBy p.radio.grant.toNat p.relay.shed } }) := by
  unfold applyShedding
  dsimp only
  rw [shedBy_eq, discardQueues_unqueued]

theorem count_returns_ends (n : Nat) (p : Part) : EventEnds p (count .returns n p) ∧ Keeps p (count .returns n p) := by
  have hc : ∀ c, c ≠ .returns → (count .returns n p).events.counters.get c = p.events.counters.get c := by
    intro c h
    show (p.events.counters.put .returns _).get c = _
    rw [counters_get_put, if_neg h]
  exact ⟨⟨⟨rfl, rfl, rfl, rfl, rfl, rfl, rfl, rfl, rfl, rfl, rfl, rfl⟩,
    ⟨fun _ h => h, fun c _ h _ => hc c h, rfl⟩⟩, ⟨rfl, rfl, rfl, hc, fun _ h => .inl h⟩⟩

theorem pathShedding_same (was : PerClass Bool) (p : Part) : sameFive (p.pathShedding was) p.path := by
  unfold Part.pathShedding sameFive
  cases p.path.service <;> dsimp only
  all_goals first | exact ⟨rfl, rfl, rfl, rfl, rfl⟩ | skip
  · split
    · exact ⟨rfl, rfl, rfl, rfl, rfl⟩
    · unfold Path.returned
      split <;> exact ⟨rfl, rfl, rfl, rfl, rfl⟩
  · split <;> exact ⟨rfl, rfl, rfl, rfl, rfl⟩

/-- the relay takes a change of shed status: only the path changes, and RETURNS -/
theorem pathShed_moves {was : PerClass Bool} {p : Part}
    (hq : ∀ c, p.relay.shed.get c = true → was.get c = false → p.relay.queues.get c = [])
    (hf : ∀ c, (p.path.classes.get c).word = .fibre → p.relay.queues.get c = []) :
    ∃ n, pathShed was p = { count .returns n p with path := p.pathShedding was } := by
  have hc0 : count .returns 0 p = p := by
    unfold count; rw [satAdd_zero]; rfl
  have hclose : ∀ (x : PerClass ClassPath), (∀ c, (x.get c).word = .fibre → p.relay.queues.get c = []) →
      discardFibre .shed { p with path := { p.path with classes := x } } = { p with path := { p.path with classes := x } } := by
    intro x hx
    rw [discardFibre_unqueued, unqueued_none]
    intro c hc
    exact hx c (of_decide_eq_true hc)
  have hh : ∀ c, ((PerClass.ofFn fun c => if (was.get c != p.relay.shed.get c && p.relay.shed.get c && decide ((p.path.classes.get c).sub = .draining)) = true then onFibre else p.path.classes.get c).get c).word = .fibre → p.relay.queues.get c = [] := by
    intro c h
    rw [PerClass.get_ofFn] at h
    split at h
    · rename_i g
      have g1 : p.relay.shed.get c = true := by cases h' : p.relay.shed.get c <;> simp [h'] at g ⊢
      refine hq c g1 ?_
      cases h' : was.get c <;> simp [h', g1] at g ⊢
    · exact hf c h
  have hcl := hclose _ hh
  have hw : ∀ svc : Service, svc ≠ .stranded ∧ svc ≠ .forcedRadio → p.withPath (p.path.mapClasses
      (fun c => (was.get c != p.relay.shed.get c) && decide ((p.path.classes.get c).sub = .onRadio)) (p.record svc .onRadio none)) =
        { count .returns 0 p with path := { p.path with
    classes := PerClass.ofFn fun c =>
      if ((was.get c != p.relay.shed.get c) && decide ((p.path.classes.get c).sub = .onRadio)) = true then onRadio (p.relay.shed.get c)
      else p.path.classes.get c } } := by
    intro svc h
    rw [hc0]
    unfold Part.withPath Path.mapClasses
    simp only [record_radio _ _ _ h]
  unfold pathShed Part.pathShedding
  cases hs : p.path.service <;> dsimp only
  · exact ⟨0, by rw [hc0]⟩
  · exact ⟨0, by rw [hc0]⟩
  · exact ⟨0, hw _ (by simp)⟩
  · exact ⟨0, by rw [hc0]⟩
  · exact ⟨0, hw _ (by simp)⟩
  · split
    · rename_i h
      refine ⟨0, ?_⟩
      rw [hc0, if_pos (by exact h)]
    · rename_i h
      rw [if_neg (by exact h)]
      refine ⟨_, (congrArg returnEnds (by exact hcl)).trans (returnEnds_eq' _)⟩
  · refine ⟨0, ?_⟩
    rw [hc0]
    split
    · rename_i h
      have : p = p.withPath p.path := rfl
      refine this.trans (congrArg p.withPath ?_)
      exact h.symm
    · exact hcl
  · by_cases ha : p.attached = true
    · rw [if_pos ha, if_pos (by exact of_decide_eq_true ha)]
      refine ⟨0, ?_⟩
      rw [hc0]
      unfold Part.withPath Path.mapClasses
      simp only [record_forcedRadio, of_decide_eq_true ha, if_true]
    · rw [if_neg ha, if_neg (by intro g; exact ha (decide_eq_true g))]
      exact ⟨0, by rw [hc0]⟩

theorem pathShedding_kept {was : PerClass Bool} {p : Part} {c : ServiceClass}
    (hd : ∀ c, (p.path.classes.get c).sub = .draining → p.path.service = .returning ∨ p.path.service = .forcedFibre)
    (h : ((p.pathShedding was).classes.get c).sub = .draining) :
    (p.path.classes.get c).sub = .draining ∧ ¬(p.relay.shed.get c = true ∧ was.get c = false) := by
  have key : ((PerClass.ofFn fun c => if (was.get c != p.relay.shed.get c && p.relay.shed.get c && decide ((p.path.classes.get c).sub = .draining)) = true then onFibre else p.path.classes.get c).get c).sub = .draining →
      (p.path.classes.get c).sub = .draining ∧ ¬(p.relay.shed.get c = true ∧ was.get c = false) := by
    intro h
    rw [PerClass.get_ofFn] at h
    split at h
    · exact absurd h (by simp [onFibre])
    · rename_i g
      refine ⟨h, ?_⟩
      rintro ⟨h1, h2⟩
      rw [h1, h2, h] at g
      simp at g
  have words : ((PerClass.ofFn fun c => if (was.get c != p.relay.shed.get c && decide ((p.path.classes.get c).sub = .onRadio)) = true then onRadio (p.relay.shed.get c) else p.path.classes.get c).get c).sub = .draining → (p.path.classes.get c).sub = .draining := by
    intro h
    rw [PerClass.get_ofFn] at h
    split at h
    · exact absurd h (by simp [onRadio])
    · exact h
  have hno : p.path.service ≠ .returning → p.path.service ≠ .forcedFibre → (p.path.classes.get c).sub ≠ .draining :=
    fun h1 h2 h3 => (hd c h3).elim h1 h2
  revert h
  unfold Part.pathShedding
  cases hs : p.path.service <;> dsimp only <;> intro h
  · exact absurd h (hno (by simp [hs]) (by simp [hs]))
  · exact absurd h (hno (by simp [hs]) (by simp [hs]))
  · exact absurd (words h) (hno (by simp [hs]) (by simp [hs]))
  · exact absurd h (hno (by simp [hs]) (by simp [hs]))
  · exact absurd (words h) (hno (by simp [hs]) (by simp [hs]))
  · split at h
    · rename_i g
      rw [← g] at h
      exact key h
    · refine key ?_
      revert h
      unfold Path.returned
      split <;> exact id
  · exact key h
  · split at h
    · exact absurd (words h) (hno (by simp [hs]) (by simp [hs]))
    · exact absurd h (hno (by simp [hs]) (by simp [hs]))

theorem heard_speaks {p : Part} (h1 : p.radio.state ≠ .absent) (h2 : p.radio.state ≠ .off) (h3 : p.radio.state ≠ .recovering) :
    p.radio.state.receives = true ∧ heard p = { p with radio := { p.radio with
      silence := if p.radio.state = .starting then p.radio.silence else some (p.clock.now + 3000) } } := by
  unfold heard
  refine ⟨?_, ?_⟩
  · revert h1 h2 h3; cases p.radio.state <;> simp [Module.receives]
  · by_cases hs : p.radio.state = .starting
    · have : ¬p.radio.state.listens = true := by rw [hs]; simp [Module.listens]
      rw [if_neg this, if_pos hs]
    · have : p.radio.state.listens = true := by
        revert h1 h2 h3 hs; cases p.radio.state <;> simp [Module.listens]
      rw [if_pos this, if_neg hs]; rfl

theorem received_speaks {f : Part → Part} {p : Part} (h1 : p.radio.state ≠ .absent) (h2 : p.radio.state ≠ .off) (h3 : p.radio.state ≠ .recovering) :
    received f p = closeEvent p (f { p with radio := { p.radio with
      silence := if p.radio.state = .starting then p.radio.silence else some (p.clock.now + 3000) } }) := by
  have h := heard_speaks h1 h2 h3
  unfold received
  rw [if_pos h.1, ← h.2]; rfl

theorem received_deaf {f : Part → Part} {p : Part} (h : p.radio.state = .absent ∨ p.radio.state = .off ∨ p.radio.state = .recovering) :
    received f p = p := by
  refine if_neg ?_
  rcases h with h | h | h <;> rw [h] <;> simp [Module.receives]

/-- An event that leaves the path controller, the queues and the outstanding list alone keeps the path. -/
theorem path_kept {b z p : Part} (h1 : z.path = p.path) (h2 : z.relay.queues = p.relay.queues)
    (h3 : z.radio.outstanding = p.radio.outstanding) (h4 : z.radio.control = p.radio.control)
    (h5 : z.radio.lane.isSome = p.radio.lane.isSome) (hs : p.Stays) (hn : p.NoneDrained) :
    (closeEvent b z).path = p.path := by
  have hzs : z.Stays := by unfold Part.Stays; rw [h4, h5]; exact hs
  have hzn : z.NoneDrained := by
    intro c; unfold Part.sentOf; rw [h1, h2, h3]; exact hn c
  rw [closeEvent_path_stays hzs, returnDrained_keeps hzn, h1]

theorem pathAttached_moves (z : Part) : pathAttached z = { z with path :=
    match z.path.service with
    | .stranded => if z.path.verdict = .bad then z.pathRadio else z.path
    | .forcedRadio => z.pathForcedRadio
    | _ => z.path } := by
  unfold pathAttached
  cases hs : z.path.service <;> dsimp only
  · by_cases hb : z.path.verdict = .bad
    · rw [if_pos (by exact decide_eq_true hb), if_pos hb, ← enterRadioSide_radio]; rfl
    · rw [if_neg (by exact fun g => hb (of_decide_eq_true g)), if_neg hb]
  · rw [← enterRadioSide_forced]; rfl

/-- The module stays ATTACHED as the event ends while demand is on and no request is pending. -/
theorem closeEvent_stays_attached {b z : Part} (h : z.radio.state = .attached) (hc : z.radio.control = none)
    (hd : (closeEvent b z).radio.demand = true) : (closeEvent b z).radio.state = .attached := by
  have hrd : (returnDrained z).radio = z.radio := (returnDrained_command z).2
  have hrad : (closeEvent b z).radio = (takeLane (settle (returnDrained z))).radio := closeEvent_radio _ _
  rw [hrad] at hd ⊢
  generalize returnDrained z = y at *
  have hys : y.radio.state = .attached := by rw [hrd]; exact h
  have hyc : y.radio.control = none := by rw [hrd]; exact hc
  have hrf : reviewForced y = y := by
    unfold reviewForced; rw [if_neg]; rw [hyc]; simp
  by_cases hdm : (demandAfter y).demand = true
  · have h1 : (settle y).radio = demandAfter y := by
      unfold settle; rw [hrf]
      show (reviewDemand y).radio = _
      unfold reviewDemand demandActs
      dsimp only
      have e1 : (y.withRadio (demandAfter y)).radio = demandAfter y := rfl
      rw [e1, hdm]
      have e2 : (demandAfter y).state = .attached := by rw [demandAfter_eq]; exact hys
      have e3 : (demandAfter y).control = none := by rw [demandAfter_eq]; exact hyc
      rw [e2, e3]
      rfl
    generalize settle y = w at *
    have h2 : w.radio.state = .attached := by rw [h1, demandAfter_eq]; exact hys
    have h3 : w.radio.control = none := by rw [h1, demandAfter_eq]; exact hyc
    unfold takeLane
    split
    · exact h2
    · rw [h3]
      dsimp only
      unfold trySend
      split
      · split
        · exact h2
        · exact h2
      · exact h2
  · exfalso
    have hw : y.wants = false := by
      cases hw : y.wants
      · rfl
      · exact absurd (by unfold demandAfter; rw [hw]; rfl) hdm
    have h1 : (settle y).wants = false := by
      have h2 := (settle_settle y).frame.radio
      rw [wants_eq (settle_settle y).path (by rw [h2]) (by rw [h2])]
      exact hw
    have h2 : (settle y).radio.demand = false := by
      unfold settle; rw [hrf]
      show (reviewDemand y).radio.demand = false
      unfold reviewDemand
      rw [(demandActs_demand _).1]
      exact Bool.eq_false_iff.mpr hdm
    exact absurd hd (by rw [takeLane_unwanted h1 h2]; simp)

theorem unqueued_shed (r : Discard) (sel : ServiceClass → Bool) (p : Part) :
    (p.unqueued r sel).relay.shed = p.relay.shed := by
  unfold Part.unqueued
  rw [(discardFrames_path _ _ _).2]

theorem unqueued_command (r : Discard) (sel : ServiceClass → Bool) (p : Part) :
    (p.unqueued r sel).command = p.command := by
  unfold Part.unqueued
  rw [discardFrames_command]

theorem inState_same {a b : Path} (h : sameFive a b) (svc : Service) (f : ServiceClass → ClassPath) :
    a.inState svc f = b.inState svc f := by
  unfold Path.inState
  obtain ⟨h1, h2, h3, h4, h5⟩ := h
  rw [path_frame ⟨h1, h2, h3, h4, h5⟩]

theorem down_leads {new : Module} (h : new.restarts = true) (b y : Part)
    (hz : b.command = y.command) :
    let z : Part := { y.lost with radio := y.radio.restarted new y.clock.now }
    let q := closeEvent b (moduleTo new y)
    EventEnds z q ∧ Keeps z q ∧
        q.radio = { z.radio with demand := q.radio.demand, linger := q.radio.linger } ∧
        (y.DrainsOnAir → q.path = if y.radio.state = .attached then z.pathLost else y.path) ∧
        q.command =
          (match y.command.running with
          | some .radioAttach =>
            if new = .starting then y.command
            else { y.command with
              running := none, result := 0x06, data := padTo 16
                ([5, BitVec.ofNat 8 y.radio.attempts] ++ List.replicate 7 0 ++ leBytes 4 y.radio.firmware.toNat) }
          | some .radioDetach => { y.command with running := none, result := 0x01, data := padTo 16 [new.code, causeCode y.radio.lastDetach] }
          | _ => y.command) := by
  intro z q
  have hnd : new ≠ .detaching ∧ new ≠ .attached ∧ new ≠ .idle ∧ new ≠ .attaching := by
    refine ⟨?_, ?_, ?_, ?_⟩ <;> (rintro rfl; cases h)
  have hab : (new = .absent ∨ new = .recovering) ↔ new ≠ .starting := by
    revert h; cases new <;> simp [Module.restarts]
  -- w: what the move leaves before the command
  obtain ⟨w, hw1, hw2, hw3, hw4⟩ : ∃ w : Part, w = { z with path := w.path } ∧
      (w.path = if y.radio.state = .attached then z.pathLost else y.path) ∧
      (moduleTo new y = if new = .absent ∨ new = .recovering then endAttach Result.failed 5 w else w) ∧
      (w.path = { z.path with
      service := w.path.service, classes := w.path.classes, dwell := w.path.dwell, prove := w.path.prove,
      strandedProve := w.path.strandedProve, quiet := w.path.quiet, stick := w.path.stick }) := by
    have hl := lost_command y
    by_cases ha : y.radio.state = .attached
    · refine ⟨{ z with path := z.pathLost }, rfl, (if_pos ha).symm, ?_, ?_⟩
      · have := moduleTo_lost hnd.1 hnd.2.1 ha
        rw [restarted_radio h] at this
        exact this
      · exact path_frame (pathLost_same z)
    · refine ⟨z, rfl, by rw [if_neg ha]; exact hl.2.1, ?_, rfl⟩
      have := moduleTo_down h ha
      rw [restarted_radio h] at this
      exact this
  have hwr : w.radio = y.radio.restarted new y.clock.now := by rw [hw1]
  have hzr : z.radio.state = new := rfl
  have hzn : z.Still := .inr (by rw [hzr]; exact hnd.2.1)
  have hwk : Keeps z w := keeps_of_path hw1
  have hwe : EventEnds z w := ⟨by
      have e := EventFrame.refl w
      constructor <;> first | exact hw4 | (rw [hw1]), Mild.of_eq (by rw [hw1]) (by rw [hw1])⟩
  have hwc : w.command = y.command := by rw [hw1]; exact (lost_command y).1
  -- m : with the command
  have hmr : (moduleTo new y).radio = w.radio := by rw [hw3, ended_radio]
  have hmp : (moduleTo new y).path = w.path := by
    rw [hw3]; split
    · unfold endAttach; split <;> rfl
    · rfl
  have hme : EventEnds w (moduleTo new y) ∧ Keeps w (moduleTo new y) := by
    rw [hw3]
    split
    · unfold endAttach
      split
      · refine ⟨⟨?_, finish_mild _ _ _⟩, Keeps.done ⟨rfl, rfl, rfl, fun _ _ => rfl, fun f hf => .inl hf⟩⟩
        exact ⟨rfl, rfl, rfl, rfl, rfl, rfl, rfl, rfl, rfl, rfl, rfl, rfl⟩
      · exact ⟨⟨EventFrame.refl _, Mild.refl _⟩, ⟨rfl, rfl, rfl, fun _ _ => rfl, fun f hf => .inl hf⟩⟩
    · exact ⟨⟨EventFrame.refl _, Mild.refl _⟩, ⟨rfl, rfl, rfl, fun _ _ => rfl, fun f hf => .inl hf⟩⟩
  have hmc : (moduleTo new y).command = if new ≠ .starting ∧ y.command.running = some .radioAttach then
      { y.command with
        running := none, result := 0x06, data := padTo 16
              ([5, BitVec.ofNat 8 y.radio.attempts] ++ List.replicate 7 0 ++ leBytes 4 y.radio.firmware.toNat) } else y.command := by
    rw [hw3]
    by_cases hn : new ≠ .starting
    · rw [if_pos (hab.mpr hn)]
      unfold endAttach
      by_cases hr : y.command.running = some .radioAttach
      · rw [if_pos (by rw [hwc]; exact hr), if_pos ⟨hn, hr⟩]
        show ({ w.command with
          running := none, result := Result.failed, data := padTo 16 (attachData 5 (decide (Result.failed = Result.done)) w.radio) } : Command) = _
        rw [hwc, hwr]
        rfl
      · rw [if_neg (by rw [hwc]; exact hr), if_neg (fun g => hr g.2)]; exact hwc
    · rw [if_neg (fun g => hn (hab.mp g)), if_neg (fun g => hn g.1)]; exact hwc
  have hmst : (moduleTo new y).radio.state = new := by rw [hmr, hwr]; rfl
  have hd := closeEvent_down (b := b) (z := moduleTo new y) (by rw [hmst]; exact hnd.2.2.1) (by rw [hmst]; exact hnd.2.2.2)
    (by rw [hmst]; exact hnd.2.1) (by rw [hmr, hwr]; rfl)
  have hstill : (moduleTo new y).Still := .inr (by rw [hmst]; exact hnd.2.1)
  refine ⟨hwe.trans' (hme.1.trans' (closeEvent_ends b _)), hwk.trans (hme.2.trans (closeEvent_keeps b hstill)), ?_, fun hair => ?_, ?_⟩
  · have := hd.1
    rw [hmr, hwr] at this
    exact this
  · have hstays : (moduleTo new y).Stays := .inl (by rw [hmr, hwr]; simp [Radio.restarted])
    show (closeEvent b (moduleTo new y)).path = _
    rw [closeEvent_path_stays hstays, returnDrained_none, hmp, hw2]
    intro c
    rw [hmp, hw2]
    by_cases ha : y.radio.state = .attached
    · rw [if_pos ha]
      unfold Part.pathLost
      have hzp : z.path = y.path := (lost_command y).2.1
      have hy := hair c
      rw [← hzp] at hy
      cases hs : z.path.service
      case forcedFibre =>
        simp only [PerClass.get_ofFn]
        split
        · simp [onFibre]
        · assumption
      case returning => exact (pathFibre_undrained z).1 c
      case proving => exact (pathFibre_undrained z).1 c
      case radio => exact (pathStranded_undrained z).1 c
      case forcedRadio => simp [Path.inState, blocked]
      all_goals
        intro g
        have := (hy g).2
        rw [hs] at this
        simp at this
    · rw [if_neg ha]
      intro g
      exact ha (hair c g).1
  · show (closeEvent b (moduleTo new y)).command = _
    rw [hd.2, hmc]
    have hlast : (moduleTo new y).radio.lastDetach = y.radio.lastDetach := by rw [hmr, hwr]; rfl
    rw [hmst, hlast]
    cases hr : y.command.running with
    | none => simp [hr]
    | some t =>
      cases t
      · simp [hr]
      · by_cases hn : new = .starting
        · simp [hn, hr]
        · simp [hn, hr]
      · simp [hr]

theorem returnDrained_eq (p : Part) :
    ∃ n, returnDrained p = { count .returns n p with path := p.pathDrained } := by
  have hran : ∀ c, p.ranOut c = true ↔ c ∈ p.drainedClasses := by
    intro c
    rw [mem_drainedClasses]
    unfold Part.ranOut
    simp [and_assoc]
  have hcl : ∀ c, p.drainedClasses.contains c = p.ranOut c := by
    intro c
    rw [Bool.eq_iff_iff, hran]; simp
  unfold returnDrained Part.pathDrained
  by_cases h : p.drainedClasses = []
  · refine ⟨0, ?_⟩
    rw [if_pos h, if_neg]
    · unfold count; rw [satAdd_zero]; rfl
    · rw [List.any_eq_true]
      rintro ⟨c, _, hc⟩
      have := (hran c).mp hc
      rw [h] at this; simp at this
  · rw [if_neg h, if_pos]
    · rw [returnEnds_eq']
      simp only [Path.mapClasses, hcl]
      exact ⟨_, rfl⟩
    · obtain ⟨c, hc⟩ := List.exists_mem_of_ne_nil _ h
      rw [List.any_eq_true]
      exact ⟨c, by cases c <;> decide, (hran c).mpr hc⟩

/-- What the end of an event makes of the path controller while no forced request can start. -/
theorem closeEvent_pathDrained {b z p : Part} (h4 : z.radio.control = p.radio.control)
    (h5 : z.radio.lane.isSome = p.radio.lane.isSome) (hs : p.Stays) :
    (closeEvent b z).path = z.pathDrained := by
  have hzs : z.Stays := by unfold Part.Stays; rw [h4, h5]; exact hs
  rw [closeEvent_path_stays hzs]
  obtain ⟨n, hn⟩ := returnDrained_eq z
  rw [hn]

/-- The module goes from ATTACHED to IDLE as a radio loss (R111, R118). -/
theorem idle_leads {b y : Part} (ha : y.radio.state = .attached) :
    let z : Part := { y.lost with radio := { y.radio with
      state := .idle, detach := none, outstanding := [], control := none } }
    let q := closeEvent b (moduleToIdle y)
    EventEnds z q ∧ Keeps z q ∧ (y.DrainsOnAir → q.path = z.pathLost) ∧
      q.radio.state = (if q.radio.demand = true ∧ y.radio.reattempt = none then .attaching else .idle) ∧
      (q.radio.state = .attaching → q.radio.attempts = 1) := by
  intro z q
  have hl := moduleTo_lost (new := .idle) (p := { y with radio := { y.radio with detach := none } }) (by simp) (by simp) ha
  rw [moduleTo_idle_radio] at hl
  rw [if_pos (show Part.attached { y with radio := { y.radio with detach := none } } = true from decide_eq_true ha)] at hl
  rw [lost_withRadio (p := y) (ρ := { y.radio with detach := none }) rfl rfl] at hl
  replace hl := hl.trans (if_neg (by simp))
  have hq : q = closeEvent b { z with path := z.pathLost } := congrArg (closeEvent b) hl
  rw [hq]
  have hm := moved_ends (b := b) (x := z) (z := { z with path := z.pathLost }) rfl (path_frame (pathLost_same _))
  have hi := closeEvent_idles (b := b) (z := { z with path := z.pathLost }) rfl
  exact ⟨hm.1, hm.2 (.inr (by simp [z])), fun hd => lost_path (lost_command y).2.1 (by simp [z]) hd, hi.1, hi.2⟩

end Sys2Proof.Machine
end

