-- ==== Sys2Proof/Laws/Lane.lean ====
section
/-! SUPPORT. The outbound lane: which frame goes, a requested detach as a whole, and what the end of an event leaves
of the module (R114, R117, R124, R172 to R175). -/

namespace Sys2Proof.Machine

theorem startDataUp_sends (f : Frame) (p : Part) : startDataUp f p = p.sends f := rfl

theorem startAttachReq_requests (n : Nat) (p : Part) :
    startAttachReq n p = { p with radio := p.radio.requests n p.clock.now } := rfl

theorem candidate_next {p : Part} {f : Frame} (h : p.Next f) : p.candidate = some f := by
  obtain ⟨h1, ⟨rest, h2⟩, h3⟩ := h
  have e : ∀ c, (match (p.path.classes.get c).word with
    | .radio | .hold => (p.relay.queues.get c).head?
    | _ => none) = if (p.path.classes.get c).word = .radio ∨ (p.path.classes.get c).word = .hold then (p.relay.queues.get c).head? else none := by
    intro c; cases (p.path.classes.get c).word <;> rfl
  have hn : ∀ d, classNumber d < classNumber f.cls → (if (p.path.classes.get d).word = .radio ∨ (p.path.classes.get d).word = .hold then (p.relay.queues.get d).head? else none) = none := by
    intro d hd
    split
    · rename_i g; rw [h3 d hd g]; rfl
    · rfl
  have hy : (if (p.path.classes.get f.cls).word = .radio ∨ (p.path.classes.get f.cls).word = .hold then (p.relay.queues.get f.cls).head? else none) = some f := by
    rw [if_pos (by exact h1), h2]; rfl
  have hcand : p.candidate = classes.findSome? (fun c => if (p.path.classes.get c).word = .radio ∨ (p.path.classes.get c).word = .hold then (p.relay.queues.get c).head? else none) := by
    unfold Part.candidate
    congr 1
    funext c; exact e c
  rw [hcand]
  clear hcand e
  obtain ⟨g, hg⟩ : ∃ g : ServiceClass → Option Frame, g = (fun c => if (p.path.classes.get c).word = .radio ∨ (p.path.classes.get c).word = .hold then (p.relay.queues.get c).head? else none) := ⟨_, rfl⟩
  have hn' : ∀ d, classNumber d < classNumber f.cls → g d = none := by rw [hg]; exact hn
  have hy' : g f.cls = some f := by rw [hg]; exact hy
  rw [← hg]
  cases hc : f.cls <;> rw [hc] at hy' hn'
  · simp [classes, hy']
  · have := hn' .voice (by decide); simp [classes, hy', this]
  · have a := hn' .voice (by decide); have b := hn' .signal (by decide); simp [classes, hy', a, b]
  · have a := hn' .voice (by decide); have b := hn' .signal (by decide); have d := hn' .interactive (by decide); simp [classes, hy', a, b, d]

theorem next_candidate {p : Part} {f : Frame} (hq : p.QueuedByClass) (h : p.candidate = some f) : p.Next f := by
  unfold Part.candidate at h
  rw [List.findSome?_eq_some_iff] at h
  obtain ⟨l1, c, l2, hl, hc, hb⟩ := h
  have hk : p.Served c ∧ (p.relay.queues.get c).head? = some f := by
    revert hc
    unfold Part.Served
    cases (p.path.classes.get c).word <;> simp
  obtain ⟨rest, hr⟩ : ∃ rest, p.relay.queues.get c = f :: rest := by
    have := hk.2
    cases hx : p.relay.queues.get c with
    | nil => rw [hx] at this; cases this
    | cons a l => rw [hx] at this; cases this; exact ⟨l, rfl⟩
  have hf : f.cls = c := hq c f (by rw [hr]; simp)
  subst hf
  refine ⟨hk.1, ⟨rest, hr⟩, fun d hd hs => ?_⟩
  have hm : d ∈ l1 := by
    have hp : classes.Pairwise fun a b => classNumber a < classNumber b := by decide
    have hd' : d ∈ classes := by cases d <;> decide
    rw [hl] at hp hd'
    rcases List.mem_append.mp hd' with h1 | h1
    · exact h1
    · rcases List.mem_cons.mp h1 with h1 | h1
      · rw [h1] at hd; omega
      · have := (List.pairwise_cons.mp (List.pairwise_append.mp hp).2.1).1 d h1
        omega
  have := hb d hm
  revert this hs
  unfold Part.Served
  cases (p.path.classes.get d).word <;> simp

theorem maySend_ready {p : Part} {f : Frame} : p.maySend f = true ↔ p.Ready f := by
  unfold Part.maySend
  simp only [Bool.and_eq_true, decide_eq_true_eq, Part.attached, Option.isNone_iff_eq_none, Frame.age, cost]
  constructor
  · rintro ⟨⟨⟨⟨⟨h1, h2⟩, h3⟩, h4⟩, h5⟩, h6⟩
    exact ⟨h1, ⟨h2, h3⟩, by omega, of_decide_eq_true h5, of_decide_eq_true h6⟩
  · rintro ⟨h1, ⟨h2, h3⟩, h4, h5, h6⟩
    exact ⟨⟨⟨⟨⟨h1, h2⟩, h3⟩, by omega⟩, decide_eq_true h5⟩, decide_eq_true h6⟩

/-- What settling leaves on an open lane: only the automatic run changes. -/
theorem settle_open {x : Part} (h : x.Open) : settle x = reviewRun x := by
  have hr : reviewForced x = x := if_neg (fun g => by rw [h.free.2] at g; simp at g)
  unfold settle
  rw [hr]
  unfold reviewDemand
  rw [demandAfter_same h.demand.2]
  have : demandActs (x.withRadio x.radio) = x := by
    have e : x.withRadio x.radio = x := rfl
    rw [e]
    unfold demandActs
    dsimp only
    rw [h.demand.1, h.attached, h.free.2]; rfl
  rw [this]

theorem closeEvent_open {b x : Part} (h : x.Open) : closeEvent b x = noteChanges b (reviewDetach (trySend (reviewRun x))) := by
  unfold closeEvent
  rw [returnDrained_keeps h.drained, settle_open h]
  have e : takeLane (reviewRun x) = trySend (reviewRun x) := by
    unfold takeLane
    have h1 : (reviewRun x).radio = x.radio := rfl
    rw [h1, h.free.1, h.free.2]; rfl
  rw [e]

theorem noteChanges_data (b p : Part) : (noteChanges b p).relay = p.relay ∧ (noteChanges b p).uplink = p.uplink ∧
    (noteChanges b p).radio = p.radio ∧ (noteChanges b p).events.counters = p.events.counters ∧
    ∀ f, (noteChanges b p).flag f = true → p.flag f = true ∨ f = .pathChanged ∨ f = .radioChanged := by
  have hr : ∀ (b : Bool) f (q : Part), (raiseIf b f q).relay = q.relay ∧ (raiseIf b f q).uplink = q.uplink ∧ (raiseIf b f q).radio = q.radio ∧
      (raiseIf b f q).events.counters = q.events.counters ∧
      ∀ g, (raiseIf b f q).flag g = true → q.flag g = true ∨ g = f := by
    intro b f q
    cases b
    · exact ⟨rfl, rfl, rfl, rfl, fun g hg => .inl hg⟩
    · exact ⟨rfl, rfl, rfl, rfl, fun g hg => (raise_flag_iff f g q).mp hg⟩
  unfold noteChanges
  obtain ⟨a1, a2, a3, a4, a5⟩ := hr (pathMoved b.path p.path) .pathChanged p
  obtain ⟨b1, b2, b3, b4, b5⟩ := hr (b.radio.state != p.radio.state) .radioChanged (raiseIf (pathMoved b.path p.path) .pathChanged p)
  refine ⟨b1.trans a1, b2.trans a2, b3.trans a3, b4.trans a4, fun f hf => ?_⟩
  rcases b5 f hf with h | h
  · exact (a5 f h).imp_right .inl
  · exact .inr (.inr h)

theorem examined_close (b x : Part) : Examined x (closeEvent b x) := by
  refine ⟨fun h => closeEvent_keeps b h, fun h f hn hr => ?_, fun h hq hn => ?_⟩
  · have hc : (reviewRun x).candidate = some f := candidate_next (p := reviewRun x) ⟨hn.served, hn.head, hn.first⟩
    have hm : (reviewRun x).maySend f = true := maySend_ready.mpr ⟨hr.attached, hr.free, hr.room, hr.young, hr.credit⟩
    have ht : trySend (reviewRun x) = (reviewRun x).sends f := by
      unfold trySend; rw [hc]; exact if_pos hm
    have hd : reviewDetach ((reviewRun x).sends f) = (reviewRun x).sends f := if_pos (decide_eq_true h.attached)
    rw [closeEvent_open h, ht, hd]
    have := noteChanges_data b ((reviewRun x).sends f)
    exact ⟨this.1, this.2.1, this.2.2.1⟩
  · have ht : trySend (reviewRun x) = reviewRun x := by
      unfold trySend
      split
      · rename_i f hf
        have hx : x.Next f := next_candidate hq hf
        refine if_neg (fun g => hn f hx ?_)
        have := maySend_ready.mp g
        exact ⟨this.attached, this.free, this.room, this.young, this.credit⟩
      · rfl
    have hd : reviewDetach (reviewRun x) = reviewRun x := if_pos (decide_eq_true h.attached)
    rw [closeEvent_open h, ht, hd]
    obtain ⟨h1, h2, h3, h4, h5⟩ := noteChanges_data b (reviewRun x)
    refine ⟨⟨h1, h2, by rw [h3]; rfl, fun c _ => by rw [h4]; rfl, fun f hf => ?_⟩, h3⟩
    exact (h5 f hf).imp_right (fun g => g.imp_right .inl)

/-- What is examined depends on the lane, the queues, the path records and the clock alone. -/
theorem Examined.of {x z q : Part} (h : Examined z q) (k : Keeps x z) (hr : z.radio = x.radio)
    (hc : z.clock = x.clock) (hp : z.path = x.path) : Examined x q := by
  have hst : x.Still → z.Still := fun hs => by unfold Part.Still; rw [hr]; exact hs
  have ho : x.Open → z.Open := fun g => by
    obtain ⟨h1, h2, h3, h4⟩ := g
    refine ⟨by rw [hr]; exact h1, by rw [hr]; exact h2, ?_, ?_⟩
    · unfold Part.DemandFollows Part.wants Path.effective at *; rw [hr, hp]; exact h3
    · intro c; unfold Part.sentOf; rw [hp, k.relay, hr]; exact h4 c
  have hnext : ∀ f, z.Next f ↔ x.Next f := fun f => by
    constructor
    · rintro ⟨h1, h2, h3⟩
      unfold Part.Served at *
      rw [hp] at h1 h3; rw [k.relay] at h2 h3; exact ⟨h1, h2, h3⟩
    · rintro ⟨h1, h2, h3⟩
      refine ⟨?_, ?_, ?_⟩ <;> unfold Part.Served at * <;> simp only [hp, k.relay] <;> assumption
  have hready : ∀ f, z.Ready f ↔ x.Ready f := fun f => by
    constructor
    · rintro ⟨h1, h2, h3, h4, h5⟩
      rw [hr] at h1 h2 h3; rw [hc, k.relay] at h4; rw [k.relay] at h5; exact ⟨h1, h2, h3, h4, h5⟩
    · rintro ⟨h1, h2, h3, h4, h5⟩
      refine ⟨?_, ?_, ?_, ?_, ?_⟩ <;> simp only [hr, hc, k.relay] <;> assumption
  refine ⟨fun hs => k.trans (h.still (hst hs)), fun g f h1 h2 => ?_, fun g h1 h2 => ?_⟩
  · have := h.starts (ho g) f ((hnext f).mpr h1) ((hready f).mpr h2)
    have e1 : (z.sends f).relay = (x.sends f).relay := by unfold Part.sends; dsimp only; rw [k.relay]
    have e2 : (z.sends f).uplink = (x.sends f).uplink := by unfold Part.sends; dsimp only; rw [k.relay, k.uplink]
    have e3 : (z.sends f).radio = (x.sends f).radio := by unfold Part.sends; dsimp only; rw [k.relay, hr, hc]
    rw [← e1, ← e2, ← e3]; exact this
  · have := h.waits (ho g) (fun c f hf => h1 c f (by rw [← k.relay]; exact hf)) fun f h3 h4 => h2 f ((hnext f).mp h3) ((hready f).mp h4)
    exact ⟨k.trans this.1, this.2.trans hr⟩

/-- The send conditions do not depend on the channel monitor and the command unit. -/
theorem Examined.swap {x q : Part} (h : Examined x q) (c d : Channel) (a e : Command) :
    Examined { x with channel := c, command := a } { q with channel := d, command := e } :=
  ⟨fun hs => (h.still hs).swap c d a e,
    fun ho f hn hr => h.starts ⟨ho.attached, ho.free, ho.demand, ho.drained⟩ f ⟨hn.served, hn.head, hn.first⟩
      ⟨hr.attached, hr.free, hr.room, hr.young, hr.credit⟩,
    fun ho hq hw =>
      have w := h.waits ⟨ho.attached, ho.free, ho.demand, ho.drained⟩ hq fun f hn hr =>
        hw f ⟨hn.served, hn.head, hn.first⟩ ⟨hr.attached, hr.free, hr.room, hr.young, hr.credit⟩
      ⟨w.1.swap c d a e, w.2⟩⟩

/-- COMMAND_DONE raised on the later side. -/
theorem Examined.done {x q : Part} (h : Examined x q) : Examined x (raise .commandDone q) :=
  ⟨fun hs => (h.still hs).done, h.starts, fun ho hq hw => ⟨(h.waits ho hq hw).1.done, (h.waits ho hq hw).2⟩⟩

/-- With the module ATTACHED, the lane busy and nothing pending, the end of an event changes of the module at most
demand, its timer and a request to detach. -/
theorem closeEvent_busy {b x : Part} (h : x.radio.state = .attached) (hl : x.radio.lane.isSome = true) (hc : x.radio.control = none) :
    (closeEvent b x).radio = { x.radio with
      demand := (closeEvent b x).radio.demand, linger := (closeEvent b x).radio.linger, control := (closeEvent b x).radio.control } := by
  rw [closeEvent_radio]
  have hd := returnDrained_command x
  generalize hy : returnDrained x = y at *
  have hyr : y.radio = x.radio := hd.2
  have hrf : reviewForced y = y := if_neg (fun g => by rw [hyr, hc] at g; simp at g)
  have hs : (settle y).radio = { x.radio with
      demand := (settle y).radio.demand, linger := (settle y).radio.linger, control := (settle y).radio.control } := by
    have e : (settle y).radio = (demandActs (y.withRadio (demandAfter y))).radio := by
      have e : (settle y).radio = (reviewDemand (reviewForced y)).radio := rfl
      rw [e, hrf]; rfl
    rw [e]
    have hda := demandAfter_eq y
    rw [hyr] at hda
    generalize demandAfter y = d at *
    have h1 : d.state = .attached := by rw [hda]; exact h
    have h2 : d.control = none := by rw [hda]; exact hc
    unfold demandActs
    dsimp only [withRadio_radio]
    rw [h1, h2]
    by_cases hdm : d.demand = true
    · rw [if_pos hdm]; dsimp only; rw [if_neg (by simp)]; dsimp only [withRadio_radio]; rw [hda]
    · rw [if_neg hdm]; dsimp only; rw [if_pos rfl]; dsimp only [withRadio_radio]; rw [hda, ← h]
  have ht : takeLane (settle y) = settle y := if_pos (by rw [hs]; exact hl)
  rw [ht]; exact hs

theorem unqueued_all (r : Discard) (p : Part) (y : Path) (h : ∀ c, (y.classes.get c).word = .fibre) :
    discardFibre r { p with path := y } = { p.unqueued r (fun _ => true) with path := y } := by
  rw [discardFibre_unqueued]
  have : (fun c => decide ((({ p with path := y } : Part).path.classes.get c).word = .fibre)) = fun _ => true := by
    funext c; exact decide_eq_true (h c)
  rw [this, unqueued_withPath]

theorem pathFibre_of {p q : Part} (h1 : q.path = p.path) (h2 : q.clock = p.clock) (ha : p.radio.state ≠ .attached)
    (hb : q.radio.state ≠ .attached) : q.pathFibre = p.pathFibre := by
  unfold Part.pathFibre Part.pathDwelt Part.pathStranded
  rw [h1, h2, if_neg ha, if_neg hb]

theorem pathLost_of {p q : Part} (h1 : q.path = p.path) (h2 : q.clock = p.clock) (ha : p.radio.state ≠ .attached)
    (hb : q.radio.state ≠ .attached) : q.pathLost = p.pathLost := by
  unfold Part.pathLost
  rw [h1, pathFibre_of h1 h2 ha hb]
  unfold Part.pathStranded
  rw [h1, h2]

theorem enterFibre_all {r : Discard} {p : Part} (ha : p.radio.state ≠ .attached) :
    enterFibre r p = { p.unqueued r (fun _ => true) with path := p.pathFibre } := by
  have h1 := enterFibre_path r p
  have h2 : enterFibre r p = { p.unqueued r (fun _ => true) with path := (enterFibre r p).path } := by
    unfold enterFibre
    dsimp only
    rw [unqueued_all r p _ (fun c => by rw [PerClass.get_ofFn]; rfl)]
    split
    · have hna : Part.attached { p.unqueued r (fun _ => true) with path := { p.path.idle with service := .fibre, classes := PerClass.ofFn fun _ => ClassPath.fibre } } = false := by
        refine decide_eq_false ?_
        show (p.unqueued r _).radio.state ≠ _
        rw [unqueued_radio]; exact ha
      exact enterSuspect_moves hna
    · rfl
  rw [h2, h1]

/-- The path controller and the relay as the module leaves ATTACHED by a requested detach. -/
theorem pathDetached_parted {p : Part} (ha : p.radio.state ≠ .attached) :
    pathDetached { p with relay := { p.relay with shed := ⟨false, false, false, false⟩ } } =
      { p.parted with path := p.parted.pathLost } := by
  have hpl : p.parted.pathLost = p.pathLost := by
    refine pathLost_of ?_ ?_ ha ?_
    · unfold Part.parted
      cases p.path.service <;> dsimp only <;> rw [unqueued_path]
    · unfold Part.parted
      cases p.path.service <;> dsimp only <;> rw [unqueued_clock]
    · unfold Part.parted
      cases p.path.service <;> dsimp only <;> (try rw [unqueued_radio]) <;> exact ha
  rw [hpl]
  unfold pathDetached Part.parted Part.pathLost
  cases hs : p.path.service <;> dsimp only
  · rw [← enterStranded_path]; rfl
  · rw [enterFibre_all (p := { p with relay := { p.relay with shed := ⟨false, false, false, false⟩ } }) ha,
      pathFibre_of (p := p) (q := { p with relay := { p.relay with shed := ⟨false, false, false, false⟩ } }) rfl rfl ha ha]
  · rw [enterFibre_all (p := { p with relay := { p.relay with shed := ⟨false, false, false, false⟩ } }) ha,
      pathFibre_of (p := p) (q := { p with relay := { p.relay with shed := ⟨false, false, false, false⟩ } }) rfl rfl ha ha]
  · rw [discardFibre_unqueued]
    have hw : (fun c => decide (((Part.withPath { p with relay := { p.relay with shed := ⟨false, false, false, false⟩ } }
        (p.path.mapClasses (Part.draining { p with relay := { p.relay with shed := ⟨false, false, false, false⟩ } }) fun _ => ClassPath.fibre)).path.classes.get c).word = .fibre)) =
        fun c => decide ((p.path.classes.get c).sub = .draining) || decide ((p.path.classes.get c).word = .fibre) := by
      funext c
      simp only [withPath_path, Path.mapClasses, PerClass.get_ofFn]
      by_cases h : (p.path.classes.get c).sub = .draining
      · rw [if_pos (by exact decide_eq_true h), decide_eq_true h, Bool.true_or]; rfl
      · rw [if_neg (by simpa [Part.draining] using h), decide_eq_false h, Bool.false_or]
    rw [hw]
    have hm : (p.path.mapClasses (Part.draining { p with relay := { p.relay with shed := ⟨false, false, false, false⟩ } }) fun _ => ClassPath.fibre) =
        { p.path with classes := PerClass.ofFn fun c =>
          if (p.path.classes.get c).sub = .draining then onFibre else p.path.classes.get c } := by
      unfold Path.mapClasses Part.draining
      simp only [decide_eq_true_eq]
      rfl
    rw [hm]
    exact unqueued_withPath _ _ _ _
  · have h1 := enterRadioSide_forced { p with relay := { p.relay with shed := ⟨false, false, false, false⟩ } }
    have h2 : enterRadioSide .forcedRadio { p with relay := { p.relay with shed := ⟨false, false, false, false⟩ } } =
        { p with
          relay := { p.relay with shed := ⟨false, false, false, false⟩ }
          path := (enterRadioSide .forcedRadio { p with relay := { p.relay with shed := ⟨false, false, false, false⟩ } }).path } := rfl
    rw [h2, h1]
    unfold Part.pathForcedRadio
    simp only [if_neg ha]

/-- A requested detach begins: what the start leaves. -/
theorem startDetachReq_parted {p : Part} (ha : p.radio.state = .attached) :
    startDetachReq p =
      let x := Part.parted { p with radio := p.radio.departs p.clock.now }
      { x with path := x.pathLost } := by
  rw [← pathDetached_parted (p := { p with radio := p.radio.departs p.clock.now }) (by simp [Machine.Radio.departs])]
  unfold startDetachReq moduleTo
  simp only [Module.restarts, decide_true, Bool.not_true, Bool.and_false, Bool.false_eq_true, if_false,
    reduceCtorEq, or_self]
  rw [if_pos (by exact decide_eq_true ha)]
  rfl

/-- The end of the event in which a requested detach begins. -/
theorem departs_leads {b p : Part} (ha : p.radio.state = .attached) :
    let x := Part.parted { p with radio := p.radio.departs p.clock.now }
    let q := closeEvent b (startDetachReq p)
    EventEnds x q ∧ Keeps x q ∧ (p.DrainsOnAir → q.path = x.pathLost) ∧
      q.radio = { x.radio with demand := q.radio.demand, linger := q.radio.linger } ∧
      q.command =
        if p.command.running = some .radioDetach then
          { p.command with
            running := none, result := 0x01, data := padTo 16 [6, causeCode p.radio.lastDetach] }
        else p.command := by
  intro x q
  have hxr : x.radio = p.radio.departs p.clock.now := by
    simp only [x]
    unfold Part.parted
    cases p.path.service <;> dsimp only <;> rw [unqueued_radio]
  have hxp : x.path = p.path := by
    simp only [x]
    unfold Part.parted
    cases p.path.service <;> dsimp only <;> rw [unqueued_path]
  have hxc : x.command = p.command := by
    simp only [x]
    unfold Part.parted
    cases p.path.service <;> dsimp only <;> rw [unqueued_command]
  have hq : q = closeEvent b { x with path := x.pathLost } := congrArg (closeEvent b) (startDetachReq_parted ha)
  have hm := moved_ends (b := b) (x := x) (z := { x with path := x.pathLost }) rfl (path_frame (pathLost_same _))
  have hst : x.radio.state = .detaching := by rw [hxr]; rfl
  have hd := closeEvent_down (b := b) (z := { x with path := x.pathLost }) (by show x.radio.state ≠ _; rw [hst]; simp) (by show x.radio.state ≠ _; rw [hst]; simp)
    (by show x.radio.state ≠ _; rw [hst]; simp) (by show x.radio.control = _; rw [hxr]; rfl)
  rw [hq]
  refine ⟨hm.1, hm.2 (.inr (by rw [hst]; simp)), fun h => lost_path hxp (by rw [hst]; simp) h, hd.1, ?_⟩
  rw [hd.2]
  dsimp only
  rw [hxc, hst]
  rw [show x.radio.lastDetach = p.radio.lastDetach by rw [hxr]; rfl]
  rfl

/-- An ATTACH_REQ on the lane: the end of the event changes of the module at most demand and its timer. -/
theorem closeEvent_requested {b x : Part} (h : x.radio.state = .attaching) (hp : x.radio.phase = .awaiting)
    (hc : x.radio.control = none) (hl : x.radio.lane.isSome = true) :
    (closeEvent b x).radio = { x.radio with
      demand := (closeEvent b x).radio.demand, linger := (closeEvent b x).radio.linger } := by
  rw [closeEvent_radio]
  have hd := returnDrained_command x
  generalize hy : returnDrained x = y at *
  have hyr : y.radio = x.radio := hd.2
  have hrf : reviewForced y = y := if_neg (fun g => by rw [hyr, hc] at g; simp at g)
  have hs : (settle y).radio = { x.radio with demand := (settle y).radio.demand, linger := (settle y).radio.linger } := by
    have e : (settle y).radio = (demandActs (y.withRadio (demandAfter y))).radio := by
      have e : (settle y).radio = (reviewDemand (reviewForced y)).radio := rfl
      rw [e, hrf]; rfl
    rw [e]
    have hda := demandAfter_eq y
    rw [hyr] at hda
    generalize demandAfter y = d at *
    have h1 : d.state = .attaching := by rw [hda]; exact h
    have h2 : d.phase = .awaiting := by rw [hda]; exact hp
    unfold demandActs
    dsimp only [withRadio_radio]
    rw [h1, h2]
    split <;> exact hda
  have ht : takeLane (settle y) = settle y := if_pos (by rw [hs]; exact hl)
  rw [ht]; exact hs

/-! ### The automatic run, and an event that leaves nothing queued -/

/-- The automatic run as R47 keeps it for the path records, settings and window of `p`. -/
def runKept (p : Part) : Option Nat :=
  if p.path.service = .radio ∧ p.path.verdict = .bad ∧ p.optical.window = .none ∧
      p.optical.settings.interval ≠ 0 then some (p.optical.run.getD p.clock.now) else none

theorem settle_optical (p : Part) : (settle p).optical = { p.optical with run := runKept p } := by
  have hd : (reviewDemand (reviewForced p)).optical = p.optical := by
    unfold reviewDemand demandActs reviewForced
    dsimp only
    (repeat' split) <;> first | rfl | exact endDetach_optical _ _
  have hs := settle_settle p
  unfold settle reviewRun runKept Part.isBad
  dsimp only
  have hp : (reviewDemand (reviewForced p)).path = p.path := hs.path
  have hc : (reviewDemand (reviewForced p)).clock = p.clock := hs.frame.clock
  rw [hd, hp, hc]
  simp only [decide_eq_true_eq]

/-- Where no forced request can start, the end of an event leaves the automatic run as R47 asks. -/
theorem closeEvent_run {b p : Part} (h : p.Stays) (hn : p.NoneDrained) : (closeEvent b p).optical.run = runKept p := by
  have hd := returnDrained_keeps (p := p) hn
  have e : (closeEvent b p).optical = (takeLane (settle p)).optical := by
    unfold closeEvent noteChanges reviewDetach
    rw [hd]
    have : ∀ c f (q : Part), (raiseIf c f q).optical = q.optical := by
      intro c f q; cases c <;> rfl
    rw [this, this]
    split
    · rfl
    · exact endDetach_optical _ _
  have hp := takeLane_stays_path h
  have ho := settle_optical p
  have hpath := (settle_settle p).path
  have hk : (settle p).clock = p.clock := (settle_settle p).frame.clock
  rw [e]
  revert hp
  unfold takeLane
  split
  · intro _; rw [ho]
  · split
    · split
      · intro _; exact congrArg Optical.run ho
      · intro _; rw [ho]
    · split
      · rename_i hl _ b hc ha
        intro hp
        have h1 : (startDetachReq (settle p)).path = p.path := hp ▸ (settle_settle _).path.symm
        have hs : p.path.service = .fibre := by
          by_contra hs
          have hn : p.radio.control ≠ some (.detachReq true) :=
            h.resolve_right fun g => hl ((settle_settle p).lane.trans g)
          exact settle_noRequest hs hn ha b hc
        rw [settle_optical]
        dsimp only
        unfold runKept
        rw [h1, hs, if_neg (by simp), if_neg (by simp)]
      · intro _; rw [ho]
    · intro _
      unfold trySend
      split
      · split
        · exact congrArg Optical.run ho
        · rw [ho]
      · rw [ho]

theorem discardFrames_optical (r : Discard) (fs : List Frame) (p : Part) :
    (discardFrames r fs p).optical = p.optical := by
  unfold discardFrames
  induction fs generalizing p with
  | nil => rfl
  | cons f fs ih => exact (ih _).trans (by show (discardParts r f.parts p).optical = _; rw [discardParts_only])

theorem discardQueues_optical (r : Discard) (cs : List ServiceClass) (p : Part) :
    (discardQueues r cs p).optical = p.optical := by
  unfold discardQueues
  induction cs generalizing p with
  | nil => rfl
  | cons c cs ih => exact (ih _).trans (discardFrames_optical r _ _)

theorem enterFibre_optical (r : Discard) (p : Part) : (enterFibre r p).optical = p.optical := by
  have hs (q : Part) : (enterSuspect q).optical = q.optical := by
    unfold enterSuspect dwellEnds
    dsimp only
    (repeat' split) <;> rfl
  unfold enterFibre
  dsimp only
  split
  · exact (hs _).trans (discardQueues_optical _ _ _)
  · exact discardQueues_optical _ _ _

theorem startDetachReq_optical (p : Part) : (startDetachReq p).optical = p.optical := by
  have hp (q : Part) : (pathDetached q).optical = q.optical := by
    unfold pathDetached
    split
    · rfl
    · exact enterFibre_optical _ q
    · exact enterFibre_optical _ q
    · rfl
    · exact discardQueues_optical _ _ _
    · rfl
  unfold startDetachReq moduleTo
  simp only [Module.restarts, reduceCtorEq, or_self, decide_true, Bool.not_true, Bool.and_false,
    Bool.false_eq_true, if_false]
  split
  · exact hp _
  · rfl

/-- A run that stands still goes from the present millisecond, if the end of the event starts it (R47). -/
theorem closeEvent_run_stopped (b : Part) {p : Part} (h : p.optical.run = none) :
    (closeEvent b p).optical.run =
      if (closeEvent b p).path.service = .radio ∧ (closeEvent b p).path.verdict = .bad ∧
          p.optical.window = .none ∧ p.optical.settings.interval ≠ 0 then some p.clock.now else none := by
  have fresh (q : Part) (hq : q.optical.run = none ∨ q.optical.run = some q.clock.now) :
      (settle q).optical.run = none ∨ (settle q).optical.run = some (settle q).clock.now := by
    rw [settle_optical, (settle_settle q).frame.clock]
    dsimp only
    unfold runKept
    split
    · rcases hq with hq | hq <;> rw [hq] <;> exact .inr rfl
    · exact .inl rfl
  have hd : (returnDrained p).optical = p.optical ∧ (returnDrained p).clock = p.clock := by
    obtain ⟨n, hn⟩ := returnDrained_eq p
    rw [hn]; exact ⟨rfl, rfl⟩
  have hl : (takeLane (settle (returnDrained p))).optical.run = none ∨
      (takeLane (settle (returnDrained p))).optical.run = some (takeLane (settle (returnDrained p))).clock.now := by
    have h1 := fresh (returnDrained p) (.inl (by rw [hd.1]; exact h))
    unfold takeLane
    split
    · exact h1
    · split
      · split <;> exact h1
      · split
        · refine fresh _ ?_
          rw [startDetachReq_optical, (startDetachReq_frame _).clock]; exact h1
        · exact h1
      · unfold trySend
        split
        · split <;> exact h1
        · exact h1
  have hc : (takeLane (settle (returnDrained p))).clock = p.clock := by
    rw [(takeLane_frame _).clock, (settle_settle _).frame.clock, hd.2]
  have he : (closeEvent b p).optical = (takeLane (settle (returnDrained p))).optical := by
    have hr (c : Bool) (f : Flag) (q : Part) : (raiseIf c f q).optical = q.optical := by cases c <;> rfl
    unfold closeEvent noteChanges reviewDetach
    rw [hr, hr]
    split
    · rfl
    · exact endDetach_optical _ _
  have hf := (closeEvent_follows b p).2
  have ho := (closeEvent_frame b p).optical
  unfold Part.RunFollows at hf
  rw [ho] at hf
  rw [← he, hc] at hl
  dsimp only at hf
  split
  · rename_i g
    have := hf.mpr g
    rcases hl with hl | hl
    · rw [hl] at this; cases this
    · exact hl
  · rename_i g
    rcases hl with hl | hl
    · exact hl
    · exact absurd (hf.mp (by rw [hl]; rfl)) g

/-- In FIBRE the path controller has no part in a detach (R95). -/
theorem startDetach_fibre {p : Part} (h : p.path.service = .fibre) : (startDetachReq p).events = p.events ∧ (startDetachReq p).command = p.command := by
  refine ⟨?_, startDetachReq_command p⟩
  unfold startDetachReq moduleTo
  simp only [Module.restarts, reduceCtorEq, or_self, decide_true, Bool.not_true, Bool.and_false, Bool.false_eq_true, if_false, decide_false]
  split
  · unfold leftAttached pathDetached
    simp only [Part.withRadio, h]
  · rfl

/-- With nothing queued the lane takes at most a request. -/
theorem takeLane_emptied {p : Part} (hs : p.Stays) (hq : ∀ c, p.relay.queues.get c = []) (hc : p.command.running ≠ some .radioDetach) :
    (takeLane (settle p)).events = p.events ∧ (takeLane (settle p)).command.running ≠ some .radioDetach := by
  have he := settle_events hc
  have hcs : (settle p).command.running ≠ some .radioDetach := by rw [settle_command hc]; exact hc
  have hrel := (settle_settle p).relay
  unfold takeLane
  split
  · exact ⟨he, hcs⟩
  · rename_i hl
    have hn : p.radio.control ≠ some (.detachReq true) := by
      rcases hs with h | h
      · exact h
      · rw [(settle_settle p).lane, h] at hl; exact absurd rfl hl
    split
    · split <;> exact ⟨he, hcs⟩
    · rename_i b hb
      split
      · rename_i ha
        by_cases hf : p.path.service = .fibre
        · have hf' : (settle p).path.service = .fibre := by rw [(settle_settle p).path]; exact hf
          have h1 := startDetach_fibre hf'
          have h2 : (startDetachReq (settle p)).command.running ≠ some .radioDetach := by rw [h1.2]; exact hcs
          exact ⟨(settle_events h2).trans (h1.1.trans he), by rw [settle_command h2]; exact h2⟩
        · exact absurd hb (settle_noRequest hf hn ha b)
      · exact ⟨he, hcs⟩
    · have : (settle p).candidate = none := by
        unfold Part.candidate
        rw [List.findSome?_eq_none_iff]
        intro c _
        rw [hrel, hq]
        split <;> rfl
      unfold trySend
      rw [this]
      exact ⟨he, hcs⟩

/-- With nothing queued, and no forced request that can start, the end of an event counts what R91 and R93 do and
raises at most the two flags of what changed (R81, R106). -/
theorem closeEvent_emptied {b p : Part} (hs : p.Stays) (hq : ∀ c, p.relay.queues.get c = [])
    (hc : p.command.running ≠ some .radioDetach) :
    (closeEvent b p).events.counters = (returnDrained p).events.counters ∧
      ∀ g, (closeEvent b p).flag g = true → p.flag g = true ∨
        g = .pathChanged ∧ pathMoved b.path (closeEvent b p).path = true ∨
        g = .radioChanged := by
  have h1 := returnDrained_command p
  have hr : (returnDrained p).relay = p.relay := by
    obtain ⟨n, hn⟩ := returnDrained_eq p; rw [hn]; rfl
  have ht := takeLane_emptied (p := returnDrained p) (by unfold Part.Stays; rw [h1.2]; exact hs) (by rw [hr]; exact hq) (by rw [h1.1]; exact hc)
  have hd : reviewDetach (takeLane (settle (returnDrained p))) =
      takeLane (settle (returnDrained p)) := by
    unfold reviewDetach
    split
    · rfl
    · exact endDetach_command ht.2
  have e : closeEvent b p = noteChanges b (takeLane (settle (returnDrained p))) := by
    unfold closeEvent; rw [hd]
  have hflags : (returnDrained p).events.flags = p.events.flags := by
    unfold returnDrained returnEnds
    split
    · rfl
    · split <;> rfl
  rw [e]
  generalize takeLane (settle (returnDrained p)) = z at *
  have hp : ∀ (b : Bool) f (q : Part), (raiseIf b f q).path = q.path ∧ (raiseIf b f q).radio = q.radio ∧
      (raiseIf b f q).events.counters = q.events.counters := by
    intro b f q; cases b <;> exact ⟨rfl, rfl, rfl⟩
  unfold noteChanges
  rw [(hp _ _ _).1, (hp _ _ _).1, (hp _ _ _).2.2, (hp _ _ _).2.2, ht.1]
  refine ⟨rfl, fun g hg => ?_⟩
  have hz : ∀ g, z.flag g = p.flag g := by
    intro g; unfold Part.flag; rw [ht.1, hflags]
  have hr : ∀ (b : Bool) f (q : Part), (raiseIf b f q).flag g = true → q.flag g = true ∨ g = f ∧ b = true := by
    intro b f q hq
    cases b
    · exact .inl hq
    · exact ((raise_flag_iff f g q).mp hq).imp id fun h => ⟨h, rfl⟩
  rcases hr _ _ _ hg with h | ⟨h, h'⟩
  · rcases hr _ _ _ h with h | ⟨h, h'⟩
    · left; rw [← hz]; exact h
    · exact .inr (.inl ⟨h, h'⟩)
  · exact .inr (.inr h)

end Sys2Proof.Machine
end

