-- ==== Sys2Proof/Laws/Stands.lean ====
section
/-! SUPPORT. The moves of the path controller keep what stands of it between events (R77 to R99). -/

namespace Sys2Proof.Machine

/-- What every event's own rule keeps: coherence but for what the end of an event brings about. -/
structure Core (p : Part) : Prop where
  path : p.PathStands
  handed : p.path.verdict = p.health.verdict ∧ p.path.causes = p.health.causes
  shed : (∀ c, p.relay.shed.get c = true → p.radio.state = .attached) ∧
    p.relay.shed.voice = false ∧ p.relay.shed.signal = false
  control : (∀ b, p.radio.control = some (.detachReq b) → p.radio.state = .attached) ∧
    ∀ n, p.radio.control = some (.attachReq n) → p.radio.phase = .pending
  phase : p.radio.state = .attaching ↔ p.radio.phase ≠ .none
  bounds : p.relay.credit ≤ 8 * p.relay.depth ∧ p.radio.outstanding.length ≤ 4
  queued : p.QueuedByClass

theorem Part.Coherent.core {p : Part} (h : p.Coherent) : Core p :=
  ⟨h.path, h.handed, h.shed, h.control, h.phase, h.bounds, h.queued⟩

theorem Part.PathStands.congr {p q : Part} (h : p.PathStands) (h1 : q.path.service = p.path.service)
    (h1' : q.path.classes = p.path.classes) (hv : q.path.verdict = p.path.verdict)
    (he : q.path.effective = p.path.effective) (h2 : q.radio.state = p.radio.state)
    (h3 : q.relay.shed = p.relay.shed) (h4 : ∀ c, p.relay.queues.get c = [] → q.relay.queues.get c = []) :
    q.PathStands := by
  refine ⟨fun c => ?_, ?_, ?_, ?_, ?_, ?_, ?_⟩
  · have := h.stands c
    unfold Part.Stands at *
    rw [h1, h1', h2, h3]; exact this
  · rw [h1, h2]; exact h.onAir
  · unfold Part.DrainsOnAir; rw [h1, h1', h2]; exact h.drainsOnAir
  · rw [h1, h1']; exact h.returns
  · have := h.judges
    unfold Part.Judges at *
    rw [h1, hv, h2]; exact this
  · rw [h1, he]; exact h.forced
  · intro c hc; rw [h1'] at hc; exact h4 c (h.fibre c hc)

/-- A change of the path controller and of queues, the queues losing frames at most. -/
theorem Core.move {p q : Part} (h : Core p) (k : q.PathStands) (hr : q.radio = p.radio) (hh : q.health = p.health)
    (hv : q.path.verdict = p.path.verdict) (hc : q.path.causes = p.path.causes) (hs : q.relay.shed = p.relay.shed)
    (hcr : q.relay.credit = p.relay.credit) (hd : q.relay.depth = p.relay.depth)
    (hq : ∀ c f, f ∈ q.relay.queues.get c → f ∈ p.relay.queues.get c) : Core q := by
  refine ⟨k, by rw [hv, hc, hh]; exact h.handed, by rw [hs, hr]; exact h.shed, by rw [hr]; exact h.control,
    by rw [hr]; exact h.phase, by rw [hcr, hd, hr]; exact h.bounds, fun c f hf => h.queued c f (hq c f hf)⟩

/-- Nothing that coherence speaks of changes. -/
theorem Core.same {p q : Part} (h : Core p) (hp : q.path = p.path) (hr : q.radio = p.radio) (hl : q.relay = p.relay)
    (hh : q.health.verdict = p.health.verdict ∧ q.health.causes = p.health.causes) : Core q := by
  refine ⟨h.path.congr (by rw [hp]) (by rw [hp]) (by rw [hp]) (by rw [hp]) (by rw [hr]) (by rw [hl]) (by rw [hl]; exact fun _ => id), ?_, by rw [hl, hr]; exact h.shed, by rw [hr]; exact h.control,
    by rw [hr]; exact h.phase, by rw [hl, hr]; exact h.bounds, ?_⟩
  · rw [hp, hh.1, hh.2]; exact h.handed
  · unfold Part.QueuedByClass; rw [hl]; exact h.queued

/-! ### Entries to the service states -/

theorem onRadio_word (b : Bool) : (onRadio b).word ≠ .fibre ∧ (onRadio b).sub ≠ .draining := by
  cases b <;> simp [onRadio]

theorem enterRadio_stands {p : Part} (ha : p.radio.state = .attached) (hb : p.path.verdict = .bad) (he : p.path.effective = .auto) :
    (enterRadioSide .radio p).PathStands := by
  have hk : ∀ c, (enterRadioSide .radio p).path.classes.get c = onRadio (p.relay.shed.get c) := by
    intro c
    show (PerClass.ofFn _).get c = _
    rw [PerClass.get_ofFn, record_radio _ _ _ (by simp)]
  refine ⟨hk, fun _ => ha, fun c hc => ?_, fun h => ?_, hb, ?_, fun c hc => ?_⟩
  · rw [hk] at hc; exact absurd hc (onRadio_word _).2
  · exact absurd h (by simp [enterRadioSide])
  · have : (enterRadioSide .radio p).path.effective = .auto := he
    rw [this]; simp [enterRadioSide]
  · rw [hk] at hc; exact absurd hc (onRadio_word _).1

theorem enterForcedRadio_stands {p : Part} (he : p.path.effective = .radio) :
    (enterRadioSide .forcedRadio p).PathStands := by
  have hk : ∀ c, (enterRadioSide .forcedRadio p).path.classes.get c =
      if p.radio.state = .attached then onRadio (p.relay.shed.get c) else blocked .noRadio := by
    intro c
    show (PerClass.ofFn _).get c = _
    rw [PerClass.get_ofFn, record_forcedRadio]
  have hw : ∀ c, ((enterRadioSide .forcedRadio p).path.classes.get c).word ≠ .fibre ∧ ((enterRadioSide .forcedRadio p).path.classes.get c).sub ≠ .draining := by
    intro c; rw [hk]; split
    · exact onRadio_word _
    · simp [blocked]
  refine ⟨hk, fun h => ?_, fun c hc => absurd hc (hw c).2, fun h => ?_, trivial, ?_, fun c hc => absurd hc (hw c).1⟩
  · simp [enterRadioSide] at h
  · exact absurd h (by simp [enterRadioSide])
  · have : (enterRadioSide .forcedRadio p).path.effective = .radio := he
    rw [this]; simp [enterRadioSide]

theorem enterStranded_stands {p : Part} (hb : p.path.verdict = .bad → p.radio.state ≠ .attached) (he : p.path.effective = .auto) :
    (enterStranded p).PathStands := by
  have hk : ∀ c, (enterStranded p).path.classes.get c = blocked .noPath := by
    intro c
    show (PerClass.ofFn _).get c = _
    rw [PerClass.get_ofFn]; rfl
  refine ⟨hk, fun h => ?_, fun c hc => ?_, fun h => ?_, hb, ?_, fun c hc => ?_⟩
  · simp [enterStranded, enterRadioSide] at h
  · rw [hk] at hc; simp [blocked] at hc
  · exact absurd h (by simp [enterStranded, enterRadioSide])
  · have : (enterStranded p).path.effective = .auto := he
    rw [this]; simp [enterStranded, enterRadioSide]
  · rw [hk] at hc; simp [blocked] at hc

theorem dwellEnds_stands {p : Part} (hb : p.path.verdict = .bad) (he : p.path.effective = .auto) : (dwellEnds p).PathStands := by
  unfold dwellEnds
  by_cases ha : p.radio.state = .attached
  · rw [if_pos (by exact decide_eq_true ha)]
    exact (enterRadio_stands ha hb he).congr rfl rfl rfl rfl rfl rfl fun _ => id
  · rw [if_neg (by simpa [Part.attached] using ha)]
    exact enterStranded_stands (fun _ => ha) he

theorem onFibre_stands {p : Part} (hs : p.path.service = .fibre ∧ p.path.verdict ≠ .bad ∨ p.path.service = .suspect ∧ p.path.verdict = .bad)
    (hk : ∀ c, p.path.classes.get c = onFibre) (hq : ∀ c, p.relay.queues.get c = []) (he : p.path.effective = .auto) : p.PathStands := by
  have hf : p.path.service = .fibre ∨ p.path.service = .suspect := hs.imp And.left And.left
  refine ⟨fun c => ?_, fun h => ?_, fun c hc => ?_, fun h => ?_, ?_, ?_, fun c _ => hq c⟩
  · unfold Part.Stands; rcases hf with h | h <;> rw [h] <;> exact hk c
  · rcases hf with g | g <;> rw [g] at h <;> simp at h
  · rw [hk] at hc; simp [onFibre] at hc
  · rcases hf with g | g <;> rw [g] at h <;> simp at h
  · unfold Part.Judges
    rcases hs with ⟨h, h'⟩ | ⟨h, h'⟩ <;> rw [h] <;> exact h'
  · rw [he]; rcases hf with g | g <;> rw [g] <;> simp

theorem enterSuspect_stands {p : Part} (hb : p.path.verdict = .bad) (hk : ∀ c, p.path.classes.get c = onFibre) (hq : ∀ c, p.relay.queues.get c = []) (he : p.path.effective = .auto) :
    (enterSuspect p).PathStands := by
  unfold enterSuspect
  dsimp only
  generalize (if p.path.causes.has .los then p.path.settings.losDwell else p.path.settings.failDwell) = d
  split
  · exact dwellEnds_stands hb he
  · exact onFibre_stands (.inr ⟨rfl, hb⟩) hk hq he

theorem discardFibre_queues (r : Discard) (p : Part) (c : ServiceClass) :
    (discardFibre r p).relay.queues.get c = if (p.path.classes.get c).word = .fibre then [] else p.relay.queues.get c := by
  rw [discardFibre_unqueued, unqueued_queues]; simp

theorem enterFibre_stands {r : Discard} {p : Part} (he : p.path.effective = .auto) : (enterFibre r p).PathStands := by
  unfold enterFibre
  dsimp only
  obtain ⟨x, hx⟩ : ∃ x, x = discardFibre r { p with path :=
        { p.path.idle with service := .fibre, classes := PerClass.ofFn fun _ => ClassPath.fibre } } := ⟨_, rfl⟩
  rw [← hx]
  have hp : x.path = { p.path.idle with service := .fibre, classes := PerClass.ofFn fun _ => ClassPath.fibre } := by
    rw [hx, (discardFibre_path _ _).1]
  have hk : ∀ c, x.path.classes.get c = onFibre := by intro c; rw [hp, PerClass.get_ofFn]; rfl
  have hq : ∀ c, x.relay.queues.get c = [] := by
    intro c
    rw [hx, discardFibre_queues, if_pos]
    rw [PerClass.get_ofFn]; rfl
  have hex : x.path.effective = .auto := by rw [hp]; exact he
  split
  · rename_i hb
    exact enterSuspect_stands (of_decide_eq_true hb) hk hq hex
  · rename_i hb
    exact onFibre_stands (.inl ⟨by rw [hp], fun g => hb (decide_eq_true g)⟩) hk hq hex

theorem drain_holds (p : Part) : p.drainRecord.holds := ⟨rfl, rfl, rfl, rfl⟩

theorem enterReturning_stands {p : Part} (ha : p.radio.state = .attached) (hb : p.path.verdict ≠ .bad) (he : p.path.effective = .auto) :
    (enterReturning p).PathStands := by
  unfold enterReturning
  dsimp only
  obtain ⟨y, hy⟩ : ∃ y : Path, y = { p.path.idle with
          service := .returning
          classes := { voice := p.record .returning .waitingQuiet none .voice,
                       signal := if p.relay.shed.get .signal then ClassPath.fibre else p.drainRecord,
                       interactive := if p.relay.shed.get .interactive then ClassPath.fibre else p.drainRecord,
                       bulk := if p.relay.shed.get .bulk then ClassPath.fibre else p.drainRecord }
          quiet := p.after p.path.settings.voiceQuiet
          stick := p.after (p.path.settings.voiceStick * 1000) } := ⟨_, rfl⟩
  rw [← hy]
  obtain ⟨x, hx⟩ : ∃ x, x = discardFibre .drainLimit { p with path := y } := ⟨_, rfl⟩
  rw [← hx]
  have hp : x.path = y := by rw [hx, (discardFibre_path _ _).1]
  have hr : x.radio = p.radio := by rw [hx, (discardFibre_path _ _).2.1]
  have hk : ∀ c, x.path.classes.get c = onFibre ∨ (x.path.classes.get c).holds ∨ c = .voice ∧ (x.path.classes.get c).quiets := by
    intro c
    rw [hp, hy]
    cases c
    · exact .inr (.inr ⟨rfl, rfl⟩)
    all_goals
      show (if _ then _ else _) = onFibre ∨ ClassPath.holds (if _ then _ else _) ∨ _
      split
      · exact .inl rfl
      · exact .inr (.inl (drain_holds p))
  have hsv : x.path.service = .returning := by rw [hp, hy]
  refine ⟨fun c => ?_, fun _ => by rw [hr]; exact ha, fun c _ => ⟨by rw [hr]; exact ha, .inl hsv⟩, fun _ => ⟨.voice, ?_⟩, ?_, ?_, fun c hc => ?_⟩
  · unfold Part.Stands; rw [hsv]; exact hk c
  · rw [hp, hy]; simp [PerClass.get, Part.record, onFibre]
  · unfold Part.Judges; rw [hsv, hp, hy]; exact hb
  · have : x.path.effective = .auto := by rw [hp, hy]; exact he
    rw [this, hsv]; simp
  · rw [hx, discardFibre_queues, if_pos]
    rw [hp] at hc; exact hc

theorem stands_word {p : Part} {c : ServiceClass} (h : p.Stands c) :
    (p.path.classes.get c).sub = .draining → (p.path.classes.get c).holds := by
  intro hd
  have ho : ∀ b, (onRadio b).sub ≠ .draining := fun b => (onRadio_word b).2
  unfold Part.Stands at h
  cases hs : p.path.service <;> rw [hs] at h <;> dsimp only at h
  · rw [h] at hd; cases hd
  · rw [h] at hd; cases hd
  · rw [h] at hd; exact absurd hd (ho _)
  · rw [h] at hd; cases hd
  · rw [h] at hd; exact absurd hd (ho _)
  · rcases h with h | h | ⟨_, h⟩
    · rw [h] at hd; cases hd
    · exact h
    · unfold ClassPath.quiets at h; rw [h] at hd; cases hd
  · rcases h with h | h
    · rw [h] at hd; cases hd
    · exact h
  · rw [h] at hd; split at hd
    · exact absurd hd (ho _)
    · cases hd

/-- A class whose word is RADIO or HOLD is one of an ATTACHED module. -/
theorem word_attached {p : Part} (h : p.PathStands) (c : ServiceClass)
    (hw : (p.path.classes.get c).word = .radio ∨ (p.path.classes.get c).word = .hold) : p.radio.state = .attached := by
  have hst := h.stands c
  have hdr := h.drainsOnAir c
  have hon := h.onAir
  unfold Part.Stands at hst
  cases hs : p.path.service <;> rw [hs] at hst hon <;> dsimp only at hst
  · rw [hst] at hw; simp [onFibre] at hw
  · rw [hst] at hw; simp [onFibre] at hw
  · exact hon (by simp)
  · rw [hst] at hw; simp [blocked] at hw
  · exact hon (by simp)
  · exact hon (by simp)
  · rcases hst with h1 | h1
    · rw [h1] at hw; simp [onFibre] at hw
    · exact (hdr h1.2.2.1).1
  · by_cases ha : p.radio.state = .attached
    · exact ha
    · rw [if_neg ha] at hst; rw [hst] at hw; simp [blocked] at hw

theorem hold_holds {p : Part} (h : p.PathStands) (c : ServiceClass)
    (hw : (p.path.classes.get c).word = .hold) : (p.path.classes.get c).holds := by
  have hst := h.stands c
  have ho : ∀ b, (onRadio b).word ≠ .hold := fun b => by cases b <;> simp [onRadio]
  unfold Part.Stands at hst
  cases hs : p.path.service <;> rw [hs] at hst <;> dsimp only at hst
  · rw [hst] at hw; simp [onFibre] at hw
  · rw [hst] at hw; simp [onFibre] at hw
  · rw [hst] at hw; exact absurd hw (ho _)
  · rw [hst] at hw; simp [blocked] at hw
  · rw [hst] at hw; exact absurd hw (ho _)
  · rcases hst with h1 | h1 | ⟨_, h1⟩
    · rw [h1] at hw; simp [onFibre] at hw
    · exact h1
    · unfold ClassPath.quiets at h1; rw [h1] at hw; simp at hw
  · rcases hst with h1 | h1
    · rw [h1] at hw; simp [onFibre] at hw
    · exact h1
  · rw [hst] at hw; split at hw
    · exact absurd hw (ho _)
    · simp [blocked] at hw

/-- The forced state FIBRE from any state that stands (R98); `p0` is the part before the force changed. -/
theorem enterForcedFibre_stands {p0 p : Part} (h : p0.PathStands) (hc : p.path.classes = p0.path.classes) (hr : p.radio = p0.radio)
    (he : p.path.effective = .fibre) : (enterForcedFibre p).PathStands := by
  obtain ⟨f, hx0, hf⟩ : ∃ f : ServiceClass → ClassPath,
      enterForcedFibre p = discardFibre .drainLimit { p with path := { p.path.idle with service := .forcedFibre, classes := PerClass.ofFn f } } ∧
      ∀ c, f c = match (p.path.classes.get c).word with
        | .radio => p.drainRecord
        | .hold => p.path.classes.get c
        | .fibre => ClassPath.fibre
        | .blocked => ClassPath.fibre := ⟨_, rfl, fun _ => rfl⟩
  obtain ⟨x, hx⟩ : ∃ x, x = discardFibre .drainLimit { p with path := { p.path.idle with service := .forcedFibre, classes := PerClass.ofFn f } } := ⟨_, rfl⟩
  rw [hx0, ← hx]
  have hp : x.path = { p.path.idle with service := .forcedFibre, classes := PerClass.ofFn f } := by rw [hx, (discardFibre_path _ _).1]
  have hxr : x.radio = p.radio := by rw [hx, (discardFibre_path _ _).2.1]
  have hk : ∀ c, x.path.classes.get c = onFibre ∨ (x.path.classes.get c).holds := by
    intro c
    rw [hp, PerClass.get_ofFn, hf]
    split
    · exact .inr (drain_holds p)
    · rename_i hw
      rw [hc] at hw ⊢
      exact .inr (hold_holds h c hw)
    · exact .inl rfl
    · exact .inl rfl
  have hsv : x.path.service = .forcedFibre := by rw [hp]
  refine ⟨fun c => ?_, fun g => ?_, fun c hd => ⟨?_, .inr hsv⟩, fun g => ?_, ?_, ?_, fun c hcw => ?_⟩
  · unfold Part.Stands; rw [hsv]; exact hk c
  · rw [hsv] at g; simp at g
  · rw [hxr, hr]
    refine word_attached h c ?_
    rw [hp, PerClass.get_ofFn, hf] at hd
    rw [← hc]
    revert hd
    cases hw : (p.path.classes.get c).word <;> simp [ClassPath.fibre]
  · rw [hsv] at g; cases g
  · unfold Part.Judges; rw [hsv]; trivial
  · have : x.path.effective = .fibre := by rw [hp]; exact he
    rw [this, hsv]; simp
  · rw [hx, discardFibre_queues, if_pos]
    rw [hp] at hcw; exact hcw

theorem leaveForced_stands {was : Force} {p : Part} (he : p.path.effective = .auto) : (leaveForced was p).PathStands := by
  unfold leaveForced
  split
  · split
    · rename_i hb
      split
      · rename_i ha
        exact enterRadio_stands (of_decide_eq_true ha) (of_decide_eq_true hb) he
      · rename_i ha
        exact enterStranded_stands (fun _ => by simpa [Part.attached] using ha) he
    · rename_i hb
      split
      · rename_i ha
        exact enterReturning_stands (of_decide_eq_true ha) (by simpa [Part.isBad] using hb) he
      · exact enterFibre_stands he
  · exact enterFibre_stands he

/-- The service state follows the effective force (R77): `p0` is the part before, `p` the part with the new force. -/
theorem takeForce_stands {p0 p : Part} (h : p0.PathStands) (h1 : p.path.service = p0.path.service) (hc : p.path.classes = p0.path.classes)
    (hv : p.path.verdict = p0.path.verdict) (hr : p.radio = p0.radio) (hl : p.relay = p0.relay) :
    (takeForce p0.path.effective p).PathStands := by
  unfold takeForce
  split
  · rename_i he
    exact h.congr h1 hc hv he (by rw [hr]) (by rw [hl]) (by rw [hl]; exact fun _ => id)
  · split
    · rename_i he; exact enterForcedRadio_stands he
    · rename_i he; exact enterForcedFibre_stands h hc hr he
    · rename_i he; exact leaveForced_stands he

/-! ### Moves of the path controller, with the queues they cost -/

/-- Only the path controller, the queues, flags, counters and entries change; the queues lose frames at most. -/
structure PathMove (p q : Part) : Prop where
  frame : EventFrame p q
  radio : q.radio = p.radio
  shed : q.relay.shed = p.relay.shed
  credit : q.relay.credit = p.relay.credit
  queues : ∀ c f, f ∈ q.relay.queues.get c → f ∈ p.relay.queues.get c

theorem PathMove.refl (p : Part) : PathMove p p := ⟨EventFrame.refl p, rfl, rfl, rfl, fun _ _ => id⟩

theorem PathMove.trans {p q r : Part} (h : PathMove p q) (k : PathMove q r) : PathMove p r :=
  ⟨h.frame.trans k.frame, k.radio.trans h.radio, k.shed.trans h.shed, k.credit.trans h.credit,
    fun c f hf => h.queues c f (k.queues c f hf)⟩

theorem PathMove.after {p q r : Part} (k : PathMove q r) (h : PathMove p q) : PathMove p r := h.trans k

theorem PathMove.ite {c : Prop} [Decidable c] {p q r : Part} (h : PathMove p q) (k : PathMove p r) :
    PathMove p (if c then q else r) := by split <;> assumption

theorem Core.moved {p q : Part} (h : Core p) (m : PathMove p q) (k : q.PathStands) : Core q := by
  have hp := m.frame.path
  have hl := m.frame.relay
  exact h.move k m.radio m.frame.health (by rw [hp]) (by rw [hp]) m.shed m.credit (by rw [hl]) m.queues

/-- A change of the path records alone. -/
theorem PathMove.of_path {p : Part} (q : Path) (h : sameFive q p.path) : PathMove p (p.withPath q) :=
  ⟨(ends_of_path (x := p) (z := p.withPath q) rfl (path_frame h)).frame, rfl, rfl, rfl, fun _ _ => id⟩

theorem discardFibre_move (r : Discard) (p : Part) : PathMove p (discardFibre r p) := by
  refine ⟨discardFibre_frame r p, (discardFibre_path r p).2.1, (discardFibre_path r p).2.2.2.1, ?_, fun c f hf => ?_⟩
  · unfold discardFibre; rw [(discardQueues_path _ _ _).2.1]
  · rw [discardFibre_queues] at hf
    split at hf
    · cases hf
    · exact hf

theorem enterRadioSide_move (svc : Service) (p : Part) : PathMove p (enterRadioSide svc p) :=
  PathMove.of_path _ ⟨rfl, rfl, rfl, rfl, rfl⟩

theorem enterStranded_move (p : Part) : PathMove p (enterStranded p) :=
  PathMove.of_path _ ⟨rfl, rfl, rfl, rfl, rfl⟩

theorem count_move (c : Counter) (n : Nat) (p : Part) : PathMove p (count c n p) :=
  ⟨count_frame c n p, rfl, rfl, rfl, fun _ _ => id⟩

theorem dwellEnds_move (p : Part) : PathMove p (dwellEnds p) :=
  PathMove.ite ((enterRadioSide_move _ p).trans (count_move _ _ _)) (enterStranded_move p)

theorem enterSuspect_move (p : Part) : PathMove p (enterSuspect p) := by
  unfold enterSuspect
  dsimp only
  have h : PathMove p { p with path := { p.path with service := .suspect, dwell := p.after (if p.path.causes.has .los then p.path.settings.losDwell
    else p.path.settings.failDwell) } } := PathMove.of_path _ ⟨rfl, rfl, rfl, rfl, rfl⟩
  exact PathMove.ite (h.trans (dwellEnds_move _)) h

theorem enterFibre_move (r : Discard) (p : Part) : PathMove p (enterFibre r p) := by
  unfold enterFibre
  dsimp only
  have h : PathMove p (discardFibre r { p with path :=
        { p.path.idle with service := .fibre, classes := PerClass.ofFn fun _ => ClassPath.fibre } }) :=
    (PathMove.of_path { p.path.idle with service := .fibre, classes := PerClass.ofFn fun _ => ClassPath.fibre } ⟨rfl, rfl, rfl, rfl, rfl⟩).trans (discardFibre_move r _)
  exact PathMove.ite (h.trans (enterSuspect_move _)) h

theorem enterReturning_move (p : Part) : PathMove p (enterReturning p) :=
  (discardFibre_move _ _).after (PathMove.of_path _ ⟨rfl, rfl, rfl, rfl, rfl⟩)

theorem enterForcedFibre_move (p : Part) : PathMove p (enterForcedFibre p) :=
  (discardFibre_move _ _).after (PathMove.of_path _ ⟨rfl, rfl, rfl, rfl, rfl⟩)

theorem leaveForced_move (was : Force) (p : Part) : PathMove p (leaveForced was p) := by
  unfold leaveForced
  split
  · exact PathMove.ite (PathMove.ite (enterRadioSide_move _ p) (enterStranded_move p))
      (PathMove.ite (enterReturning_move p) (enterFibre_move _ p))
  · exact enterFibre_move _ p

theorem takeForce_move (was : Force) (p : Part) : PathMove p (takeForce was p) := by
  unfold takeForce
  refine PathMove.ite (PathMove.refl p) ?_
  split
  · exact enterRadioSide_move _ p
  · exact enterForcedFibre_move p
  · exact leaveForced_move _ p

theorem returnEnds_move (p : Part) : PathMove p (returnEnds p) :=
  PathMove.ite ((count_move _ _ _).after (PathMove.of_path _ ⟨rfl, rfl, rfl, rfl, rfl⟩)) (PathMove.refl p)

/-- Where RETURNING ends with this change: the path stands once R93 is applied. -/
theorem returnEnds_stands {p : Part} (hst : ∀ c, p.Stands c) (hon : p.path.service = .radio ∨ p.path.service = .proving ∨ p.path.service = .returning →
    p.radio.state = .attached) (hdr : p.DrainsOnAir) (hj : p.Judges) (hf : (p.path.effective = .fibre ↔ p.path.service = .forcedFibre) ∧
    (p.path.effective = .radio ↔ p.path.service = .forcedRadio)) (he : p.FibreIsEmpty) : (returnEnds p).PathStands := by
  by_cases h : p.path.service = .returning ∧ ∀ c ∈ classes, (p.path.classes.get c).sub = .returned
  · have hr : returnEnds p = count .returns 1 { p with path := { p.path with service := .fibre, quiet := none, stick := none } } := if_pos h
    rw [hr]
    have hk : ∀ c, p.path.classes.get c = onFibre := by
      intro c
      have h1 := hst c
      have h2 := h.2 c (by cases c <;> decide)
      unfold Part.Stands at h1
      rw [h.1] at h1
      rcases h1 with h1 | h1 | ⟨_, h1⟩
      · exact h1
      · rw [h1.2.2.1] at h2; cases h2
      · unfold ClassPath.quiets at h1; rw [h1] at h2; cases h2
    have hb : p.path.verdict ≠ .bad := by unfold Part.Judges at hj; rw [h.1] at hj; exact hj
    have hea : p.path.effective = .auto := by
      rw [h.1] at hf
      cases hh : p.path.effective
      · rfl
      · exact absurd (hf.1.mp hh) (by simp)
      · exact absurd (hf.2.mp hh) (by simp)
    have : Part.PathStands { p with path := { p.path with service := .fibre, quiet := none, stick := none } } :=
      onFibre_stands (.inl ⟨rfl, hb⟩) hk (fun c => he c (by rw [hk]; rfl)) hea
    exact this.congr rfl rfl rfl rfl rfl rfl fun _ => id
  · have hr : returnEnds p = p := if_neg h
    rw [hr]
    refine ⟨hst, hon, hdr, fun hs => ?_, hj, hf, he⟩
    by_contra hn
    push_neg at hn
    exact h ⟨hs, fun c _ => by rw [hn c]; rfl⟩

/-- In RETURNING and FORCED_FIBRE, classes turn RETURNED, and then their queues and R93 follow. -/
theorem handBack_stands {p q : Part} (h : p.PathStands) (hs : p.path.service = .returning ∨ p.path.service = .forcedFibre)
    (hsv : q.path.service = p.path.service) (hv : q.path.verdict = p.path.verdict) (he : q.path.effective = p.path.effective) (hr : q.radio = p.radio)
    (hk : ∀ c, q.path.classes.get c = onFibre ∨ q.path.classes.get c = p.path.classes.get c)
    (hq : ∀ c, (q.path.classes.get c).word = .fibre → q.relay.queues.get c = []) : (returnEnds q).PathStands := by
  refine returnEnds_stands (fun c => ?_) ?_ (fun c hc => ?_) ?_ ?_ hq
  · have h1 := h.stands c
    unfold Part.Stands at *
    rw [hsv]
    rcases hs with g | g <;> rw [g] at h1 ⊢ <;> rcases hk c with k | k
    · exact .inl k
    · rw [k]; exact h1
    · exact .inl k
    · rw [k]; exact h1
  · rw [hsv, hr]; exact h.onAir
  · rw [hsv, hr]
    refine h.drainsOnAir c ?_
    rcases hk c with k | k
    · rw [k] at hc; cases hc
    · rw [← k]; exact hc
  · have := h.judges
    unfold Part.Judges at *
    rw [hsv, hv, hr]; exact this
  · rw [hsv, he]; exact h.forced

/-- The same in FORCED_FIBRE, where R93 has nothing to say. -/
theorem forcedFibre_stands {p q : Part} (h : p.PathStands) (hs : p.path.service = .forcedFibre)
    (hsv : q.path.service = p.path.service) (hv : q.path.verdict = p.path.verdict) (he : q.path.effective = p.path.effective) (hr : q.radio = p.radio)
    (hk : ∀ c, q.path.classes.get c = onFibre ∨ q.path.classes.get c = p.path.classes.get c)
    (hq : ∀ c, (q.path.classes.get c).word = .fibre → q.relay.queues.get c = []) : q.PathStands := by
  have := handBack_stands h (.inr hs) hsv hv he hr hk hq
  have hn : returnEnds q = q := if_neg (fun g => by rw [hsv, hs] at g; exact absurd g.1 (by simp))
  rwa [hn] at this

theorem returnDrained_move (p : Part) : PathMove p (returnDrained p) :=
  PathMove.ite (PathMove.refl p) ((returnEnds_move _).after (PathMove.of_path _ ⟨rfl, rfl, rfl, rfl, rfl⟩))

theorem returnDrained_core {p : Part} (h : Core p) : Core (returnDrained p) := by
  refine h.moved (returnDrained_move p) ?_
  unfold returnDrained
  split
  · exact h.path
  · rename_i hne
    obtain ⟨c, hc⟩ := List.exists_mem_of_ne_nil _ hne
    have hc' := (mem_drainedClasses p c).mp hc
    refine handBack_stands h.path (h.path.drainsOnAir c hc'.1).2 rfl rfl rfl rfl (fun d => ?_) fun d hd => ?_
    · simp only [withPath_path, Path.mapClasses, PerClass.get_ofFn]
      split
      · exact .inl rfl
      · exact .inr rfl
    · simp only [withPath_path, Path.mapClasses, PerClass.get_ofFn] at hd
      split at hd
      · rename_i g
        exact ((mem_drainedClasses p d).mp (by simpa using g)).2.1
      · exact h.path.fibre d hd

theorem drainExpires_move (c : ServiceClass) (p : Part) : PathMove p (drainExpires c p) :=
  (returnEnds_move _).after ((discardFibre_move _ _).after (PathMove.of_path _ ⟨rfl, rfl, rfl, rfl, rfl⟩))

theorem drainExpires_core {c : ServiceClass} {p : Part} (h : Core p) (hd : (p.path.classes.get c).sub = .draining) : Core (drainExpires c p) := by
  refine h.moved (drainExpires_move c p) ?_
  unfold drainExpires
  obtain ⟨x, hx⟩ : ∃ x, x = discardFibre .drainLimit (p.withPath { p.path with classes := p.path.classes.set c ClassPath.fibre }) := ⟨_, rfl⟩
  rw [← hx]
  have hp : x.path = { p.path with classes := p.path.classes.set c ClassPath.fibre } := by rw [hx, (discardFibre_path _ _).1]; rfl
  refine handBack_stands h.path (h.path.drainsOnAir c hd).2 (by rw [hp]) (by rw [hp]) (by rw [hp]; rfl) (by rw [hx, (discardFibre_path _ _).2.1]; rfl) (fun d => ?_) fun d hw => ?_
  · rw [hp]
    show (p.path.classes.set c ClassPath.fibre).get d = _ ∨ (p.path.classes.set c ClassPath.fibre).get d = _
    rw [PerClass.get_set]
    split
    · exact .inl rfl
    · exact .inr rfl
  · rw [hx, discardFibre_queues, if_pos]
    rw [hp] at hw; exact hw

theorem voiceDrains_core {p : Part} (h : Core p) (hw : p.path.classes.voice.sub = .waitingQuiet) : Core (voiceDrains p) := by
  have hst := h.path.stands .voice
  have hsv : p.path.service = .returning := by
    unfold Part.Stands at hst
    have hv : (p.path.classes.get .voice).sub = .waitingQuiet := hw
    have ho : ∀ b, (onRadio b).sub ≠ .waitingQuiet := fun b => by cases b <;> simp [onRadio]
    cases hs : p.path.service <;> rw [hs] at hst <;> dsimp only at hst
    · rw [hst] at hv; cases hv
    · rw [hst] at hv; cases hv
    · rw [hst] at hv; exact absurd hv (ho _)
    · rw [hst] at hv; cases hv
    · rw [hst] at hv; exact absurd hv (ho _)
    · rcases hst with h1 | h1
      · rw [h1] at hv; cases hv
      · rw [h1.2.2.1] at hv; cases hv
    · rw [hst] at hv; split at hv
      · exact absurd hv (ho _)
      · cases hv
  have ha : p.radio.state = .attached := h.path.onAir (by rw [hsv]; simp)
  have hk : ∀ c, (voiceDrains p).path.classes.get c = p.path.classes.get c ∨ c = .voice ∧ (voiceDrains p).path.classes.get c = p.drainRecord := by
    intro c
    show (p.path.classes.set .voice p.drainRecord).get c = _ ∨ _ ∧ (p.path.classes.set .voice p.drainRecord).get c = _
    rw [PerClass.get_set]
    split
    · rename_i g; exact .inr ⟨g, rfl⟩
    · exact .inl rfl
  refine h.moved (PathMove.of_path _ ⟨rfl, rfl, rfl, rfl, rfl⟩) ⟨fun c => ?_, fun _ => ha, fun c _ => ⟨ha, .inl hsv⟩, fun _ => ⟨.voice, ?_⟩, ?_, h.path.forced, fun c hc => ?_⟩
  · have h1 := h.path.stands c
    unfold Part.Stands at *
    rw [hsv] at h1
    rw [show (voiceDrains p).path.service = .returning from hsv]
    rcases hk c with k | ⟨_, k⟩
    · rw [k]; exact h1
    · exact .inr (.inl (by rw [k]; exact drain_holds p))
  · rcases hk .voice with k | ⟨_, k⟩
    · rw [k]; intro g; have : p.path.classes.voice.sub = .returned := by rw [show p.path.classes.voice = _ from g]; rfl
      rw [hw] at this; cases this
    · rw [k]; simp [Part.drainRecord, onFibre]
  · exact h.path.judges
  · rcases hk c with k | ⟨_, k⟩
    · rw [k] at hc; exact h.path.fibre c hc
    · rw [k] at hc; cases hc

theorem auto_of {p : Part} (h : p.PathStands) (h1 : p.path.service ≠ .forcedFibre) (h2 : p.path.service ≠ .forcedRadio) :
    p.path.effective = .auto := by
  have hf := h.forced
  cases hh : p.path.effective
  · rfl
  · exact absurd (hf.1.mp hh) h1
  · exact absurd (hf.2.mp hh) h2

theorem dwellEnds_core {p : Part} (h : Core p) (hs : p.path.service = .suspect) : Core (dwellEnds p) := by
  have hj := h.path.judges
  unfold Part.Judges at hj
  rw [hs] at hj
  exact h.moved (dwellEnds_move p) (dwellEnds_stands hj (auto_of h.path (by rw [hs]; simp) (by rw [hs]; simp)))

theorem enterReturning_core {p : Part} (h : Core p) (hs : p.path.service = .proving) : Core (enterReturning p) := by
  have hj := h.path.judges
  unfold Part.Judges at hj
  rw [hs] at hj
  exact h.moved (enterReturning_move p) (enterReturning_stands (h.path.onAir (by rw [hs]; simp)) hj
    (auto_of h.path (by rw [hs]; simp) (by rw [hs]; simp)))

theorem enterFibre_core {r : Discard} {p : Part} (h : Core p) (hs : p.path.service = .stranded) : Core (enterFibre r p) :=
  h.moved (enterFibre_move r p) (enterFibre_stands (auto_of h.path (by rw [hs]; simp) (by rw [hs]; simp)))

theorem takeForce_core {p : Part} {y : Path} (h : Core p) (h1 : y.service = p.path.service) (hc : y.classes = p.path.classes)
    (hv : y.verdict = p.path.verdict) (hca : y.causes = p.path.causes) : Core (takeForce p.path.effective (p.withPath y)) := by
  have m := takeForce_move p.path.effective (p.withPath y)
  have hp := m.frame.path
  have hl := m.frame.relay
  exact h.move (takeForce_stands (p := p.withPath y) h.path h1 hc hv rfl rfl) m.radio m.frame.health (by rw [hp]; exact hv) (by rw [hp]; exact hca)
    m.shed m.credit (by rw [hl]; rfl) m.queues

/-- What stands outside ATTACHED does so whatever the shed status, and where no class is on the air whatever the
module does. -/
theorem Part.PathStands.apart {p q : Part} (h : p.PathStands) (h1 : q.path = p.path)
    (hs : p.path.service = .fibre ∨ p.path.service = .suspect ∨
      p.path.service = .stranded ∧ (q.path.verdict = .bad → q.radio.state ≠ .attached))
    (h4 : ∀ c, p.relay.queues.get c = [] → q.relay.queues.get c = []) : q.PathStands := by
  have hq : ∀ c, (p.path.classes.get c).word = .fibre → q.relay.queues.get c = [] := fun c hc => h4 c (h.fibre c hc)
  have hk : ∀ c, (p.path.classes.get c).sub ≠ .draining := by
    intro c hd
    rcases (h.drainsOnAir c hd).2 with g | g <;> rcases hs with k | k | ⟨k, _⟩ <;> rw [g] at k <;> cases k
  refine ⟨fun c => ?_, fun g => ?_, fun c hc => ?_, fun g => ?_, ?_, by rw [h1]; exact h.forced, fun c hc => hq c (by rw [← h1]; exact hc)⟩
  · have := h.stands c
    unfold Part.Stands at *
    rw [h1]
    rcases hs with k | k | ⟨k, _⟩ <;> rw [k] at this ⊢ <;> exact this
  · rw [h1] at g
    rcases hs with k | k | ⟨k, _⟩ <;> rw [k] at g <;> simp at g
  · rw [h1] at hc; exact absurd hc (hk c)
  · rw [h1] at g
    rcases hs with k | k | ⟨k, _⟩ <;> rw [k] at g <;> simp at g
  · have := h.judges
    unfold Part.Judges at *
    rw [h1]
    rcases hs with k | k | ⟨k, k'⟩ <;> rw [k] at this ⊢
    · exact this
    · exact this
    · rw [h1] at k'; exact k'

/-- The module has left ATTACHED; `p0` is the part before. -/
theorem pathDetached_stands {p0 p : Part} (h : p0.PathStands) (h1 : p.path = p0.path) (ha : p.radio.state ≠ .attached)
    (hq : ∀ c, p0.relay.queues.get c = [] → p.relay.queues.get c = []) : (pathDetached p).PathStands := by
  unfold pathDetached
  have hau := auto_of h
  rw [← h1] at hau
  cases hs : p.path.service <;> dsimp only
  · exact h.apart h1 (.inl (by rw [← h1]; exact hs)) hq
  · exact h.apart h1 (.inr (.inl (by rw [← h1]; exact hs))) hq
  · exact enterStranded_stands (fun _ => ha) (hau (by rw [hs]; simp) (by rw [hs]; simp))
  · exact h.apart h1 (.inr (.inr ⟨by rw [← h1]; exact hs, fun _ => ha⟩)) hq
  · exact enterFibre_stands (hau (by rw [hs]; simp) (by rw [hs]; simp))
  · exact enterFibre_stands (hau (by rw [hs]; simp) (by rw [hs]; simp))
  · obtain ⟨x, hx⟩ : ∃ x, x = discardFibre .radioLost (p.withPath (p.path.mapClasses p.draining fun _ => ClassPath.fibre)) := ⟨_, rfl⟩
    rw [← hx]
    have hp : x.path = p.path.mapClasses p.draining fun _ => ClassPath.fibre := by rw [hx, (discardFibre_path _ _).1]; rfl
    have hsv : x.path.service = .forcedFibre := by rw [hp]; exact hs
    have hk : ∀ c, x.path.classes.get c = onFibre := by
      intro c
      rw [hp]
      simp only [Path.mapClasses, PerClass.get_ofFn]
      have hst := h.stands c
      unfold Part.Stands at hst
      rw [← h1, hs] at hst
      rcases hst with g | g
      · rw [g]; split <;> rfl
      · rw [if_pos (by exact decide_eq_true g.2.2.1)]; rfl
    refine ⟨fun c => ?_, fun g => ?_, fun c hd => ?_, fun g => ?_, ?_, ?_, fun c hw => ?_⟩
    · unfold Part.Stands; rw [hsv]; exact .inl (hk c)
    · rw [hsv] at g; simp at g
    · rw [hk] at hd; cases hd
    · rw [hsv] at g; cases g
    · unfold Part.Judges; rw [hsv]; trivial
    · have hf := h.forced
      rw [← h1, hs] at hf
      have he : x.path.effective = p.path.effective := by rw [hp]; rfl
      rw [hsv, he]; exact hf
    · rw [hx, discardFibre_queues, if_pos]
      rw [hp] at hw; exact hw
  · have hf := h.forced
    rw [← h1, hs] at hf
    exact enterForcedRadio_stands (hf.2.mpr rfl)

theorem pathDetached_move (p : Part) : PathMove p (pathDetached p) := by
  unfold pathDetached
  cases p.path.service <;> dsimp only
  · exact PathMove.refl p
  · exact PathMove.refl p
  · exact enterStranded_move p
  · exact PathMove.refl p
  · exact enterFibre_move _ p
  · exact enterFibre_move _ p
  · exact (discardFibre_move _ _).after (PathMove.of_path _ ⟨rfl, rfl, rfl, rfl, rfl⟩)
  · exact enterRadioSide_move _ p

/-- A changed grant is applied to the classes while ATTACHED; `p0` is the part before, `p` the part with the new shed
status and the queues of the classes newly shed empty. -/
theorem pathShed_stands {p0 p : Part} (h : p0.PathStands) (h1 : p.path = p0.path) (ha : p.radio.state = .attached)
    (ha0 : p0.radio.state = .attached)
    (hq : ∀ c, p0.relay.queues.get c = [] → p.relay.queues.get c = [])
    (hn : ∀ c, p.relay.shed.get c = true → p0.relay.shed.get c = false → p.relay.queues.get c = []) :
    (pathShed p0.relay.shed p).PathStands := by
  have hst := h.stands
  have words : ∀ svc, svc = .radio ∨ svc = .proving ∨ svc = .forcedRadio → p.path.service = svc →
      (∀ c, p.record svc .onRadio none c = onRadio (p.relay.shed.get c)) →
      (∀ c, p.path.classes.get c = onRadio (p0.relay.shed.get c)) →
      (p.withPath (p.path.mapClasses (fun c => (p0.relay.shed.get c != p.relay.shed.get c) && decide ((p.path.classes.get c).sub = .onRadio)) (p.record svc .onRadio none))).PathStands := by
    intro svc hsvc hs hrec hold
    obtain ⟨x, hx⟩ : ∃ x, x = p.withPath (p.path.mapClasses (fun c => (p0.relay.shed.get c != p.relay.shed.get c) && decide ((p.path.classes.get c).sub = .onRadio)) (p.record svc .onRadio none)) := ⟨_, rfl⟩
    rw [← hx]
    have hk : ∀ c, x.path.classes.get c = onRadio (p.relay.shed.get c) := by
      intro c
      rw [hx]
      simp only [withPath_path, Path.mapClasses, PerClass.get_ofFn]
      split
      · exact hrec c
      · rename_i g
        have hsub : (p.path.classes.get c).sub = .onRadio := by rw [hold c]; rfl
        rw [hsub] at g
        have : p0.relay.shed.get c = p.relay.shed.get c := by simpa using g
        rw [hold c, this]
    have hsv : x.path.service = svc := by rw [hx]; exact hs
    have hxa : x.radio.state = .attached := by rw [hx]; exact ha
    have hxs : x.relay.shed = p.relay.shed := by rw [hx]; rfl
    refine ⟨fun c => ?_, fun _ => hxa, fun c hd => ?_, fun g => ?_, ?_, ?_, fun c hw => ?_⟩
    · unfold Part.Stands
      rw [hsv, hxs, hxa]
      rcases hsvc with k | k | k <;> rw [k]
      · exact hk c
      · exact hk c
      · exact hk c
    · rw [hk] at hd; exact absurd hd (onRadio_word _).2
    · rw [hsv] at g; rcases hsvc with k | k | k <;> rw [k] at g <;> cases g
    · have := h.judges
      unfold Part.Judges at *
      rw [hsv]
      rw [← h1, hs] at this
      rw [show x.path.verdict = p.path.verdict by rw [hx]; rfl]
      rcases hsvc with k | k | k <;> rw [k] at this ⊢ <;> exact this
    · have := h.forced
      rw [← h1, hs] at this
      rw [hsv, show x.path.effective = p.path.effective by rw [hx]; rfl]
      exact this
    · rw [hk] at hw; exact absurd hw (onRadio_word _).1
  have drains : ∀ q : Part, p.path.service = .returning ∨ p.path.service = .forcedFibre →
      q = discardFibre .shed (p.withPath (p.path.mapClasses
      (fun c => (p0.relay.shed.get c != p.relay.shed.get c) && p.relay.shed.get c && p.draining c) fun _ => ClassPath.fibre)) → (returnEnds q).PathStands := by
    intro q hs hqd
    have hp : q.path = p.path.mapClasses
      (fun c => (p0.relay.shed.get c != p.relay.shed.get c) && p.relay.shed.get c && p.draining c) fun _ => ClassPath.fibre := by rw [hqd, (discardFibre_path _ _).1]; rfl
    have hr : q.radio = p.radio := by rw [hqd, (discardFibre_path _ _).2.1]; rfl
    have hh : (p : Part).PathStands → (returnEnds q).PathStands := fun hp' => by
      refine handBack_stands hp' hs (by rw [hp]; rfl) (by rw [hp]; rfl) (by rw [hp]; rfl) hr (fun c => ?_) fun c hw => ?_
      · rw [hp]
        simp only [Path.mapClasses, PerClass.get_ofFn]
        split
        · exact .inl rfl
        · exact .inr rfl
      · rw [hqd, discardFibre_queues, if_pos]
        rw [hp] at hw; exact hw
    refine hh ⟨fun c => ?_, fun _ => ha, fun c hd => ⟨ha, hs⟩, ?_, ?_, by rw [h1]; exact h.forced, fun c hc => hq c (h.fibre c (by rw [← h1]; exact hc))⟩
    · have := hst c
      unfold Part.Stands at *
      rw [← h1] at this
      rcases hs with k | k <;> rw [k] at this ⊢ <;> exact this
    · rw [h1]; exact h.returns
    · have := h.judges
      unfold Part.Judges at *
      rw [← h1] at this
      rcases hs with k | k <;> rw [k] at this ⊢ <;> exact this
  have same : p.path.service = .returning ∨ p.path.service = .forcedFibre → p.PathStands := by
    intro hs
    refine ⟨fun c => ?_, fun _ => ha, fun c hd => ⟨ha, hs⟩, ?_, ?_, by rw [h1]; exact h.forced, fun c hc => hq c (h.fibre c (by rw [← h1]; exact hc))⟩
    · have := hst c
      unfold Part.Stands at *
      rw [← h1] at this
      rcases hs with k | k <;> rw [k] at this ⊢ <;> exact this
    · rw [h1]; exact h.returns
    · have := h.judges
      unfold Part.Judges at *
      rw [← h1] at this
      rcases hs with k | k <;> rw [k] at this ⊢ <;> exact this
  have hold : ∀ svc, svc = .radio ∨ svc = .proving ∨ svc = .forcedRadio → p.path.service = svc → ∀ c, p.path.classes.get c = onRadio (p0.relay.shed.get c) := by
    intro svc hsvc hs c
    have := hst c
    unfold Part.Stands at this
    rw [← h1, hs, ha0] at this
    rcases hsvc with k | k | k <;> rw [k] at this <;> exact this
  unfold pathShed
  cases hs : p.path.service <;> dsimp only
  · exact h.apart h1 (.inl (by rw [← h1]; exact hs)) hq
  · exact h.apart h1 (.inr (.inl (by rw [← h1]; exact hs))) hq
  · exact words .radio (by simp) hs (fun c => record_radio _ _ _ (by simp)) (hold _ (by simp) hs)
  · refine h.apart h1 (.inr (.inr ⟨by rw [← h1]; exact hs, fun g => ?_⟩)) hq
    have := h.judges
    unfold Part.Judges at this
    rw [← h1, hs] at this
    exact absurd ha0 (this g)
  · exact words .proving (by simp) hs (fun c => record_radio _ _ _ (by simp)) (hold _ (by simp) hs)
  · split
    · exact same (.inl hs)
    · exact drains _ (.inl hs) rfl
  · split
    · exact same (.inr hs)
    · have := drains _ (.inr hs) rfl
      have hn : ∀ q : Part, q.path.service = .forcedFibre → returnEnds q = q := fun q hq => if_neg (fun g => by rw [hq] at g; exact absurd g.1 (by simp))
      rw [hn] at this
      · exact this
      · rw [(discardFibre_path _ _).1]; exact hs
  · rw [if_pos (by exact decide_eq_true ha)]
    refine words .forcedRadio (by simp) hs (fun c => ?_) (hold _ (by simp) hs)
    rw [record_forcedRadio, if_pos ha]

end Sys2Proof.Machine
end

