-- ==== Sys2Proof/Laws/Coherence.lean ====
section
/-! SUPPORT. Events keep what stands of the part between events (R77 to R99, R111, R164 to R174). -/

namespace Sys2Proof.Machine

/-- Nothing changes that coherence speaks of. -/
structure Calm (p q : Part) : Prop where
  path : q.path = p.path
  radio : q.radio = p.radio
  relay : q.relay = p.relay
  health : q.health.verdict = p.health.verdict ∧ q.health.causes = p.health.causes

theorem Calm.refl (p : Part) : Calm p p := ⟨rfl, rfl, rfl, rfl, rfl⟩

theorem Calm.trans {p q r : Part} (h : Calm p q) (k : Calm q r) : Calm p r :=
  ⟨k.path.trans h.path, k.radio.trans h.radio, k.relay.trans h.relay, k.health.1.trans h.health.1, k.health.2.trans h.health.2⟩

theorem Calm.after {p q r : Part} (k : Calm q r) (h : Calm p q) : Calm p r := h.trans k

theorem Calm.ite {c : Prop} [Decidable c] {p q r : Part} (h : Calm p q) (k : Calm p r) :
    Calm p (if c then q else r) := by split <;> assumption

theorem Core.calm {p q : Part} (h : Core p) (k : Calm p q) : Core q := h.same k.path k.radio k.relay k.health

theorem raise_calm (f : Flag) (p : Part) : Calm p (raise f p) := ⟨rfl, rfl, rfl, rfl, rfl⟩

theorem raiseIf_calm (b : Bool) (f : Flag) (p : Part) : Calm p (raiseIf b f p) := by
  cases b
  · exact Calm.refl p
  · exact raise_calm f p

theorem count_calm (c : Counter) (n : Nat) (p : Part) : Calm p (count c n p) := ⟨rfl, rfl, rfl, rfl, rfl⟩

theorem finish_calm (r : Byte) (d : List Byte) (p : Part) : Calm p (finish r d p) := ⟨rfl, rfl, rfl, rfl, rfl⟩

theorem mark_calm (is : List Nat) (f : Entry → Entry) (p : Part) : Calm p (mark is f p) := ⟨rfl, rfl, rfl, rfl, rfl⟩

theorem discardParts_calm (r : Discard) (is : List Nat) (p : Part) : Calm p (discardParts r is p) :=
  (((mark_calm is _ p).trans (count_calm _ _ _)).trans (raise_calm _ _)).trans (raiseIf_calm _ _ _)

theorem discardFrames_calm (r : Discard) (fs : List Frame) (p : Part) : Calm p (discardFrames r fs p) := by
  unfold discardFrames
  induction fs generalizing p with
  | nil => exact Calm.refl p
  | cons f fs ih => exact (discardParts_calm r f.parts p).trans (ih _)

theorem endAttach_calm (r b : Byte) (p : Part) : Calm p (endAttach r b p) := Calm.ite (finish_calm _ _ p) (Calm.refl p)

theorem endDetach_calm (r : Byte) (p : Part) : Calm p (endDetach r p) := Calm.ite (finish_calm _ _ p) (Calm.refl p)

theorem reviewRun_calm (p : Part) : Calm p (reviewRun p) := ⟨rfl, rfl, rfl, rfl, rfl⟩

theorem reviewDetach_calm (p : Part) : Calm p (reviewDetach p) := Calm.ite (Calm.refl p) (endDetach_calm _ p)

theorem noteChanges_calm (b p : Part) : Calm p (noteChanges b p) := (raiseIf_calm _ _ _).trans (raiseIf_calm _ _ _)

/-! ### Changes of the radio link controller -/

/-- The path controller stands as before where only the module state changes, ATTACHED or not as before. -/
theorem Part.PathStands.attach {p q : Part} (h : p.PathStands) (h1 : q.path = p.path)
    (h2 : q.radio.state = .attached ↔ p.radio.state = .attached)
    (h3 : q.relay.shed = p.relay.shed) (h4 : ∀ c, p.relay.queues.get c = [] → q.relay.queues.get c = []) : q.PathStands := by
  refine ⟨fun c => ?_, ?_, ?_, ?_, ?_, ?_, ?_⟩
  · have := h.stands c
    unfold Part.Stands at *
    rw [h1, h3]
    cases hs : p.path.service <;> rw [hs] at this <;> dsimp only at this ⊢
    case forcedRadio => rw [this]; exact if_congr h2.symm rfl rfl
    all_goals exact this
  · rw [h1, h2]; exact h.onAir
  · unfold Part.DrainsOnAir; rw [h1, h2]; exact h.drainsOnAir
  · rw [h1]; exact h.returns
  · have := h.judges
    unfold Part.Judges at *
    rw [h1, h2.ne]; exact this
  · rw [h1]; exact h.forced
  · intro c hc; rw [h1] at hc; exact h4 c (h.fibre c hc)

theorem Core.withRadio {p : Part} (h : Core p) {r : Radio} (ha : r.state = .attached ↔ p.radio.state = .attached)
    (hc : (∀ b, r.control = some (.detachReq b) → r.state = .attached) ∧ ∀ n, r.control = some (.attachReq n) → r.phase = .pending)
    (hp : r.state = .attaching ↔ r.phase ≠ .none) (ho : r.outstanding.length ≤ 4) : Core (p.withRadio r) :=
  ⟨h.path.attach rfl ha rfl fun _ => id, h.handed, ⟨fun c hs => ha.mpr (h.shed.1 c hs), h.shed.2⟩, hc, hp, ⟨h.bounds.1, ho⟩, h.queued⟩

/-- The same where only figures of the radio link controller change. -/
theorem Core.figures {p : Part} (h : Core p) {r : Radio} (hs : r.state = p.radio.state) (hc : r.control = p.radio.control)
    (hp : r.phase = p.radio.phase) (ho : r.outstanding.length ≤ p.radio.outstanding.length) : Core (p.withRadio r) :=
  h.withRadio (by rw [hs]) (by rw [hs, hc, hp]; exact h.control) (by rw [hs, hp]; exact h.phase) (ho.trans h.bounds.2)

theorem endSeries_control (r : Radio) : (∀ n, r.endSeries.control ≠ some (.attachReq n)) ∧
    ∀ b, r.endSeries.control = some (.detachReq b) → r.control = some (.detachReq b) := by
  unfold Radio.endSeries
  cases hc : r.control with
  | none => simp
  | some c => cases c <;> simp

theorem startSeries_core {p : Part} (h : Core p) (hs : p.radio.state = .idle) : Core (startSeries p) :=
  h.withRadio (by simp [hs, Radio.placeAttach]) (by simp [Radio.placeAttach])
    (by simp [Radio.placeAttach]) h.bounds.2

/-- The attach series ends in IDLE (R113, R116). -/
theorem Core.idles {p : Part} (h : Core p) (hs : p.radio.state = .attaching ∨ p.radio.state = .idle) {r : Radio} (hr : r.state = .idle)
    (hp : r.phase = .none) (ho : r.outstanding.length ≤ p.radio.outstanding.length)
    (hc : (∀ n, r.control ≠ some (.attachReq n)) ∧ ∀ b, r.control = some (.detachReq b) → p.radio.control = some (.detachReq b)) : Core (p.withRadio r) := by
  have hna : p.radio.state ≠ .attached := by rcases hs with hs | hs <;> rw [hs] <;> simp
  exact h.withRadio (by rw [hr]; exact ⟨fun g => (by cases g), fun g => absurd g hna⟩)
    ⟨fun b hb => absurd (h.control.1 b (hc.2 b hb)) hna, fun n hn => absurd hn (hc.1 n)⟩ (by rw [hr, hp]; simp) (ho.trans h.bounds.2)

theorem demandAfter_core {p : Part} (h : Core p) : Core (p.withRadio (demandAfter p)) := by
  obtain ⟨h1, h2, h3, h4⟩ : (demandAfter p).state = p.radio.state ∧ (demandAfter p).control = p.radio.control ∧
      (demandAfter p).phase = p.radio.phase ∧ (demandAfter p).outstanding = p.radio.outstanding := by
    unfold demandAfter
    dsimp only
    split
    · exact ⟨rfl, rfl, rfl, rfl⟩
    · split
      · split <;> exact ⟨rfl, rfl, rfl, rfl⟩
      · exact ⟨rfl, rfl, rfl, rfl⟩
  exact h.figures h1 h2 h3 (by rw [h4])

theorem demandActs_core {p : Part} (h : Core p) : Core (demandActs p) := by
  unfold demandActs
  dsimp only
  split
  · split
    · rename_i hs
      split
      · exact startSeries_core h hs
      · exact h
    · rename_i hs
      split
      · exact h.withRadio (Iff.rfl) (by simp) h.phase h.bounds.2
      · exact h
    · exact h
  · split
    · exact h.figures rfl rfl rfl le_rfl
    · rename_i hs
      split
      · exact h
      · exact h.idles (.inl hs) rfl rfl le_rfl (endSeries_control _)
    · rename_i hs
      split
      · exact h.withRadio Iff.rfl ⟨fun _ _ => hs, fun n g => by cases g⟩ h.phase h.bounds.2
      · exact h
    · exact h

theorem reviewForced_core {p : Part} (h : Core p) : Core (reviewForced p) := by
  unfold reviewForced
  split
  · exact Core.calm (h.withRadio (r := { p.radio with control := none }) Iff.rfl (by simp) h.phase h.bounds.2) (endDetach_calm _ _)
  · exact h

theorem settle_core {p : Part} (h : Core p) : Core (settle p) :=
  (demandActs_core (demandAfter_core (reviewForced_core h))).calm (reviewRun_calm _)
/-! ### Taking a verdict -/

theorem takeVerdict_stands {p0 p : Part} (h : p0.PathStands)
    (hp : p.path = { p0.path with verdict := p.path.verdict, causes := p.path.causes }) (hr : p.radio = p0.radio)
    (hl : p.relay = p0.relay) (hadLos : Bool) : (takeVerdict p0.isBad hadLos p).PathStands := by
  have hsv : p.path.service = p0.path.service := by rw [hp]
  have hcl : p.path.classes = p0.path.classes := by rw [hp]
  have hef : p.path.effective = p0.path.effective := by rw [hp]; rfl
  -- the same records, the verdict of `p`
  have keep : ∀ q : Part, q.path.classes = p.path.classes → q.path.effective = p.path.effective → q.radio = p.radio → q.relay = p.relay →
      (q.path.service = p.path.service ∨ q.path.service = .radio ∧ p.path.service = .proving ∨ q.path.service = .proving ∧ p.path.service = .radio) →
      q.Judges → q.PathStands := by
    intro q hc he hqr hql hs hj
    have hfib : q.FibreIsEmpty := by
      intro c hw; rw [hql, hl]; rw [hc, hcl] at hw; exact h.fibre c hw
    refine ⟨fun c => ?_, fun g => ?_, fun c hd => ?_, fun g => ?_, hj, ?_, hfib⟩
    · have := h.stands c
      unfold Part.Stands at *
      rw [hc, hcl, hqr, hr, hql, hl]
      rcases hs with k | ⟨k, k'⟩ | ⟨k, k'⟩
      · rw [k, hsv]; exact this
      · rw [k]; rw [← hsv, k'] at this; exact this
      · rw [k]; rw [← hsv, k'] at this; exact this
    · rw [hqr, hr]
      rcases hs with k | ⟨k, k'⟩ | ⟨k, k'⟩
      · rw [k, hsv] at g; exact h.onAir g
      · exact h.onAir (by rw [← hsv, k']; simp)
      · exact h.onAir (by rw [← hsv, k']; simp)
    · rw [hc, hcl] at hd
      have h1 := h.drainsOnAir c hd
      rw [hqr, hr]
      refine ⟨h1.1, ?_⟩
      rcases hs with k | ⟨k, k'⟩ | ⟨k, k'⟩
      · rw [k, hsv]; exact h1.2
      · rw [← hsv, k'] at h1; simp at h1
      · rw [← hsv, k'] at h1; simp at h1
    · rw [hc, hcl]
      rcases hs with k | ⟨k, k'⟩ | ⟨k, k'⟩
      · rw [k, hsv] at g; exact h.returns g
      · rw [k] at g; cases g
      · rw [k] at g; cases g
    · rw [he, hef]
      rcases hs with k | ⟨k, k'⟩ | ⟨k, k'⟩
      · rw [k, hsv]; exact h.forced
      · have := h.forced; rw [← hsv, k'] at this; rw [k]; simpa using this
      · have := h.forced; rw [← hsv, k'] at this; rw [k]; simpa using this
  have hau := auto_of h
  rw [← hef, ← hsv] at hau
  have bad : ∀ {b : Bool}, p.isBad = b → (p.path.verdict = .bad ↔ b = true) := by
    intro b hb; rw [← hb]; exact (decide_eq_true_iff).symm
  have hon : p.path.service = .radio ∨ p.path.service = .proving ∨ p.path.service = .returning → p.radio.state = .attached := by
    rw [hsv, hr]; exact h.onAir
  have hfibre : p.path.service = .fibre ∨ p.path.service = .suspect → (∀ c, p.path.classes.get c = onFibre) ∧ ∀ c, p.relay.queues.get c = [] := by
    intro g
    have hk : ∀ c, p.path.classes.get c = onFibre := by
      intro c
      have := h.stands c
      unfold Part.Stands at this
      rw [← hsv] at this
      rw [hcl]
      rcases g with g | g <;> rw [g] at this <;> exact this
    exact ⟨hk, fun c => by rw [hl]; exact h.fibre c (by rw [← hcl, hk]; rfl)⟩
  have judge : ∀ {svc}, p.path.service = svc → (match svc with
      | .fibre | .proving | .returning => p.path.verdict ≠ .bad
      | .suspect | .radio => p.path.verdict = .bad
      | .stranded => p.path.verdict = .bad → p.radio.state ≠ .attached
      | .forcedFibre | .forcedRadio => True) → p.Judges := by
    intro svc hs hj; unfold Part.Judges; rw [hs]; exact hj
  unfold takeVerdict
  cases hs : p.path.service <;> dsimp only <;> cases hb : p.isBad
  · exact keep p rfl rfl rfl rfl (.inl rfl) (judge hs (by simpa using (bad hb).not.mpr (by simp)))
  · exact enterSuspect_stands ((bad hb).mpr rfl) (hfibre (.inl hs)).1 (hfibre (.inl hs)).2 (hau (by rw [hs]; simp) (by rw [hs]; simp))
  · rw [if_neg (by simp)]
    exact onFibre_stands (.inl ⟨rfl, fun g => by simpa using (bad hb).mp g⟩) (hfibre (.inr hs)).1 (hfibre (.inr hs)).2 (hau (by rw [hs]; simp) (by rw [hs]; simp))
  · rw [if_pos rfl]
    have hj : p.Judges := judge hs ((bad hb).mpr rfl)
    split
    · exact keep _ rfl rfl rfl rfl (.inl rfl) (by unfold Part.Judges at *; exact hj)
    · exact keep p rfl rfl rfl rfl (.inl rfl) hj
  · rw [if_neg (by simp)]
    exact keep _ rfl rfl rfl rfl (.inr (.inr ⟨rfl, hs⟩)) (by unfold Part.Judges; exact fun g => by simpa using (bad hb).mp g)
  · rw [if_pos rfl]
    exact keep p rfl rfl rfl rfl (.inl rfl) (judge hs ((bad hb).mpr rfl))
  · rw [if_neg (by simp)]
    have hj : p.Judges := judge hs (fun g => by simpa using (bad hb).mp g)
    split
    · exact keep _ rfl rfl rfl rfl (.inl rfl) (by unfold Part.Judges at *; exact hj)
    · exact keep p rfl rfl rfl rfl (.inl rfl) hj
  · rw [if_pos rfl]
    split
    · rename_i hw
      refine keep p rfl rfl rfl rfl (.inl rfl) (judge hs fun _ => ?_)
      have := h.judges
      unfold Part.Judges at this
      rw [← hsv, hs] at this
      rw [hr]; exact this (of_decide_eq_true hw)
    · split
      · rename_i ha
        exact enterRadio_stands (of_decide_eq_true ha) ((bad hb).mpr rfl) (hau (by rw [hs]; simp) (by rw [hs]; simp))
      · rename_i ha
        refine keep _ rfl rfl rfl rfl (.inl rfl) ?_
        have hj : p.Judges := judge hs (fun _ => by simpa [Part.attached] using ha)
        unfold Part.Judges at *; exact hj
  · rw [if_neg (by simp)]
    exact keep p rfl rfl rfl rfl (.inl rfl) (judge hs (by simpa using (bad hb).not.mpr (by simp)))
  · rw [if_pos rfl]
    exact keep _ rfl rfl rfl rfl (.inr (.inl ⟨rfl, hs⟩)) (by unfold Part.Judges; exact (bad hb).mpr rfl)
  · rw [if_neg (by simp)]
    exact keep p rfl rfl rfl rfl (.inl rfl) (judge hs (by simpa using (bad hb).not.mpr (by simp)))
  · rw [if_pos rfl]
    exact enterRadio_stands (hon (by rw [hs]; simp)) ((bad hb).mpr rfl) (hau (by rw [hs]; simp) (by rw [hs]; simp))
  all_goals exact keep p rfl rfl rfl rfl (.inl rfl) (judge hs trivial)

/-! ### Taking a verdict: whole -/

theorem takeVerdict_move (a b : Bool) (p : Part) : PathMove p (takeVerdict a b p) := by
  have of : ∀ q : Path, sameFive q p.path → PathMove p (p.withPath q) := fun q => PathMove.of_path q
  unfold takeVerdict
  split
  · exact PathMove.ite (enterSuspect_move p) (PathMove.refl p)
  · exact PathMove.ite (PathMove.ite (of _ ⟨rfl, rfl, rfl, rfl, rfl⟩) (PathMove.refl p)) (of _ ⟨rfl, rfl, rfl, rfl, rfl⟩)
  · exact PathMove.ite (PathMove.refl p) (of _ ⟨rfl, rfl, rfl, rfl, rfl⟩)
  · exact PathMove.ite (of _ ⟨rfl, rfl, rfl, rfl, rfl⟩) (PathMove.refl p)
  · exact PathMove.ite (PathMove.ite (PathMove.refl p) (PathMove.ite (enterRadioSide_move _ p) (of _ ⟨rfl, rfl, rfl, rfl, rfl⟩)))
      (PathMove.ite (of _ ⟨rfl, rfl, rfl, rfl, rfl⟩) (PathMove.refl p))
  · exact PathMove.ite (enterRadioSide_move _ p) (PathMove.refl p)
  · exact PathMove.refl p
  · exact PathMove.refl p

theorem evaluate_core {p : Part} (h : Core p) : Core (evaluate p) := by
  unfold evaluate
  dsimp only
  split
  · exact h
  · obtain ⟨x, hx⟩ : ∃ x, x = raiseIf ((verdictOf p.health.live).1 != p.health.verdict) Flag.verdictChanged
      (p.withHealth { p.health with verdict := (verdictOf p.health.live).1, causes := (verdictOf p.health.live).2 }) := ⟨_, rfl⟩
    rw [← hx]
    have hc := raiseIf_calm ((verdictOf p.health.live).1 != p.health.verdict) Flag.verdictChanged
      (p.withHealth { p.health with verdict := (verdictOf p.health.live).1, causes := (verdictOf p.health.live).2 })
    rw [← hx] at hc
    have hxp : x.path = p.path := hc.path
    have hxr : x.radio = p.radio := hc.radio
    have hxl : x.relay = p.relay := hc.relay
    obtain ⟨y, hy⟩ : ∃ y : Part, y = { x with path := { x.path with verdict := (verdictOf p.health.live).1, causes := (verdictOf p.health.live).2 } } := ⟨_, rfl⟩
    rw [← hy]
    have hyp : y.path = { p.path with verdict := (verdictOf p.health.live).1, causes := (verdictOf p.health.live).2 } := by rw [hy, hxp]
    have hyr : y.radio = p.radio := by rw [hy]; exact hxr
    have hyl : y.relay = p.relay := by rw [hy]; exact hxl
    have hyh : y.health.verdict = (verdictOf p.health.live).1 ∧ y.health.causes = (verdictOf p.health.live).2 := by rw [hy]; exact hc.health
    have hst := takeVerdict_stands h.path (p := y) (by rw [hyp]) hyr hyl (p.path.causes.has .los)
    have m := takeVerdict_move p.isBad (p.path.causes.has .los) y
    generalize takeVerdict p.isBad (p.path.causes.has .los) y = q at *
    have hqp := m.frame.path
    have hql := m.frame.relay
    refine ⟨hst, ?_, ?_, ?_, ?_, ?_, fun c f hf => h.queued c f (by rw [← hyl]; exact m.queues c f hf)⟩
    · rw [hqp, m.frame.health, hyh.1, hyh.2]; exact ⟨by rw [hyp], by rw [hyp]⟩
    · rw [m.shed, m.radio, hyr, hyl]; exact h.shed
    · rw [m.radio, hyr]; exact h.control
    · rw [m.radio, hyr]; exact h.phase
    · rw [m.credit, m.radio, hyr, hyl, hql, hyl]; exact h.bounds

theorem setLive_calm (live : Conditions) (p : Part) : Calm p (setLive live p) :=
  (raiseIf_calm _ _ _).after ⟨rfl, rfl, rfl, rfl, rfl⟩

theorem conditionsTo_core {p : Part} (live : Conditions) (h : Core p) : Core (conditionsTo live p) :=
  evaluate_core (h.calm (setLive_calm live p))

theorem conditionsChange_core {p : Part} (live : Conditions) (h : Core p) : Core (conditionsChange live p) := by
  unfold conditionsChange
  split
  · exact h
  · exact conditionsTo_core live h

/-! ### The module moves -/

/-- Queues lose frames at most; beside the radio link controller, uplink and events nothing else changes. -/
structure Sheds (p q : Part) : Prop where
  path : q.path = p.path
  health : q.health = p.health
  relay : q.relay = { p.relay with queues := q.relay.queues }
  queues : ∀ c, q.relay.queues.get c = [] ∨ q.relay.queues.get c = p.relay.queues.get c

theorem Sheds.refl (p : Part) : Sheds p p := ⟨rfl, rfl, rfl, fun _ => .inr rfl⟩

theorem Sheds.trans {p q r : Part} (h : Sheds p q) (k : Sheds q r) : Sheds p r :=
  ⟨k.path.trans h.path, k.health.trans h.health, by rw [k.relay, h.relay], fun c => by
    rcases k.queues c with g | g
    · exact .inl g
    · rw [g]; exact h.queues c⟩

theorem Sheds.after {p q r : Part} (k : Sheds q r) (h : Sheds p q) : Sheds p r := h.trans k

theorem Sheds.ite {c : Prop} [Decidable c] {p q r : Part} (h : Sheds p q) (k : Sheds p r) :
    Sheds p (if c then q else r) := by split <;> assumption

theorem Sheds.empty {p q : Part} (h : Sheds p q) {c : ServiceClass} (he : p.relay.queues.get c = []) : q.relay.queues.get c = [] := by
  rcases h.queues c with g | g
  · exact g
  · rw [g, he]

theorem Sheds.mem {p q : Part} (h : Sheds p q) {c : ServiceClass} {f : Frame} (hf : f ∈ q.relay.queues.get c) : f ∈ p.relay.queues.get c := by
  rcases h.queues c with g | g
  · rw [g] at hf; cases hf
  · rw [← g]; exact hf

theorem discardFrames_sheds (r : Discard) (fs : List Frame) (p : Part) : Sheds p (discardFrames r fs p) :=
  ⟨(discardFrames_path r fs p).1, (discardFrames_frame r fs p).health, by rw [(discardFrames_path r fs p).2], fun c => .inr (by rw [(discardFrames_path r fs p).2])⟩

theorem discardQueues_sheds (r : Discard) (cs : List ServiceClass) (p : Part) : Sheds p (discardQueues r cs p) := by
  have h := discardQueues_path r cs p
  refine ⟨h.1, (discardQueues_frame r cs p).health, h.2.1, fun c => ?_⟩
  rw [h.2.2 c]
  split
  · exact .inl rfl
  · exact .inr rfl

theorem withRadio_sheds (r : Radio) (p : Part) : Sheds p (p.withRadio r) := ⟨rfl, rfl, rfl, fun _ => .inr rfl⟩

theorem discardOutstanding_sheds (r : Discard) (p : Part) : Sheds p (discardOutstanding r p) :=
  (discardFrames_sheds r _ _).after ⟨rfl, rfl, rfl, fun _ => .inr rfl⟩

theorem radioLoss_sheds (p : Part) : Sheds p (radioLoss p) :=
  ((discardOutstanding_sheds .radioLost p).trans (discardQueues_sheds .radioLost classes _)).trans (withRadio_sheds _ _)

theorem enterEffects_sheds (new : Module) (p : Part) : Sheds p (enterEffects new p) :=
  (discardOutstanding_sheds .radioLost p).trans (withRadio_sheds _ _)

theorem moduleTo_shape (new : Module) (p : Part) : ∃ q, Sheds p q ∧ q.radio = (moduleTo new p).radio ∧
    Calm (if p.attached then leftAttached q else q) (moduleTo new p) := by
  obtain ⟨p2, h2, he⟩ : ∃ p2, Sheds p p2 ∧ moduleTo new p =
      if new = .absent ∨ new = .recovering then endAttach Result.failed 5 (if p.attached then leftAttached (p2.withRadio (p2.radio.move new p2.clock.now)) else p2.withRadio (p2.radio.move new p2.clock.now))
      else (if p.attached then leftAttached (p2.withRadio (p2.radio.move new p2.clock.now)) else p2.withRadio (p2.radio.move new p2.clock.now)) := by
    have h1 : Sheds p (if (p.attached && !decide (new = .detaching)) = true then radioLoss p else p) := by
      split
      · exact radioLoss_sheds p
      · exact Sheds.refl p
    refine ⟨_, h1.trans (?_ : Sheds _ (if new.restarts = true then enterEffects new (if (p.attached && !decide (new = .detaching)) = true then radioLoss p else p) else (if (p.attached && !decide (new = .detaching)) = true then radioLoss p else p))), rfl⟩
    exact Sheds.ite (enterEffects_sheds new _) (Sheds.refl _)
  refine ⟨p2.withRadio (p2.radio.move new p2.clock.now), h2.trans (withRadio_sheds _ _), ?_, ?_⟩
  · rw [he, ended_radio]
    split
    · exact (leftAttached_radio _).symm
    · rfl
  · rw [he]
    exact Calm.ite (endAttach_calm _ _ _) (Calm.refl _)

/-- The module moves to a state other than ATTACHED. -/
theorem moduleTo_core {p : Part} {new : Module} (h : Core p) (hs : (moduleTo new p).radio.state ≠ .attached)
    (hc : (∀ b, (moduleTo new p).radio.control ≠ some (.detachReq b)) ∧
      ∀ n, (moduleTo new p).radio.control = some (.attachReq n) → (moduleTo new p).radio.phase = .pending)
    (hp : (moduleTo new p).radio.state = .attaching ↔ (moduleTo new p).radio.phase ≠ .none)
    (ho : (moduleTo new p).radio.outstanding.length ≤ 4) : Core (moduleTo new p) := by
  obtain ⟨q, hq, hr, hcalm⟩ := moduleTo_shape new p
  rw [← hr] at hs hc hp ho
  refine Core.calm ?_ hcalm
  have hrel := hq.relay
  split
  · obtain ⟨z, hz⟩ : ∃ z : Part, z = { q with relay := { q.relay with shed := PerClass.ofFn fun _ => false } } := ⟨_, rfl⟩
    have hl : leftAttached q = pathDetached z := by rw [hz]; rfl
    have hzs : ∀ c, z.relay.shed.get c = false := by intro c; rw [hz]; exact PerClass.get_ofFn _ _
    have hzr : z.radio = q.radio := by rw [hz]
    have hzq : z.relay.queues = q.relay.queues := by rw [hz]
    have hst : (pathDetached z).PathStands := pathDetached_stands h.path (p := z) (by rw [hz]; exact hq.path) (by rw [hzr]; exact hs)
      fun c hc => by rw [hzq]; exact hq.empty hc
    have m := pathDetached_move z
    rw [hl]
    have hpath := m.frame.path
    have hrl := m.frame.relay
    refine ⟨hst, ?_, ?_, ?_, ?_, ?_, fun c f hf => h.queued c f (hq.mem (by rw [← hzq]; exact m.queues c f hf))⟩
    · rw [hpath, m.frame.health, hz]
      show q.path.verdict = _ ∧ q.path.causes = _
      rw [hq.path, hq.health]; exact h.handed
    · rw [m.shed, m.radio, hzr]
      exact ⟨fun c g => absurd g (by rw [hzs]; simp), hzs .voice, hzs .signal⟩
    · rw [m.radio, hzr]; exact ⟨fun b g => absurd g (hc.1 b), hc.2⟩
    · rw [m.radio, hzr]; exact hp
    · rw [m.credit, m.radio, hzr, hrl, hz]
      refine ⟨?_, ho⟩
      show q.relay.credit ≤ 8 * q.relay.depth
      rw [hrel]; exact h.bounds.1
  · rename_i ha
    have hna : p.radio.state ≠ .attached := by simpa [Part.attached] using ha
    refine ⟨h.path.attach hq.path ⟨fun g => absurd g hs, fun g => absurd g hna⟩ (by rw [hrel]) fun c => hq.empty, ?_, ?_, ?_, hp, ?_, fun c f hf => h.queued c f (hq.mem hf)⟩
    · rw [hq.path, hq.health]; exact h.handed
    · rw [hrel]; exact ⟨fun c g => absurd (h.shed.1 c g) hna, h.shed.2⟩
    · exact ⟨fun b g => absurd g (hc.1 b), hc.2⟩
    · rw [hrel]; exact ⟨h.bounds.1, ho⟩

theorem moduleTo_restarts_core {p : Part} {new : Module} (hn : new.restarts = true) (h : Core p) : Core (moduleTo new p) := by
  have hr := restarted_radio hn p
  have hs : (moduleTo new p).radio.state = new := by rw [hr]; cases new <;> first | rfl | cases hn
  have hc : (moduleTo new p).radio.control = none := by rw [hr]; cases new <;> first | rfl | cases hn
  have hp : (moduleTo new p).radio.phase = .none := by rw [hr]; cases new <;> first | rfl | cases hn
  have ho : (moduleTo new p).radio.outstanding = [] := by rw [hr]; cases new <;> first | rfl | cases hn
  refine moduleTo_core h ?_ ?_ ?_ (by rw [ho]; simp)
  · rw [hs]; rintro rfl; cases hn
  · rw [hc]; simp
  · rw [hs, hp]
    refine ⟨?_, fun g => absurd rfl g⟩
    rintro rfl; cases hn

theorem moduleTo_idle_core {p : Part} (h : Core p) (ha : p.radio.state ≠ .attaching) : Core (moduleTo .idle p) := by
  have hp : p.radio.phase = .none := by
    by_contra g; exact ha (h.phase.mpr g)
  have hr := moduleTo_idle_radio p
  by_cases hat : p.attached = true
  · rw [if_pos hat] at hr
    exact moduleTo_core h (by rw [hr]; simp) (by rw [hr]; simp) (by rw [hr]; simp [hp]) (by rw [hr]; simp)
  · rw [if_neg hat] at hr
    have hna : p.radio.state ≠ .attached := by simpa [Part.attached] using hat
    exact moduleTo_core h (by rw [hr]; simp) (by rw [hr]; exact ⟨fun b g => hna (h.control.1 b g), h.control.2⟩) (by rw [hr]; simp [hp]) (by rw [hr]; exact h.bounds.2)

theorem moduleToIdle_core {p : Part} (h : Core p) (ha : p.radio.state ≠ .attaching) : Core (moduleToIdle p) :=
  moduleTo_idle_core (p := p.withRadio { p.radio with detach := none }) (h.figures rfl rfl rfl le_rfl) ha

theorem startDetachReq_core {p : Part} (h : Core p) (ha : p.radio.state = .attached) : Core (startDetachReq p) := by
  have hp : p.radio.phase = .none := by
    by_contra g; have := h.phase.mpr g; rw [ha] at this; cases this
  have hr := startDetachReq_radio p
  unfold startDetachReq at *
  dsimp only at *
  refine moduleTo_core (h.withRadio ?_ (by simp) h.phase h.bounds.2) (by rw [hr]; simp) (by rw [hr]; simp) (by rw [hr]; simp [hp]) (by rw [hr]; exact h.bounds.2)
  exact Iff.rfl

/-! ### The attach series, messages and the lane -/

/-- Queues and the outstanding list lose frames at most, the module ATTACHED or not as before. -/
theorem Core.of {p q : Part} (h : Core p) (hp : q.path = p.path) (hh : q.health.verdict = p.health.verdict ∧ q.health.causes = p.health.causes)
    (hs : q.relay.shed = p.relay.shed) (hb : q.relay.credit ≤ 8 * q.relay.depth) (hq : ∀ c f, f ∈ q.relay.queues.get c → f ∈ p.relay.queues.get c)
    (ha : q.radio.state = .attached ↔ p.radio.state = .attached)
    (hc : (∀ b, q.radio.control = some (.detachReq b) → q.radio.state = .attached) ∧ ∀ n, q.radio.control = some (.attachReq n) → q.radio.phase = .pending)
    (hf : q.radio.state = .attaching ↔ q.radio.phase ≠ .none) (ho : q.radio.outstanding.length ≤ 4) : Core q := by
  have he : ∀ c, p.relay.queues.get c = [] → q.relay.queues.get c = [] := by
    intro c hc
    rw [List.eq_nil_iff_forall_not_mem]
    intro f hf
    have := hq c f hf
    rw [hc] at this; cases this
  exact ⟨h.path.attach hp ha hs he, by rw [hp, hh.1, hh.2]; exact h.handed, by rw [hs]; exact ⟨fun c g => ha.mpr (h.shed.1 c g), h.shed.2⟩,
    hc, hf, ⟨hb, ho⟩, fun c f hf => h.queued c f (hq c f hf)⟩

/-- The same with the radio link controller's state, request and phase unchanged. -/
theorem Core.less {p q : Part} (h : Core p) (hp : q.path = p.path) (hh : q.health = p.health)
    (hs : q.relay.shed = p.relay.shed) (hb : q.relay.credit ≤ 8 * q.relay.depth) (hq : ∀ c f, f ∈ q.relay.queues.get c → f ∈ p.relay.queues.get c)
    (h1 : q.radio.state = p.radio.state) (h2 : q.radio.control = p.radio.control) (h3 : q.radio.phase = p.radio.phase) (ho : q.radio.outstanding.length ≤ 4) : Core q :=
  h.of hp (by rw [hh]; exact ⟨rfl, rfl⟩) hs hb hq (by rw [h1]) (by rw [h1, h2, h3]; exact h.control) (by rw [h1, h3]; exact h.phase) ho

theorem awaiting_iff (p : Part) : p.awaiting = true ↔ p.radio.state = .attaching ∧ p.radio.phase = .awaiting := by
  simp [Part.awaiting]

theorem failAttempt_core {why : Failure} {p : Part} (h : Core p) (ha : p.awaiting = true) : Core (failAttempt why p) := by
  obtain ⟨hs, hw⟩ := (awaiting_iff p).mp ha
  have hr : ∀ n, p.radio.control ≠ some (.attachReq n) := fun n g => by have := h.control.2 n g; rw [hw] at this; cases this
  have key : ∀ r : Radio, r.state = p.radio.state → r.control = p.radio.control → r.outstanding = p.radio.outstanding →
      Core (if r.attempts ≤ r.settings.retryCount ∧ r.demand then
    p.withRadio { r with phase := .retryWait, retry := p.after retryTime }
  else if r.demand then
    endAttach Result.failed why.code
      (p.withRadio { r.endSeries with state := .idle, reattempt := p.after reattemptTime })
  else p.withRadio { r.endSeries with state := .idle }) := by
    intro r h1 h2 h3
    have hc := endSeries_control r
    rw [h2] at hc
    have ho : r.endSeries.outstanding.length ≤ p.radio.outstanding.length := by rw [← h3]; exact le_rfl
    split
    · exact h.withRadio (by rw [← h1]) ⟨fun b g => absurd (h.control.1 b (h2 ▸ g)) (by rw [hs]; simp), fun n g => absurd (h2 ▸ g) (hr n)⟩
        (by simp [h1, hs]) (by simp only [h3]; exact h.bounds.2)
    · split
      · have hi := h.idles (.inl hs) (r := { r.endSeries with state := .idle, reattempt := p.after reattemptTime }) rfl rfl ho hc
        exact hi.calm (endAttach_calm _ _ _)
      · exact h.idles (.inl hs) rfl rfl ho hc
  exact key _ rfl rfl rfl

theorem placeAttach_core {p : Part} (n : Nat) (h : Core p) (hs : p.radio.state = .attaching) : Core (p.withRadio (p.radio.placeAttach n)) :=
  h.withRadio Iff.rfl (by simp [Radio.placeAttach]) (by simp [Radio.placeAttach, hs]) h.bounds.2

theorem startAttachReq_core {p : Part} (n : Nat) (h : Core p) (hs : p.radio.state = .attaching) : Core (startAttachReq n p) :=
  h.withRadio Iff.rfl (by simp) (by simp [hs]) h.bounds.2

theorem heard_core {p : Part} (h : Core p) : Core (heard p) := by
  unfold heard
  split
  · exact h.figures rfl rfl rfl le_rfl
  · exact h

theorem linkError_core {p : Part} (h : Core p) : Core (linkError p) := h.calm (count_calm _ _ _)

theorem takeReady_core {p : Part} (fw : BitVec 32) (mb : Byte) (h : Core p) : Core (takeReady fw mb p) := by
  have hq : Core (p.withRadio { p.radio with firmware := fw, maxBuffers := mb }) := h.figures rfl rfl rfl le_rfl
  unfold takeReady
  dsimp only
  split
  · rename_i hs
    refine hq.withRadio (by simp [hs]) ⟨fun b g => ?_, hq.control.2⟩ ?_ h.bounds.2
    · have := h.control.1 b g; rw [hs] at this; cases this
    · have := h.phase
      rw [hs] at this
      have hp : p.radio.phase = .none := by by_contra g; exact absurd (this.mpr g) (by simp)
      simp [hp]
  · rename_i hs
    exact hq.idles (.inl hs) rfl rfl le_rfl (endSeries_control { p.radio with firmware := fw, maxBuffers := mb })
  · rename_i hs
    exact moduleToIdle_core hq (by show p.radio.state ≠ _; rw [hs]; simp)
  · rename_i hs
    exact moduleToIdle_core hq (by show p.radio.state ≠ _; rw [hs]; simp)
  · exact hq

theorem takeDetached_core {p : Part} (c : Byte) (h : Core p) : Core (takeDetached c p) := by
  unfold takeDetached
  dsimp only
  split
  · split
    · rename_i ha; exact failAttempt_core h ha
    · exact linkError_core h
  · rename_i hs
    exact moduleToIdle_core (h.figures rfl rfl rfl le_rfl) (by show p.radio.state ≠ _; rw [hs]; simp)
  · rename_i hs
    exact moduleToIdle_core (h.figures rfl rfl rfl le_rfl) (by show p.radio.state ≠ _; rw [hs]; simp)
  · exact linkError_core h

theorem takeAttachFail_core {p : Part} (r : Byte) (h : Core p) : Core (takeAttachFail r p) := by
  unfold takeAttachFail
  split
  · rename_i ha; exact failAttempt_core h ha
  · exact linkError_core h

theorem dropSent_core {p : Part} (l : BitVec 16) (h : Core p) : Core (dropSent l p) :=
  h.figures rfl rfl rfl List.eraseP_sublist.length_le

theorem acceptSent_core {p : Part} (e : Sent) (b : Byte) (h : Core p) : Core (acceptSent e b p) := by
  unfold acceptSent
  dsimp only
  have h1 : Core (mark e.frame.parts (Entry.move .sent) (dropSent e.link p)) := (dropSent_core e.link h).calm (mark_calm _ _ _)
  generalize mark e.frame.parts (Entry.move .sent) (dropSent e.link p) = q at h1
  have h2 : Core (q.withRadio { q.radio with buffers := q.radio.bufferCount b, timeouts := 0 }) := h1.figures rfl rfl rfl le_rfl
  exact ((h2.calm (count_calm _ _ _)).calm (count_calm _ _ _)).calm (raise_calm _ _)

theorem attached_of {p : Part} (h : p.attached = true) : p.radio.state = .attached := of_decide_eq_true h

theorem rejectSent_core {p : Part} (e : Sent) (b : Byte) (h : Core p) : Core (rejectSent e b p) := by
  unfold rejectSent
  dsimp only
  have h1 := dropSent_core e.link h
  generalize dropSent e.link p = q at h1
  have h1' : Core (q.withRadio { q.radio with timeouts := 0 }) := h1.figures rfl rfl rfl le_rfl
  have h2 := h1'.calm (discardParts_calm .moduleReject e.frame.parts _)
  generalize discardParts .moduleReject e.frame.parts (q.withRadio { q.radio with timeouts := 0 }) = r at h2
  split
  · rename_i ha
    exact moduleToIdle_core h2 (by rw [attached_of ha.2]; simp)
  · exact h2

theorem acceptExpires_core {p : Part} (e : Sent) (h : Core p) : Core (acceptExpires e p) := by
  unfold acceptExpires
  dsimp only
  have h1 : Core (discardParts .linkTimeout e.frame.parts (dropSent e.link p)) := (dropSent_core e.link h).calm (discardParts_calm _ _ _)
  generalize discardParts .linkTimeout e.frame.parts (dropSent e.link p) = q at h1
  have h1' : Core (q.withRadio { q.radio with timeouts := min 3 (q.radio.timeouts + 1) }) := h1.figures rfl rfl rfl le_rfl
  have h2 := h1'.calm (count_calm .acceptTimeouts 1 _)
  generalize count .acceptTimeouts 1 (q.withRadio { q.radio with timeouts := min 3 (q.radio.timeouts + 1) }) = r at h2
  split
  · exact moduleTo_restarts_core rfl h2
  · exact h2

theorem takeUpAccept_core {p : Part} (l : BitVec 16) (b : Byte) (h : Core p) : Core (takeUpAccept l b p) := by
  unfold takeUpAccept
  split
  · exact acceptSent_core _ _ h
  · exact linkError_core h

theorem takeUpReject_core {p : Part} (l : BitVec 16) (b : Byte) (h : Core p) : Core (takeUpReject l b p) := by
  unfold takeUpReject
  split
  · exact rejectSent_core _ _ h
  · exact linkError_core h

theorem takeDown_calm (c : Carriage) (f : List Byte) (p : Part) : Calm p (takeDown c f p) := by
  unfold takeDown
  refine Calm.ite (count_calm _ _ _) ?_
  have h1 : Calm p (checkSequence (classOfByte c.cls) c.sequence p) := (count_calm _ _ _).after ⟨rfl, rfl, rfl, rfl, rfl⟩
  refine h1.trans ?_
  generalize checkSequence (classOfByte c.cls) c.sequence p = q
  unfold placeFrame
  dsimp only
  exact Calm.ite ((count_calm _ _ _).trans (raise_calm _ _)) ((raiseIf_calm _ _ _).after ((raise_calm _ _).after ((count_calm _ _ _).after ⟨rfl, rfl, rfl, rfl, rfl⟩)))

theorem endTransfer_core {p : Part} (t : Transfer) (h : Core p) : Core (endTransfer t p) := by
  unfold endTransfer startOwed
  split
  · exact h.figures rfl rfl rfl le_rfl
  · exact (h.figures (r := { p.radio with lane := none }) rfl rfl rfl le_rfl).figures rfl rfl rfl le_rfl
  · refine (h.figures (r := { p.radio with lane := none }) rfl rfl rfl le_rfl).figures rfl rfl rfl ?_
    exact (List.length_map _).le

/-! ### The relay -/

theorem accrue_core {p : Part} (h : Core p) : Core (accrue p) :=
  h.less rfl rfl rfl (min_le_left _ _) (fun _ _ => id) rfl rfl rfl h.bounds.2

theorem setQueue_core {p : Part} (c : ServiceClass) (l : List Frame) (h : Core p) (hl : ∀ f ∈ l, f ∈ p.relay.queues.get c) : Core (setQueue c l p) := by
  refine h.less rfl rfl rfl h.bounds.1 (fun d f hf => ?_) rfl rfl rfl h.bounds.2
  have hf' : f ∈ (p.relay.queues.set c l).get d := hf
  rw [PerClass.get_set] at hf'
  split at hf'
  · rename_i g; rw [g]; exact hl f hf'
  · exact hf'

theorem ageOut_core {p : Part} (c : ServiceClass) (f : Frame) (h : Core p) : Core (ageOut c f p) :=
  (setQueue_core c _ h fun _ g => List.mem_of_mem_erase g).calm (discardParts_calm _ _ _)

theorem startDataUp_core {p : Part} {f : Frame} (h : Core p) (hf : p.maySend f = true) : Core (startDataUp f p) := by
  have hl : p.radio.outstanding.length < 4 := by
    simp only [Part.maySend, Bool.and_eq_true, decide_eq_true_eq] at hf
    omega
  have h1 := setQueue_core f.cls _ h (fun _ g => List.mem_of_mem_tail g : ∀ g ∈ (p.relay.queues.get f.cls).tail, g ∈ p.relay.queues.get f.cls)
  refine h1.less rfl rfl rfl ?_ (fun _ _ => id) rfl rfl rfl ?_
  · show p.relay.credit - cost f ≤ _
    exact (Nat.sub_le _ _).trans h.bounds.1
  · show (p.radio.outstanding ++ _).length ≤ 4
    simp; omega

theorem trySend_core {p : Part} (h : Core p) : Core (trySend p) := by
  unfold trySend
  split
  · split
    · rename_i hf; exact startDataUp_core h hf
    · exact h
  · exact h

theorem takeLane_core {p : Part} (h : Core p) : Core (takeLane p) := by
  unfold takeLane
  split
  · exact h
  · split
    · split
      · rename_i hs; exact startAttachReq_core _ h hs
      · exact h
    · split
      · rename_i hs; exact settle_core (startDetachReq_core h (attached_of hs))
      · exact h
    · exact trySend_core h

/-! ### Grants and the entry to ATTACHED -/

theorem pathShed_move (was : PerClass Bool) (p : Part) : PathMove p (pathShed was p) := by
  have of : ∀ q : Path, sameFive q p.path → PathMove p (p.withPath q) := fun q => PathMove.of_path q
  unfold pathShed
  dsimp only
  split
  · exact of _ ⟨rfl, rfl, rfl, rfl, rfl⟩
  · exact of _ ⟨rfl, rfl, rfl, rfl, rfl⟩
  · exact PathMove.ite (of _ ⟨rfl, rfl, rfl, rfl, rfl⟩) (PathMove.refl p)
  · exact PathMove.ite (PathMove.refl p) ((returnEnds_move _).after ((discardFibre_move _ _).after (of _ ⟨rfl, rfl, rfl, rfl, rfl⟩)))
  · exact PathMove.ite (PathMove.refl p) ((discardFibre_move _ _).after (of _ ⟨rfl, rfl, rfl, rfl, rfl⟩))
  · exact PathMove.refl p

theorem pathAttached_move (p : Part) : PathMove p (pathAttached p) := by
  unfold pathAttached
  split
  · exact PathMove.ite (enterRadioSide_move _ p) (PathMove.refl p)
  · exact enterRadioSide_move _ p
  · exact PathMove.refl p

/-- The part with the shed status of a grant, the queues of the classes newly shed empty. -/
theorem shedding_sheds (p : Part) : ∃ z : Part, applyShedding p = pathShed p.relay.shed z ∧ z.path = p.path ∧ z.radio = p.radio ∧ z.health = p.health ∧
    z.relay = { p.relay with queues := z.relay.queues, shed := z.relay.shed } ∧
    (∀ c, z.relay.queues.get c = [] ∨ z.relay.queues.get c = p.relay.queues.get c) ∧
    (∀ c, z.relay.shed.get c = true → p.relay.shed.get c = false → z.relay.queues.get c = []) ∧
    z.relay.shed.voice = p.relay.shed.voice ∧ z.relay.shed.signal = p.relay.shed.signal := by
  obtain ⟨new, hnew⟩ : ∃ new : PerClass Bool, new = PerClass.ofFn fun c => shedAfter p.radio.grant.toNat c (p.relay.shed.get c) := ⟨_, rfl⟩
  obtain ⟨q, hq⟩ : ∃ q : Part, q = { p with relay := { p.relay with shed := new } } := ⟨_, rfl⟩
  have k := discardQueues_sheds .shed (classes.filter fun c => new.get c && !p.relay.shed.get c) q
  have kr := discardQueues_radio .shed (classes.filter fun c => new.get c && !p.relay.shed.get c) q
  have kq := (discardQueues_path .shed (classes.filter fun c => new.get c && !p.relay.shed.get c) q).2.2
  refine ⟨discardQueues .shed (classes.filter fun c => new.get c && !p.relay.shed.get c) q, by rw [hq, hnew]; rfl, by rw [k.path, hq], by rw [kr, hq], by rw [k.health, hq], ?_, ?_, ?_, ?_, ?_⟩
  · rw [k.relay, hq]
  · intro c; rw [show p.relay.queues = q.relay.queues by rw [hq]]; exact k.queues c
  · intro c h1 h2
    rw [kq, if_pos]
    rw [k.relay, hq] at h1
    have h1' : new.get c = true := h1
    exact List.mem_filter.mpr ⟨by cases c <;> decide, by rw [h1', h2]; rfl⟩
  · rw [k.relay, hq, hnew]; rfl
  · rw [k.relay, hq, hnew]; rfl

theorem applyShedding_core {p : Part} (h : Core p) (ha : p.radio.state = .attached) : Core (applyShedding p) := by
  obtain ⟨z, he, h1, h2, h3, h4, h5, h6, h7, h8⟩ := shedding_sheds p
  rw [he]
  have hq : ∀ c, p.relay.queues.get c = [] → z.relay.queues.get c = [] := fun c g => by
    rcases h5 c with k | k
    · exact k
    · rw [k, g]
  have hst := pathShed_stands h.path h1 (by rw [h2]; exact ha) ha hq h6
  have m := pathShed_move p.relay.shed z
  have hp := m.frame.path
  have hl := m.frame.relay
  refine ⟨hst, ?_, ?_, ?_, ?_, ?_, fun c f hf => ?_⟩
  · rw [hp, m.frame.health, h3]
    show z.path.verdict = _ ∧ z.path.causes = _
    rw [h1]; exact h.handed
  · rw [m.shed, m.radio, h2]
    exact ⟨fun _ _ => ha, h7.trans h.shed.2.1, h8.trans h.shed.2.2⟩
  · rw [m.radio, h2]; exact h.control
  · rw [m.radio, h2]; exact h.phase
  · rw [m.credit, m.radio, h2, hl, h4]; exact h.bounds
  · have hf' := m.queues c f hf
    rcases h5 c with k | k
    · rw [k] at hf'; cases hf'
    · rw [k] at hf'; exact h.queued c f hf'

theorem takeSignal_core {p : Part} (q : Byte) (g : BitVec 16) (b : Byte) (h : Core p) : Core (takeSignal q g b p) := by
  unfold takeSignal
  dsimp only
  have hq : Core (p.withRadio { p.radio with quality := min 4 q.toNat, grant := g, buffers := p.radio.bufferCount b }) := h.figures rfl rfl rfl le_rfl
  split
  · exact linkError_core h
  · split
    · rename_i ha
      exact applyShedding_core hq (attached_of ha.2)
    · exact hq

/-- Outside ATTACHED the records are those of a service state that no class is on the air in. -/
theorem off_air {p : Part} (h : p.PathStands) (hn : p.radio.state ≠ .attached) :
    (p.path.service = .fibre ∨ p.path.service = .suspect ∨ p.path.service = .stranded) ∨
    (p.path.service = .forcedFibre ∧ ∀ c, p.path.classes.get c = onFibre) ∨ p.path.service = .forcedRadio := by
  have ho := h.onAir
  have hd := h.drainsOnAir
  have hst := h.stands
  unfold Part.Stands at hst
  cases hs : p.path.service <;> rw [hs] at ho hst <;> dsimp only at hst
  · simp
  · simp
  · exact absurd (ho (by simp)) hn
  · simp
  · exact absurd (ho (by simp)) hn
  · exact absurd (ho (by simp)) hn
  · refine .inr (.inl ⟨rfl, fun c => ?_⟩)
    rcases hst c with g | g
    · exact g
    · exact absurd (hd c g.2.2.1).1 hn
  · simp

/-- The path controller takes a module that has become ATTACHED, and the shed status of its grant. -/
theorem attached_stands {p z : Part} (h : p.PathStands) (hn : p.radio.state ≠ .attached) (ha : z.radio.state = .attached) (h1 : z.path = p.path)
    (hq : ∀ c, p.relay.queues.get c = [] → z.relay.queues.get c = []) (was : PerClass Bool) :
    (pathAttached (pathShed was z)).PathStands := by
  have hau := auto_of h
  rw [← h1] at hau
  have hf := h.forced
  rw [← h1] at hf
  rcases off_air h hn with hs | ⟨hs, hk⟩ | hs <;> rw [← h1] at hs
  · have hps : pathShed was z = z := by
      unfold pathShed
      rcases hs with g | g | g <;> rw [g]
    rw [hps]
    have he := hau (by rcases hs with g | g | g <;> rw [g] <;> simp) (by rcases hs with g | g | g <;> rw [g] <;> simp)
    unfold pathAttached
    rcases hs with g | g | g <;> rw [g] <;> dsimp only
    · exact h.apart h1 (.inl (by rw [← h1]; exact g)) hq
    · exact h.apart h1 (.inr (.inl (by rw [← h1]; exact g))) hq
    · split
      · rename_i hb
        exact enterRadio_stands ha (of_decide_eq_true hb) he
      · rename_i hb
        exact h.apart h1 (.inr (.inr ⟨by rw [← h1]; exact g, fun g => absurd (decide_eq_true g) hb⟩)) hq
  · rw [← h1] at hk
    have hps : pathShed was z = z := by
      unfold pathShed
      rw [hs]
      dsimp only
      rw [if_pos]
      show Path.mapClasses _ _ z.path = z.path
      unfold Path.mapClasses
      have : (PerClass.ofFn fun c => if (was.get c != z.relay.shed.get c && z.relay.shed.get c && z.draining c) = true then ClassPath.fibre else z.path.classes.get c) = z.path.classes := by
        apply PerClass.ext_get; intro c; rw [PerClass.get_ofFn]
        rw [if_neg]
        unfold Part.draining
        rw [hk]; simp [onFibre]
      rw [this]
    have hpa : pathAttached z = z := by unfold pathAttached; rw [hs]
    rw [hps, hpa]
    refine ⟨fun c => ?_, fun g => ?_, fun c hd => ?_, fun g => ?_, ?_, hf, fun c hw => hq c (h.fibre c (by rw [← h1]; exact hw))⟩
    · unfold Part.Stands; rw [hs]; exact .inl (hk c)
    · rw [hs] at g; simp at g
    · rw [hk] at hd; cases hd
    · rw [hs] at g; cases g
    · unfold Part.Judges; rw [hs]; trivial
  · have m := (pathShed_move was z).frame.path
    have hsv : (pathShed was z).path.service = .forcedRadio := by
      unfold pathShed
      rw [hs]
      dsimp only
      split
      · exact hs
      · exact hs
    have : pathAttached (pathShed was z) = enterRadioSide .forcedRadio (pathShed was z) := by
      unfold pathAttached; rw [hsv]
    rw [this]
    refine enterForcedRadio_stands ?_
    have he : (pathShed was z).path.effective = z.path.effective := by rw [m]; rfl
    rw [he, hf.2]; exact hs

theorem enterAttached_core {p : Part} (sid : BitVec 32) (g : BitVec 16) (b : Byte) (h : Core p) (ha : p.awaiting = true) : Core (enterAttached sid g b p) := by
  obtain ⟨hs, hw⟩ := (awaiting_iff p).mp ha
  have hn : p.radio.state ≠ .attached := by rw [hs]; simp
  obtain ⟨x, hx, e1, e2, e3, e4, e5, e6, e7, e8⟩ : ∃ x : Part, enterAttached sid g b p = endAttach Result.done 0 (pathAttached (applyShedding x)) ∧ x.path = p.path ∧
      x.radio.state = .attached ∧ x.radio.phase = .none ∧ x.radio.control = p.radio.control ∧ x.radio.outstanding = p.radio.outstanding ∧
      x.health = p.health ∧ x.relay.queues = p.relay.queues ∧ (x.relay.credit = 8 * x.relay.depth ∧ ∀ c, x.relay.shed.get c = false) :=
    ⟨_, rfl, rfl, rfl, rfl, rfl, rfl, rfl, rfl, rfl, fun c => PerClass.get_ofFn _ _⟩
  rw [hx]
  refine Core.calm ?_ (endAttach_calm _ _ _)
  obtain ⟨z, he, h1, h2, h3, h4, h5, h6, h7, h8⟩ := shedding_sheds x
  have hq : ∀ c, p.relay.queues.get c = [] → z.relay.queues.get c = [] := fun c g => by
    rcases h5 c with k | k
    · exact k
    · rw [k, e7, g]
  rw [he]
  have hst := attached_stands h.path hn (z := z) (by rw [h2, e2]) (by rw [h1, e1]) hq x.relay.shed
  have m := (pathShed_move x.relay.shed z).trans (pathAttached_move _)
  have hp := m.frame.path
  have hl := m.frame.relay
  refine ⟨hst, ?_, ?_, ?_, ?_, ?_, fun c f hf => ?_⟩
  · rw [hp, m.frame.health, h3, e6]
    show z.path.verdict = _ ∧ z.path.causes = _
    rw [h1, e1]; exact h.handed
  · rw [m.shed, m.radio, h2]
    exact ⟨fun _ _ => e2, h7.trans (e8.2 .voice), h8.trans (e8.2 .signal)⟩
  · rw [m.radio, h2, e2, e3, e4]
    exact ⟨fun _ _ => rfl, fun n k => by have := h.control.2 n k; rw [hw] at this; cases this⟩
  · rw [m.radio, h2, e2, e3]; simp
  · rw [m.credit, m.radio, h2, hl, h4, e5]
    exact ⟨e8.1.le, h.bounds.2⟩
  · have hf' := m.queues c f hf
    rcases h5 c with k | k
    · rw [k] at hf'; cases hf'
    · rw [k, e7] at hf'; exact h.queued c f hf'

theorem takeAttachOk_core {p : Part} (sid : BitVec 32) (g : BitVec 16) (b : Byte) (h : Core p) : Core (takeAttachOk sid g b p) := by
  unfold takeAttachOk
  split
  · rename_i ha; exact enterAttached_core sid g b h ha
  · exact linkError_core h

theorem takeMessage_core {p : Part} (m : Inbound) (h : Core p) : Core (takeMessage m p) := by
  cases m
  · exact takeReady_core _ _ h
  · exact takeAttachOk_core _ _ _ h
  · exact takeAttachFail_core _ h
  · exact takeDetached_core _ h
  · exact takeSignal_core _ _ _ h
  · exact takeUpAccept_core _ _ h
  · exact takeUpReject_core _ _ h
  · exact moduleTo_restarts_core (new := .starting) rfl h
  · exact h.calm (takeDown_calm _ _ _)

/-! ### The end of an event -/

theorem NoneDrained.of {p q : Part} (h : p.NoneDrained) (h1 : q.path = p.path) (h2 : q.relay.queues = p.relay.queues)
    (h3 : q.radio.outstanding = p.radio.outstanding) : q.NoneDrained := by
  intro c hd
  rw [h1] at hd
  unfold Part.sentOf
  rw [h2, h3]; exact h c hd

theorem returnEnds_classes (p : Part) : (returnEnds p).path.classes = p.path.classes ∧ (returnEnds p).relay = p.relay ∧ (returnEnds p).radio = p.radio := by
  unfold returnEnds
  split
  · exact ⟨rfl, rfl, rfl⟩
  · exact ⟨rfl, rfl, rfl⟩

/-- No class that drains has run empty once R91 is applied. -/
theorem returnDrained_none_drained (p : Part) : (returnDrained p).NoneDrained := by
  have key : ∀ c, ((returnDrained p).path.classes.get c).sub = .draining →
      (p.path.classes.get c).sub = .draining ∧ ¬p.ranEmpty c := by
    intro c hd
    unfold returnDrained at hd
    split at hd
    · rename_i h
      refine ⟨hd, fun g => ?_⟩
      have := (mem_drainedClasses p c).mpr g
      rw [h] at this; cases this
    · rw [(returnEnds_classes _).1] at hd
      simp only [withPath_path, Path.mapClasses, PerClass.get_ofFn] at hd
      split at hd
      · cases hd
      · rename_i g
        exact ⟨hd, fun k => g (by simpa using (mem_drainedClasses p c).mpr k)⟩
  have hl : (returnDrained p).relay = p.relay := by
    unfold returnDrained; split
    · rfl
    · exact (returnEnds_classes _).2.1
  have hr := (returnDrained_command p).2
  intro c hd hn
  obtain ⟨k1, k2⟩ := key c hd
  refine k2 ⟨k1, ?_⟩
  unfold Part.sentOf at *
  rw [hl, hr] at hn
  exact hn

theorem SettleFrame.none_drained {p q : Part} (h : SettleFrame p q) (k : p.NoneDrained) : q.NoneDrained :=
  NoneDrained.of k h.path (by rw [h.relay]) h.outstanding

theorem startDataUp_none_drained {p : Part} {f : Frame} (h : p.NoneDrained) : (startDataUp f p).NoneDrained := by
  intro c hd hn
  have hs : (startDataUp f p).sentOf c = p.sentOf c ++ [f].filter (fun g => g.cls = c) := by
    show (((p.radio.outstanding ++ [_]).map Sent.frame).filter _) = _
    rw [List.map_append, List.filter_append]; rfl
  rw [hs] at hn
  obtain ⟨h1, h2⟩ := hn
  rw [List.append_eq_nil_iff] at h2
  have hc : f.cls ≠ c := by
    rintro rfl
    have := h2.2
    simp at this
  refine h c hd ⟨?_, h2.1⟩
  have h1' : (p.relay.queues.set f.cls (p.relay.queues.get f.cls).tail).get c = [] := h1
  rw [PerClass.get_set, if_neg (Ne.symm hc)] at h1'
  exact h1'

theorem takeLane_none_drained {p : Part} (hc : Core p) (h : p.NoneDrained) : (takeLane p).NoneDrained := by
  unfold takeLane
  split
  · exact h
  · split
    · split
      · exact NoneDrained.of h rfl rfl rfl
      · exact h
    · split
      · rename_i ha
        refine (settle_settle _).none_drained fun c hd => ?_
        have k := ((startDetachReq_core hc (attached_of ha)).path.drainsOnAir c hd).1
        rw [startDetachReq_radio] at k; cases k
      · exact h
    · unfold trySend
      split
      · split
        · exact startDataUp_none_drained h
        · exact h
      · exact h

theorem takeLane_stays {p : Part} (hc : Core p) : (takeLane p).Stays := by
  unfold takeLane
  split
  · rename_i h; exact .inr h
  · split
    · rename_i h
      split
      · exact .inr rfl
      · refine .inl ?_; rw [h]; simp
    · rename_i b h
      rw [if_pos (by exact decide_eq_true (hc.control.1 b h))]
      refine .inr ?_
      rw [(settle_settle _).lane, startDetachReq_radio]; rfl
    · rename_i h
      refine .inl ?_
      have : (trySend p).radio.control = p.radio.control := by
        unfold trySend; split
        · split <;> rfl
        · rfl
      rw [this, h]; simp

/-- What the end of an event brings about. -/
theorem closeEvent_coherent (b : Part) {p : Part} (h : Core p) : (closeEvent b p).Coherent := by
  have h1 := settle_core (returnDrained_core h)
  have n1 := (settle_settle (returnDrained p)).none_drained (returnDrained_none_drained p)
  have h2 := takeLane_core h1
  have n2 := takeLane_none_drained h1 n1
  have s2 := takeLane_stays h1
  have k := (reviewDetach_calm (takeLane (settle (returnDrained p)))).trans (noteChanges_calm b _)
  have h3 : Core (closeEvent b p) := h2.calm k
  have k' : Calm (takeLane (settle (returnDrained p))) (closeEvent b p) := k
  have f := closeEvent_follows b p
  exact ⟨h3.path, h3.handed, h3.shed, h3.control, h3.phase, h3.bounds, h3.queued,
    (by unfold Part.Stays at *; rw [k'.radio]; exact s2), NoneDrained.of n2 k'.path (by rw [k'.relay]) (by rw [k'.radio]), f.1, f.2⟩

theorem event_coherent {f : Part → Part} {p : Part} (h : Core (f p)) : (event f p).Coherent := closeEvent_coherent p h

/-! ### What is no event -/

/-- Nothing changes that the state between events speaks of. -/
structure Quiet (p q : Part) : Prop where
  calm : Calm p q
  run : q.optical.run = p.optical.run
  window : q.optical.window = p.optical.window
  interval : q.optical.settings.interval = p.optical.settings.interval

theorem Quiet.refl (p : Part) : Quiet p p := ⟨Calm.refl p, rfl, rfl, rfl⟩

theorem Quiet.trans {p q r : Part} (h : Quiet p q) (k : Quiet q r) : Quiet p r :=
  ⟨h.calm.trans k.calm, k.run.trans h.run, k.window.trans h.window, k.interval.trans h.interval⟩

theorem Quiet.after {p q r : Part} (k : Quiet q r) (h : Quiet p q) : Quiet p r := h.trans k

theorem Quiet.ite {c : Prop} [Decidable c] {p q r : Part} (h : Quiet p q) (k : Quiet p r) :
    Quiet p (if c then q else r) := by split <;> assumption

theorem Quiet.of {p q : Part} (h1 : q.path = p.path) (h2 : q.radio = p.radio) (h3 : q.relay = p.relay)
    (h4 : q.health.verdict = p.health.verdict) (h5 : q.health.causes = p.health.causes) (h6 : q.optical = p.optical) : Quiet p q :=
  ⟨⟨h1, h2, h3, h4, h5⟩, by rw [h6], by rw [h6], by rw [h6]⟩

theorem Part.Coherent.quiet {p q : Part} (h : p.Coherent) (k : Quiet p q) : q.Coherent := by
  have c := h.core.calm k.calm
  refine ⟨c.path, c.handed, c.shed, c.control, c.phase, c.bounds, c.queued, ?_, ?_, ?_, ?_⟩
  · have := h.stays; unfold Part.Stays at *; rw [k.calm.radio]; exact this
  · exact NoneDrained.of h.drained k.calm.path (by rw [k.calm.relay]) (by rw [k.calm.radio])
  · exact h.demand.of_eq (wants_eq k.calm.path (by rw [k.calm.radio]) (by rw [k.calm.radio])) (by rw [k.calm.radio]) (by rw [k.calm.radio])
  · have := h.run; unfold Part.RunFollows at *; rw [k.run, k.window, k.interval, k.calm.path]; exact this

theorem finish_quiet (r : Byte) (d : List Byte) (p : Part) : Quiet p (finish r d p) := Quiet.of rfl rfl rfl rfl rfl rfl
theorem postClamp_quiet (m : BitVec 32) (p : Part) : Quiet p (postClamp m p) := Quiet.of rfl rfl rfl rfl rfl rfl
theorem startTimed_quiet (t : Timed) (p : Part) : Quiet p (startTimed t p) := Quiet.of rfl rfl rfl rfl rfl rfl
theorem count_quiet (c : Counter) (n : Nat) (p : Part) : Quiet p (count c n p) := Quiet.of rfl rfl rfl rfl rfl rfl
theorem raise_quiet (f : Flag) (p : Part) : Quiet p (raise f p) := Quiet.of rfl rfl rfl rfl rfl rfl
theorem raiseIf_quiet (b : Bool) (f : Flag) (p : Part) : Quiet p (raiseIf b f p) := by
  cases b
  · exact Quiet.refl p
  · exact raise_quiet f p
theorem withChannel_calm (c : Channel) (p : Part) : Calm p (p.withChannel c) := ⟨rfl, rfl, rfl, rfl, rfl⟩

theorem withChannel_quiet (c : Channel) (p : Part) : Quiet p (p.withChannel c) := Quiet.of rfl rfl rfl rfl rfl rfl
theorem withClock_quiet (c : Clock) (p : Part) : Quiet p (p.withClock c) := Quiet.of rfl rfl rfl rfl rfl rfl

/-! ### The events of the health unit and the optical monitor -/

theorem withOptical_calm (o : Optical) (p : Part) : Calm p (p.withOptical o) := ⟨rfl, rfl, rfl, rfl, rfl⟩

theorem takeSample_core {p : Part} (m : Mark) (live : Conditions) (h : Core p) : Core (takeSample m live p) :=
  conditionsTo_core _ (h.calm ⟨rfl, rfl, rfl, rfl, rfl⟩)

theorem completePoll_core {p : Part} (bs : List Byte) (h : Core p) : Core (completePoll bs p) :=
  takeSample_core _ _ (h.calm (withOptical_calm _ _))

theorem failPoll_core {p : Part} (u : Unanswered) (h : Core p) : Core (failPoll u p) :=
  conditionsChange_core _ (h.calm (withOptical_calm _ _))

theorem presenceFalls_core {p : Part} (h : Core p) : Core (presenceFalls p) :=
  conditionsChange_core _ (h.calm (withOptical_calm _ _))

theorem presenceRises_core {p : Part} (b : Bool) (h : Core p) : Core (presenceRises b p) :=
  conditionsChange_core _ (h.calm (withOptical_calm _ _))

theorem losChanges_core {p : Part} (b : Bool) (h : Core p) : Core (losChanges b p) :=
  conditionsChange_core _ (h.calm (withOptical_calm _ _))

theorem beginWindow_calm (p : Part) : Calm p (beginWindow p) := ⟨rfl, rfl, rfl, rfl, rfl⟩

theorem endWindow_core {p : Part} (h : Core p) : Core (endWindow p) :=
  evaluate_core (h.calm ⟨rfl, rfl, rfl, rfl, rfl⟩)

theorem endTxOff_core {p : Part} (n : Nat) (h : Core p) : Core (endTxOff n p) := by
  unfold endTxOff
  dsimp only
  obtain ⟨q, hq⟩ : ∃ q, q = p.withOptical { p.optical with txDisable := false, window := .settling (p.clock.now + n) } := ⟨_, rfl⟩
  rw [← hq]
  have h1 : Core q := by rw [hq]; exact h.calm (withOptical_calm _ _)
  have h2 : Core (if n = 0 then endWindow q else q) := by
    split
    · exact endWindow_core h1
    · exact h1
  generalize (if n = 0 then endWindow q else q) = r at *
  exact h2.calm (Calm.ite (finish_calm _ _ _) (Calm.refl _))

theorem runExpires_calm (p : Part) : Calm p (runExpires p) := Calm.ite (beginWindow_calm p) (withOptical_calm _ _)

theorem staleExpires_core {p : Part} (h : Core p) : Core (staleExpires p) :=
  conditionsTo_core _ (h.calm ⟨rfl, rfl, rfl, rfl, rfl⟩)

theorem judgeReset_core {p : Part} (h : Core p) : Core (judgeReset p) := conditionsTo_core _ h

theorem reported_calm (b : Bool) (n : Nat) (p : Part) : Calm p (reported b n p) :=
  (setLive_calm _ _).after ⟨rfl, rfl, rfl, rfl, rfl⟩

theorem thresholdsSet_calm (st : HealthSettings) (p : Part) : Calm p (thresholdsSet st p) :=
  (setLive_calm _ _).after ⟨rfl, rfl, rfl, rfl, rfl⟩

theorem takeReport_core {p : Part} (b : Bool) (n : Nat) (h : Core p) : Core (takeReport b n p) :=
  conditionsTo_core _ (h.calm ⟨rfl, rfl, rfl, rfl, rfl⟩)

theorem takeThresholds_core {p : Part} (st : HealthSettings) (h : Core p) : Core (takeThresholds st p) :=
  conditionsTo_core _ (h.calm ⟨rfl, rfl, rfl, rfl, rfl⟩)

theorem takeOptics_calm (st : OpticalSettings) (p : Part) : Calm p (takeOptics st p) := by
  unfold takeOptics
  dsimp only
  obtain ⟨q, hq⟩ : ∃ q, q = p.withOptical { p.optical.abandon p.clock.now with settings := st, seedPending := true } := ⟨_, rfl⟩
  rw [← hq]
  have h1 : Calm p q := by rw [hq]; exact withOptical_calm _ _
  generalize (if p.optical.poll = .waiting then [] else q.optical.bus) = before
  have h2 : Calm p (if q.optical.present = true then startPollAfter before q else q) := h1.trans (Calm.ite (withOptical_calm _ _) (Calm.refl _))
  generalize (if q.optical.present = true then startPollAfter before q else q) = r at *
  exact h2.trans (Calm.ite (runExpires_calm _) (Calm.refl _))

theorem startPoll_quiet (p : Part) : Quiet p (startPoll p) := ⟨withOptical_calm _ _, rfl, rfl, rfl⟩

theorem retryPoll_quiet (u : Unanswered) (p : Part) : Quiet p (retryPoll u p) := ⟨withOptical_calm _ _, rfl, rfl, rfl⟩

/-! ### The events of the path controller and the commands -/

theorem withClock_calm (c : Clock) (p : Part) : Calm p (p.withClock c) := ⟨rfl, rfl, rfl, rfl, rfl⟩

theorem takeTest_core {p : Part} (b : Bool) (h : Core p) : Core (takeTest b p) :=
  takeForce_core (y := { p.path with test := b }) h rfl rfl rfl rfl

theorem takeSoftware_core {p : Part} (f : Force) (h : Core p) : Core (takeSoftware f p) :=
  takeForce_core (y := { p.path with software := f }) h rfl rfl rfl rfl

theorem takeRadioPresence_core {p : Part} (b : Bool) (h : Core p) : Core (takeRadioPresence b p) := by
  refine moduleTo_restarts_core (p := p.withRadio { p.radio with present := b }) ?_ (h.figures rfl rfl rfl le_rfl)
  cases b <;> rfl

theorem firstLevels_core {p : Part} (pins : Pins) (h : Core p) : Core (firstLevels pins p) := by
  refine takeRadioPresence_core _ (takeTest_core _ ?_)
  unfold firstOptical
  dsimp only
  refine conditionsChange_core _ ?_
  have h1 : Core (takePins pins p) := h.calm (withClock_calm _ _)
  generalize takePins pins p = q at *
  exact h1.calm ((Calm.ite (withOptical_calm _ _) (Calm.refl _)).after (withOptical_calm _ _))

theorem discardAged_core {p : Part} (c : ServiceClass) (h : Core p) : Core (discardAged p c) :=
  (setQueue_core c _ h fun _ g => List.mem_of_mem_filter g).calm (discardFrames_calm _ _ _)

theorem takeRelay_core {p : Part} (limits ages : PerClass Nat) (depth : Nat) (h : Core p) : Core (takeRelay limits ages depth p) := by
  unfold takeRelay
  have h1 : Core { p with relay := { p.relay with limits := limits, ages := ages, depth := depth, credit := min p.relay.credit (8 * depth) } } :=
    h.less rfl rfl rfl (min_le_right _ _) (fun _ _ => id) rfl rfl rfl h.bounds.2
  generalize { p with relay := { p.relay with limits := limits, ages := ages, depth := depth, credit := min p.relay.credit (8 * depth) } } = q at h1
  exact discardAged_core _ (discardAged_core _ (discardAged_core _ (discardAged_core _ h1)))

theorem emptyTraffic_core {p : Part} (h : Core p) : Core (emptyTraffic p) :=
  h.less rfl rfl rfl h.bounds.1 (fun c f hf => by
    have : f ∈ (PerClass.ofFn fun _ => ([] : List Frame)).get c := hf
    rw [PerClass.get_ofFn] at this; cases this) rfl rfl rfl (Nat.zero_le _)

/-! ### Uplink capture -/

theorem Core.withPathTimers {p : Part} (h : Core p) {y : Path} (h1 : y.service = p.path.service) (h2 : y.classes = p.path.classes)
    (hv : y.verdict = p.path.verdict) (hc : y.causes = p.path.causes) (he : y.effective = p.path.effective) : Core (p.withPath y) :=
  h.move (h.path.congr h1 h2 hv he rfl rfl fun _ => id) rfl rfl hv hc rfl rfl rfl fun _ _ => id

theorem takePost_core {p : Part} (b : Byte) (h : Core p) : Core (takePost b p) := by
  unfold takePost
  split
  · exact h.withPathTimers rfl rfl rfl rfl rfl
  · exact h

theorem onEntry_calm (i : Nat) (f : Entry → Entry) (p : Part) : Calm p (onEntry i f p) := ⟨rfl, rfl, rfl, rfl, rfl⟩

theorem displaceFor_kept (n limit out : Nat) (fs : List Frame) : ∀ f ∈ (displaceFor n limit out fs).2, f ∈ fs := by
  induction fs with
  | nil => intro f hf; cases hf
  | cons g gs ih =>
    intro f hf
    unfold displaceFor at hf
    split at hf
    · exact hf
    · exact List.mem_cons_of_mem _ (ih f hf)

theorem roomFor_kept {p : Part} {c : ServiceClass} {n : Nat} {d k : List Frame} (h : roomFor p c n = some (d, k)) :
    ∀ f ∈ k, f ∈ p.relay.queues.get c := by
  unfold roomFor at h
  dsimp only at h
  split at h
  · cases h; exact fun _ => id
  · split at h
    · have := Option.some.inj h
      have h2 : k = _ := (congrArg Prod.snd this).symm
      intro f hf
      rw [h2] at hf
      exact displaceFor_kept _ _ _ _ f hf
    · cases h

/-- A frame joins the queue of a class that is on the air. -/
theorem Core.enqueue {p : Part} (h : Core p) (c : ServiceClass) (k : List Frame) (f : Frame) (hf : f.cls = c)
    (hk : ∀ g ∈ k, g ∈ p.relay.queues.get c) (hw : (p.path.classes.get c).word ≠ .fibre) : Core (setQueue c (k ++ [f]) p) := by
  have hg : ∀ d, (setQueue c (k ++ [f]) p).relay.queues.get d = if d = c then k ++ [f] else p.relay.queues.get d := fun d => PerClass.get_set _ _ _ _
  have hst : (setQueue c (k ++ [f]) p).PathStands := by
    refine ⟨fun d => ?_, h.path.onAir, h.path.drainsOnAir, h.path.returns, ?_, h.path.forced, fun d hd => ?_⟩
    · exact h.path.stands d
    · exact h.path.judges
    · rw [hg, if_neg]
      · exact h.path.fibre d hd
      · rintro rfl; exact hw hd
  refine ⟨hst, h.handed, h.shed, h.control, h.phase, h.bounds, fun d g hgd => ?_⟩
  rw [hg] at hgd
  split at hgd
  · rename_i e
    rw [e]
    rcases List.mem_append.mp hgd with m | m
    · exact h.queued c g (hk g m)
    · rw [List.mem_singleton.mp m]; exact hf
  · exact h.queued d g hgd

theorem formFrame_core {p : Part} (i : Nat) (h : Core p) : Core (formFrame i p) := by
  unfold formFrame
  dsimp only
  generalize gather p.uplink.entries i = parts
  generalize classOfByte (entryAt p.uplink.entries i).clsByte = cls
  split
  · exact (h.calm (mark_calm _ _ _)).calm (discardParts_calm _ _ _)
  · rename_i hn
    split
    · exact (h.calm (mark_calm _ _ _)).calm (discardParts_calm _ _ _)
    · rename_i d k hr
      refine (((h.enqueue cls k _ rfl (roomFor_kept hr) ?_).calm (discardFrames_calm _ _ _)).calm (mark_calm _ _ _))
      intro hw
      unfold formationFault at hn
      dsimp only at hn
      rw [hw] at hn
      split at hn
      · cases hn
      · split at hn
        · cases hn
        · split at hn
          · cases hn
          · split at hn
            · cases hn
            · cases hn

theorem postEntry_core {p : Part} (i : Nat) (ls : List Lane) (h : Core p) : Core (postEntry i ls p) := by
  unfold postEntry
  dsimp only
  have h1 := takePost_core ((lane ls 6).getD 0) h
  generalize takePost ((lane ls 6).getD 0) p = q at *
  split
  · exact h1.calm (count_calm _ _ _)
  · exact h1.calm (count_calm _ _ _)
  · exact h1.calm (count_calm _ _ _)
  · split
    · exact h1.calm (onEntry_calm _ _ _)
    · exact formFrame_core i (h1.calm (onEntry_calm _ _ _))

theorem withdrawEntry_core {p : Part} (i : Nat) (ls : List Lane) (h : Core p) : Core (withdrawEntry i ls p) := by
  have h1 := h.calm (onEntry_calm i (Entry.take ls) p)
  unfold withdrawEntry
  split
  · exact h1.calm (discardParts_calm _ _ _)
  · split
    · exact (setQueue_core _ _ h1 fun _ g => List.mem_of_mem_filter g).calm (discardParts_calm _ _ _)
    · exact h1.calm (discardParts_calm _ _ _)
  · exact h.calm (count_calm _ _ _)
  · exact h

theorem writeDescriptor_core {p : Part} (i : Nat) (ls : List Lane) (h : Core p) : Core (writeDescriptor i ls p) := by
  unfold writeDescriptor
  split
  · exact h.calm (onEntry_calm _ _ _)
  · split
    · exact h.calm (count_calm _ _ _)
    · split
      · exact postEntry_core _ _ h
      · split
        · exact withdrawEntry_core _ _ h
        · exact h.calm (onEntry_calm _ _ _)

theorem writeUplink_core {p : Part} (m : Nat) (ls : List Lane) (h : Core p) : Core (writeUplink m ls p) :=
  writeDescriptor_core _ _ (writeDescriptor_core _ _ h)

/-! ### Commands of the command slot -/

theorem finish_event {p : Part} {f : Part → Part} (r : Byte) (d : List Byte) (h : Core (f p)) : (finish r d (event f p)).Coherent :=
  (event_coherent h).quiet (finish_quiet _ _ _)

theorem finished {p : Part} (r : Byte) (d : List Byte) (h : p.Coherent) : (finish r d p).Coherent := h.quiet (finish_quiet _ _ _)

theorem clamped {p : Part} (m : BitVec 32) (h : p.Coherent) : (postClamp m p).Coherent := h.quiet (postClamp_quiet _ _)

theorem doDefineUplink_coherent {p : Part} (ps : List Byte) (h : p.Coherent) : (doDefineUplink ps p).Coherent := by
  unfold doDefineUplink
  dsimp only
  split
  · exact finished _ _ (clamped _ h)
  · split
    · exact finished _ _ (clamped _ h)
    · exact finished _ _ (clamped _ (h.quiet (Quiet.of rfl rfl rfl rfl rfl rfl)))

theorem doDefineCapture_coherent {p : Part} (ps : List Byte) (h : p.Coherent) : (doDefineCapture ps p).Coherent := by
  unfold doDefineCapture
  dsimp only
  generalize (if takenSize (param32 ps 8) = 0 then none else some _ : Option Window) = w
  split
  · exact finished _ _ (clamped _ h)
  · exact finished _ _ (clamped _ (h.quiet (Quiet.of rfl rfl rfl rfl rfl rfl)))

theorem redefineDelivery_coherent {p : Part} (d : Option DeliveryDef) (h : p.Coherent) : (redefineDelivery d p).Coherent := by
  refine finished _ _ (h.quiet ((raiseIf_quiet _ _ _).after ((count_quiet _ _ _).after (Quiet.of rfl rfl rfl rfl rfl rfl))))

theorem doDefineDelivery_coherent {p : Part} (ps : List Byte) (h : p.Coherent) : (doDefineDelivery ps p).Coherent := by
  unfold doDefineDelivery
  dsimp only
  split
  · split
    · exact redefineDelivery_coherent _ h
    · exact finished _ _ h
  · exact redefineDelivery_coherent _ h
  · exact finished _ _ h

theorem doFibreRestart_coherent {p : Part} (h : p.Coherent) : (doFibreRestart p).Coherent := by
  unfold doFibreRestart
  split
  · exact finished _ _ h
  · exact event_coherent ((h.quiet (startTimed_quiet _ _)).core.calm (beginWindow_calm _))

theorem doSetThresholds_coherent {p : Part} (ps : List Byte) (h : p.Coherent) : (doSetThresholds ps p).Coherent := by
  unfold doSetThresholds doSetThresholdsBy
  dsimp only
  split
  · exact finish_event _ _ (takeThresholds_core _ (clamped _ h).core)
  · exact finished _ _ (clamped _ h)

theorem doClearLatches_coherent {p : Part} (h : p.Coherent) : (doClearLatches p).Coherent :=
  finished _ _ (h.quiet ((raiseIf_quiet _ _ _).after (Quiet.of rfl rfl rfl rfl rfl rfl)))

theorem Part.Coherent.settings {p : Part} (h : p.Coherent) (st : PathSettings) : (p.withPath { p.path with settings := st }).Coherent := by
  have c : Core (p.withPath { p.path with settings := st }) := h.core.withPathTimers rfl rfl rfl rfl rfl
  exact ⟨c.path, c.handed, c.shed, c.control, c.phase, c.bounds, c.queued, h.stays, h.drained, h.demand, h.run⟩

theorem doForce_coherent {p : Part} (ps : List Byte) (h : p.Coherent) : (doForce ps p).Coherent := by
  unfold doForce
  split
  · exact finished _ _ h
  · exact finish_event _ _ (takeSoftware_core _ h.core)

theorem doSetRadio_coherent {p : Part} (ps : List Byte) (h : p.Coherent) : (doSetRadio ps p).Coherent := by
  unfold doSetRadio
  dsimp only
  split
  · exact finished _ _ (clamped _ h)
  · exact finish_event _ _ ((clamped _ h).core.figures rfl rfl rfl le_rfl)

theorem holdRadio_core {p : Part} (h : Core p) : Core (holdRadio p) := h.figures rfl rfl rfl le_rfl

theorem doRadioAttach_coherent {p : Part} (h : p.Coherent) : (doRadioAttach p).Coherent := by
  unfold doRadioAttach
  split
  · exact finished _ _ h
  · exact finish_event _ _ (holdRadio_core h.core)
  · exact event_coherent (holdRadio_core (h.quiet (startTimed_quiet _ _)).core)

theorem doRadioDetach_coherent {p : Part} (h : p.Coherent) : (doRadioDetach p).Coherent := by
  unfold doRadioDetach
  split
  · exact finished _ _ h
  · split
    · rename_i ha
      refine event_coherent ?_
      have hc := (h.quiet (startTimed_quiet .radioDetach p)).core
      exact hc.withRadio Iff.rfl ⟨fun _ _ => attached_of ha, fun n g => by cases g⟩ h.phase h.bounds.2
    · exact finish_event _ _ (h.core.figures rfl rfl rfl le_rfl)

theorem doSetRelay_coherent {p : Part} (ps : List Byte) (h : p.Coherent) : (doSetRelay ps p).Coherent := by
  unfold doSetRelay
  dsimp only
  split
  · exact finished _ _ (clamped _ h)
  · split
    · exact finished _ _ (clamped _ h)
    · exact finish_event _ _ (takeRelay_core _ _ _ (clamped _ h).core)

/-- What R91 and R93 leave of a part: only the service state may move, from RETURNING to FIBRE. -/
theorem returnDrained_moves (p : Part) :
    ((returnDrained p).path.service = p.path.service ∨
      p.path.service = .returning ∧ (returnDrained p).path.service = .fibre) ∧
    (returnDrained p).path.effective = p.path.effective ∧ (returnDrained p).path.verdict = p.path.verdict ∧
    (returnDrained p).radio = p.radio ∧ (returnDrained p).optical = p.optical := by
  unfold returnDrained returnEnds
  split
  · exact ⟨.inl rfl, rfl, rfl, rfl, rfl⟩
  · split
    · rename_i h
      exact ⟨.inr ⟨h.1, rfl⟩, rfl, rfl, rfl, rfl⟩
    · exact ⟨.inl rfl, rfl, rfl, rfl, rfl⟩

theorem lingerStarts_radio (p : Part) :
    lingerStarts p = p.withRadio { p.radio with linger := (lingerStarts p).radio.linger } := by
  unfold lingerStarts; split <;> rfl

theorem lingerStarts_follows {p : Part} (h : p.wants = true → p.radio.demand = true ∧ p.radio.linger = none) :
    (lingerStarts p).DemandFollows := by
  have hw : (lingerStarts p).wants = p.wants := by unfold lingerStarts; split <;> rfl
  unfold Part.DemandFollows
  rw [hw]
  unfold lingerStarts
  split
  · rename_i g
    refine ⟨fun k => ?_, fun _ _ => rfl⟩
    rw [k] at g; exact absurd g.2.2 (by simp)
  · rename_i g
    refine ⟨h, fun k d => ?_⟩
    cases hl : p.radio.linger with
    | some _ => rfl
    | none => exact absurd ⟨d, hl, by simp [k]⟩ g

theorem doRestart_coherent {p : Part} (h : p.Coherent) : (doRestart p).Coherent := by
  refine finished _ _ ?_
  obtain ⟨k1, k2, k3, k4, k5⟩ := returnDrained_moves (emptyTraffic p)
  have hc : Core (returnDrained (emptyTraffic p)) := returnDrained_core (emptyTraffic_core h.core)
  have hn := returnDrained_none_drained (emptyTraffic p)
  have hf : (lingerStarts (returnDrained (emptyTraffic p))).DemandFollows := by
    refine lingerStarts_follows fun hw => ?_
    rw [k4]
    refine h.demand.1 ?_
    revert hw
    unfold Part.wants
    rw [k2, k3, k4]
    rcases k1 with k1 | ⟨k1, k1'⟩
    · rw [k1]; exact id
    · have k0 : p.path.service = .returning := k1
      rw [k0]; simp
  have hx := lingerStarts_radio (returnDrained (emptyTraffic p))
  generalize (lingerStarts (returnDrained (emptyTraffic p))).radio.linger = l at hx
  rw [hx] at hf
  rw [hx]
  generalize returnDrained (emptyTraffic p) = q at *
  have hq : Core (q.withRadio { q.radio with linger := l }) := hc.figures rfl rfl rfl le_rfl
  have k := noteChanges_calm p (q.withRadio { q.radio with linger := l })
  have hz := hq.calm k
  have hd : (noteChanges p (q.withRadio { q.radio with linger := l })).optical = q.optical := by
    unfold noteChanges raiseIf; split <;> split <;> rfl
  refine ⟨hz.path, hz.handed, hz.shed, hz.control, hz.phase, hz.bounds, hz.queued, ?_,
    NoneDrained.of hn k.path (by rw [k.relay]; rfl) (by rw [k.radio]; rfl), ?_, ?_⟩
  · have := h.stays
    unfold Part.Stays at *
    rw [k.radio]
    show q.radio.control ≠ _ ∨ q.radio.lane.isSome = true
    rw [k4]; exact this
  · unfold Part.DemandFollows Part.wants at *
    rw [k.radio, k.path]; exact hf
  · have := h.run
    unfold Part.RunFollows at *
    rw [hd, k.path]
    show _ ↔ q.path.service = _ ∧ q.path.verdict = _ ∧ _
    rw [k5, k3]
    change p.optical.run.isSome = true ↔ _ ∧ p.path.verdict = .bad ∧ p.optical.window = .none ∧ p.optical.settings.interval ≠ 0
    rcases k1 with k1 | ⟨k1, k1'⟩
    · rw [k1]; exact this
    · rw [k1']
      have k0 : p.path.service = .returning := k1
      rw [k0] at this
      simpa using this

theorem runCommand_coherent {p : Part} (c : CommandName) (ps : List Byte) (h : p.Coherent) : (runCommand c ps p).Coherent := by
  cases c
  · exact finished _ _ h
  · exact doRestart_coherent h
  · exact finished _ _ (h.quiet (Quiet.of rfl rfl rfl rfl rfl rfl))
  · exact finished _ _ (h.quiet (Quiet.of rfl rfl rfl rfl rfl rfl))
  · exact doDefineUplink_coherent ps h
  · exact doDefineCapture_coherent ps h
  · exact doDefineDelivery_coherent ps h
  · exact finish_event _ _ ((clamped _ h).core.calm (takeOptics_calm _ _))
  · exact doFibreRestart_coherent h
  · exact doSetThresholds_coherent ps h
  · exact doClearLatches_coherent h
  · exact finished _ _ (clamped _ (h.settings _))
  · exact doForce_coherent ps h
  · exact doSetRadio_coherent ps h
  · exact doRadioAttach_coherent h
  · exact doRadioDetach_coherent h
  · exact doSetRelay_coherent ps h

theorem commandArrives_coherent {p : Part} (code : Byte) (tag : BitVec 16) (ps : List Byte) (h : p.Coherent) :
    (commandArrives code tag ps p).Coherent := by
  unfold commandArrives commandArrivesBy
  split
  · exact h.quiet ((count_quiet _ _ _).after (Quiet.of rfl rfl rfl rfl rfl rfl))
  · have h1 : (takeResult code tag p).Coherent := h.quiet (Quiet.of rfl rfl rfl rfl rfl rfl)
    split
    · exact finished _ _ h1
    · exact runCommand_coherent _ _ h1

theorem writeHeader_coherent {p : Part} (ls : List Lane) (h : p.Coherent) : (writeHeader ls p).Coherent := by
  unfold writeHeader writeHeaderBy
  dsimp only
  have h1 : Part.Coherent { p with command := { p.command with header := mergeLanes p.command.header ls } } := h.quiet (Quiet.of rfl rfl rfl rfl rfl rfl)
  generalize { p with command := { p.command with header := mergeLanes p.command.header ls } } = q at h1
  split
  · exact commandArrives_coherent _ _ _ h1
  · exact h1

theorem writeReport_coherent {p : Part} (ls : List Lane) (h : p.Coherent) : (writeReport ls p).Coherent := by
  unfold writeReport writeReportBy
  dsimp only
  split
  · exact h
  · split
    · exact event_coherent (takeReport_core _ _ h.core)
    · split
      · exact event_coherent (takeReport_core _ _ h.core)
      · exact h

theorem captureLine_quiet (a : Nat) (ls : List Lane) (p : Part) : Quiet p (captureLine a ls p) := by
  unfold captureLine
  dsimp only
  exact Quiet.ite (Quiet.refl p) (Quiet.ite ((count_quiet _ _ _).after (Quiet.of rfl rfl rfl rfl rfl rfl)) (Quiet.of rfl rfl rfl rfl rfl rfl))

theorem handWrite_coherent {p : Part} (r : Region) (a : Nat) (ls : List Lane) (h : p.Coherent) : (handWrite r a ls p).Coherent := by
  cases r
  · exact h
  · exact writeHeader_coherent ls h
  · exact h.quiet (Quiet.of rfl rfl rfl rfl rfl rfl)
  · exact h.quiet (Quiet.of rfl rfl rfl rfl rfl rfl)
  · exact writeReport_coherent ls h
  · exact event_coherent (writeUplink_core _ _ h.core)
  · exact h.quiet (captureLine_quiet _ _ _)
  · exact h.quiet (Quiet.of rfl rfl rfl rfl rfl rfl)
  · exact h
  · exact h

/-! ### The channel -/

theorem writeAccess_coherent {p : Part} (a : Nat) (ls : List Lane) (h : p.Coherent) : (writeAccess a ls p).Coherent := by
  unfold writeAccess writeAccessBy
  dsimp only
  split
  · exact h
  · split
    · exact handWrite_coherent _ _ _ h
    · exact h.quiet (count_quiet _ _ _)

theorem substitute_quiet (l : Option (List Byte)) (c : Bool) (s : Nat) (p : Part) : Quiet p (substitute l c s p) := by
  unfold substitute
  split
  · exact Quiet.refl p
  · exact Quiet.ite (withChannel_quiet _ _) (count_quiet _ _ _)

theorem access_coherent {p : Part} (b : Burst) (line : Nat → Bool → Nat → Part → Part) (h : p.Coherent)
    (hl : ∀ a c s, (line a c s p).Coherent) : (access b line p).Coherent := by
  unfold access
  split
  · exact h.quiet (count_quiet _ _ _)
  · dsimp only
    split
    · exact (hl _ _ _).quiet (withChannel_quiet _ _)
    · exact hl _ _ _

theorem setMode_quiet (r : BitVec 2) (v : BitVec 15) (p : Part) : Quiet p (setMode r v p) := by
  have hi : ∀ q, Quiet q (invalidMode q) := fun q => (count_quiet _ _ _).after (withChannel_quiet _ _)
  unfold setMode
  obtain ⟨q, e⟩ : ∃ q, q = count .channelProtocol (if p.channel.anyOpen then 1 else 0) p := ⟨_, rfl⟩
  rw [← e]
  have h0 : Quiet p q := by rw [e]; exact count_quiet _ _ _
  refine h0.trans ?_
  clear h0 e
  unfold readMode
  dsimp only
  split
  · split
    · exact withChannel_quiet _ _
    · exact hi q
  · split
    · exact withChannel_quiet _ _
    · exact hi q
  · exact withChannel_quiet _ _
  · exact withChannel_quiet _ _

theorem withStale_quiet (s : Staleness) (p : Part) : Quiet p (p.withStale s) := Quiet.of rfl rfl rfl rfl rfl rfl

theorem closeCounted_quiet (p : Part) : Quiet p (closeCounted p) := (count_quiet _ _ _).after (withChannel_quiet _ _)

theorem sleep_quiet (st : ChannelState) (p : Part) : Quiet p (sleep st p) := (withChannel_quiet _ _).after (withStale_quiet _ _)

theorem wake_quiet (p : Part) : Quiet p (wake p) := (withChannel_quiet _ _).after (withStale_quiet _ _)

theorem activeCommand_coherent {p : Part} (op : ChannelOp) (h : p.Coherent) : (activeCommand op p).Coherent := by
  cases op
  · exact h.quiet ((count_quiet _ _ _).after (withChannel_quiet _ _))
  · exact h.quiet (withChannel_quiet _ _)
  · exact h.quiet (withChannel_quiet _ _)
  · exact h.quiet (closeCounted_quiet _)
  · exact h.quiet (setMode_quiet _ _ _)
  · exact h.quiet (sleep_quiet _ _)
  · exact h.quiet ((sleep_quiet _ _).after (closeCounted_quiet _))
  · exact h.quiet (count_quiet _ _ _)
  · unfold activeCommand activeRead
    exact access_coherent _ _ h fun _ _ _ => h.quiet (substitute_quiet _ _ _ _)
  · unfold activeCommand activeWrite
    exact access_coherent _ _ h fun _ _ _ => writeAccess_coherent _ _ h
  all_goals exact h

theorem sleepingCommand_quiet (op : ChannelOp) (p : Part) : Quiet p (sleepingCommand op p) := by
  unfold sleepingCommand
  split
  · exact wake_quiet p
  · exact Quiet.refl p
  · exact Quiet.refl p
  · exact count_quiet _ _ _

theorem forward_quiet (op : ChannelOp) (p : Part) : Quiet p (forward op p) := by
  unfold forward
  split
  · exact withChannel_quiet _ _
  · exact withChannel_quiet _ _

theorem channelCommand_coherent {p : Part} (op : ChannelOp) (h : p.Coherent) : (channelCommand op p).Coherent := by
  have h1 := h.quiet (forward_quiet op p)
  unfold channelCommand
  dsimp only
  split
  · exact activeCommand_coherent _ h1
  · exact h1.quiet (sleepingCommand_quiet _ _)
  · exact h1.quiet (sleepingCommand_quiet _ _)
  · exact h1

theorem pinsCommand_coherent {p : Part} (c : ChannelPins) (h : p.Coherent) : (pinsCommand c p).Coherent :=
  (channelCommand_coherent (sortCommand c) h).quiet (withChannel_quiet _ _)

/-! ### An access that the channel reset line cuts short: what its owner leaves stays `Core`, and the reset
event closes it -/

theorem finished_core {p : Part} (r : Byte) (d : List Byte) (h : Core p) : Core (finish r d p) := h.calm (finish_calm _ _ _)

theorem cutSetThresholds_core {p : Part} (ps : List Byte) (h : p.Coherent) : Core (cutSetThresholds ps p) := by
  unfold cutSetThresholds doSetThresholdsBy
  dsimp only
  split
  · exact finished_core _ _ (judgeReset_core ((clamped _ h).core.calm (thresholdsSet_calm _ _)))
  · exact (finished _ _ (clamped _ h)).core

theorem runCut_core {p : Part} (c : CommandName) (ps : List Byte) (h : p.Coherent) : Core (runCut c ps p) := by
  unfold runCut
  split
  · exact cutSetThresholds_core ps h
  · exact (runCommand_coherent _ ps h).core

theorem cutHeader_core {p : Part} (ls : List Lane) (h : p.Coherent) : Core (cutHeader ls p) := by
  unfold cutHeader writeHeaderBy
  dsimp only
  have h1 : Part.Coherent { p with command := { p.command with header := mergeLanes p.command.header ls } } := h.quiet (Quiet.of rfl rfl rfl rfl rfl rfl)
  generalize { p with command := { p.command with header := mergeLanes p.command.header ls } } = q at h1
  split
  · unfold commandArrivesBy
    split
    · exact h1.core.calm ((count_calm _ _ _).after ⟨rfl, rfl, rfl, rfl, rfl⟩)
    · rename_i c _ _
      have h2 : (takeResult c.1 c.2 q).Coherent :=
        h1.quiet (Quiet.of rfl rfl rfl rfl rfl rfl)
      split
      · exact (finished _ _ h2).core
      · exact runCut_core _ _ h2
  · exact h1.core

theorem cutReport_core {p : Part} (ls : List Lane) (h : Core p) : Core (cutReport ls p) := by
  have taken (b : Bool) (n : Nat) : Core (judgeReset (reported b n p)) := judgeReset_core (h.calm (reported_calm b n p))
  unfold cutReport writeReportBy
  dsimp only
  split
  · exact h
  · split
    · exact taken _ _
    · split
      · exact taken _ _
      · exact h

theorem handCut_core {p : Part} (r : Region) (a : Nat) (ls : List Lane) (h : p.Coherent) : Core (handCut r a ls p) := by
  unfold handCut
  split
  · exact cutHeader_core ls h
  · exact cutReport_core ls h.core
  · exact (handWrite_coherent _ a ls h).core

theorem cutWrite_core {p : Part} (w : WriteBurst) (beats : Nat) (h : p.Coherent) : Core (cutWrite w beats p) := by
  have h1 := h.quiet (forward_quiet (.write (p.channel.writeCut w beats)) p)
  unfold cutWrite
  dsimp only
  generalize forward (.write (p.channel.writeCut w beats)) p = q at h1
  unfold access
  split
  · exact h1.core.calm (count_calm _ _ _)
  · have line (a : Nat) (ls : List Lane) : Core (writeAccessBy handCut a ls q) := by
      unfold writeAccessBy
      dsimp only
      split
      · exact h1.core
      · split
        · exact handCut_core _ a ls h1
        · exact h1.core.calm (count_calm _ _ _)
    dsimp only
    split
    · exact (line _ _).calm (withChannel_calm _ _)
    · exact line _ _

theorem cutAccess_core {p : Part} (cut : CutAccess) (h : p.Coherent) : Core (cutAccess cut p) := by
  unfold cutAccess
  split
  · exact cutWrite_core _ _ h
  · exact (channelCommand_coherent _ h).core.calm (withChannel_calm _ _)
  · exact h.core

theorem postAtEnd_quiet (c : Option CommandName) (p : Part) : Quiet p (postAtEnd c p) := by
  rcases postAtEnd_eq c p with h | ⟨d, h⟩ <;> rw [h]
  · exact Quiet.refl p
  · exact Quiet.of rfl rfl rfl rfl rfl rfl

theorem assertReset_coherent {p : Part} (cut : CutAccess) (h : p.Coherent) : (assertReset cut p).Coherent := by
  have hc := cutAccess_core cut h
  unfold assertReset
  split
  · exact h
  · refine Part.Coherent.quiet (event_coherent ?_) (postAtEnd_quiet _ _)
    generalize cutAccess cut p = q at hc
    exact conditionsChange_core _ (hc.calm ⟨rfl, rfl, rfl, rfl, rfl⟩)

theorem releaseReset_quiet (p : Part) : Quiet p (releaseReset p) := by
  unfold releaseReset
  split
  · exact withChannel_quiet _ _
  · exact Quiet.refl p

/-! ### Every step -/

theorem act_coherent {f : Part → Part} {s t : State} (h : act f s = .next t) (hf : (f s.part).Coherent) : t.part.Coherent := by
  unfold act at h
  cases h
  exact hf

theorem event_if {c : Prop} [Decidable c] {f : Part → Part} {p : Part} (h : p.Coherent) (hf : c → Core (f p)) :
    (if c then event f p else p).Coherent := by
  split
  · rename_i hc; exact event_coherent (hf hc)
  · exact h

theorem received_coherent {f : Part → Part} {p : Part} (h : p.Coherent) (hf : ∀ q, Core q → Core (f q)) : (received f p).Coherent :=
  event_if h fun _ => hf _ (heard_core h.core)

theorem linkError_coherent {p : Part} (h : p.Coherent) : (linkError p).Coherent := h.quiet (count_quiet _ _ _)

theorem withClock_core {p : Part} (c : Clock) (h : Core p) : Core (p.withClock c) := h.calm (withClock_calm _ _)

theorem sampled_quiet (p : Part) : Quiet p (sampled p) := Quiet.ite (withClock_quiet _ _) (withClock_quiet _ _)

end Sys2Proof.Machine
end

