-- ==== Sys2Proof/Laws/Entries.lean ====
section
/-! SUPPORT. The uplink entries follow the frames of which they are parts (R138, R139): what moving frames between the
class queues, the outstanding list and neither leaves. -/

namespace Sys2Proof.Machine

/-- The entries `es` follow the parts `Q` of the queued frames and the parts `S` of the outstanding ones, while the
parts `X` have left their frames and are not marked yet. -/
structure Follow (X Q S : List Nat) (es : List Entry) : Prop where
  once : (X ++ (Q ++ S)).Nodup
  queued : ∀ i ∈ Q, (entryAt es i).state = .queued
  sending : ∀ i ∈ S, (entryAt es i).state = .sending
  inQueue : ∀ i, (entryAt es i).state = .queued → i ∈ X ∨ i ∈ Q
  inList : ∀ i, (entryAt es i).state = .sending → i ∈ X ∨ i ∈ S
  reason : ∀ i, (entryAt es i).state ≠ .discarded → (entryAt es i).reason = none
  carriage : ∀ i, (entryAt es i).state = .idle ∨ (entryAt es i).state = .held ∨ (entryAt es i).state = .queued →
    (entryAt es i).carriage = 0

/-- The part's entries follow its frames, with the parts `X` under way. -/
def Part.Follows (X : List Nat) (p : Part) : Prop :=
  Follow X p.queuedParts p.sentParts p.uplink.entries ∧ p.QueuedByClass

/-! ### Entries by number -/

theorem entryAt_past {es : List Entry} {i : Nat} (h : es.length ≤ i) : entryAt es i = Entry.fresh := by
  unfold entryAt; rw [List.getD_eq_getElem?_getD, List.getElem?_eq_none h]; rfl

theorem entryAt_in {es : List Entry} {i : Nat} (h : i < es.length) : entryAt es i = es[i] := by
  unfold entryAt; rw [List.getD_eq_getElem?_getD, List.getElem?_eq_getElem h]; rfl

/-- An entry in another state than IDLE is one of the table. -/
theorem entryAt_lt {es : List Entry} {i : Nat} (h : (entryAt es i).state ≠ .idle) : i < es.length := by
  by_contra hn
  rw [entryAt_past (Nat.le_of_not_lt hn)] at h
  exact h rfl

theorem entryAt_mark (P : List Nat) (f : Entry → Entry) (es : List Entry) (i : Nat) :
    entryAt (markEntries P f es) i = if i ∈ P ∧ i < es.length then f (entryAt es i) else entryAt es i := by
  by_cases hi : i < es.length
  · rw [entryAt_in (by simpa [markEntries] using hi), entryAt_in hi]
    simp only [markEntries, List.getElem_mapIdx, List.contains_iff_mem, hi, and_true]
  · rw [entryAt_past (by simpa [markEntries] using Nat.le_of_not_lt hi), entryAt_past (Nat.le_of_not_lt hi),
      if_neg fun h => hi h.2]

theorem entryAt_modify (i : Nat) (f : Entry → Entry) (es : List Entry) (j : Nat) :
    entryAt (es.modify i f) j = if j = i ∧ i < es.length then f (entryAt es j) else entryAt es j := by
  by_cases hj : j < es.length
  · rw [entryAt_in (by simpa using hj), entryAt_in hj, List.getElem_modify]
    by_cases h : i = j
    · subst h; simp [hj]
    · rw [if_neg h, if_neg fun k => h k.1.symm]
  · rw [entryAt_past (by simpa using Nat.le_of_not_lt hj), entryAt_past (Nat.le_of_not_lt hj),
      if_neg fun h => hj (by rw [h.1]; exact h.2)]

/-! ### What keeps it -/

theorem Follow.perm {X X' Q Q' S S' : List Nat} {es : List Entry} (h : Follow X Q S es) (hx : X.Perm X') (hq : Q.Perm Q')
    (hs : S.Perm S') : Follow X' Q' S' es :=
  ⟨((hx.append (hq.append hs)).nodup_iff).mp h.once, fun i hi => h.queued i (hq.mem_iff.mpr hi),
    fun i hi => h.sending i (hs.mem_iff.mpr hi), fun i hi => (h.inQueue i hi).imp hx.mem_iff.mp hq.mem_iff.mp,
    fun i hi => (h.inList i hi).imp hx.mem_iff.mp hs.mem_iff.mp, h.reason, h.carriage⟩

/-- Parts leave the queues. -/
theorem Follow.unqueued {P X Q S : List Nat} {es : List Entry} (h : Follow X (P ++ Q) S es) : Follow (P ++ X) Q S es := by
  refine ⟨?_, fun i hi => h.queued i (List.mem_append_right _ hi), h.sending, fun i hi => ?_, fun i hi => ?_, h.reason, h.carriage⟩
  · refine (List.Perm.nodup_iff ?_).mp h.once
    rw [List.perm_iff_count]; intro a; simp only [List.count_append]; omega
  · rcases h.inQueue i hi with k | k
    · exact .inl (List.mem_append_right _ k)
    · exact (List.mem_append.mp k).imp (List.mem_append_left _) id
  · exact (h.inList i hi).imp (List.mem_append_right _) id

/-- Parts leave the outstanding list. -/
theorem Follow.unsent {P X Q S : List Nat} {es : List Entry} (h : Follow X Q (P ++ S) es) : Follow (P ++ X) Q S es := by
  refine ⟨?_, h.queued, fun i hi => h.sending i (List.mem_append_right _ hi), fun i hi => ?_, fun i hi => ?_, h.reason, h.carriage⟩
  · refine (List.Perm.nodup_iff ?_).mp h.once
    rw [List.perm_iff_count]; intro a; simp only [List.count_append]; omega
  · exact (h.inQueue i hi).imp (List.mem_append_right _) id
  · rcases h.inList i hi with k | k
    · exact .inl (List.mem_append_right _ k)
    · exact (List.mem_append.mp k).imp (List.mem_append_left _) id

/-- Parts of no frame are taken up. -/
theorem Follow.taken {P X Q S : List Nat} {es : List Entry} (h : Follow X Q S es) (hn : P.Nodup)
    (hp : ∀ i ∈ P, i ∉ X ∧ (entryAt es i).state ≠ .queued ∧ (entryAt es i).state ≠ .sending) : Follow (P ++ X) Q S es := by
  refine ⟨?_, h.queued, h.sending, fun i hi => (h.inQueue i hi).imp (List.mem_append_right _) id,
    fun i hi => (h.inList i hi).imp (List.mem_append_right _) id, h.reason, h.carriage⟩
  rw [List.append_assoc]
  refine List.Nodup.append hn h.once fun i hi k => ?_
  rcases List.mem_append.mp k with k | k
  · exact (hp i hi).1 k
  · rcases List.mem_append.mp k with k | k
    · exact (hp i hi).2.1 (h.queued i k)
    · exact (hp i hi).2.2 (h.sending i k)

/-- Entries are marked, each changed one out of the frames and with its reason and carriage sequence in order. -/
theorem Follow.change {X X' Q S : List Nat} {es es' : List Entry} (h : Follow X Q S es) (hx : X'.Sublist X)
    (hc : ∀ i, ((entryAt es' i).state = (entryAt es i).state ∧ (i ∈ X → i ∈ X' ∨ i ∉ X' ∧ (entryAt es i).state = .idle) ∧
        (entryAt es' i).reason = (entryAt es i).reason ∧
        ((entryAt es' i).carriage = (entryAt es i).carriage ∨ (entryAt es' i).carriage = 0)) ∨
      (i ∈ X ∨ (entryAt es i).state ≠ .queued ∧ (entryAt es i).state ≠ .sending) ∧
        (entryAt es' i).state ≠ .queued ∧ (entryAt es' i).state ≠ .sending ∧
        ((entryAt es' i).state ≠ .discarded → (entryAt es' i).reason = none) ∧
        ((entryAt es' i).state = .idle ∨ (entryAt es' i).state = .held → (entryAt es' i).carriage = 0)) :
    Follow X' Q S es' := by
  have hd := (List.nodup_append.mp h.once).2.2
  refine ⟨h.once.sublist (hx.append (List.Sublist.refl _)), fun i hi => ?_, fun i hi => ?_, fun i hi => ?_, fun i hi => ?_,
    fun i hi => ?_, fun i hi => ?_⟩
  · rcases hc i with k | ⟨k | k, -⟩
    · rw [k.1]; exact h.queued i hi
    · exact absurd rfl (hd i k i (List.mem_append_left _ hi))
    · exact absurd (h.queued i hi) k.1
  · rcases hc i with k | ⟨k | k, -⟩
    · rw [k.1]; exact h.sending i hi
    · exact absurd rfl (hd i k i (List.mem_append_right _ hi))
    · exact absurd (h.sending i hi) k.2
  · rcases hc i with ⟨k, kx, -⟩ | k
    · rw [k] at hi
      rcases h.inQueue i hi with g | g
      · rcases kx g with g | g
        · exact .inl g
        · rw [hi] at g; cases g.2
      · exact .inr g
    · exact absurd hi k.2.1
  · rcases hc i with ⟨k, kx, -⟩ | k
    · rw [k] at hi
      rcases h.inList i hi with g | g
      · rcases kx g with g | g
        · exact .inl g
        · rw [hi] at g; cases g.2
      · exact .inr g
    · exact absurd hi k.2.2.1
  · rcases hc i with k | k
    · rw [k.2.2.1]; rw [k.1] at hi; exact h.reason i hi
    · exact k.2.2.2.1 hi
  · rcases hc i with k | k
    · rw [k.1] at hi
      rcases k.2.2.2 with g | g
      · rw [g]; exact h.carriage i hi
      · exact g
    · refine k.2.2.2.2 ?_
      rcases hi with g | g | g
      · exact .inl g
      · exact .inr g
      · exact absurd g k.2.1

/-- The parts under way are marked DISCARDED or SENT. -/
theorem Follow.marked {P X Q S : List Nat} {es : List Entry} {f : Entry → Entry} (h : Follow (P ++ X) Q S es)
    (hf : ∀ e, (f e).state = .discarded ∨ (f e).state = .sent ∧ (f e).reason = none) :
    Follow X Q S (markEntries P f es) := by
  refine h.change (List.sublist_append_right _ _) fun i => ?_
  rw [entryAt_mark]
  by_cases hi : i ∈ P ∧ i < es.length
  · rw [if_pos hi]
    refine .inr ⟨.inl (List.mem_append_left _ hi.1), ?_⟩
    rcases hf (entryAt es i) with k | ⟨k, k'⟩
    · simp [k]
    · simp [k, k']
  · rw [if_neg hi]
    refine .inl ⟨rfl, fun k => ?_, rfl, .inl rfl⟩
    by_cases hx : i ∈ X
    · exact .inl hx
    · refine .inr ⟨hx, ?_⟩
      have hp : i ∈ P := (List.mem_append.mp k).resolve_right hx
      rw [entryAt_past (Nat.le_of_not_lt fun hl => hi ⟨hp, hl⟩)]; rfl

/-- The parts under way join a frame in a queue or in the outstanding list. -/
theorem Follow.joins {P X Q S Q' S' : List Nat} {es : List Entry} {f : Entry → Entry} (h : Follow (P ++ X) Q S es)
    (hp : ∀ i ∈ P, i < es.length)
    (hq : (∀ e, (f e).state = .queued ∧ (f e).carriage = 0) ∧ Q' = P ++ Q ∧ S' = S ∨
      (∀ e, (f e).state = .sending) ∧ Q' = Q ∧ S' = P ++ S) (hr : ∀ e, (f e).reason = none) :
    Follow X Q' S' (markEntries P f es) := by
  have hd := (List.nodup_append.mp h.once).2.2
  have out : ∀ i, i ∈ Q ∨ i ∈ S → i ∉ P := fun i hi k =>
    hd i (List.mem_append_left _ k) i (hi.elim (List.mem_append_left _) (List.mem_append_right _)) rfl
  have same : ∀ i, i ∉ P → entryAt (markEntries P f es) i = entryAt es i := fun i hi => by
    rw [entryAt_mark, if_neg fun k => hi k.1]
  have new : ∀ i, i ∈ P → entryAt (markEntries P f es) i = f (entryAt es i) := fun i hi => by
    rw [entryAt_mark, if_pos ⟨hi, hp i hi⟩]
  have old : ∀ i, i ∉ P → (i ∈ P ++ X ∨ i ∈ Q → i ∈ X ∨ i ∈ Q) ∧ (i ∈ P ++ X ∨ i ∈ S → i ∈ X ∨ i ∈ S) := fun i hi =>
    ⟨fun k => k.imp (fun k => (List.mem_append.mp k).resolve_left hi) id,
      fun k => k.imp (fun k => (List.mem_append.mp k).resolve_left hi) id⟩
  have red : ∀ i, (entryAt (markEntries P f es) i).reason = none ∨
      entryAt (markEntries P f es) i = entryAt es i := fun i => by
    by_cases hi : i ∈ P
    · rw [new i hi]; exact .inl (hr _)
    · exact .inr (same i hi)
  rcases hq with ⟨hf, rfl, rfl⟩ | ⟨hf, rfl, rfl⟩
  · refine ⟨?_, fun i hi => ?_, fun i hi => ?_, fun i hi => ?_, fun i hi => ?_, fun i hi => ?_, fun i hi => ?_⟩
    · refine (List.Perm.nodup_iff ?_).mp h.once
      rw [List.perm_iff_count]; intro a; simp only [List.count_append]; omega
    · by_cases hP : i ∈ P
      · rw [new i hP]; exact (hf _).1
      · rw [same i hP]; exact h.queued i ((List.mem_append.mp hi).resolve_left hP)
    · rw [same i (out i (.inr hi))]; exact h.sending i hi
    · by_cases hP : i ∈ P
      · exact .inr (List.mem_append_left _ hP)
      · rw [same i hP] at hi
        exact ((old i hP).1 (h.inQueue i hi)).imp id (List.mem_append_right _)
    · by_cases hP : i ∈ P
      · rw [new i hP, (hf _).1] at hi; cases hi
      · rw [same i hP] at hi; exact (old i hP).2 (h.inList i hi)
    · rcases red i with k | k
      · exact k
      · rw [k] at hi ⊢; exact h.reason i hi
    · by_cases hP : i ∈ P
      · rw [new i hP]; exact (hf _).2
      · rw [same i hP] at hi ⊢; exact h.carriage i hi
  · refine ⟨?_, fun i hi => ?_, fun i hi => ?_, fun i hi => ?_, fun i hi => ?_, fun i hi => ?_, fun i hi => ?_⟩
    · refine (List.Perm.nodup_iff ?_).mp h.once
      rw [List.perm_iff_count]; intro a; simp only [List.count_append]; omega
    · rw [same i (out i (.inl hi))]; exact h.queued i hi
    · by_cases hP : i ∈ P
      · rw [new i hP]; exact hf _
      · rw [same i hP]; exact h.sending i ((List.mem_append.mp hi).resolve_left hP)
    · by_cases hP : i ∈ P
      · rw [new i hP, hf] at hi; cases hi
      · rw [same i hP] at hi; exact (old i hP).1 (h.inQueue i hi)
    · by_cases hP : i ∈ P
      · exact .inr (List.mem_append_left _ hP)
      · rw [same i hP] at hi
        exact ((old i hP).2 (h.inList i hi)).imp id (List.mem_append_right _)
    · rcases red i with k | k
      · exact k
      · rw [k] at hi ⊢; exact h.reason i hi
    · by_cases hP : i ∈ P
      · rw [new i hP, hf] at hi; rcases hi with g | g | g <;> cases g
      · rw [same i hP] at hi ⊢; exact h.carriage i hi

/-! ### Frames leave -/

theorem Part.Follows.same {X : List Nat} {p q : Part} (h : p.Follows X) (h1 : q.relay.queues = p.relay.queues)
    (h2 : q.radio.outstanding.map Sent.frame = p.radio.outstanding.map Sent.frame) (h3 : q.uplink.entries = p.uplink.entries) :
    q.Follows X := by
  have hs : q.sentParts = p.sentParts := by
    unfold Part.sentParts
    have e : ∀ l : List Sent, (l.flatMap fun e => e.frame.parts) = (l.map Sent.frame).flatMap Frame.parts := by
      intro l; rw [List.flatMap_map]
    rw [e, e, h2]
  have hq : q.queuedParts = p.queuedParts := by unfold Part.queuedParts; rw [h1]
  unfold Part.Follows Part.QueuedByClass at *
  rw [hs, hq, h3, h1]; exact h

/-- The parts of what a class queue holds, before all others. -/
theorem queuedParts_perm (c : ServiceClass) (p : Part) : ∃ rest, p.queuedParts.Perm ((p.relay.queues.get c).flatMap Frame.parts ++ rest) ∧
    ∀ l, (setQueue c l p).queuedParts.Perm (l.flatMap Frame.parts ++ rest) := by
  have e : ∀ q : Part, q.queuedParts = (q.relay.queues.get .voice).flatMap Frame.parts ++ ((q.relay.queues.get .signal).flatMap Frame.parts ++
      ((q.relay.queues.get .interactive).flatMap Frame.parts ++ (q.relay.queues.get .bulk).flatMap Frame.parts)) := by
    intro q; simp [Part.queuedParts, classes]
  have g : ∀ l d, (setQueue c l p).relay.queues.get d = if d = c then l else p.relay.queues.get d := fun l d => PerClass.get_set _ _ _ _
  cases c
  case voice =>
    refine ⟨(p.relay.queues.get .signal).flatMap Frame.parts ++
      ((p.relay.queues.get .interactive).flatMap Frame.parts ++ (p.relay.queues.get .bulk).flatMap Frame.parts), ?_, fun l => ?_⟩
    · rw [e]
    · rw [e]; simp only [g, reduceCtorEq, if_true, if_false]; exact List.Perm.refl _
  case signal =>
    refine ⟨(p.relay.queues.get .voice).flatMap Frame.parts ++
      ((p.relay.queues.get .interactive).flatMap Frame.parts ++ (p.relay.queues.get .bulk).flatMap Frame.parts), ?_, fun l => ?_⟩ <;>
    · rw [e, List.perm_iff_count]; intro a; simp only [g, List.count_append, reduceCtorEq, if_true, if_false]; omega
  case interactive =>
    refine ⟨(p.relay.queues.get .voice).flatMap Frame.parts ++
      ((p.relay.queues.get .signal).flatMap Frame.parts ++ (p.relay.queues.get .bulk).flatMap Frame.parts), ?_, fun l => ?_⟩ <;>
    · rw [e, List.perm_iff_count]; intro a; simp only [g, List.count_append, reduceCtorEq, if_true, if_false]; omega
  case bulk =>
    refine ⟨(p.relay.queues.get .voice).flatMap Frame.parts ++
      ((p.relay.queues.get .signal).flatMap Frame.parts ++ (p.relay.queues.get .interactive).flatMap Frame.parts), ?_, fun l => ?_⟩ <;>
    · rw [e, List.perm_iff_count]; intro a; simp only [g, List.count_append, reduceCtorEq, if_true, if_false]; omega

/-- Frames leave a class queue: their parts are under way. -/
theorem setQueue_follows {X : List Nat} {p : Part} {c : ServiceClass} {fs l : List Frame} (h : p.Follows X)
    (hl : (p.relay.queues.get c).Perm (fs ++ l)) : (setQueue c l p).Follows (fs.flatMap Frame.parts ++ X) := by
  obtain ⟨rest, h1, h2⟩ := queuedParts_perm c p
  refine ⟨(Follow.unqueued (h.1.perm (List.Perm.refl _) ?_ (List.Perm.refl _))).perm (List.Perm.refl _) (h2 l).symm (List.Perm.refl _), fun d f hf => ?_⟩
  · refine h1.trans (((hl.flatMap_right Frame.parts).append_right rest).trans ?_)
    rw [List.flatMap_append, List.append_assoc]
  · have hg : (setQueue c l p).relay.queues.get d = if d = c then l else p.relay.queues.get d := PerClass.get_set _ _ _ _
    rw [hg] at hf
    split at hf
    · rename_i hd
      subst hd
      exact h.2 d f (hl.mem_iff.mpr (List.mem_append_right _ hf))
    · exact h.2 d f hf

theorem discardParts_entries (r : Discard) (P : List Nat) (p : Part) :
    (discardParts r P p).uplink.entries = markEntries P (Entry.discard r) p.uplink.entries := by
  unfold discardParts raiseIf; split <;> rfl

theorem discardFrames_keeps (r : Discard) (fs : List Frame) (p : Part) :
    (discardFrames r fs p).relay = p.relay ∧ (discardFrames r fs p).radio = p.radio := by
  unfold discardFrames
  induction fs generalizing p with
  | nil => exact ⟨rfl, rfl⟩
  | cons f fs ih =>
    rw [List.foldl_cons]
    have h : (discardParts r f.parts p).relay = p.relay ∧ (discardParts r f.parts p).radio = p.radio := by
      unfold discardParts raiseIf; split <;> exact ⟨rfl, rfl⟩
    rw [(ih _).1, (ih _).2, h.1, h.2]; exact ⟨rfl, rfl⟩

/-- The frames whose parts were under way are discarded. -/
theorem discardFrames_follow {X Q S : List Nat} (r : Discard) (fs : List Frame) {p : Part}
    (h : Follow (fs.flatMap Frame.parts ++ X) Q S p.uplink.entries) : Follow X Q S (discardFrames r fs p).uplink.entries := by
  unfold discardFrames
  induction fs generalizing p with
  | nil => exact h
  | cons f fs ih =>
    rw [List.foldl_cons]
    refine ih ?_
    rw [discardParts_entries]
    rw [List.flatMap_cons, List.append_assoc] at h
    exact h.marked fun _ => .inl rfl

theorem discardFrames_follows {X : List Nat} (r : Discard) (fs : List Frame) {p : Part}
    (h : p.Follows (fs.flatMap Frame.parts ++ X)) : (discardFrames r fs p).Follows X := by
  obtain ⟨h1, h2⟩ := discardFrames_keeps r fs p
  have := discardFrames_follow r fs h.1
  refine ⟨?_, fun c f => by rw [h1]; exact h.2 c f⟩
  have hq : (discardFrames r fs p).queuedParts = p.queuedParts := by unfold Part.queuedParts; rw [h1]
  have hs : (discardFrames r fs p).sentParts = p.sentParts := by unfold Part.sentParts; rw [h2]
  rw [hq, hs]; exact this

theorem discardParts_follows {X P : List Nat} (r : Discard) {p : Part} (h : p.Follows (P ++ X)) : (discardParts r P p).Follows X := by
  have := discardFrames_follows r [{ parts := P, cls := .voice, bytes := [], enqueued := 0 }] (X := X) (p := p) (by simpa using h)
  exact this

theorem discardQueues_follows {X : List Nat} (r : Discard) (cs : List ServiceClass) {p : Part} (h : p.Follows X) :
    (discardQueues r cs p).Follows X := by
  unfold discardQueues
  induction cs generalizing p with
  | nil => exact h
  | cons c cs ih =>
    rw [List.foldl_cons]
    exact ih (discardFrames_follows r _ (setQueue_follows h (by rw [List.append_nil])))

/-- Frames leave the outstanding list. -/
theorem withOutstanding_follows {X : List Nat} {p q : Part} {es l : List Sent} (h : p.Follows X) (h1 : q.relay.queues = p.relay.queues)
    (h2 : q.radio.outstanding = l) (h3 : q.uplink.entries = p.uplink.entries) (hl : p.radio.outstanding.Perm (es ++ l)) :
    q.Follows ((es.map Sent.frame).flatMap Frame.parts ++ X) := by
  have hq : q.queuedParts = p.queuedParts := by unfold Part.queuedParts; rw [h1]
  refine ⟨?_, fun c f => by rw [h1]; exact h.2 c f⟩
  rw [hq, h3]
  refine Follow.unsent (h.1.perm (List.Perm.refl _) (List.Perm.refl _) ?_)
  unfold Part.sentParts
  rw [h2, List.flatMap_map]
  refine (hl.flatMap_right _).trans ?_
  rw [List.flatMap_append]

theorem discardOutstanding_follows {X : List Nat} (r : Discard) {p : Part} (h : p.Follows X) : (discardOutstanding r p).Follows X :=
  discardFrames_follows r _ (withOutstanding_follows (l := []) h rfl rfl rfl (by rw [List.append_nil]))

/-- The frame that `sentUnder` finds leaves the list. -/
theorem dropSent_follows {X : List Nat} {p : Part} {link : BitVec 16} {e : Sent} (h : p.Follows X) (he : p.sentUnder link = some e) :
    (dropSent link p).Follows (e.frame.parts ++ X) := by
  have hp : p.radio.outstanding.Perm ([e] ++ p.radio.outstanding.eraseP fun e => e.link = link) := by
    unfold Part.sentUnder at he
    generalize p.radio.outstanding = l at he
    induction l with
    | nil => cases he
    | cons a l ih =>
      rw [List.find?_cons] at he
      by_cases ha : a.link = link
      · simp only [ha, decide_true] at he
        cases he
        rw [List.eraseP_cons_of_pos (by simpa using ha)]
        exact List.Perm.refl _
      · simp only [ha, decide_false] at he
        rw [List.eraseP_cons_of_neg (by simpa using ha)]
        exact ((ih he).cons a).trans (List.Perm.swap _ _ _)
  have := withOutstanding_follows (q := dropSent link p) h rfl rfl rfl hp
  simpa using this

/-! ### Frames start -/

/-- The candidate's transfer starts: its parts move to the outstanding list. -/
theorem startDataUp_follows {X : List Nat} {p : Part} {f : Frame} (h : p.Follows X) (hf : p.candidate = some f) : (startDataUp f p).Follows X := by
  have hc : ∃ rest, p.relay.queues.get f.cls = f :: rest := by
    unfold Part.candidate at hf
    obtain ⟨c, -, hc⟩ := List.exists_of_findSome?_eq_some hf
    have : ∃ rest, p.relay.queues.get c = f :: rest := by
      split at hc
      · exact List.head?_eq_some_iff.mp hc
      · exact List.head?_eq_some_iff.mp hc
      · cases hc
    obtain ⟨rest, e⟩ := this
    have := h.2 c f (by rw [e]; exact List.mem_cons_self)
    rw [this]; exact ⟨rest, e⟩
  obtain ⟨rest, hc⟩ := hc
  have h1 : (setQueue f.cls rest p).Follows (f.parts ++ X) := by
    have := setQueue_follows (c := f.cls) (fs := [f]) (l := rest) h (by rw [hc]; exact List.Perm.refl _)
    simpa using this
  have hin : ∀ i ∈ f.parts, i < p.uplink.entries.length := by
    intro i hi
    refine entryAt_lt ?_
    rw [h.1.queued i ?_]
    · simp
    · unfold Part.queuedParts
      refine List.mem_flatMap.mpr ⟨f.cls, by cases f.cls <;> decide, List.mem_flatMap.mpr ⟨f, ?_, hi⟩⟩
      rw [hc]; exact List.mem_cons_self
  have ht : (p.relay.queues.get f.cls).tail = rest := by rw [hc]; rfl
  have h2 := h1.1.joins (f := fun e => { e.move .sending with carriage := p.relay.nextSeq.get f.cls }) hin (.inr ⟨fun _ => rfl, rfl, rfl⟩) fun _ => rfl
  have hq : (startDataUp f p).queuedParts = (setQueue f.cls rest p).queuedParts := by rw [← ht]; rfl
  have hs : (startDataUp f p).sentParts = p.sentParts ++ f.parts := by
    unfold Part.sentParts startDataUp
    dsimp only
    rw [show (mark f.parts _ (setQueue f.cls (p.relay.queues.get f.cls).tail p)).radio = p.radio from rfl, List.flatMap_append]
    simp
  refine ⟨?_, fun c g hg => h1.2 c g (by rw [← ht]; exact hg)⟩
  rw [hq, hs]
  exact h2.perm (List.Perm.refl _) (List.Perm.refl _) (List.perm_append_comm)

/-! ### Posts and withdraws -/

theorem onEntry_follows {p : Part} (i : Nat) {f : Entry → Entry} (h : p.Follows [])
    (hf : ∀ e, (f e).state = e.state ∧ (f e).reason = e.reason ∧ (f e).carriage = e.carriage) : (onEntry i f p).Follows [] := by
  refine ⟨h.1.change (List.Sublist.refl _) fun j => .inl ?_, h.2⟩
  have e : entryAt (onEntry i f p).uplink.entries j = if j = i ∧ i < p.uplink.entries.length then f (entryAt p.uplink.entries j) else entryAt p.uplink.entries j :=
    entryAt_modify i f _ j
  rw [e]
  split
  · exact ⟨(hf _).1, fun k => (by cases k), (hf _).2.1, .inl (hf _).2.2⟩
  · exact ⟨rfl, fun k => (by cases k), rfl, .inl rfl⟩

/-- A post with chain set: the entry is HELD. -/
theorem held_follows {p : Part} (i : Nat) (g : Entry → Entry) (h : p.Follows [])
    (hs : (entryAt p.uplink.entries i).state ≠ .queued ∧ (entryAt p.uplink.entries i).state ≠ .sending) :
    (onEntry i (fun e => { (g e).move .held with carriage := 0 }) p).Follows [] := by
  refine ⟨h.1.change (List.Sublist.refl _) fun j => ?_, h.2⟩
  have e : entryAt (onEntry i (fun e => { (g e).move .held with carriage := 0 }) p).uplink.entries j = if j = i ∧ i < p.uplink.entries.length then { (g (entryAt p.uplink.entries j)).move .held with carriage := 0 } else entryAt p.uplink.entries j :=
    entryAt_modify i _ _ j
  rw [e]
  split
  · rename_i k
    refine .inr ⟨.inr (by rw [k.1]; exact hs), ?_⟩
    simp [Entry.move]
  · exact .inl ⟨rfl, fun k => (by cases k), rfl, .inl rfl⟩

/-- The HELD entries before entry `i` are told apart by how far they stand before it. -/
theorem heldBefore_eq (es : List Entry) (fuel i : Nat) : ∃ m ≤ fuel, heldBefore es i fuel =
    (List.range m).map fun k => (i + (k + 1) * (es.length - 1)) % es.length := by
  induction fuel generalizing i with
  | zero => exact ⟨0, le_rfl, rfl⟩
  | succ fuel ih =>
    unfold heldBefore
    dsimp only
    split
    · rename_i hs
      have hn : 0 < es.length := by
        have := entryAt_lt (es := es) (i := (i + es.length - 1) % es.length) (by rw [hs]; simp)
        omega
      obtain ⟨m, hm, e⟩ := ih ((i + es.length - 1) % es.length)
      refine ⟨m + 1, Nat.succ_le_succ hm, ?_⟩
      rw [List.range_succ_eq_map, List.map_cons, e, List.map_map]
      have h0 : i + es.length - 1 = i + (es.length - 1) := by omega
      rw [h0]
      congr 1
      · simp
      · apply List.map_congr_left
        intro k _
        show _ = (i + (k.succ + 1) * (es.length - 1)) % es.length
        rw [Nat.mod_add_mod]
        congr 1
        rw [Nat.succ_eq_add_one]; ring
    · exact ⟨0, Nat.zero_le _, rfl⟩

theorem heldBefore_held (es : List Entry) (fuel i : Nat) : ∀ j ∈ heldBefore es i fuel, (entryAt es j).state = .held := by
  induction fuel generalizing i with
  | zero => intro j hj; cases hj
  | succ fuel ih =>
    intro j hj
    unfold heldBefore at hj
    dsimp only at hj
    split at hj
    · rename_i hs
      rcases List.mem_cons.mp hj with rfl | hj
      · exact hs
      · exact ih _ j hj
    · cases hj

theorem steps_apart {n i a b : Nat} (hn : 0 < n) (hb : b < n) (hab : a < b) : (i + a * (n - 1)) % n ≠ (i + b * (n - 1)) % n := by
  intro h
  have hd : (n : Int) ∣ ((b : Int) - a) * (n - 1) := by
    have h' : ((i + a * (n - 1) : Nat) : Int) % n = ((i + b * (n - 1) : Nat) : Int) % n := by exact_mod_cast h
    have h3 := (Int.emod_eq_emod_iff_emod_sub_eq_zero).mp h'.symm
    have h4 := Int.dvd_of_emod_eq_zero h3
    have e : ((i + b * (n - 1) : Nat) : Int) - ((i + a * (n - 1) : Nat) : Int) = ((b : Int) - a) * (n - 1) := by
      push_cast [Nat.cast_sub hn]; ring
    rwa [e] at h4
  have hd2 : (n : Int) ∣ (b : Int) - a := by
    have e : (b : Int) - a = ((b : Int) - a) * n - ((b : Int) - a) * (n - 1) := by ring
    rw [e]
    exact dvd_sub (Dvd.intro_left _ rfl) hd
  have := Int.le_of_dvd (by omega) hd2
  omega

/-- The parts of a frame that a post at entry `i` forms are entries of the table, no two alike, none of them part of a
frame (R148). -/
theorem gather_apart {es : List Entry} {i : Nat} (hi : i < es.length)
    (hs : (entryAt es i).state ≠ .queued ∧ (entryAt es i).state ≠ .sending) : (gather es i).Nodup ∧
      ∀ j ∈ gather es i, j < es.length ∧ (entryAt es j).state ≠ .queued ∧ (entryAt es j).state ≠ .sending := by
  obtain ⟨m, hm, e⟩ := heldBefore_eq es (es.length - 1) i
  have hn : 0 < es.length := by omega
  have apart : ∀ a b, a < es.length → b < es.length → (i + a * (es.length - 1)) % es.length = (i + b * (es.length - 1)) % es.length → a = b := by
    intro a b ha hb h
    rcases Nat.lt_trichotomy a b with k | k | k
    · exact absurd h (steps_apart hn hb k)
    · exact k
    · exact absurd h.symm (steps_apart hn ha k)
  refine ⟨?_, fun j hj => ?_⟩
  · unfold gather
    rw [List.nodup_append, List.nodup_reverse]
    refine ⟨?_, List.nodup_singleton i, fun a ha b hb => ?_⟩
    · rw [e]
      refine List.Nodup.map_on (fun x hx y hy hxy => ?_) List.nodup_range
      have := apart (x + 1) (y + 1) (by have := List.mem_range.mp hx; omega) (by have := List.mem_range.mp hy; omega) hxy
      omega
    · rw [List.mem_singleton] at hb
      subst hb
      rintro rfl
      rw [List.mem_reverse, e] at ha
      obtain ⟨k, hk, hka⟩ := List.mem_map.mp ha
      have := apart (k + 1) 0 (by have := List.mem_range.mp hk; omega) hn (by rw [hka]; simp [Nat.mod_eq_of_lt hi])
      omega
  · unfold gather at hj
    rcases List.mem_append.mp hj with hj | hj
    · have h1 := heldBefore_held es _ i j (List.mem_reverse.mp hj)
      exact ⟨entryAt_lt (by rw [h1]; simp), by rw [h1]; simp, by rw [h1]; simp⟩
    · rw [List.mem_singleton] at hj
      subst hj; exact ⟨hi, hs⟩

theorem displaceFor_split (n limit out : Nat) (fs : List Frame) : (displaceFor n limit out fs).1 ++ (displaceFor n limit out fs).2 = fs := by
  induction fs with
  | nil => rfl
  | cons f fs ih =>
    unfold displaceFor
    split
    · rfl
    · dsimp only; rw [List.cons_append, ih]

theorem roomFor_split {p : Part} {c : ServiceClass} {n : Nat} {d k : List Frame} (h : roomFor p c n = some (d, k)) :
    p.relay.queues.get c = d ++ k := by
  unfold roomFor at h
  dsimp only at h
  split at h
  · cases h; rfl
  · split at h
    · have h2 := Option.some.inj h
      have := displaceFor_split n (p.relay.limits.get c) (blocksOf (p.sentOf c)) (p.relay.queues.get c)
      rw [h2] at this; exact this.symm
    · cases h

/-- A frame is formed or its parts discarded. -/
theorem formFrame_follows {p : Part} {i : Nat} (h : p.Follows []) (hi : i < p.uplink.entries.length)
    (hs : (entryAt p.uplink.entries i).state ≠ .queued ∧ (entryAt p.uplink.entries i).state ≠ .sending) : (formFrame i p).Follows [] := by
  obtain ⟨hn, hp⟩ := gather_apart hi hs
  have hd : ∀ r, (discardFormed r (gather p.uplink.entries i) p).Follows [] := by
    intro r
    refine discardParts_follows r (P := gather p.uplink.entries i) ⟨?_, h.2⟩
    refine (h.1.taken hn fun j hj => ⟨List.not_mem_nil, (hp j hj).2⟩).change (List.Sublist.refl _) fun j => .inl ?_
    have e : entryAt (mark (gather p.uplink.entries i) (fun e => { e with carriage := 0 }) p).uplink.entries j =
        if j ∈ gather p.uplink.entries i ∧ j < p.uplink.entries.length then { entryAt p.uplink.entries j with carriage := 0 } else entryAt p.uplink.entries j :=
      entryAt_mark _ _ _ j
    rw [e]
    split
    · exact ⟨rfl, .inl, rfl, .inr rfl⟩
    · exact ⟨rfl, .inl, rfl, .inl rfl⟩
  unfold formFrame
  dsimp only
  split
  · exact hd _
  · split
    · exact hd _
    · rename_i d k hr
      obtain ⟨fr, hfr⟩ : ∃ fr : Frame, fr = { parts := gather p.uplink.entries i, cls := classOfByte (entryAt p.uplink.entries i).clsByte, enqueued := p.clock.now, bytes := (addressesOf p.uplink.entries (gather p.uplink.entries i)).map fun a => (stagedByte p.uplink.staging a).getD 0 } := ⟨_, rfl⟩
      rw [← hfr]
      have hc : fr.cls = classOfByte (entryAt p.uplink.entries i).clsByte := by rw [hfr]
      have hP : fr.parts = gather p.uplink.entries i := by rw [hfr]
      rw [← hc, ← hP]
      rw [← hc] at hr
      rw [← hP] at hn hp
      have h1 := setQueue_follows (fs := d) (l := k) h (by rw [roomFor_split hr])
      obtain ⟨rest, -, h2⟩ := queuedParts_perm fr.cls p
      have h3 : Follow (d.flatMap Frame.parts ++ fr.parts) (setQueue fr.cls k p).queuedParts p.sentParts p.uplink.entries := by
        have a := h1.1
        rw [List.append_nil] at a
        have b := a.taken (P := fr.parts) hn fun j hj => ⟨fun g => (hp j hj).2.1 ?_, (hp j hj).2⟩
        · exact b.perm List.perm_append_comm (List.Perm.refl _) (List.Perm.refl _)
        · refine h.1.queued j ?_
          obtain ⟨f, hf, hj'⟩ := List.mem_flatMap.mp g
          unfold Part.queuedParts
          refine List.mem_flatMap.mpr ⟨fr.cls, by cases fr.cls <;> decide, List.mem_flatMap.mpr ⟨f, ?_, hj'⟩⟩
          rw [roomFor_split hr]; exact List.mem_append_left _ hf
      have h4 := discardFrames_follow .displaced d (p := setQueue fr.cls (k ++ [fr]) p) (X := fr.parts) h3
      obtain ⟨k1, k2⟩ := discardFrames_keeps .displaced d (setQueue fr.cls (k ++ [fr]) p)
      have hl : (discardFrames .displaced d (setQueue fr.cls (k ++ [fr]) p)).uplink.entries.length = p.uplink.entries.length := by
        have := congrArg List.length (discardFrames_mild .displaced d (setQueue fr.cls (k ++ [fr]) p)).hosts
        rw [List.length_map, List.length_map] at this
        exact this
      generalize discardFrames .displaced d (setQueue fr.cls (k ++ [fr]) p) = q at *
      rw [← List.append_nil fr.parts] at h4
      have h5 := h4.joins (f := fun e => { e.move .queued with carriage := 0 }) (fun j hj => by rw [hl]; exact (hp j hj).1)
        (.inl ⟨fun _ => ⟨rfl, rfl⟩, rfl, rfl⟩) fun _ => rfl
      refine ⟨?_, fun c f hf => ?_⟩
      · refine h5.perm (List.Perm.refl _) ?_ (List.Perm.of_eq ?_)
        · refine List.Perm.trans ((List.Perm.refl _).append (h2 k)) (List.Perm.trans ?_ (List.Perm.trans (h2 (k ++ [fr])).symm (List.Perm.of_eq ?_)))
          · rw [List.perm_iff_count]; intro a; simp only [List.flatMap_append, List.count_append, List.flatMap_cons, List.flatMap_nil, List.append_nil]; omega
          · unfold Part.queuedParts mark; dsimp only; rw [k1]
        · unfold Part.sentParts mark; dsimp only; rw [k2]; rfl
      · have hf' : f ∈ q.relay.queues.get c := hf
        rw [k1] at hf'
        have hg : (setQueue fr.cls (k ++ [fr]) p).relay.queues.get c = if c = fr.cls then k ++ [fr] else p.relay.queues.get c := PerClass.get_set _ _ _ _
        rw [hg] at hf'
        split at hf'
        · rename_i hcc
          subst hcc
          rcases List.mem_append.mp hf' with g | g
          · exact h.2 _ f (by rw [roomFor_split hr]; exact List.mem_append_right _ g)
          · rw [List.mem_singleton] at g; rw [g]
        · exact h.2 c f hf'

theorem onEntry_length (i : Nat) (f : Entry → Entry) (p : Part) : (onEntry i f p).uplink.entries.length = p.uplink.entries.length :=
  List.length_modify ..

theorem onEntry_state (i j : Nat) (ls : List Lane) (p : Part) :
    (entryAt (onEntry i (Entry.take ls) p).uplink.entries j).state = (entryAt p.uplink.entries j).state := by
  have e : entryAt (onEntry i (Entry.take ls) p).uplink.entries j = if j = i ∧ i < p.uplink.entries.length then (entryAt p.uplink.entries j).take ls else entryAt p.uplink.entries j :=
    entryAt_modify i _ _ j
  rw [e]; split <;> rfl

theorem takePost_same (b : Byte) (p : Part) : (takePost b p).uplink = p.uplink ∧ (takePost b p).relay = p.relay ∧ (takePost b p).radio = p.radio := by
  unfold takePost; split <;> exact ⟨rfl, rfl, rfl⟩

theorem postEntry_follows {p : Part} {i : Nat} (ls : List Lane) (h : p.Follows []) (hi : i < p.uplink.entries.length) :
    (postEntry i ls p).Follows [] := by
  obtain ⟨h1, h2, h3⟩ := takePost_same ((lane ls 6).getD 0) p
  have hq : (takePost ((lane ls 6).getD 0) p).Follows [] := h.same (by rw [h2]) (by rw [h3]) (by rw [h1])
  have h1' := congrArg Uplink.entries h1
  unfold postEntry
  dsimp only
  generalize takePost ((lane ls 6).getD 0) p = q at hq h1'
  split
  · exact hq.same rfl rfl rfl
  · exact hq.same rfl rfl rfl
  · exact hq.same rfl rfl rfl
  · rename_i n1 n2 n3
    split
    · exact held_follows i (fun e => e.take ls) hq (by rw [h1']; exact ⟨n2, n3⟩)
    · refine formFrame_follows (onEntry_follows i hq fun e => ⟨rfl, rfl, rfl⟩) (by rw [onEntry_length, h1']; exact hi) ?_
      rw [onEntry_state, h1']; exact ⟨n2, n3⟩

theorem queuedFrame_in {p : Part} {i : Nat} {f : Frame} (h : queuedFrame p i = some f) : i ∈ f.parts ∧ ∃ c, f ∈ p.relay.queues.get c := by
  unfold queuedFrame at h
  obtain ⟨c, -, hc⟩ := List.exists_of_findSome?_eq_some h
  exact ⟨by simpa using List.find?_some hc, c, List.mem_of_find?_eq_some hc⟩

theorem queuedFrame_some {p : Part} {i : Nat} (h : i ∈ p.queuedParts) : queuedFrame p i ≠ none := by
  intro hn
  unfold Part.queuedParts at h
  obtain ⟨c, hc, hf⟩ := List.mem_flatMap.mp h
  obtain ⟨f, hf, hi⟩ := List.mem_flatMap.mp hf
  unfold queuedFrame at hn
  have := List.findSome?_eq_none_iff.mp hn c hc
  have := List.find?_eq_none.mp this f hf
  simp [hi] at this

/-- The frame of a QUEUED entry, and no other, leaves its queue. -/
theorem unqueue_follows {p : Part} {i : Nat} {f : Frame} (h : p.Follows []) (hf : queuedFrame p i = some f) :
    (unqueue f p).Follows f.parts := by
  obtain ⟨hi, c, hc⟩ := queuedFrame_in hf
  have := h.2 c f hc
  subst this
  have hd : ((p.relay.queues.get f.cls).flatMap Frame.parts).Nodup := by
    obtain ⟨rest, h1, -⟩ := queuedParts_perm f.cls p
    have h2 := (List.nodup_append.mp h.1.once).2.1
    exact (List.nodup_append.mp (h1.nodup_iff.mp (List.nodup_append.mp h2).1)).1
  have hl : (p.relay.queues.get f.cls).Perm ([f] ++ (p.relay.queues.get f.cls).filter fun g => g.parts ≠ f.parts) := by
    generalize p.relay.queues.get f.cls = l at hc hd
    induction l with
    | nil => cases hc
    | cons a l ih =>
      rw [List.flatMap_cons, List.nodup_append] at hd
      by_cases ha : a.parts = f.parts
      · have hn : ∀ g ∈ l, g.parts ≠ f.parts := fun g hg hp =>
          hd.2.2 i (by rw [ha]; exact hi) i (List.mem_flatMap.mpr ⟨g, hg, by rw [hp]; exact hi⟩) rfl
        have hfa : f = a := by
          rcases List.mem_cons.mp hc with k | k
          · exact k
          · exact absurd rfl (hn f k)
        rw [List.filter_cons_of_neg (by simp [ha]), List.filter_eq_self.mpr fun g hg => by simpa using hn g hg, hfa]
        exact List.Perm.refl _
      · rw [List.filter_cons_of_pos (by simpa using ha)]
        have hc' : f ∈ l := (List.mem_cons.mp hc).resolve_left fun k => ha (by rw [k])
        exact ((ih hc' hd.2.1).cons a).trans (List.Perm.swap _ _ _)
  have := setQueue_follows h hl
  rw [List.flatMap_cons, List.flatMap_nil, List.append_nil, List.append_nil] at this
  exact this

theorem withdrawEntry_follows {p : Part} (i : Nat) (ls : List Lane) (h : p.Follows []) : (withdrawEntry i ls p).Follows [] := by
  have h1 := onEntry_follows i h (f := Entry.take ls) fun e => ⟨rfl, rfl, rfl⟩
  have he := onEntry_state i i ls p
  have hrel : (onEntry i (Entry.take ls) p).relay = p.relay := rfl
  unfold withdrawEntry
  generalize onEntry i (Entry.take ls) p = q at h1 he hrel
  split
  · rename_i hs
    refine discardParts_follows _ (P := [i]) ⟨h1.1.taken (List.nodup_singleton i) fun j hj => ?_, h1.2⟩
    rw [List.mem_singleton] at hj
    subst hj
    rw [he, hs]; simp
  · rename_i hs
    have hf : queuedFrame p i = queuedFrame q i := by unfold queuedFrame; rw [hrel]
    rw [hf]
    split
    · rename_i f hq
      exact discardParts_follows _ (X := []) (by rw [List.append_nil]; exact unqueue_follows h1 hq)
    · rename_i hq
      refine absurd hq (queuedFrame_some ?_)
      exact (h1.1.inQueue i (by rw [he, hs])).resolve_left List.not_mem_nil
  · exact h.same rfl rfl rfl
  · exact h

theorem writeDescriptor_follows {p : Part} {i : Nat} (ls : List Lane) (h : p.Follows []) (hi : i < p.uplink.entries.length) :
    (writeDescriptor i ls p).Follows [] := by
  have h1 := onEntry_follows i h (f := Entry.take ls) fun e => ⟨rfl, rfl, rfl⟩
  unfold writeDescriptor
  split
  · exact h1
  · split
    · exact h.same rfl rfl rfl
    · split
      · exact postEntry_follows _ h hi
      · split
        · exact withdrawEntry_follows _ _ h
        · exact h1

/-! ### Between events -/

/-- The part's entries stand as its frames have them when nothing is under way. -/
theorem entriesStand_iff (p : Part) : p.EntriesStand ↔ p.Follows [] ∧
    p.uplink.entries.length * 16 = (p.windows.uplink.map Window.size).getD 0 ∧ p.uplink.entries.length % 2 = 0 := by
  have st : ∀ i (s : EntryState), s ≠ .idle → (p.entryState i = some s ↔ (entryAt p.uplink.entries i).state = s) := by
    intro i s hs
    unfold Part.entryState
    by_cases hi : i < p.uplink.entries.length
    · rw [entryAt_in hi, List.getElem?_eq_getElem hi]; simp
    · rw [entryAt_past (Nat.le_of_not_lt hi), List.getElem?_eq_none (Nat.le_of_not_lt hi)]
      exact ⟨fun h => (by cases h), fun h => absurd h.symm hs⟩
  constructor
  · intro h
    refine ⟨⟨⟨h.once, fun i hi => (st i _ (by simp)).mp ((h.queued i).mpr hi), fun i hi => (st i _ (by simp)).mp ((h.sending i).mpr hi),
      fun i hi => .inr ((h.queued i).mp ((st i _ (by simp)).mpr hi)), fun i hi => .inr ((h.sending i).mp ((st i _ (by simp)).mpr hi)), fun i hi => ?_, fun i hi => ?_⟩, h.byClass⟩, h.table⟩
    · by_cases hl : i < p.uplink.entries.length
      · rw [entryAt_in hl] at hi ⊢; exact h.reason _ (List.getElem_mem hl) hi
      · rw [entryAt_past (Nat.le_of_not_lt hl)]; rfl
    · by_cases hl : i < p.uplink.entries.length
      · rw [entryAt_in hl] at hi ⊢; exact h.carriage _ (List.getElem_mem hl) hi
      · rw [entryAt_past (Nat.le_of_not_lt hl)]; rfl
  · rintro ⟨⟨h, hb⟩, ht⟩
    refine ⟨ht, fun i => ?_, fun i => ?_, h.once, fun e he hs => ?_, fun e he hs => ?_, hb⟩
    · rw [st i _ (by simp)]
      exact ⟨fun k => (h.inQueue i k).resolve_left List.not_mem_nil, h.queued i⟩
    · rw [st i _ (by simp)]
      exact ⟨fun k => (h.inList i k).resolve_left List.not_mem_nil, h.sending i⟩
    · obtain ⟨i, hl, rfl⟩ := List.mem_iff_getElem.mp he
      have := h.reason i; rw [entryAt_in hl] at this; exact this hs
    · obtain ⟨i, hl, rfl⟩ := List.mem_iff_getElem.mp he
      have := h.carriage i; rw [entryAt_in hl] at this; exact this hs

theorem Part.EntriesStand.same {p q : Part} (h : p.EntriesStand) (h1 : q.relay.queues = p.relay.queues := by rfl)
    (h2 : q.radio.outstanding.map Sent.frame = p.radio.outstanding.map Sent.frame := by rfl)
    (h3 : q.uplink.entries = p.uplink.entries := by rfl) (h4 : q.windows.uplink = p.windows.uplink := by rfl) : q.EntriesStand := by
  rw [entriesStand_iff] at *
  rw [h3, h4]
  exact ⟨h.1.same h1 h2 h3, h.2⟩

/-- With no frame, no entry is of one. -/
theorem idle_follows {p : Part} (hq : p.relay.queues = PerClass.ofFn fun _ => []) (ho : p.radio.outstanding = [])
    (he : ∀ e ∈ p.uplink.entries, e.state = .idle ∧ e.reason = none ∧ e.carriage = 0) : p.Follows [] := by
  have hqp : p.queuedParts = [] := by
    unfold Part.queuedParts; rw [hq]; simp [PerClass.get_ofFn]
  have hsp : p.sentParts = [] := by unfold Part.sentParts; rw [ho]; rfl
  have hall : ∀ i, (entryAt p.uplink.entries i).state = .idle ∧ (entryAt p.uplink.entries i).reason = none ∧ (entryAt p.uplink.entries i).carriage = 0 := by
    intro i
    by_cases hl : i < p.uplink.entries.length
    · rw [entryAt_in hl]; exact he _ (List.getElem_mem hl)
    · rw [entryAt_past (Nat.le_of_not_lt hl)]; exact ⟨rfl, rfl, rfl⟩
  refine ⟨?_, fun c f hf => by rw [hq, PerClass.get_ofFn] at hf; cases hf⟩
  rw [hqp, hsp]
  refine ⟨List.nodup_nil, fun i hi => (by cases hi), fun i hi => (by cases hi), fun i hi => ?_, fun i hi => ?_, fun i _ => (hall i).2.1, fun i _ => (hall i).2.2⟩
  · rw [(hall i).1] at hi; cases hi
  · rw [(hall i).1] at hi; cases hi

end Sys2Proof.Machine
end

