-- ==== Sys2Proof/Laws/Staging.lean ====
section
/-! SUPPORT. What the part changes it reports, the stores of the part keep their sizes and the staging store its form, and the uplink entries
follow the frames, under every step (R14, R19, R22, R134 to R139, R182). -/

namespace Sys2Proof.Machine

/-- The sizes of the stores of `p` are those of `q`. -/
structure Neat (p q : Part) : Prop where
  header : q.command.header = p.command.header
  params : q.command.params = p.command.params
  data : q.command.data = p.command.data ∨ q.command.data.length = 16
  channel : q.channel = p.channel
  windows : q.windows = p.windows
  delivery : q.delivery = p.delivery
  staging : q.uplink.staging = p.uplink.staging
  hosts : q.uplink.entries.map Entry.host = p.uplink.entries.map Entry.host

/-- The shapes of `p` are those of `q`, and the entries of `q` follow its frames where those of `p` do. -/
structure Tidy (p q : Part) : Prop extends Neat p q where
  follows : ∀ X, p.Follows X → q.Follows X

theorem Neat.trans {p q r : Part} (h : Neat p q) (k : Neat q r) : Neat p r :=
  ⟨k.header.trans h.header, k.params.trans h.params, by
    rcases k.data with g | g
    · rw [g]; exact h.data
    · exact .inr g,
    k.channel.trans h.channel, k.windows.trans h.windows, k.delivery.trans h.delivery, k.staging.trans h.staging, k.hosts.trans h.hosts⟩

theorem Tidy.refl (p : Part) : Tidy p p := ⟨⟨rfl, rfl, .inl rfl, rfl, rfl, rfl, rfl, rfl⟩, fun _ => id⟩

theorem Tidy.trans {p q r : Part} (h : Tidy p q) (k : Tidy q r) : Tidy p r :=
  ⟨h.toNeat.trans k.toNeat, fun X g => k.follows X (h.follows X g)⟩

theorem Tidy.after {p q r : Part} (k : Tidy q r) (h : Tidy p q) : Tidy p r := h.trans k

theorem Tidy.ite {c : Prop} [Decidable c] {p q r : Part} (h : Tidy p q) (k : Tidy p r) :
    Tidy p (if c then q else r) := by split <;> assumption

theorem Neat.of_frame {p q : Part} (h : EventFrame p q) (m : Mild p q) (hc : q.command = p.command) : Neat p q :=
  ⟨by rw [hc], by rw [hc], .inl (by rw [hc]), h.channel, h.windows, h.delivery, by rw [h.uplink], m.hosts⟩

theorem entries_length {p q : Part} (h : q.uplink.entries.map Entry.host = p.uplink.entries.map Entry.host) :
    q.uplink.entries.length = p.uplink.entries.length := by
  have := congrArg List.length h
  rwa [List.length_map, List.length_map] at this

theorem Part.Sized.neat {p q : Part} (h : p.Sized) (k : Neat p q) : q.Sized := by
  refine ⟨by rw [k.header]; exact h.header, by rw [k.params]; exact h.params, ?_, by rw [k.channel]; exact h.banks,
    by rw [k.windows]; exact h.captures, ?_, by rw [k.windows, k.staging]; exact h.staging, by rw [k.delivery]; exact h.slots, by rw [k.delivery]; exact h.fill⟩
  · rcases k.data with g | g
    · rw [g]; exact h.data
    · exact g
  · intro e he
    have : e.host ∈ q.uplink.entries.map Entry.host := List.mem_map_of_mem he
    rw [k.hosts] at this
    obtain ⟨e', he', e2⟩ := List.mem_map.mp this
    rw [← e2]; exact h.hosts e' he'

theorem Part.Shaped.tidy {p q : Part} (h : p.Shaped) (k : Tidy p q) : q.Shaped := by
  refine ⟨h.toSized.neat k.toNeat, ?_⟩
  have he := (entriesStand_iff p).mp h.entries
  rw [entriesStand_iff, k.windows, entries_length k.hosts]
  exact ⟨k.follows _ he.1, he.2⟩

theorem padTo_length (d : List Byte) : (padTo 16 d).length = 16 := by
  unfold padTo slice; rw [List.length_map, List.length_range]

theorem raise_tidy (f : Flag) (p : Part) : Tidy p (raise f p) := ⟨⟨rfl, rfl, .inl rfl, rfl, rfl, rfl, rfl, rfl⟩, fun _ => id⟩
theorem raiseIf_tidy (b : Bool) (f : Flag) (p : Part) : Tidy p (raiseIf b f p) := by
  cases b
  · exact Tidy.refl p
  · exact raise_tidy f p
theorem count_tidy (c : Counter) (n : Nat) (p : Part) : Tidy p (count c n p) := ⟨⟨rfl, rfl, .inl rfl, rfl, rfl, rfl, rfl, rfl⟩, fun _ => id⟩
theorem finish_tidy (r : Byte) (d : List Byte) (p : Part) : Tidy p (finish r d p) := ⟨⟨rfl, rfl, .inr (padTo_length d), rfl, rfl, rfl, rfl, rfl⟩, fun _ => id⟩
theorem postClamp_tidy (m : BitVec 32) (p : Part) : Tidy p (postClamp m p) := ⟨⟨rfl, rfl, .inl rfl, rfl, rfl, rfl, rfl, rfl⟩, fun _ => id⟩
theorem startTimed_tidy (t : Timed) (p : Part) : Tidy p (startTimed t p) := ⟨⟨rfl, rfl, .inl rfl, rfl, rfl, rfl, rfl, rfl⟩, fun _ => id⟩
theorem withRadio_tidy (r : Radio) (p : Part) (h : r.outstanding.map Sent.frame = p.radio.outstanding.map Sent.frame := by rfl) :
    Tidy p (p.withRadio r) := ⟨⟨rfl, rfl, .inl rfl, rfl, rfl, rfl, rfl, rfl⟩, fun _ g => g.same rfl h rfl⟩
theorem withPath_tidy (r : Path) (p : Part) : Tidy p (p.withPath r) := ⟨⟨rfl, rfl, .inl rfl, rfl, rfl, rfl, rfl, rfl⟩, fun _ => id⟩
theorem withHealth_tidy (r : Health) (p : Part) : Tidy p (p.withHealth r) := ⟨⟨rfl, rfl, .inl rfl, rfl, rfl, rfl, rfl, rfl⟩, fun _ => id⟩
theorem withOptical_tidy (r : Optical) (p : Part) : Tidy p (p.withOptical r) := ⟨⟨rfl, rfl, .inl rfl, rfl, rfl, rfl, rfl, rfl⟩, fun _ => id⟩
theorem withClock_tidy (r : Clock) (p : Part) : Tidy p (p.withClock r) := ⟨⟨rfl, rfl, .inl rfl, rfl, rfl, rfl, rfl, rfl⟩, fun _ => id⟩
theorem withRelay_tidy (r : Relay) (p : Part) (h : r.queues = p.relay.queues := by rfl) : Tidy p { p with relay := r } :=
  ⟨⟨rfl, rfl, .inl rfl, rfl, rfl, rfl, rfl, rfl⟩, fun _ g => g.same h rfl rfl⟩
theorem endAttach_tidy (r b : Byte) (p : Part) : Tidy p (endAttach r b p) := Tidy.ite (finish_tidy _ _ p) (Tidy.refl p)
theorem endDetach_tidy (r : Byte) (p : Part) : Tidy p (endDetach r p) := Tidy.ite (finish_tidy _ _ p) (Tidy.refl p)
theorem mark_neat {f : Entry → Entry} (hf : ∀ e, (f e).host = e.host) (is : List Nat) (p : Part) : Neat p (mark is f p) :=
  ⟨rfl, rfl, .inl rfl, rfl, rfl, rfl, rfl, (mark_mild hf is p).hosts⟩
theorem setQueue_neat (c : ServiceClass) (l : List Frame) (p : Part) : Neat p (setQueue c l p) := ⟨rfl, rfl, .inl rfl, rfl, rfl, rfl, rfl, rfl⟩
theorem discardFrames_neat (r : Discard) (fs : List Frame) (p : Part) : Neat p (discardFrames r fs p) :=
  Neat.of_frame (discardFrames_frame r fs p) (discardFrames_mild r fs p) (discardFrames_command r fs p)
theorem discardParts_neat (r : Discard) (is : List Nat) (p : Part) : Neat p (discardParts r is p) :=
  discardFrames_neat r [{ parts := is, cls := .voice, bytes := [], enqueued := 0 }] p
theorem discardQueues_tidy (r : Discard) (fs : List ServiceClass) (p : Part) : Tidy p (discardQueues r fs p) :=
  ⟨Neat.of_frame (discardQueues_frame r fs p) (discardQueues_mild r fs p) (discardQueues_command r fs p), fun _ => discardQueues_follows r fs⟩
theorem discardOutstanding_tidy (r : Discard) (p : Part) : Tidy p (discardOutstanding r p) :=
  ⟨(show Neat p { p with radio := { p.radio with outstanding := [] } } from ⟨rfl, rfl, .inl rfl, rfl, rfl, rfl, rfl, rfl⟩).trans (discardFrames_neat r _ _),
    fun _ => discardOutstanding_follows r⟩
theorem enterRadioSide_tidy (s : Service) (p : Part) : Tidy p (enterRadioSide s p) := withPath_tidy _ _
theorem enterStranded_tidy (p : Part) : Tidy p (enterStranded p) := withPath_tidy _ _
theorem discardFibre_tidy (r : Discard) (p : Part) : Tidy p (discardFibre r p) := discardQueues_tidy _ _ _
theorem dwellEnds_tidy (p : Part) : Tidy p (dwellEnds p) := Tidy.ite ((count_tidy _ _ _).after (enterRadioSide_tidy _ p)) (enterStranded_tidy p)
theorem enterSuspect_tidy (p : Part) : Tidy p (enterSuspect p) := by
  have h : ∀ q, Tidy p q → ∀ c : Prop, ∀ [Decidable c], Tidy p (if c then dwellEnds q else q) := fun q hq c _ => Tidy.ite (hq.trans (dwellEnds_tidy q)) hq
  exact h _ (withPath_tidy _ p) _
theorem enterFibre_tidy (r : Discard) (p : Part) : Tidy p (enterFibre r p) := by
  have h : ∀ q, Tidy p q → ∀ c : Prop, ∀ [Decidable c], Tidy p (if c then enterSuspect q else q) := fun q hq c _ => Tidy.ite (hq.trans (enterSuspect_tidy q)) hq
  exact h _ ((withPath_tidy _ p).trans (discardFibre_tidy r _)) _
theorem returnEnds_tidy (p : Part) : Tidy p (returnEnds p) := Tidy.ite ((count_tidy _ _ _).after (withPath_tidy _ _)) (Tidy.refl p)
theorem pathDetached_tidy (p : Part) : Tidy p (pathDetached p) := by
  unfold pathDetached
  split
  · exact enterStranded_tidy p
  · exact enterFibre_tidy _ p
  · exact enterFibre_tidy _ p
  · exact enterRadioSide_tidy _ p
  · exact (withPath_tidy _ p).trans (discardFibre_tidy _ _)
  · exact Tidy.refl p
theorem returnDrained_tidy (p : Part) : Tidy p (returnDrained p) := Tidy.ite (Tidy.refl p) ((withPath_tidy _ p).trans (returnEnds_tidy _))
theorem takeVerdict_tidy (b l : Bool) (p : Part) : Tidy p (takeVerdict b l p) := by
  unfold takeVerdict
  split
  · exact Tidy.ite (enterSuspect_tidy p) (Tidy.refl p)
  · exact Tidy.ite (Tidy.ite (withPath_tidy _ p) (Tidy.refl p)) (withPath_tidy _ p)
  · exact Tidy.ite (Tidy.refl p) (withPath_tidy _ p)
  · exact Tidy.ite (withPath_tidy _ p) (Tidy.refl p)
  · exact Tidy.ite (Tidy.ite (Tidy.refl p) (Tidy.ite (enterRadioSide_tidy _ p) (withPath_tidy _ p))) (Tidy.ite (withPath_tidy _ p) (Tidy.refl p))
  · exact Tidy.ite (enterRadioSide_tidy _ p) (Tidy.refl p)
  · exact Tidy.refl p
  · exact Tidy.refl p
theorem evaluate_tidy (p : Part) : Tidy p (evaluate p) :=
  Tidy.ite (Tidy.refl p) ((takeVerdict_tidy _ _ _).after ((withPath_tidy _ _).after ((raiseIf_tidy _ _ _).after (withHealth_tidy _ p))))
theorem setLive_tidy (l : Conditions) (p : Part) : Tidy p (setLive l p) := (raiseIf_tidy _ _ _).after (withHealth_tidy _ _)
theorem conditionsTo_tidy (l : Conditions) (p : Part) : Tidy p (conditionsTo l p) := (setLive_tidy l p).trans (evaluate_tidy _)
theorem conditionsChange_tidy (l : Conditions) (p : Part) : Tidy p (conditionsChange l p) := Tidy.ite (Tidy.refl p) (conditionsTo_tidy l p)
theorem leftAttached_tidy (p : Part) : Tidy p (leftAttached p) :=
  (pathDetached_tidy _).after (withRelay_tidy _ _)
theorem radioLoss_tidy (p : Part) : Tidy p (radioLoss p) :=
  (withRadio_tidy _ _).after ((discardOutstanding_tidy _ _).trans (discardQueues_tidy _ _ _))
theorem enterEffects_tidy (n : Module) (p : Part) : Tidy p (enterEffects n p) :=
  (withRadio_tidy _ _).after (discardOutstanding_tidy _ _)
theorem moduleTo_tidy (n : Module) (p : Part) : Tidy p (moduleTo n p) := by
  unfold moduleTo
  dsimp only
  have h1 : Tidy p (if (p.attached && !decide (n = .detaching)) = true then radioLoss p else p) := Tidy.ite (radioLoss_tidy p) (Tidy.refl p)
  generalize (if (p.attached && !decide (n = .detaching)) = true then radioLoss p else p) = p1 at *
  have h2 : Tidy p (if n.restarts = true then enterEffects n p1 else p1) := h1.trans (Tidy.ite (enterEffects_tidy n p1) (Tidy.refl p1))
  generalize (if n.restarts = true then enterEffects n p1 else p1) = p2 at *
  have h3 : Tidy p (p2.withRadio (p2.radio.move n p2.clock.now)) := h2.trans (withRadio_tidy _ _ (by cases n <;> rfl))
  generalize (p2.withRadio (p2.radio.move n p2.clock.now)) = p3 at *
  have h4 : Tidy p (if p.attached = true then leftAttached p3 else p3) := h3.trans (Tidy.ite (leftAttached_tidy p3) (Tidy.refl p3))
  exact h4.trans (Tidy.ite (endAttach_tidy _ _ _) (Tidy.refl _))
theorem moduleToIdle_tidy (p : Part) : Tidy p (moduleToIdle p) := (moduleTo_tidy _ _).after (withRadio_tidy _ _)
theorem startDetachReq_tidy (p : Part) : Tidy p (startDetachReq p) := by
  unfold startDetachReq
  exact (withRadio_tidy _ p).trans (moduleTo_tidy _ _)

theorem reviewForced_tidy (p : Part) : Tidy p (reviewForced p) :=
  Tidy.ite ((endDetach_tidy _ _).after (withRadio_tidy _ _)) (Tidy.refl p)
theorem demandActs_tidy (p : Part) : Tidy p (demandActs p) := by
  unfold demandActs
  dsimp only
  split
  · split
    · exact Tidy.ite (withRadio_tidy _ _) (Tidy.refl p)
    · exact Tidy.ite (withRadio_tidy _ _) (Tidy.refl p)
    · exact Tidy.refl p
  · split
    · exact withRadio_tidy _ _
    · split
      · exact Tidy.refl p
      · exact withRadio_tidy _ _
    · exact Tidy.ite (withRadio_tidy _ _) (Tidy.refl p)
    · exact Tidy.refl p
theorem settle_tidy (p : Part) : Tidy p (settle p) :=
  ((reviewForced_tidy p).trans (withRadio_tidy _ _ (by unfold demandAfter; dsimp only; repeat' (first | rfl | split)))).trans ((demandActs_tidy _).trans ⟨⟨rfl, rfl, .inl rfl, rfl, rfl, rfl, rfl, rfl⟩, fun _ => id⟩)
theorem startDataUp_tidy {f : Frame} {p : Part} (hf : p.candidate = some f) : Tidy p (startDataUp f p) :=
  have h := (setQueue_neat f.cls (p.relay.queues.get f.cls).tail p).trans
    (mark_neat (f := fun e => { e.move .sending with carriage := p.relay.nextSeq.get f.cls }) (fun _ => rfl) f.parts _)
  ⟨⟨h.header, h.params, h.data, h.channel, h.windows, h.delivery, h.staging, h.hosts⟩, fun _ g => startDataUp_follows g hf⟩
theorem takeLane_tidy (p : Part) : Tidy p (takeLane p) := by
  unfold takeLane
  refine Tidy.ite (Tidy.refl p) ?_
  split
  · exact Tidy.ite (withRadio_tidy _ _) (Tidy.refl p)
  · exact Tidy.ite ((startDetachReq_tidy p).trans (settle_tidy _)) (Tidy.refl p)
  · unfold trySend
    split
    · rename_i hf
      exact Tidy.ite (startDataUp_tidy hf) (Tidy.refl p)
    · exact Tidy.refl p
theorem noteChanges_tidy (b p : Part) : Tidy p (noteChanges b p) := (raiseIf_tidy _ _ _).trans (raiseIf_tidy _ _ _)
theorem closeEvent_tidy (b p : Part) : Tidy p (closeEvent b p) :=
  ((((returnDrained_tidy p).trans (settle_tidy _)).trans (takeLane_tidy _)).trans (Tidy.ite (Tidy.refl _) (endDetach_tidy _ _))).trans
    (noteChanges_tidy _ _)
theorem event_tidy {f : Part → Part} {p : Part} (h : Tidy p (f p)) : Tidy p (event f p) := h.trans (closeEvent_tidy _ _)
/-! ### Shapes under the events -/

theorem enterReturning_tidy (p : Part) : Tidy p (enterReturning p) :=
  (discardFibre_tidy _ _).after (withPath_tidy _ _)
theorem enterForcedFibre_tidy (p : Part) : Tidy p (enterForcedFibre p) :=
  (discardFibre_tidy _ _).after (withPath_tidy _ _)
theorem takeForce_tidy (f : Force) (p : Part) : Tidy p (takeForce f p) := by
  unfold takeForce
  refine Tidy.ite (Tidy.refl p) ?_
  split
  · exact enterRadioSide_tidy _ p
  · exact enterForcedFibre_tidy p
  · unfold leaveForced
    split
    · exact Tidy.ite (Tidy.ite (enterRadioSide_tidy _ p) (enterStranded_tidy p)) (Tidy.ite (enterReturning_tidy p) (enterFibre_tidy _ p))
    · exact enterFibre_tidy _ p
theorem pathShed_tidy (was : PerClass Bool) (p : Part) : Tidy p (pathShed was p) := by
  unfold pathShed
  dsimp only
  split
  · exact withPath_tidy _ _
  · exact withPath_tidy _ _
  · exact Tidy.ite (withPath_tidy _ _) (Tidy.refl p)
  · exact Tidy.ite (Tidy.refl p) ((returnEnds_tidy _).after ((discardFibre_tidy _ _).after (withPath_tidy _ _)))
  · exact Tidy.ite (Tidy.refl p) ((discardFibre_tidy _ _).after (withPath_tidy _ _))
  · exact Tidy.refl p
theorem pathAttached_tidy (p : Part) : Tidy p (pathAttached p) := by
  unfold pathAttached
  split
  · exact Tidy.ite (enterRadioSide_tidy _ p) (Tidy.refl p)
  · exact enterRadioSide_tidy _ p
  · exact Tidy.refl p
theorem applyShedding_tidy (p : Part) : Tidy p (applyShedding p) :=
  (pathShed_tidy _ _).after ((discardQueues_tidy _ _ _).after (withRelay_tidy _ _))

theorem beginWindow_tidy (p : Part) : Tidy p (beginWindow p) := ⟨⟨rfl, rfl, .inl rfl, rfl, rfl, rfl, rfl, rfl⟩, fun _ => id⟩
theorem runExpires_tidy (p : Part) : Tidy p (runExpires p) := Tidy.ite (beginWindow_tidy p) (withOptical_tidy _ _)
theorem endWindow_tidy (p : Part) : Tidy p (endWindow p) := (evaluate_tidy _).after ⟨⟨rfl, rfl, .inl rfl, rfl, rfl, rfl, rfl, rfl⟩, fun _ => id⟩
theorem endTxOff_tidy (n : Nat) (p : Part) : Tidy p (endTxOff n p) := by
  unfold endTxOff
  dsimp only
  obtain ⟨q, hq⟩ : ∃ q, q = p.withOptical { p.optical with txDisable := false, window := .settling (p.clock.now + n) } := ⟨_, rfl⟩
  rw [← hq]
  have h1 : Tidy p q := by rw [hq]; exact withOptical_tidy _ _
  have h2 : Tidy p (if n = 0 then endWindow q else q) := h1.trans (Tidy.ite (endWindow_tidy q) (Tidy.refl q))
  generalize (if n = 0 then endWindow q else q) = r at *
  exact h2.trans (Tidy.ite (finish_tidy _ _ _) (Tidy.refl _))
theorem takeOptics_tidy (st : OpticalSettings) (p : Part) : Tidy p (takeOptics st p) := by
  unfold takeOptics
  dsimp only
  obtain ⟨q, hq⟩ : ∃ q, q = p.withOptical { p.optical.abandon p.clock.now with settings := st, seedPending := true } := ⟨_, rfl⟩
  rw [← hq]
  have h1 : Tidy p q := by rw [hq]; exact withOptical_tidy _ _
  generalize (if p.optical.poll = .waiting then [] else q.optical.bus) = before
  have h2 : Tidy p (if q.optical.present = true then startPollAfter before q else q) := h1.trans (Tidy.ite (withOptical_tidy _ _) (Tidy.refl _))
  generalize (if q.optical.present = true then startPollAfter before q else q) = r at *
  exact h2.trans (Tidy.ite (runExpires_tidy _) (Tidy.refl _))
theorem takeTest_tidy (b : Bool) (p : Part) : Tidy p (takeTest b p) := (takeForce_tidy _ _).after (withPath_tidy _ _)
theorem takeRadioPresence_tidy (b : Bool) (p : Part) : Tidy p (takeRadioPresence b p) := (moduleTo_tidy _ _).after (withRadio_tidy _ _)
theorem firstLevels_tidy (pins : Pins) (p : Part) : Tidy p (firstLevels pins p) := by
  have h : Tidy p (firstOptical pins.opres pins.olos (takePins pins p)) := by
    unfold firstOptical
    dsimp only
    refine Tidy.after (conditionsChange_tidy _ _) ?_
    have h0 : Tidy p (takePins pins p) := withClock_tidy _ p
    refine h0.trans ?_
    exact (Tidy.ite (withOptical_tidy _ _) (Tidy.refl _)).after (withOptical_tidy _ _)
  exact (h.trans (takeTest_tidy _ _)).trans (takeRadioPresence_tidy _ _)
theorem discardAged_tidy (c : ServiceClass) (p : Part) : Tidy p (discardAged p c) :=
  ⟨(setQueue_neat _ _ p).trans (discardFrames_neat _ _ _), fun _ h => discardFrames_follows _ _ (setQueue_follows h
    (List.filter_append_perm _ _).symm)⟩
theorem takeRelay_tidy (l a : PerClass Nat) (d : Nat) (p : Part) : Tidy p (takeRelay l a d p) :=
  (((withRelay_tidy _ p).trans (discardAged_tidy _ _)).trans (discardAged_tidy _ _)).trans ((discardAged_tidy _ _).trans (discardAged_tidy _ _))
theorem failAttempt_tidy (w : Failure) (p : Part) : Tidy p (failAttempt w p) :=
  Tidy.ite (withRadio_tidy _ _) (Tidy.ite ((endAttach_tidy _ _ _).after (withRadio_tidy _ _)) (withRadio_tidy _ _))
theorem heard_tidy (p : Part) : Tidy p (heard p) := Tidy.ite (withRadio_tidy _ _) (Tidy.refl p)
theorem linkError_tidy (p : Part) : Tidy p (linkError p) := count_tidy _ _ _
theorem takeReady_tidy (fw : BitVec 32) (mb : Byte) (p : Part) : Tidy p (takeReady fw mb p) := by
  unfold takeReady
  dsimp only
  split
  · exact withRadio_tidy _ _
  · exact withRadio_tidy _ _
  · exact (moduleToIdle_tidy _).after (withRadio_tidy _ _)
  · exact (moduleToIdle_tidy _).after (withRadio_tidy _ _)
  · exact withRadio_tidy _ _
theorem takeAttachOk_shaped {p : Part} (sid : BitVec 32) (g : BitVec 16) (b : Byte) (h : p.Shaped) : (takeAttachOk sid g b p).Shaped := by
  unfold takeAttachOk
  split
  · unfold enterAttached
    dsimp only
    refine Part.Shaped.tidy ?_ ((endAttach_tidy _ _ _).after ((pathAttached_tidy _).after (applyShedding_tidy _)))
    exact ⟨⟨h.header, h.params, h.data, h.banks, h.captures, h.hosts, h.staging, h.slots, h.fill⟩, h.entries.same⟩
  · exact h.tidy (linkError_tidy p)
theorem takeDetached_tidy (c : Byte) (p : Part) : Tidy p (takeDetached c p) := by
  unfold takeDetached
  dsimp only
  split
  · exact Tidy.ite (failAttempt_tidy _ _) (linkError_tidy p)
  · exact (moduleToIdle_tidy _).after (withRadio_tidy _ _)
  · exact (moduleToIdle_tidy _).after (withRadio_tidy _ _)
  · exact linkError_tidy p
theorem takeSignal_tidy (q : Byte) (g : BitVec 16) (b : Byte) (p : Part) : Tidy p (takeSignal q g b p) := by
  unfold takeSignal
  dsimp only
  exact Tidy.ite (linkError_tidy p) (Tidy.ite ((applyShedding_tidy _).after (withRadio_tidy _ _)) (withRadio_tidy _ _))
theorem acceptSent_tidy {e : Sent} (b : Byte) {p : Part} (he : p.sentUnder e.link = some e) : Tidy p (acceptSent e b p) := by
  have h1 : Tidy p (mark e.frame.parts (Entry.move .sent) (dropSent e.link p)) :=
    ⟨⟨rfl, rfl, .inl rfl, rfl, rfl, rfl, rfl, (mark_neat (f := Entry.move .sent) (fun _ => rfl) e.frame.parts p).hosts⟩, fun X h =>
      have h1 := dropSent_follows h he
      ⟨h1.1.marked fun _ => .inr ⟨rfl, rfl⟩, h1.2⟩⟩
  unfold acceptSent
  dsimp only
  generalize mark e.frame.parts (Entry.move .sent) (dropSent e.link p) = q at h1
  exact h1.trans ((raise_tidy _ _).after ((count_tidy _ _ _).after ((count_tidy _ _ _).after (withRadio_tidy _ _))))
/-- The frame sent under a link sequence is discarded, whatever its figures become. -/
theorem discardSent_tidy {e : Sent} {p : Part} (r : Discard) (n : Nat) (he : p.sentUnder e.link = some e) :
    Tidy p (discardParts r e.frame.parts ((dropSent e.link p).withRadio { (dropSent e.link p).radio with timeouts := n })) :=
  ⟨(show Neat p ((dropSent e.link p).withRadio { (dropSent e.link p).radio with timeouts := n }) from ⟨rfl, rfl, .inl rfl, rfl, rfl, rfl, rfl, rfl⟩).trans (discardParts_neat r _ _),
    fun _ h => discardParts_follows r ((dropSent_follows h he).same rfl rfl rfl)⟩
theorem rejectSent_tidy {e : Sent} (b : Byte) {p : Part} (he : p.sentUnder e.link = some e) : Tidy p (rejectSent e b p) := by
  have h2 := discardSent_tidy .moduleReject 0 he
  unfold rejectSent
  dsimp only
  generalize discardParts .moduleReject e.frame.parts ((dropSent e.link p).withRadio { (dropSent e.link p).radio with timeouts := 0 }) = r at h2
  exact h2.trans (Tidy.ite (moduleToIdle_tidy _) (Tidy.refl _))
theorem acceptExpires_tidy {e : Sent} {p : Part} (he : p.sentUnder e.link = some e) : Tidy p (acceptExpires e p) := by
  have h1 : Tidy p (discardParts .linkTimeout e.frame.parts (dropSent e.link p)) := discardSent_tidy .linkTimeout p.radio.timeouts he
  unfold acceptExpires
  dsimp only
  generalize discardParts .linkTimeout e.frame.parts (dropSent e.link p) = q at h1
  have h2 : Tidy p (count .acceptTimeouts 1 (q.withRadio { q.radio with timeouts := min 3 (q.radio.timeouts + 1) })) := h1.trans ((count_tidy _ _ _).after (withRadio_tidy _ _))
  generalize count .acceptTimeouts 1 (q.withRadio { q.radio with timeouts := min 3 (q.radio.timeouts + 1) }) = r at h2
  exact h2.trans (Tidy.ite (moduleTo_tidy _ _) (Tidy.refl _))
theorem sentUnder_link {p : Part} {l : BitVec 16} {e : Sent} (h : p.sentUnder l = some e) : p.sentUnder e.link = some e := by
  have : e.link = l := by simpa using List.find?_some (by exact h : p.radio.outstanding.find? (fun e => e.link = l) = some e)
  rw [this]; exact h
theorem takeUpAccept_tidy (l : BitVec 16) (b : Byte) (p : Part) : Tidy p (takeUpAccept l b p) := by
  unfold takeUpAccept
  split
  · rename_i he; exact acceptSent_tidy _ (sentUnder_link he)
  · exact linkError_tidy p
theorem takeUpReject_tidy (l : BitVec 16) (b : Byte) (p : Part) : Tidy p (takeUpReject l b p) := by
  unfold takeUpReject
  split
  · rename_i he; exact rejectSent_tidy _ (sentUnder_link he)
  · exact linkError_tidy p
theorem endTransfer_tidy (t : Transfer) (p : Part) : Tidy p (endTransfer t p) := by
  unfold endTransfer startOwed
  split
  · exact withRadio_tidy _ _
  · exact (withRadio_tidy _ _).after (withRadio_tidy _ _)
  · refine Tidy.after (withRadio_tidy _ _ ?_) (withRadio_tidy _ p)
    rw [List.map_map]
    exact List.map_congr_left fun e _ => by dsimp only [Function.comp]; split <;> rfl
theorem ageOut_tidy {c : ServiceClass} {f : Frame} {p : Part} (hf : f ∈ p.relay.queues.get c) : Tidy p (ageOut c f p) :=
  ⟨(setQueue_neat _ _ p).trans (discardParts_neat _ _ _), fun X h => by
    refine discardParts_follows .aged ?_
    have := setQueue_follows (fs := [f]) h (List.perm_cons_erase hf)
    rw [List.flatMap_cons, List.flatMap_nil, List.append_nil] at this
    exact this⟩

theorem checkSequence_shaped {p : Part} (c : ServiceClass) (q : BitVec 16) (h : p.Shaped) : (checkSequence c q p).Shaped :=
  ⟨⟨h.header, h.params, h.data, h.banks, h.captures, h.hosts, h.staging, h.slots, h.fill⟩, h.entries.same⟩
theorem takeDown_shaped {p : Part} (c : Carriage) (f : List Byte) (h : p.Shaped) : (takeDown c f p).Shaped := by
  unfold takeDown
  split
  · exact h.tidy (count_tidy _ _ _)
  · have h1 := checkSequence_shaped (classOfByte c.cls) c.sequence h
    generalize checkSequence (classOfByte c.cls) c.sequence p = q at h1
    unfold placeFrame
    dsimp only
    split
    · exact h1.tidy ((raise_tidy _ _).after (count_tidy _ _ _))
    · refine Part.Shaped.tidy ?_ ((raiseIf_tidy _ _ _).after ((raise_tidy _ _).after (count_tidy _ _ _)))
      exact ⟨⟨h1.header, h1.params, h1.data, h1.banks, h1.captures, h1.hosts, h1.staging, (List.length_set ..).trans h1.slots, Nat.mod_lt _ (by decide)⟩, h1.entries.same⟩
theorem takeMessage_shaped {p : Part} (m : Inbound) (h : p.Shaped) : (takeMessage m p).Shaped := by
  cases m
  · exact h.tidy (takeReady_tidy _ _ _)
  · exact takeAttachOk_shaped _ _ _ h
  · refine h.tidy (Tidy.ite (failAttempt_tidy _ _) (linkError_tidy _))
  · exact h.tidy (takeDetached_tidy _ _)
  · exact h.tidy (takeSignal_tidy _ _ _ _)
  · exact h.tidy (takeUpAccept_tidy _ _ _)
  · exact h.tidy (takeUpReject_tidy _ _ _)
  · exact h.tidy (moduleTo_tidy .starting _)
  · exact takeDown_shaped _ _ h
/-! ### Shapes under the writes and the channel -/

theorem mergeLanes_length (old : List Byte) (new : List Lane) : (mergeLanes old new).length = old.length := by
  unfold mergeLanes; simp

theorem mem_modify {es : List Entry} {i : Nat} {f : Entry → Entry} (hf : ∀ e, (f e).host.length = e.host.length)
    (h : ∀ e ∈ es, e.host.length = 16) : ∀ e ∈ es.modify i f, e.host.length = 16 := by
  intro e he
  obtain ⟨n, hn⟩ := List.mem_iff_getElem?.mp he
  rw [List.getElem?_modify] at hn
  cases hg : es[n]? with
  | none => rw [hg] at hn; cases hn
  | some g =>
    rw [hg] at hn
    have hm := h g (List.mem_of_getElem? hg)
    have hn' : (if i = n then f g else g) = e := Option.some.inj hn
    rw [← hn']
    split
    · rw [hf]; exact hm
    · exact hm

theorem onEntry_sized {p : Part} (i : Nat) {f : Entry → Entry} (hf : ∀ e, (f e).host.length = e.host.length) (h : p.Sized) : (onEntry i f p).Sized :=
  ⟨h.header, h.params, h.data, h.banks, h.captures, mem_modify hf h.hosts, h.staging, h.slots, h.fill⟩

theorem take_length (ls : List Lane) (e : Entry) : (Entry.take ls e).host.length = e.host.length := mergeLanes_length _ _

theorem formFrame_neat (i : Nat) (p : Part) : Neat p (formFrame i p) := by
  have hd : ∀ r parts, Neat p (discardFormed r parts p) := fun r parts =>
    (mark_neat (f := fun e => { e with carriage := 0 }) (fun _ => rfl) _ p).trans (discardParts_neat _ _ _)
  unfold formFrame
  dsimp only
  split
  · exact hd _ _
  · split
    · exact hd _ _
    · exact ((setQueue_neat _ _ p).trans (discardFrames_neat _ _ _)).trans (mark_neat (f := fun e => { e.move .queued with carriage := 0 }) (fun _ => rfl) _ _)

theorem takePost_tidy (b : Byte) (p : Part) : Tidy p (takePost b p) := Tidy.ite (withPath_tidy _ _) (Tidy.refl p)

theorem postEntry_sized {p : Part} (i : Nat) (ls : List Lane) (h : p.Sized) : (postEntry i ls p).Sized := by
  unfold postEntry
  dsimp only
  have h1 := h.neat (takePost_tidy ((lane ls 6).getD 0) p).toNeat
  generalize takePost ((lane ls 6).getD 0) p = q at *
  split
  · exact h1.neat (count_tidy _ _ _).toNeat
  · exact h1.neat (count_tidy _ _ _).toNeat
  · exact h1.neat (count_tidy _ _ _).toNeat
  · split
    · exact onEntry_sized i (fun e => take_length ls e) h1
    · exact (onEntry_sized i (take_length ls) h1).neat (formFrame_neat _ _)

theorem withdrawEntry_sized {p : Part} (i : Nat) (ls : List Lane) (h : p.Sized) : (withdrawEntry i ls p).Sized := by
  have h1 := onEntry_sized i (take_length ls) h
  unfold withdrawEntry
  split
  · exact h1.neat (discardParts_neat _ _ _)
  · split
    · exact h1.neat ((setQueue_neat _ _ _).trans (discardParts_neat _ _ _))
    · exact h1.neat (discardParts_neat _ _ _)
  · exact h.neat (count_tidy _ _ _).toNeat
  · exact h

theorem writeDescriptor_sized {p : Part} (i : Nat) (ls : List Lane) (h : p.Sized) : (writeDescriptor i ls p).Sized := by
  unfold writeDescriptor
  split
  · exact onEntry_sized i (take_length ls) h
  · split
    · exact h.neat (count_tidy _ _ _).toNeat
    · split
      · exact postEntry_sized _ _ h
      · split
        · exact withdrawEntry_sized _ _ h
        · exact onEntry_sized i (take_length ls) h

theorem postEntry_table (i : Nat) (ls : List Lane) (p : Part) :
    (postEntry i ls p).uplink.entries.length = p.uplink.entries.length ∧ (postEntry i ls p).windows = p.windows := by
  unfold postEntry
  dsimp only
  have h1 := (takePost_tidy ((lane ls 6).getD 0) p).toNeat
  have e1 := entries_length h1.hosts
  have w1 := h1.windows
  generalize takePost ((lane ls 6).getD 0) p = q at *
  split
  · exact ⟨e1, w1⟩
  · exact ⟨e1, w1⟩
  · exact ⟨e1, w1⟩
  · split
    · exact ⟨(onEntry_length _ _ _).trans e1, w1⟩
    · have h2 := formFrame_neat i (onEntry i (Entry.take ls) q)
      exact ⟨(entries_length h2.hosts).trans ((onEntry_length _ _ _).trans e1), h2.windows.trans w1⟩

theorem withdrawEntry_table (i : Nat) (ls : List Lane) (p : Part) :
    (withdrawEntry i ls p).uplink.entries.length = p.uplink.entries.length ∧ (withdrawEntry i ls p).windows = p.windows := by
  have hd : ∀ {x : Part} r is, x.uplink.entries.length = p.uplink.entries.length → x.windows = p.windows →
      (discardParts r is x).uplink.entries.length = p.uplink.entries.length ∧ (discardParts r is x).windows = p.windows := fun {x} r is e w =>
    ⟨(entries_length (discardParts_neat r is x).hosts).trans e, (discardParts_neat r is x).windows.trans w⟩
  have e1 := onEntry_length i (Entry.take ls) p
  unfold withdrawEntry
  split
  · exact hd _ _ e1 rfl
  · split
    · exact hd _ _ e1 rfl
    · exact hd _ _ e1 rfl
  · exact ⟨rfl, rfl⟩
  · exact ⟨rfl, rfl⟩

theorem writeDescriptor_table (i : Nat) (ls : List Lane) (p : Part) :
    (writeDescriptor i ls p).uplink.entries.length = p.uplink.entries.length ∧ (writeDescriptor i ls p).windows = p.windows := by
  unfold writeDescriptor
  split
  · exact ⟨onEntry_length _ _ _, rfl⟩
  · split
    · exact ⟨rfl, rfl⟩
    · split
      · exact postEntry_table _ _ _
      · split
        · exact withdrawEntry_table _ _ _
        · exact ⟨onEntry_length _ _ _, rfl⟩

theorem writeDescriptor_shaped {p : Part} {i : Nat} (ls : List Lane) (h : p.Shaped) (hi : i < p.uplink.entries.length) : (writeDescriptor i ls p).Shaped := by
  refine ⟨writeDescriptor_sized i ls h.toSized, ?_⟩
  have he := (entriesStand_iff p).mp h.entries
  have ht := writeDescriptor_table i ls p
  rw [entriesStand_iff, ht.1, ht.2]
  exact ⟨writeDescriptor_follows ls he.1 hi, he.2⟩

/-- A line of the uplink table holds two entries (R14, R138). -/
theorem table_line {p : Part} {a m : Nat} (h : p.Shaped) (hc : p.windows.classify a = .uplink m) : 2 * m + 1 < p.uplink.entries.length := by
  have ht := h.entries.table
  have hm : ∃ w, p.windows.uplink = some w ∧ w.covers a = true ∧ m = w.line a := by
    unfold Windows.classify at hc
    split at hc
    · unfold anchorRegion at hc
      repeat' (first | cases hc | split at hc)
    · split at hc
      · rename_i hu
        cases hw : p.windows.uplink with
        | none => rw [hw] at hu; cases hu
        | some w =>
          rw [hw] at hc hu
          exact ⟨w, rfl, by simpa [coveredBy] using hu, by cases hc; rfl⟩
      · split at hc
        · cases hc
        · split at hc
          · cases hc
          · repeat' (first | cases hc | split at hc)
  obtain ⟨w, hw, hcov, rfl⟩ := hm
  rw [hw] at ht
  have h1 : p.uplink.entries.length * 16 = w.size := ht.1
  have h2 := ht.2
  unfold Window.covers at hcov
  simp only [Bool.decide_and, Bool.and_eq_true, decide_eq_true_eq] at hcov
  unfold Window.line
  omega

theorem emptyTraffic_shaped {p : Part} (h : p.Shaped) : (emptyTraffic p).Shaped := by
  refine ⟨⟨h.header, h.params, h.data, h.banks, h.captures, fun e he => ?_, rfl, List.length_replicate, (by decide : (0 : Nat) < 32)⟩, ?_⟩
  · obtain ⟨g, hg, rfl⟩ := List.mem_map.mp he
    exact h.hosts g hg
  · rw [entriesStand_iff]
    refine ⟨idle_follows rfl rfl fun e he => ?_, ?_⟩
    · obtain ⟨g, hg, rfl⟩ := List.mem_map.mp he
      exact ⟨rfl, rfl, rfl⟩
    · have e : (emptyTraffic p).uplink.entries.length = p.uplink.entries.length := List.length_map ..
      rw [e]; exact h.entries.table

theorem wf_iff (w : Windows) (st : List Staged) : Staging.wf w st = true ↔ st.length ≤ Config.stagingLines ∧ (st.map Staged.line).Nodup ∧
    ∀ e ∈ st, e.line % 32 = 0 ∧ w.captured e.line = true ∧ e.lanes.length = 32 ∧ ∃ l ∈ e.lanes, l.isSome = true := by
  unfold Staging.wf
  simp only [Bool.and_eq_true, decide_eq_true_eq, List.all_eq_true, List.any_eq_true, and_assoc]

theorem lane_mem {ls : List Lane} (h : ∃ l ∈ ls, l.isSome = true) (hl : ls.length ≤ 32) (old : List Lane) :
    ∃ l ∈ mergeStaged old ls, l.isSome = true := by
  obtain ⟨l, hm, hs⟩ := h
  obtain ⟨n, hn, he⟩ := List.mem_iff_getElem.mp hm
  refine ⟨(lane ls n).or (lane old n), List.mem_map.mpr ⟨n, List.mem_range.mpr (by omega), rfl⟩, ?_⟩
  have : lane ls n = l := by unfold lane; rw [List.getD_eq_getElem?_getD, List.getElem?_eq_getElem hn, he]; rfl
  rw [this]
  cases l with
  | none => cases hs
  | some b => rfl

/-- A merged write keeps the store's form, when it was written to a line that the store has room for. -/
theorem stageLine_wf {w : Windows} {st st' : List Staged} {a : Nat} {ls : List Lane} (h : Staging.wf w st = true)
    (hsub : st'.Sublist st) (hlen : (st'.filter fun e => e.line ≠ a).length < Config.stagingLines) (ha : a % 32 = 0) (hw : w.captured a = true)
    (hl : ls.length ≤ 32) (hs : ls.all Option.isNone = false) : Staging.wf w (stageLine a ls st') = true := by
  rw [wf_iff] at h ⊢
  have hf : (st'.filter fun e => e.line ≠ a).Sublist st := List.filter_sublist.trans hsub
  unfold stageLine
  refine ⟨?_, ?_, fun e he => ?_⟩
  · exact hlen
  · rw [List.map_cons, List.nodup_cons]
    refine ⟨fun g => ?_, (h.2.1).sublist (hf.map _)⟩
    obtain ⟨e, he, hea⟩ := List.mem_map.mp g
    have := (List.mem_filter.mp he).2
    simp [hea] at this
  · rcases List.mem_cons.mp he with rfl | he
    · refine ⟨ha, hw, ?_, lane_mem ?_ hl _⟩
      · show (mergeStaged _ _).length = 32
        unfold mergeStaged; rw [List.length_map, List.length_range]
      · rw [List.all_eq_false] at hs
        obtain ⟨l, hm, hn⟩ := hs
        exact ⟨l, hm, by cases l <;> simp at hn ⊢⟩
    · exact h.2.2 e (hf.subset he)

theorem staged_absent {st : List Staged} {a : Nat} (h : (stagedAt st a).isNone = false) : (st.filter fun e => e.line ≠ a).length < st.length := by
  have : ∃ e ∈ st, e.line = a := by
    by_contra hn
    push_neg at hn
    have : stagedAt st a = none := List.find?_eq_none.mpr fun e he => by simp [hn e he]
    rw [this] at h; cases h
  obtain ⟨e, he, hea⟩ := this
  rw [List.length_filter_lt_length_iff_exists]
  exact ⟨e, he, by simp [hea]⟩

theorem captureLine_shaped {p : Part} {a : Nat} {ls : List Lane} (h : p.Shaped) (ha : a % 32 = 0) (hl : ls.length ≤ 32) : (captureLine a ls p).Shaped := by
  unfold captureLine
  dsimp only
  split
  · exact h
  · rename_i hc
    simp only [Bool.or_eq_true, Bool.not_eq_true', not_or, Bool.not_eq_true, Bool.not_eq_false] at hc
    have hw := (wf_iff _ _).mp h.staging
    split
    · rename_i hn
      refine Part.Shaped.tidy ?_ (count_tidy _ _ _)
      refine ⟨⟨h.header, h.params, h.data, h.banks, h.captures, h.hosts, ?_, h.slots, h.fill⟩, h.entries.same⟩
      refine stageLine_wf h.staging (List.take_sublist _ _) ?_ ha hc.1 hl hc.2
      refine lt_of_le_of_lt (List.length_filter_le _ _) ?_
      rw [List.length_take]
      have : 0 < Config.stagingLines := by decide
      omega
    · rename_i hn
      refine ⟨⟨h.header, h.params, h.data, h.banks, h.captures, h.hosts, ?_, h.slots, h.fill⟩, h.entries.same⟩
      refine stageLine_wf h.staging (List.Sublist.refl _) ?_ ha hc.1 hl hc.2
      rw [not_and, not_le] at hn
      by_cases hs : (stagedAt p.uplink.staging a).isNone = true
      · exact lt_of_le_of_lt (List.length_filter_le _ _) (hn hs)
      · exact lt_of_lt_of_le (staged_absent (Bool.eq_false_iff.mpr hs)) hw.1

theorem keepCovered_wf {w w' : Windows} {st : List Staged} (h : Staging.wf w st = true) : Staging.wf w' (keepCovered w' st) = true := by
  rw [wf_iff] at h ⊢
  refine ⟨(List.length_filter_le _ _).trans h.1, h.2.1.sublist (List.filter_sublist.map _), fun e he => ?_⟩
  obtain ⟨h1, h2⟩ := List.mem_filter.mp he
  have := h.2.2 e h1
  exact ⟨this.1, h2, this.2.2⟩

/-- With no entry QUEUED or SENDING no frame has a part, and the entries can be set up afresh (R143). -/
theorem doDefineUplink_follows {p q : Part} (n : Nat) (h : p.EntriesStand)
    (hn : ¬(p.uplink.entries.any fun e => e.state = .queued || e.state = .sending) = true) (h1 : q.relay = p.relay := by rfl)
    (h2 : q.radio = p.radio := by rfl) (h3 : q.uplink.entries = List.replicate n Entry.fresh := by rfl) : q.Follows [] := by
  have none : ∀ i s, p.entryState i = some s → s ≠ .queued ∧ s ≠ .sending := by
    intro i s hi
    unfold Part.entryState at hi
    obtain ⟨e, he, rfl⟩ := Option.map_eq_some_iff.mp hi
    have := List.mem_of_getElem? he
    rw [List.any_eq_true] at hn
    have h2 : ¬(decide (e.state = .queued) || decide (e.state = .sending)) = true := fun k => hn ⟨e, this, k⟩
    simpa using h2
  have hq : q.queuedParts = [] := by
    have e : q.queuedParts = p.queuedParts := by unfold Part.queuedParts; rw [h1]
    rw [e]
    exact List.eq_nil_iff_forall_not_mem.mpr fun i hi => (none i _ ((h.queued i).mpr hi)).1 rfl
  have hs : q.sentParts = [] := by
    have e : q.sentParts = p.sentParts := by unfold Part.sentParts; rw [h2]
    rw [e]
    exact List.eq_nil_iff_forall_not_mem.mpr fun i hi => (none i _ ((h.sending i).mpr hi)).2 rfl
  have hall : ∀ i, entryAt q.uplink.entries i = Entry.fresh := by
    intro i
    rw [h3]
    by_cases hl : i < (List.replicate n Entry.fresh).length
    · rw [entryAt_in hl]; exact List.getElem_replicate ..
    · exact entryAt_past (Nat.le_of_not_lt hl)
  refine ⟨?_, fun c f hf => h.byClass c f (by rw [← h1]; exact hf)⟩
  rw [hq, hs]
  refine ⟨List.nodup_nil, fun i hi => (by cases hi), fun i hi => (by cases hi), fun i hi => ?_, fun i hi => ?_, fun i _ => ?_, fun i _ => ?_⟩
  · rw [hall] at hi; cases hi
  · rw [hall] at hi; cases hi
  · rw [hall]; rfl
  · rw [hall]; rfl

theorem doDefineUplink_shaped {p : Part} (ps : List Byte) (h : p.Shaped) : (doDefineUplink ps p).Shaped := by
  have hf : ∀ r d m, (finish r d (postClamp m p)).Shaped := fun r d m => (h.tidy (postClamp_tidy _ _)).tidy (finish_tidy _ _ _)
  unfold doDefineUplink
  dsimp only
  split
  · exact hf _ _ _
  · split
    · exact hf _ _ _
    · refine Part.Shaped.tidy (Part.Shaped.tidy ?_ (postClamp_tidy _ _)) (finish_tidy _ _ _)
      refine ⟨⟨h.header, h.params, h.data, h.banks, h.captures, fun e he => ?_, h.staging, h.slots, h.fill⟩, ?_⟩
      · rw [List.eq_of_mem_replicate he]; rfl
      · rename_i hn
        refine (entriesStand_iff _).mpr ⟨doDefineUplink_follows _ h.entries hn, ?_⟩
        show (List.replicate _ Entry.fresh).length * 16 = 16 * _ ∧ _
        rw [List.length_replicate]
        refine ⟨Nat.mul_comm _ _, ?_⟩
        unfold takenEntries
        dsimp only
        omega

theorem doDefineCapture_shaped {p : Part} (ps : List Byte) (h : p.Shaped) : (doDefineCapture ps p).Shaped := by
  unfold doDefineCapture
  dsimp only
  generalize (if takenSize (param32 ps 8) = 0 then none else some _ : Option Window) = w
  split
  · exact (h.tidy (postClamp_tidy _ _)).tidy (finish_tidy _ _ _)
  · refine Part.Shaped.tidy (Part.Shaped.tidy ?_ (postClamp_tidy _ _)) (finish_tidy _ _ _)
    exact ⟨⟨h.header, h.params, h.data, h.banks, (List.length_set ..).trans h.captures, h.hosts, keepCovered_wf h.staging, h.slots, h.fill⟩, h.entries.same⟩

theorem redefineDelivery_shaped {p : Part} (d : Option DeliveryDef) (h : p.Shaped) : (redefineDelivery d p).Shaped := by
  refine Part.Shaped.tidy ?_ ((finish_tidy _ _ _).after ((raiseIf_tidy _ _ _).after (count_tidy _ _ _)))
  exact ⟨⟨h.header, h.params, h.data, h.banks, h.captures, h.hosts, h.staging, List.length_replicate, (by decide : (0 : Nat) < 32)⟩, h.entries.same⟩

theorem doDefineDelivery_shaped {p : Part} (ps : List Byte) (h : p.Shaped) : (doDefineDelivery ps p).Shaped := by
  unfold doDefineDelivery
  dsimp only
  split
  · split
    · exact redefineDelivery_shaped _ h
    · exact h.tidy (finish_tidy _ _ _)
  · exact redefineDelivery_shaped _ h
  · exact h.tidy (finish_tidy _ _ _)

theorem finish_event_tidy {p : Part} {f : Part → Part} (r : Byte) (d : List Byte) (h : Tidy p (f p)) : Tidy p (finish r d (event f p)) :=
  (event_tidy h).trans (finish_tidy _ _ _)

theorem withSame_tidy {p q : Part} (h1 : q.command = p.command) (h2 : q.channel = p.channel) (h3 : q.windows = p.windows) (h4 : q.delivery = p.delivery)
    (h5 : q.uplink = p.uplink) (h6 : q.relay = p.relay := by rfl) (h7 : q.radio = p.radio := by rfl) : Tidy p q := ⟨⟨by rw [h1], by rw [h1], .inl (by rw [h1]), h2, h3, h4, by rw [h5], by rw [h5]⟩, fun _ g => g.same (by rw [h6]) (by rw [h7]) (by rw [h5])⟩

theorem doRadioDetach_tidy (p : Part) : Tidy p (doRadioDetach p) := by
  unfold doRadioDetach
  refine Tidy.ite (finish_tidy _ _ p) (Tidy.ite (event_tidy ?_) ?_)
  · exact (startTimed_tidy _ p).trans (withRadio_tidy _ _)
  · exact finish_event_tidy _ _ (withRadio_tidy _ _)

theorem doRadioAttach_tidy (p : Part) : Tidy p (doRadioAttach p) := by
  unfold doRadioAttach
  split
  · exact finish_tidy _ _ p
  · exact finish_event_tidy _ _ (withRadio_tidy _ _)
  · exact event_tidy ((startTimed_tidy _ p).trans (withRadio_tidy _ _))

theorem doForce_tidy (ps : List Byte) (p : Part) : Tidy p (doForce ps p) := by
  unfold doForce
  split
  · exact finish_tidy _ _ p
  · exact finish_event_tidy _ _ ((takeForce_tidy _ _).after (withPath_tidy _ _))

theorem clampedThen {p q : Part} (m : BitVec 32) (h : Tidy (postClamp m p) q) : Tidy p q := (postClamp_tidy m p).trans h

theorem lingerStarts_tidy (p : Part) : Tidy p (lingerStarts p) := Tidy.ite (withRadio_tidy _ p) (Tidy.refl p)

theorem restartCloses_tidy (b p : Part) : Tidy p (noteChanges b (lingerStarts (returnDrained p))) :=
  ((returnDrained_tidy p).trans (lingerStarts_tidy _)).trans (noteChanges_tidy _ _)

theorem runCommand_shaped {p : Part} (c : CommandName) (ps : List Byte) (h : p.Shaped) : (runCommand c ps p).Shaped := by
  cases c
  · exact h.tidy (finish_tidy _ _ _)
  · exact ((emptyTraffic_shaped h).tidy (restartCloses_tidy p _)).tidy (finish_tidy _ _ _)
  · exact h.tidy ((finish_tidy _ _ _).after (withSame_tidy rfl rfl rfl rfl rfl))
  · exact h.tidy ((finish_tidy _ _ _).after (withSame_tidy rfl rfl rfl rfl rfl))
  · exact doDefineUplink_shaped ps h
  · exact doDefineCapture_shaped ps h
  · exact doDefineDelivery_shaped ps h
  · exact h.tidy (clampedThen _ (finish_event_tidy _ _ (takeOptics_tidy _ _)))
  · exact h.tidy (Tidy.ite (finish_tidy _ _ p) (event_tidy ((beginWindow_tidy _).after (startTimed_tidy _ _))))
  · unfold runCommand doSetThresholds doSetThresholdsBy
    dsimp only
    split
    · exact h.tidy (clampedThen _ (finish_event_tidy _ _ ((conditionsTo_tidy _ _).after (withHealth_tidy _ _))))
    · exact h.tidy (clampedThen _ (finish_tidy _ _ _))
  · exact h.tidy ((finish_tidy _ _ _).after ((raiseIf_tidy _ _ _).after (withHealth_tidy _ _)))
  · exact h.tidy ((finish_tidy _ _ _).after ((postClamp_tidy _ _).after (withPath_tidy _ _)))
  · exact h.tidy (doForce_tidy ps p)
  · unfold runCommand doSetRadio
    dsimp only
    split
    · exact h.tidy (clampedThen _ (finish_tidy _ _ _))
    · exact h.tidy (clampedThen _ (finish_event_tidy _ _ (withRadio_tidy _ _)))
  · exact h.tidy (doRadioAttach_tidy p)
  · exact h.tidy (doRadioDetach_tidy p)
  · unfold runCommand doSetRelay
    dsimp only
    split
    · exact h.tidy (clampedThen _ (finish_tidy _ _ _))
    · split
      · exact h.tidy (clampedThen _ (finish_tidy _ _ _))
      · exact h.tidy (clampedThen _ (finish_event_tidy _ _ (takeRelay_tidy _ _ _ _)))

theorem judgeReset_tidy (p : Part) : Tidy p (judgeReset p) := conditionsTo_tidy _ p

theorem runCut_shaped {p : Part} (c : CommandName) (ps : List Byte) (h : p.Shaped) : (runCut c ps p).Shaped := by
  unfold runCut
  split
  · unfold cutSetThresholds doSetThresholdsBy
    dsimp only
    split
    · exact h.tidy (clampedThen _ ((finish_tidy _ _ _).after ((judgeReset_tidy _).after ((setLive_tidy _ _).after (withHealth_tidy _ _)))))
    · exact h.tidy (clampedThen _ (finish_tidy _ _ _))
  · exact runCommand_shaped _ ps h

theorem writeHeaderBy_shaped {run : CommandName → List Byte → Part → Part} (hr : ∀ c ps {q : Part}, q.Shaped → (run c ps q).Shaped)
    {p : Part} (ls : List Lane) (h : p.Shaped) : (writeHeaderBy run ls p).Shaped := by
  unfold writeHeaderBy
  dsimp only
  have h1 : Part.Shaped { p with command := { p.command with header := mergeLanes p.command.header ls } } :=
    ⟨⟨(mergeLanes_length _ _).trans h.header, h.params, h.data, h.banks, h.captures, h.hosts, h.staging, h.slots, h.fill⟩, h.entries.same⟩
  generalize { p with command := { p.command with header := mergeLanes p.command.header ls } } = q at h1
  split
  · unfold commandArrivesBy
    split
    · refine Part.Shaped.tidy ?_ (count_tidy _ _ _)
      exact ⟨⟨h1.header, h1.params, h1.data, h1.banks, h1.captures, h1.hosts, h1.staging, h1.slots, h1.fill⟩, h1.entries.same⟩
    · rename_i c _ _
      have h2 : (takeResult c.1 c.2 q).Shaped :=
        ⟨⟨h1.header, h1.params, List.length_replicate, h1.banks, h1.captures, h1.hosts, h1.staging, h1.slots, h1.fill⟩, h1.entries.same⟩
      split
      · exact h2.tidy (finish_tidy _ _ _)
      · exact hr _ _ h2
  · exact h1

theorem writeHeader_shaped {p : Part} (ls : List Lane) (h : p.Shaped) : (writeHeader ls p).Shaped :=
  writeHeaderBy_shaped (fun c ps _ => runCommand_shaped c ps) ls h

theorem writeReport_tidy (ls : List Lane) (p : Part) : Tidy p (writeReport ls p) := by
  have hr : ∀ b n, Tidy p (event (takeReport b n) p) := fun b n => event_tidy ((conditionsTo_tidy _ _).after (withHealth_tidy _ _))
  exact Tidy.ite (Tidy.refl p) (Tidy.ite (hr _ _) (Tidy.ite (hr _ _) (Tidy.refl p)))

theorem cutReport_tidy (ls : List Lane) (p : Part) : Tidy p (cutReport ls p) := by
  have hr : ∀ b n, Tidy p (judgeReset (reported b n p)) := fun b n =>
    (judgeReset_tidy _).after ((setLive_tidy _ _).after (withHealth_tidy _ _))
  exact Tidy.ite (Tidy.refl p) (Tidy.ite (hr _ _) (Tidy.ite (hr _ _) (Tidy.refl p)))

theorem releaseSlot_length (n : Nat) (b : Lane) (d : Delivery) : (releaseSlot n b d).slots.length = d.slots.length ∧ (releaseSlot n b d).fill = d.fill := by
  unfold releaseSlot
  split
  · exact ⟨List.length_set .., rfl⟩
  · exact ⟨rfl, rfl⟩

theorem handWrite_shaped {p : Part} {a : Nat} {ls : List Lane} (r : Region) (h : p.Shaped) (ha : a % 32 = 0) (hl : ls.length ≤ 32)
    (hr : p.windows.classify a = r) : (handWrite r a ls p).Shaped := by
  cases r
  · exact h
  · exact writeHeader_shaped ls h
  · exact ⟨⟨h.header, (mergeLanes_length _ _).trans h.params, h.data, h.banks, h.captures, h.hosts, h.staging, h.slots, h.fill⟩, h.entries.same⟩
  · exact h.tidy (withSame_tidy rfl rfl rfl rfl rfl)
  · exact h.tidy (writeReport_tidy ls p)
  · rename_i m
    have hm := table_line h hr
    refine Part.Shaped.tidy (writeDescriptor_shaped _ (writeDescriptor_shaped _ h (by omega)) ?_) (closeEvent_tidy _ _)
    rw [(writeDescriptor_table _ _ _).1]; exact hm
  · exact captureLine_shaped h ha hl
  · have h1 := fun n b d => releaseSlot_length n b d
    exact ⟨⟨h.header, h.params, h.data, h.banks, h.captures, h.hosts, h.staging, ((h1 _ _ _).1.trans (h1 _ _ _).1).trans h.slots,
      lt_of_eq_of_lt ((h1 _ _ _).2.trans (h1 _ _ _).2) h.fill⟩, h.entries.same⟩
  · exact h
  · exact h

theorem handCut_shaped {p : Part} {a : Nat} {ls : List Lane} (r : Region) (h : p.Shaped) (ha : a % 32 = 0) (hl : ls.length ≤ 32)
    (hr : p.windows.classify a = r) : (handCut r a ls p).Shaped := by
  unfold handCut
  split
  · exact writeHeaderBy_shaped (fun c ps _ => runCut_shaped c ps) ls h
  · exact h.tidy (cutReport_tidy ls p)
  · exact handWrite_shaped _ h ha hl hr

theorem lineAddress_aligned (row : BitVec 15) (b : Burst) : lineAddress row b % 32 = 0 := by
  unfold lineAddress; omega

theorem withChannel_shaped {p : Part} {c : Channel} (h : p.Shaped) (hc : c.banks.length = 8) : (p.withChannel c).Shaped :=
  ⟨⟨h.header, h.params, h.data, hc, h.captures, h.hosts, h.staging, h.slots, h.fill⟩, h.entries.same⟩

theorem access_shaped {p : Part} (b : Burst) (line : Nat → Bool → Nat → Part → Part) (h : p.Shaped)
    (hl : ∀ a c s, a % 32 = 0 → (line a c s p).Shaped) : (access b line p).Shaped := by
  unfold access
  split
  · exact h.tidy (count_tidy _ _ _)
  · dsimp only
    have h1 := fun row => hl (lineAddress row b) (p.channel.chopped b) (startPosition b) (lineAddress_aligned row b)
    split
    · exact withChannel_shaped (h1 _) ((List.length_set ..).trans (h1 _).banks)
    · exact h1 _

theorem carried_length (c : Bool) (s n : Nat) (ls : List Lane) : (carried c s n ls).length = 32 := by
  unfold carried; rw [List.length_map, List.length_range]

theorem setMode_shaped {p : Part} (r : BitVec 2) (v : BitVec 15) (h : p.Shaped) : (setMode r v p).Shaped := by
  have hi : ∀ {q : Part}, q.Shaped → (invalidMode q).Shaped := fun {q} h => by
    have h1 := withChannel_shaped h (c := { q.channel with known0 := false, known1 := false, known2 := false }) h.banks
    exact h1.tidy (count_tidy _ _ _)
  unfold setMode
  have h1 := h.tidy (count_tidy .channelProtocol (if p.channel.anyOpen then 1 else 0) p)
  generalize count .channelProtocol (if p.channel.anyOpen then 1 else 0) p = q at h1
  unfold readMode
  dsimp only
  split
  · split
    · exact withChannel_shaped h1 h1.banks
    · exact hi h1
  · split
    · exact withChannel_shaped h1 h1.banks
    · exact hi h1
  · exact withChannel_shaped h1 h1.banks
  · exact withChannel_shaped h1 h1.banks

theorem sleep_shaped {p : Part} (st : ChannelState) (h : p.Shaped) : (sleep st p).Shaped :=
  withChannel_shaped (h.tidy (withHealth_tidy _ _)) h.banks

theorem allClosed_length : allClosed.length = 8 := by unfold allClosed; rw [List.length_replicate]

theorem closeCounted_shaped {p : Part} (h : p.Shaped) : (closeCounted p).Shaped :=
  (withChannel_shaped h (c := { p.channel with banks := allClosed }) allClosed_length).tidy (count_tidy _ _ _)

theorem openBank_shaped {p : Part} (b : BitVec 3) (r : BitVec 15) (h : p.Shaped) : (openBank b r p).Shaped := by
  have h1 : (setBank b (some r) p).Shaped := withChannel_shaped h ((List.length_set ..).trans h.banks)
  exact h1.tidy (count_tidy _ _ _)

theorem substitute_shaped {p : Part} (l : Option (List Byte)) (c : Bool) (s : Nat) (h : p.Shaped) : (substitute l c s p).Shaped := by
  unfold substitute
  split
  · exact h
  · split
    · exact withChannel_shaped h h.banks
    · exact h.tidy (count_tidy _ _ _)

theorem writeAccessBy_shaped {hand : Region → Nat → List Lane → Part → Part} {p : Part} {a : Nat} {ls : List Lane} (h : p.Shaped)
    (hh : ∀ r, p.windows.classify a = r → (hand r a ls p).Shaped) : (writeAccessBy hand a ls p).Shaped := by
  unfold writeAccessBy
  dsimp only
  split
  · exact h
  · split
    · exact hh _ rfl
    · exact h.tidy (count_tidy _ _ _)

theorem writeAccess_shaped {p : Part} {a : Nat} {ls : List Lane} (h : p.Shaped) (ha : a % 32 = 0) (hl : ls.length = 32) : (writeAccess a ls p).Shaped :=
  writeAccessBy_shaped h fun _ hr => handWrite_shaped _ h ha (by rw [hl]) hr

theorem activeCommand_shaped {p : Part} (op : ChannelOp) (h : p.Shaped) : (activeCommand op p).Shaped := by
  unfold activeCommand
  split
  · exact openBank_shaped _ _ h
  · exact withChannel_shaped h ((List.length_set ..).trans h.banks)
  · exact withChannel_shaped h allClosed_length
  · exact closeCounted_shaped h
  · exact setMode_shaped _ _ h
  · exact sleep_shaped _ h
  · exact sleep_shaped _ (closeCounted_shaped h)
  · exact h.tidy (count_tidy _ _ _)
  · unfold activeRead
    exact access_shaped _ _ h fun _ _ _ _ => substitute_shaped _ _ _ h
  · unfold activeWrite
    exact access_shaped _ _ h fun _ _ _ ha => writeAccess_shaped h ha (carried_length _ _ _ _)
  all_goals exact h

theorem forward_shaped {p : Part} (op : ChannelOp) (h : p.Shaped) : (forward op p).Shaped := by
  unfold forward
  split
  · exact withChannel_shaped h h.banks
  · exact withChannel_shaped h h.banks

theorem sleepingCommand_shaped {p : Part} (op : ChannelOp) (h : p.Shaped) : (sleepingCommand op p).Shaped := by
  unfold sleepingCommand
  split
  · have h1 : (p.withStale (p.health.stale.resume p.clock.now)).Shaped := h.tidy (withHealth_tidy _ _)
    exact withChannel_shaped h1 h.banks
  · exact h
  · exact h
  · exact h.tidy (count_tidy _ _ _)

theorem channelCommand_shaped {p : Part} (op : ChannelOp) (h : p.Shaped) : (channelCommand op p).Shaped := by
  have h1 := forward_shaped op h
  unfold channelCommand
  dsimp only
  split
  · exact activeCommand_shaped _ h1
  · exact sleepingCommand_shaped _ h1
  · exact sleepingCommand_shaped _ h1
  · exact h1

theorem pinsCommand_shaped {p : Part} (c : ChannelPins) (h : p.Shaped) : (pinsCommand c p).Shaped :=
  have h1 := channelCommand_shaped (sortCommand c) h
  withChannel_shaped h1 h1.banks

theorem channelReset_shaped {q : Part} (hc : q.Shaped) : (channelReset q).Shaped := by
  obtain ⟨x, hx, he⟩ : ∃ x : Part, (x.Shaped) ∧ channelReset q = conditionsChange (clearReports x.health.live) (x.withStale .disarmed) :=
    by
      refine ⟨_, ?_, rfl⟩
      exact ⟨⟨List.length_replicate, List.length_replicate, hc.data, allClosed_length, hc.captures, hc.hosts, rfl, hc.slots, hc.fill⟩, hc.entries.same⟩
  rw [he]
  have h2 : (x.withStale .disarmed).Shaped := hx.tidy (withHealth_tidy _ _)
  exact h2.tidy (conditionsChange_tidy _ _)

theorem postAtEnd_tidy (c : Option CommandName) (p : Part) : Tidy p (postAtEnd c p) := by
  rcases postAtEnd_eq c p with h | ⟨d, h⟩ <;> rw [h]
  · exact Tidy.refl p
  · exact ⟨⟨rfl, rfl, .inr (padTo_length d), rfl, rfl, rfl, rfl, rfl⟩, fun _ => id⟩

theorem assertReset_shaped {p : Part} (cut : CutAccess) (h : p.Shaped) : (assertReset cut p).Shaped := by
  have hc : (cutAccess cut p).Shaped := by
    unfold cutAccess
    split
    · have h1 : ∀ op, (forward op p).Shaped := fun op => forward_shaped op h
      unfold cutWrite
      exact access_shaped _ _ (h1 _) fun _ _ _ ha =>
        writeAccessBy_shaped (h1 _) fun _ hr => handCut_shaped _ (h1 _) ha (carried_length _ _ _ _).le hr
    · have h1 : ∀ op, (channelCommand op p).Shaped := fun op => channelCommand_shaped op h
      exact withChannel_shaped (h1 _) (h1 _).banks
    · exact h
  unfold assertReset
  split
  · exact h
  · exact (channelReset_shaped hc).tidy ((postAtEnd_tidy _ _).after (closeEvent_tidy _ _))

/-! ### Shapes under every step -/

theorem eventIf_tidy {c : Prop} [Decidable c] {f : Part → Part} {p : Part} (hf : Tidy p (f p)) : Tidy p (if c then event f p else p) :=
  Tidy.ite (event_tidy hf) (Tidy.refl p)

theorem received_shaped {f : Part → Part} {p : Part} (h : p.Shaped) (hf : ∀ q : Part, q.Shaped → (f q).Shaped) : (received f p).Shaped := by
  unfold received
  split
  · exact (hf _ (h.tidy (heard_tidy p))).tidy (closeEvent_tidy _ _)
  · exact h

theorem releaseReset_shaped {p : Part} (h : p.Shaped) : (releaseReset p).Shaped := by
  unfold releaseReset
  split
  · exact withChannel_shaped h h.banks
  · exact h

/-! ### Changes are reported -/

/-- What changed from `p` to `q` has its flag (R81, R106). -/
def Told (p q : Part) : Prop :=
  (pathMoved p.path q.path = true → q.flag .pathChanged = true) ∧ (q.radio.state ≠ p.radio.state → q.flag .radioChanged = true)

theorem raiseIf_flag {b : Bool} {f g : Flag} {p : Part} (h : p.flag g = true ∨ b = true ∧ g = f) : (raiseIf b f p).flag g = true := by
  unfold raiseIf
  rcases h with h | ⟨rfl, rfl⟩
  · split
    · exact (raise_flag_iff _ _ _).mpr (.inl h)
    · exact h
  · rw [if_pos rfl]
    exact (raise_flag_iff _ _ _).mpr (.inr rfl)

theorem told_note (b z : Part) : Told b (noteChanges b z) := by
  have hc := noteChanges_calm b z
  unfold Told
  rw [hc.path, hc.radio]
  refine ⟨fun h => ?_, fun h => ?_⟩
  · exact raiseIf_flag (.inl (raiseIf_flag (.inr ⟨h, rfl⟩)))
  · exact raiseIf_flag (.inr ⟨by simpa using Ne.symm h, rfl⟩)

theorem told_close (b p : Part) : Told b (closeEvent b p) := told_note b _

theorem told_event (f : Part → Part) (p : Part) : Told p (event f p) := told_close _ _

theorem pathMoved_self {a b : Path} (h1 : b.service = a.service) (h2 : b.classes = a.classes) : pathMoved a b = false := by
  unfold pathMoved; rw [h1, h2]; simp

theorem Told.same {p q : Part} (h1 : q.path.service = p.path.service) (h2 : q.path.classes = p.path.classes) (h3 : q.radio.state = p.radio.state) : Told p q :=
  ⟨fun h => by rw [pathMoved_self h1 h2] at h; (cases h), fun h => absurd h3 h⟩

theorem Quiet.told {p q : Part} (h : Quiet p q) : Told p q := Told.same (by rw [h.calm.path]) (by rw [h.calm.path]) (by rw [h.calm.radio])

theorem Told.refl (p : Part) : Told p p := Told.same rfl rfl rfl

theorem Told.pre {p q r : Part} (h : Quiet p q) (k : Told q r) : Told p r := by
  unfold Told at *
  rw [h.calm.path, h.calm.radio] at k; exact k

theorem Told.post {p q r : Part} (k : Told p q) (h1 : r.path = q.path) (h2 : r.radio = q.radio) (h3 : ∀ f, q.flag f = true → r.flag f = true) : Told p r := by
  unfold Told at *
  rw [h1, h2]
  exact ⟨fun h => h3 _ (k.1 h), fun h => h3 _ (k.2 h)⟩

theorem Told.finish {p q : Part} (k : Told p q) (r : Byte) (d : List Byte) : Told p (finish r d q) :=
  k.post rfl rfl fun f h => (raise_flag_iff _ _ _).mpr (.inl h)

theorem Told.ite {c : Prop} [Decidable c] {p q r : Part} (h : Told p q) (k : Told p r) : Told p (if c then q else r) := by
  split <;> assumption

theorem doFibreRestart_told (p : Part) : Told p (doFibreRestart p) := Told.ite ((Told.refl p).finish _ _) (told_event _ _)

theorem clamped_told {p q : Part} {m : BitVec 32} (k : Told (postClamp m p) q) : Told p q := Told.pre (postClamp_quiet m p) k

theorem runCommand_told (c : CommandName) (ps : List Byte) (p : Part) : Told p (runCommand c ps p) := by
  have hf : ∀ r d m, Told p (finish r d (postClamp m p)) := fun r d m => (postClamp_quiet m p).told.finish _ _
  cases c
  · exact (Told.refl p).finish _ _
  · exact (told_note p _).finish _ _
  · exact Told.same rfl rfl rfl
  · exact Told.same rfl rfl rfl
  · unfold runCommand doDefineUplink
    dsimp only
    split
    · exact hf _ _ _
    · split
      · exact hf _ _ _
      · exact Told.same rfl rfl rfl
  · unfold runCommand doDefineCapture
    dsimp only
    generalize (if takenSize (param32 ps 8) = 0 then none else some _ : Option Window) = w
    split
    · exact hf _ _ _
    · exact Told.same rfl rfl rfl
  · have hr : ∀ d, Told p (redefineDelivery d p) := fun d => by
      have hq : Quiet p (redefineDelivery d p) :=
        (finish_quiet _ _ _).after ((raiseIf_quiet _ _ _).after ((count_quiet _ _ _).after (Quiet.of rfl rfl rfl rfl rfl rfl)))
      exact hq.told
    unfold runCommand doDefineDelivery
    dsimp only
    split
    · split
      · exact hr _
      · exact (Told.refl p).finish _ _
    · exact hr _
    · exact (Told.refl p).finish _ _
  · exact clamped_told ((told_event _ _).finish _ _)
  · exact Told.ite ((Told.refl p).finish _ _) (told_event _ _)
  · unfold runCommand doSetThresholds doSetThresholdsBy
    dsimp only
    split
    · exact clamped_told ((told_event _ _).finish _ _)
    · exact hf _ _ _
  · have hq : Quiet p (doClearLatches p) := (finish_quiet _ _ _).after ((raiseIf_quiet _ _ _).after (Quiet.of rfl rfl rfl rfl rfl rfl))
    exact hq.told
  · exact Told.same rfl rfl rfl
  · show Told p (doForce ps p)
    unfold doForce
    split
    · exact (Told.refl p).finish _ _
    · exact (told_event _ _).finish _ _
  · unfold runCommand doSetRadio
    dsimp only
    split
    · exact hf _ _ _
    · exact clamped_told ((told_event _ _).finish _ _)
  · show Told p (doRadioAttach p)
    unfold doRadioAttach
    split
    · exact (Told.refl p).finish _ _
    · exact (told_event _ _).finish _ _
    · exact told_event _ _
  · show Told p (doRadioDetach p)
    unfold doRadioDetach
    split
    · exact (Told.refl p).finish _ _
    · split
      · exact told_event _ _
      · exact (told_event _ _).finish _ _
  · unfold runCommand doSetRelay
    dsimp only
    split
    · exact hf _ _ _
    · split
      · exact hf _ _ _
      · exact clamped_told ((told_event _ _).finish _ _)

theorem handWrite_told (r : Region) (a : Nat) (ls : List Lane) (p : Part) : Told p (handWrite r a ls p) := by
  cases r
  · exact Told.refl p
  · unfold handWrite writeHeader writeHeaderBy
    dsimp only
    obtain ⟨q, hq⟩ : ∃ q : Part, q = { p with command := { p.command with header := mergeLanes p.command.header ls } } := ⟨_, rfl⟩
    rw [← hq]
    have h0 : Quiet p q := by rw [hq]; exact Quiet.of rfl rfl rfl rfl rfl rfl
    split
    · refine Told.pre h0 ?_
      unfold commandArrivesBy
      split
      · exact Told.same rfl rfl rfl
      · split
        · exact Told.same rfl rfl rfl
        · exact Told.pre (q := takeResult _ _ q) (Quiet.of rfl rfl rfl rfl rfl rfl) (runCommand_told _ _ _)
    · exact h0.told
  · exact Told.same rfl rfl rfl
  · exact Told.same rfl rfl rfl
  · exact Told.ite (Told.refl p) (Told.ite (told_event _ _) (Told.ite (told_event _ _) (Told.refl p)))
  · exact told_event _ _
  · exact (captureLine_quiet _ _ _).told
  · exact Told.same rfl rfl rfl
  · exact Told.refl p
  · exact Told.refl p

theorem access_told {p : Part} (b : Burst) (line : Nat → Bool → Nat → Part → Part) (hl : ∀ a c s, Told p (line a c s p)) : Told p (access b line p) := by
  unfold access
  split
  · exact Told.same rfl rfl rfl
  · dsimp only
    split
    · exact (hl _ _ _).post rfl rfl fun _ => id
    · exact hl _ _ _

theorem activeCommand_told (op : ChannelOp) (p : Part) : Told p (activeCommand op p) := by
  unfold activeCommand
  split
  · exact Told.same rfl rfl rfl
  · exact Told.same rfl rfl rfl
  · exact Told.same rfl rfl rfl
  · exact Told.same rfl rfl rfl
  · exact (setMode_quiet _ _ _).told
  · exact Told.same rfl rfl rfl
  · exact Told.same rfl rfl rfl
  · exact Told.same rfl rfl rfl
  · unfold activeRead
    exact access_told _ _ fun _ _ _ => (substitute_quiet _ _ _ _).told
  · unfold activeWrite
    refine access_told _ _ fun _ _ _ => ?_
    exact Told.ite (Told.refl p) (Told.ite (handWrite_told _ _ _ _) (count_quiet _ _ _).told)
  all_goals exact Told.refl p

theorem channelCommand_told (op : ChannelOp) (p : Part) : Told p (channelCommand op p) := by
  refine Told.pre (forward_quiet op p) ?_
  unfold channelCommand
  dsimp only
  split
  · exact activeCommand_told _ _
  · exact (sleepingCommand_quiet _ _).told
  · exact (sleepingCommand_quiet _ _).told
  · exact Told.refl _

theorem pinsCommand_told (c : ChannelPins) (p : Part) : Told p (pinsCommand c p) :=
  (channelCommand_told (sortCommand c) p).post rfl rfl fun _ h => h

end Sys2Proof.Machine
end

