-- ==== Sys2Proof/Laws/Cut.lean ====
section
/-! SUPPORT. Whatever a captured write hands its owner, the channel monitor stays as it was; so an access that the
channel reset line cuts short has passed to DRAM the beats that came (R1, R8). The command that a cut header write
carries, and its result data as the event leaves the part (R101, R132, R202). -/

namespace Sys2Proof.Machine

theorem takePost_channel (b : Byte) (p : Part) : (takePost b p).channel = p.channel := (takePost_tidy b p).channel

theorem postEntry_channel (i : Nat) (ls : List Lane) (p : Part) : (postEntry i ls p).channel = p.channel := by
  unfold postEntry
  dsimp only
  split
  · exact takePost_channel _ p
  · exact takePost_channel _ p
  · exact takePost_channel _ p
  · split
    · exact takePost_channel _ p
    · exact (formFrame_neat _ _).channel.trans (takePost_channel _ p)

theorem withdrawEntry_channel (i : Nat) (ls : List Lane) (p : Part) : (withdrawEntry i ls p).channel = p.channel := by
  unfold withdrawEntry
  split
  · exact (discardParts_neat _ _ _).channel
  · split <;> exact (discardParts_neat _ _ _).channel
  all_goals rfl

theorem writeDescriptor_channel (i : Nat) (ls : List Lane) (p : Part) :
    (writeDescriptor i ls p).channel = p.channel := by
  unfold writeDescriptor
  split
  · rfl
  · split
    · rfl
    · split
      · exact postEntry_channel i ls p
      · split
        · exact withdrawEntry_channel i ls p
        · rfl

theorem captureLine_channel (a : Nat) (ls : List Lane) (p : Part) : (captureLine a ls p).channel = p.channel := by
  unfold captureLine
  split
  · rfl
  · dsimp only
    split <;> rfl

theorem runCut_channel (c : CommandName) (ps : List Byte) (p : Part) : (runCut c ps p).channel = p.channel := by
  have clamped {q : Part} {m : BitVec 32} (h : Tidy (postClamp m p) q) : q.channel = p.channel := (clampedThen m h).channel
  cases c
  case setThresholds =>
    simp only [runCut]
    unfold cutSetThresholds doSetThresholdsBy
    dsimp only
    split
    · exact clamped ((finish_tidy _ _ _).after ((judgeReset_tidy _).after
        ((setLive_tidy _ _).after (withHealth_tidy _ (postClamp (healthClamp ps) p)))))
    · rfl
  all_goals simp only [runCut, runCommand]
  · rfl
  · exact ((restartCloses_tidy p (emptyTraffic p)).trans (finish_tidy _ _ _)).channel
  · rfl
  · rfl
  · unfold doDefineUplink; dsimp only; repeat' (first | rfl | split)
  · unfold doDefineCapture; dsimp only; repeat' (first | rfl | split)
  · unfold doDefineDelivery
    dsimp only
    have emptied (d : Option DeliveryDef) : (redefineDelivery d p).channel = p.channel := (raiseIf_tidy _ _ _).channel
    split
    · split
      · exact emptied _
      · rfl
    · exact emptied _
    · rfl
  · exact clamped (finish_event_tidy _ _ (takeOptics_tidy _ _))
  · unfold doFibreRestart
    split
    · rfl
    · exact (closeEvent_tidy _ _).channel
  · exact (raiseIf_tidy _ _ _).channel
  · rfl
  · exact (doForce_tidy ps p).channel
  · unfold doSetRadio
    dsimp only
    split
    · rfl
    · exact clamped (finish_event_tidy _ _ (withRadio_tidy _ _))
  · exact (doRadioAttach_tidy p).channel
  · exact (doRadioDetach_tidy p).channel
  · unfold doSetRelay
    dsimp only
    split
    · rfl
    · split
      · rfl
      · exact clamped (finish_event_tidy _ _ (takeRelay_tidy _ _ _ _))

theorem cutHeader_channel (ls : List Lane) (p : Part) : (cutHeader ls p).channel = p.channel := by
  unfold cutHeader writeHeaderBy commandArrivesBy
  dsimp only
  split
  · split
    · rfl
    · split
      · rfl
      · exact runCut_channel _ _ _
  · rfl

/-- The block a cut write is handed to leaves the channel monitor alone. -/
theorem handCut_channel (r : Region) (a : Nat) (ls : List Lane) (p : Part) : (handCut r a ls p).channel = p.channel := by
  cases r with
  | header => exact cutHeader_channel ls p
  | report => exact (cutReport_tidy ls p).channel
  | uplink m =>
    exact (closeEvent_tidy _ _).channel.trans ((writeDescriptor_channel _ _ _).trans (writeDescriptor_channel _ _ _))
  | capture => exact captureLine_channel a ls p
  | _ => rfl

theorem writeAccessBy_channel {hand : Region → Nat → List Lane → Part → Part}
    (h : ∀ r a ls q, (hand r a ls q).channel = q.channel) (a : Nat) (ls : List Lane) (p : Part) :
    (writeAccessBy hand a ls p).channel = p.channel := by
  by_cases hc : (p.windows.classify a).capturing = true
  · by_cases hl : p.channel.learned = true
    · simp [writeAccessBy, hc, hl, h]
    · simp [writeAccessBy, hc, hl]
  · simp [writeAccessBy, hc]

/-- An access passes nothing on beyond what was passed as it began. -/
theorem access_toDram (b : Burst) {line : Nat → Bool → Nat → Part → Part} (p : Part)
    (h : ∀ a c s q, line a c s p = q → q.channel = p.channel) : (access b line p).channel.toDram = p.channel.toDram := by
  unfold access
  split
  · rfl
  · rename_i row _
    have e := h (lineAddress row b) (p.channel.chopped b) (startPosition b) _ rfl
    dsimp only
    generalize line (lineAddress row b) (p.channel.chopped b) (startPosition b) p = q at e
    rw [← e]
    split <;> rfl

/-- What has passed to DRAM of a write cut short (R1, R8). -/
theorem cutWrite_toDram (w : WriteBurst) (beats : Nat) (p : Part) :
    (cutWrite w beats p).channel.toDram = some (.named (.write (p.channel.writeCut w beats))) := by
  unfold cutWrite
  refine (access_toDram w.place _ fun a _ _ q e => ?_).trans rfl
  rw [← e]
  exact writeAccessBy_channel handCut_channel a _ _

/-- The assertion of the channel reset line, where it is not asserted already. -/
theorem assertReset_eq (cut : CutAccess) {p : Part} (h : p.channel.state ≠ .inReset) :
    assertReset cut p = postAtEnd (cutCommand cut p) (event (fun q => channelReset (cutAccess cut q)) p) := by
  unfold assertReset
  split
  · exact absurd ‹_› h
  · rfl

/-- What the assertion of the channel reset line leaves of the last command passed and the last read returned is what
the access it cut short leaves (R8). -/
theorem assertReset_passed (cut : CutAccess) {p : Part} (h : p.channel.state ≠ .inReset) :
    (assertReset cut p).channel.toDram = (cutAccess cut p).channel.toDram ∧
      (assertReset cut p).channel.toHost = (cutAccess cut p).channel.toHost := by
  rw [assertReset_eq cut h, (postAtEnd_tidy _ _).channel, (event_frame _ p).channel]
  unfold channelReset
  rw [(conditionsChange_frame _ _).channel]
  exact ⟨rfl, rfl⟩

/-! ### The command a header write cut short carries -/

/-- A header write cut short after its first beat still carries the command (R8, R23). -/
theorem writeCut_command {p : Part} {h : HeaderBurst} (hc : p.CarriesCommand h) (code : Byte) {beats : Nat}
    (hb : 0 < beats) : headerCommand (p.channel.writeCut (headerWrite code h) beats).lanes = some (code, h.tag) := by
  have hcar : carries (p.channel.chopped (headerWrite code h).place)
      (startPosition (headerWrite code h).place) beats 0 = true := by
    have hst : startPosition (headerWrite code h).place = h.start.toNat := anchor_start _ _ (by decide)
    unfold carries
    rw [hst]
    cases hch : p.channel.chopped (headerWrite code h).place
    · simp [hb]
    · have : h.start.toNat < 4 := hc.2 hch
      simp [hb]; omega
  have hl (i : Nat) (hi : i < 4) :
      lane (p.channel.writeCut (headerWrite code h) beats).lanes i = lane (headerWrite code h).lanes i := by
    change lane (carried _ _ _ _) i = _
    rw [lane_carried _ _ _ _ _ (by omega), show i / 4 = 0 by omega, hcar, if_pos rfl]
  obtain ⟨b, hs⟩ := Option.isSome_iff_exists.mp hc.1
  have l1 : lane (headerWrite code h).lanes 1 = some b := hs
  have l0 : lane (headerWrite code h).lanes 0 = some code := rfl
  have l2 : lane (headerWrite code h).lanes 2 = some (BitVec.ofNat 8 h.tag.toNat) := rfl
  have l3 : lane (headerWrite code h).lanes 3 = some (BitVec.ofNat 8 (h.tag.toNat / 256)) := rfl
  unfold headerCommand
  rw [hl 0 (by decide), hl 1 (by decide), hl 2 (by decide), hl 3 (by decide), l0, l1, l2, l3]
  simp only [tag_of_lanes]

/-- A header write falls in the header. -/
theorem header_region {p : Part} (h : p.AnchorOpen) (code : Byte) (b : HeaderBurst) :
    p.windows.classify (lineAddress (BitVec.ofNat 15 (p.windows.strap.toNat * 2048)) (headerWrite code b).place) = .header := by
  have e := classify_anchor p.windows headerOffset (by decide)
  rw [← anchor_address p.windows.strap headerOffset _ (by decide) (by decide)] at e
  exact e

/-- The command done in the event whose result data the assertion posts at its end (R8, R202; log 20). -/
theorem cutCommand_takes {p : Part} {h : HeaderBurst} (ht : p.Takes h) (code : Byte) {beats : Nat} (hb : 0 < beats) :
    cutCommand (.write (headerWrite code h) beats) p = commandOf code := by
  unfold cutCommand
  simp only [ht.anchor.active]
  have hr : p.channel.row (headerWrite code h).place.bank = some (BitVec.ofNat 15 (p.windows.strap.toNat * 2048)) := ht.anchor.row
  rw [hr]
  simp only [header_region ht.anchor, ht.anchor.learned, ht.idle, and_self, if_true, writeCut_command ht.carries code hb, Option.bind_some]

/-- The result data that a command done in the event posts show the part as the event leaves it. -/
theorem postAtEnd_shows {c : CommandName} {q : Part} {data : List Byte} (hd : c.shows (postAtEnd (some c) q) = some data)
    (hr : (postAtEnd (some c) q).command.result = Result.done) :
    (postAtEnd (some c) q).command.data = padTo 16 data := by
  have hs (x : Command) : c.shows { q with command := x } = c.shows q := by cases c <;> rfl
  have e : postAtEnd (some c) q = match c.shows q with
      | none => q
      | some d => if q.command.result = Result.done then { q with command := { q.command with data := padTo 16 d } } else q := rfl
  cases hq : c.shows q with
  | none =>
    rw [hq] at e
    rw [e, hq] at hd
    cases hd
  | some d =>
    rw [hq] at e
    dsimp only at e
    by_cases hq1 : q.command.result = Result.done
    · rw [if_pos hq1] at e
      rw [e, hs, hq] at hd
      cases hd
      rw [e]
    · rw [if_neg hq1] at e
      rw [e] at hr
      exact absurd hr hq1

/-- A change of the conditions leaves the command unit. -/
theorem conditionsChange_command (l : Conditions) (p : Part) : (conditionsChange l p).command = p.command := by
  unfold conditionsChange; split
  · rfl
  · exact conditionsTo_command l p

/-- The command a header write cut short carries runs before the reset (R8). -/
theorem cutWrite_runs {p : Part} {h : HeaderBurst} (ht : p.Takes h) {code : Byte} {beats : Nat} (hb : 0 < beats) {c : CommandName}
    (hc : commandOf code = some c) : ∃ ps q, (cutWrite (headerWrite code h) beats p).command = (runCut c ps q).command ∧ q.command.running = none := by
  refine ⟨parameterBlock (mergeLanes p.command.header (p.channel.writeCut (headerWrite code h) beats).lanes) p.command.params,
    takeResult code h.tag { forward (.write (p.channel.writeCut (headerWrite code h) beats)) p with
       command := { p.command with header := mergeLanes p.command.header (p.channel.writeCut (headerWrite code h) beats).lanes } }, ?_, ht.idle⟩
  have hl := writeCut_command ht.carries code hb
  generalize hcame : p.channel.writeCut (headerWrite code h) beats = came at hl
  have hr : (forward (.write came) p).channel.row (headerWrite code h).place.bank = some (BitVec.ofNat 15 (p.windows.strap.toNat * 2048)) := ht.anchor.row
  have e : writeAccessBy handCut (lineAddress (BitVec.ofNat 15 (p.windows.strap.toNat * 2048)) (headerWrite code h).place) came.lanes (forward (.write came) p)
      = cutHeader came.lanes (forward (.write came) p) := by
    unfold writeAccessBy
    rw [show (forward (.write came) p).windows = p.windows from rfl, header_region ht.anchor,
      show (forward (.write came) p).channel.learned = p.channel.learned from rfl, ht.anchor.learned]
    rfl
  have k : (access (headerWrite code h).place (fun a _ _ => writeAccessBy handCut a came.lanes) (forward (.write came) p)).command
      = (cutHeader came.lanes (forward (.write came) p)).command := by
    unfold access
    rw [hr]
    dsimp only
    rw [e]
    generalize cutHeader came.lanes (forward (.write came) p) = z
    split <;> rfl
  simp only [cutWrite, hcame]
  rw [k]
  unfold cutHeader writeHeaderBy
  rw [hl]
  unfold commandArrivesBy
  dsimp only
  rw [show (forward (.write came) p).command = p.command from rfl, ht.idle]
  simp only [Option.isSome_none, Bool.false_eq_true, if_false, hc]

end Sys2Proof.Machine
end

