-- ==== Sys2Proof/Laws/Tick.lean ====
section
/-! SUPPORT. The millisecond: the events that fall due are queued, each once, in some order. -/

namespace Sys2Proof.Machine

theorem insertRanked_perm (x : Nat × Instr) (l : List (Nat × Instr)) :
    (insertRanked x l).Perm (x :: l) := by
  induction l with
  | nil => exact List.Perm.refl _
  | cons y ys ih =>
    unfold insertRanked
    split
    · exact List.Perm.refl _
    · exact (List.Perm.cons y ih).trans (List.Perm.swap x y ys)

/-- Ordering ties only permutes the events that fall due (log 2). -/
theorem orderTies_perm (now : Nat) (es : List Instr) : (orderTies now es).Perm es := by
  have sort : ∀ l : List (Nat × Instr), (l.foldr insertRanked []).Perm l := by
    intro l
    induction l with
    | nil => exact List.Perm.refl _
    | cons y ys ih => exact (insertRanked_perm y _).trans (List.Perm.cons y ih)
  unfold orderTies
  refine ((sort (es.mapIdx fun n i => (Config.tieKey now n, i))).map Prod.snd).trans
    (List.Perm.of_eq ?_)
  apply List.ext_getElem <;> simp

/-- An event is queued where it falls due. -/
@[simp] theorem mem_fallsDue {b : Bool} {i j : Instr} : i ∈ fallsDue b j ↔ b = true ∧ i = j := by
  unfold fallsDue
  cases b <;> simp

/-- An attempt whose time limit passes is left unanswered by its line held high or low (log 28). -/
theorem limitPassed_shape (now : Nat) :
    (∃ n, limitPassed now = .timeout n) ∨ ∃ n m, limitPassed now = .stuck n m := by
  unfold limitPassed
  split
  · exact .inl ⟨_, rfl⟩
  · exact .inr ⟨_, _, rfl⟩

/-- What the tick queues is what falls due once the lines are sampled. -/
theorem mem_tick {p : Part} {i : Instr} :
    i ∈ (tick { pending := [], part := p }).pending ↔ i ∈ dueEvents (sampled p) :=
  (orderTies_perm _ _).mem_iff

end Sys2Proof.Machine
end

