-- ==== Sys2Proof/Laws/Uplink.lean ====
section
/-! SUPPORT. Writes to the uplink table: the two descriptors of a line, and what the channel monitor has to do
with them (R140). -/

namespace Sys2Proof.Machine

theorem autoClosed_passed_sent (w : WriteBurst) (p : Part) : autoClosed w.place (passed (.write w) p) = p.sent w := sent_eq w p

/-- Closing of the event then of the bank. -/
theorem table_write {i : Instr} {w : WriteBurst} {m : Nat} {s : State} (hi : writeOf i = some w) (h : s.part.ReachesTable w m) :
    exec i s = .next (s.having (autoClosed w.place (closeEvent (passed (.write w) s.part) (writeUplink m (s.part.lanesOf w) (passed (.write w) s.part))))) := by
  obtain ⟨row, hr, hc⟩ := h.line
  rw [exec_writeOf hi, write_reaches h.active h.learned hr hc rfl]
  rfl

theorem lane_laneSlice (ls : List Lane) (k b : Nat) (hb : b < 16) : lane (laneSlice ls (16 * k) 16) b = lane ls (16 * k + b) := by
  simp [lane, laneSlice, List.getElem?_range hb]

theorem lane_past (ls : List Lane) (b : Nat) (h : ls.length ≤ b) : lane ls b = none := by
  unfold lane; rw [List.getD_eq_getElem?_getD, List.getElem?_eq_none h]; rfl

theorem take_none {ls : List Lane} (h : ∀ b, b < 16 → lane ls b = none) (e : Entry) : Entry.take ls e = e := by
  unfold Entry.take
  have : mergeLanes e.host (storedLanes ls) = e.host := by
    unfold mergeLanes
    apply List.ext_getElem?
    intro k
    rw [List.getElem?_map]
    by_cases hk : k < e.host.length
    · rw [List.getElem?_range hk]
      have : lane (storedLanes ls) k = none := by
        by_cases h16 : k < 16
        · unfold storedLanes lane
          rw [List.getD_eq_getElem?_getD, List.getElem?_map, List.getElem?_range h16]
          simp only [Option.map_some, Option.getD_some]
          split
          · exact h k h16
          · rfl
        · exact lane_past _ _ (by simp [storedLanes]; omega)
      simp [this, List.getElem?_eq_getElem hk]
    · rw [List.getElem?_eq_none (by simpa using hk), List.getElem?_eq_none (by simpa using hk)]; rfl
  rw [this]

theorem writeDescriptor_none {ls : List Lane} (h : ∀ b, b < 16 → lane ls b = none) (i : Nat) (p : Part) :
    writeDescriptor i ls p = p := by
  unfold writeDescriptor
  rw [h 7 (by omega)]
  unfold onEntry
  have : p.uplink.entries.modify i (Entry.take ls) = p.uplink.entries := by
    apply List.ext_getElem?
    intro k
    rw [List.getElem?_modify]
    cases p.uplink.entries[k]? with
    | none => rfl
    | some e => simp [take_none h]
  dsimp only
  rw [this]
  rfl

/-- What an event leaves of the part as its own rule made it (R91, R93, R173, R174). -/
def Left (x q : Part) : Prop := EventEnds x q ∧ Examined x q ∧ (x.Stays → q.path = x.pathDrained)

theorem left_close (b x : Part) : Left x (closeEvent b x) :=
  ⟨closeEvent_ends b x, examined_close b x, closeEvent_pathDrained rfl rfl⟩

/-- Whatever the channel monitor, the event's own work on the table is the same. -/
theorem table_ends {s : State} {w : WriteBurst} {x y : Part} {b : Part} (hx : y = { x with channel := (passed (.write w) s.part).channel })
    (hc : x.channel = (s.part.sent w).channel) :
    Left x (autoClosed w.place (closeEvent b y)) := by
  obtain ⟨h, hk, hp⟩ := left_close b y
  have e : (closeEvent b y).channel = (passed (.write w) s.part).channel := by rw [h.frame.channel, hx]
  rw [autoClosed_passed (op := .write w) (p := s.part) e]
  have e2 : (autoClosed w.place (passed (.write w) s.part)).channel = x.channel := by rw [hc, autoClosed_passed_sent]
  rw [e2]
  generalize closeEvent b y = q at *
  subst hx
  exact ⟨h.swap x.channel x.command q.command h.frame.command, hk.swap x.channel x.channel x.command q.command, hp⟩

/-- The part with another channel monitor. -/
def onChannel (c : Channel) (p : Part) : Part := { p with channel := c }

theorem discardParts_onChannel (r : Discard) (is : List Nat) (c : Channel) (p : Part) :
    discardParts r is (onChannel c p) = onChannel c (discardParts r is p) := by
  unfold discardParts raiseIf; split <;> rfl

theorem discardFrames_onChannel (r : Discard) (fs : List Frame) (c : Channel) (p : Part) :
    discardFrames r fs (onChannel c p) = onChannel c (discardFrames r fs p) := by
  unfold discardFrames
  induction fs generalizing p with
  | nil => rfl
  | cons f fs ih => rw [List.foldl_cons, List.foldl_cons, discardParts_onChannel, ih]

theorem formFrame_onChannel (i : Nat) (c : Channel) (p : Part) :
    formFrame i (onChannel c p) = onChannel c (formFrame i p) := by
  unfold formFrame
  have h1 : ∀ a b, formationFault (onChannel c p) a b = formationFault p a b := fun _ _ => rfl
  have h2 : ∀ a b, roomFor (onChannel c p) a b = roomFor p a b := fun _ _ => rfl
  have h3 : (onChannel c p).uplink = p.uplink := rfl
  dsimp only
  rw [h3, h1]
  split
  · exact discardParts_onChannel _ _ c (mark _ _ p)
  · rw [h2]
    split
    · exact discardParts_onChannel _ _ c (mark _ _ p)
    · rename_i d k _
      have := discardFrames_onChannel .displaced d c (setQueue (classOfByte (entryAt p.uplink.entries i).clsByte) (k ++ [{ parts := gather p.uplink.entries i, cls := classOfByte (entryAt p.uplink.entries i).clsByte, enqueued := p.clock.now, bytes := (addressesOf p.uplink.entries (gather p.uplink.entries i)).map fun a => (stagedByte p.uplink.staging a).getD 0 }]) p)
      exact congrArg (mark _ _) this

theorem takePost_onChannel (b : Byte) (c : Channel) (p : Part) : takePost b (onChannel c p) = onChannel c (takePost b p) := by
  unfold takePost
  have : (onChannel c p).path = p.path := rfl
  rw [this]
  split <;> rfl

theorem postEntry_onChannel (i : Nat) (ls : List Lane) (c : Channel) (p : Part) :
    postEntry i ls (onChannel c p) = onChannel c (postEntry i ls p) := by
  unfold postEntry
  have h3 : (onChannel c p).uplink = p.uplink := rfl
  dsimp only
  rw [h3, takePost_onChannel]
  split
  · rfl
  · rfl
  · rfl
  · split
    · rfl
    · exact formFrame_onChannel i c (onEntry i (Entry.take ls) (takePost ((lane ls 6).getD 0) p))

theorem withdrawEntry_onChannel (i : Nat) (ls : List Lane) (c : Channel) (p : Part) :
    withdrawEntry i ls (onChannel c p) = onChannel c (withdrawEntry i ls p) := by
  unfold withdrawEntry
  have h3 : (onChannel c p).uplink = p.uplink := rfl
  have h4 : queuedFrame (onChannel c p) i = queuedFrame p i := rfl
  rw [h3, h4]
  split
  · exact discardParts_onChannel _ _ c (onEntry i (Entry.take ls) p)
  · split
    · exact discardParts_onChannel _ _ c (unqueue _ (onEntry i (Entry.take ls) p))
    · exact discardParts_onChannel _ _ c (onEntry i (Entry.take ls) p)
  · rfl
  · rfl

theorem writeDescriptor_onChannel (i : Nat) (ls : List Lane) (c : Channel) (p : Part) :
    writeDescriptor i ls (onChannel c p) = onChannel c (writeDescriptor i ls p) := by
  unfold writeDescriptor
  split
  · rfl
  · split
    · rfl
    · split
      · exact postEntry_onChannel i ls c p
      · split
        · exact withdrawEntry_onChannel i ls c p
        · rfl

theorem on_sent {w : WriteBurst} (p : Part) (f : Part → Part) (hf : ∀ c z, f (onChannel c z) = onChannel c (f z)) :
    f (passed (.write w) p) = { f (p.sent w) with channel := (passed (.write w) p).channel } ∧ (f (p.sent w)).channel = (p.sent w).channel := by
  have hsent : p.sent w = onChannel (p.sent w).channel p := rfl
  have hpass : passed (.write w) p = onChannel (passed (.write w) p).channel p := rfl
  constructor
  · rw [hpass, hf, hsent, hf]; rfl
  · rw [hsent, hf]; rfl

theorem writeUplink_onChannel (m : Nat) (ls : List Lane) (c : Channel) (p : Part) :
    writeUplink m ls (onChannel c p) = onChannel c (writeUplink m ls p) := by
  unfold writeUplink; rw [writeDescriptor_onChannel, writeDescriptor_onChannel]

/-- A write to the uplink table whose handling of the table is `x`. -/
theorem table_leads {i : Instr} {w : WriteBurst} {m : Nat} {s : State} {x : Part} (hi : writeOf i = some w) (h : s.part.ReachesTable w m)
    (hx : writeUplink m (s.part.lanesOf w) (s.part.sent w) = x) :
    Leads i s (Left x) := by
  have k := on_sent (w := w) s.part (writeUplink m (s.part.lanesOf w)) (writeUplink_onChannel m _)
  rw [hx] at k
  exact ⟨_, table_write hi h, table_ends k.1 k.2⟩


theorem descriptorBytes_length (g : Byte) (d : DescriptorBurst) : (descriptorBytes g d).length = 16 := by
  simp [descriptorBytes, slice, leBytes]

theorem half_le (d : DescriptorBurst) : halfOf d = 0 ∨ halfOf d = 1 := by unfold halfOf; omega

theorem own_half (g : Byte) (d : DescriptorBurst) (p : Part) : laneSlice (p.lanesOf (descriptorWrite g d)) (16 * halfOf d) 16 = (descriptorBytes g d).map some := by
  apply List.ext_getElem?
  intro b
  by_cases hb : b < 16
  · have h1 : (laneSlice (p.lanesOf (descriptorWrite g d)) (16 * halfOf d) 16)[b]? = some (lane (p.lanesOf (descriptorWrite g d)) (16 * halfOf d + b)) := by
      unfold laneSlice; rw [List.getElem?_map, List.getElem?_range hb]; rfl
    have hh := half_le d
    rw [h1]
    have h2 : lane (p.lanesOf (descriptorWrite g d)) (16 * halfOf d + b) = lane (descriptorWrite g d).lanes (16 * halfOf d + b) := by
      unfold Part.lanesOf
      rw [lane_carried _ _ _ _ _ (by omega), carries_whole _ _ _ (by omega)]
      have : startPosition (descriptorWrite g d).place / 4 = halfOf d := by
        unfold startPosition halfOf descriptorWrite; dsimp only; omega
      rw [this, if_pos]
      cases p.channel.chopped (descriptorWrite g d).place <;> simp; omega
    rw [h2]
    have hl : ((descriptorBytes g d).map some).length = 16 := by rw [List.length_map, descriptorBytes_length]
    have hlo : (laneSlice d.other 0 16).length = 16 := by simp [laneSlice]
    have hbit : d.place.column.getLsbD 2 = decide (halfOf d = 1) := by
      unfold halfOf
      have : d.place.column.getLsbD 2 = d.place.column.toNat.testBit 2 := rfl
      rw [this, Nat.testBit_eq_decide_div_mod_eq]
    unfold descriptorWrite lane
    dsimp only
    rw [List.getD_eq_getElem?_getD, hbit]
    rcases hh with hh | hh
    · rw [hh, if_neg (by simp), List.getElem?_append_left (by omega)]
      rw [show 16 * 0 + b = b by omega]
      cases hx : ((descriptorBytes g d).map some)[b]? with
      | none => rw [List.getElem?_eq_none_iff] at hx; omega
      | some v => rfl
    · rw [hh, if_pos (by simp), List.getElem?_append_right (by omega), hlo]
      rw [show 16 * 1 + b - 16 = b by omega]
      cases hx : ((descriptorBytes g d).map some)[b]? with
      | none => rw [List.getElem?_eq_none_iff] at hx; omega
      | some v => rfl
  · rw [List.getElem?_eq_none (by simp [laneSlice]; omega), List.getElem?_eq_none (by rw [List.length_map, descriptorBytes_length]; omega)]

theorem take_descriptor (g : Byte) (d : DescriptorBurst) (e : Entry) (h : e.host.length = 16) :
    Entry.take ((descriptorBytes g d).map some) e = { e with host := takenHost g d e.host } := by
  unfold Entry.take
  congr 1
  match e.host, h with
  | [a0, a1, a2, a3, a4, a5, a6, a7, a8, a9, a10, a11, a12, a13, a14, a15], _ => rfl

theorem gives_descriptor {g : Byte} {d : DescriptorBurst} {i : Nat} {e : Entry} {p : Part} (h : p.Gives g d i e) :
    ∃ m, p.ReachesTable (descriptorWrite g d) m ∧
      writeUplink m (p.lanesOf (descriptorWrite g d)) (p.sent (descriptorWrite g d)) =
        writeDescriptor i ((descriptorBytes g d).map some) (p.sent (descriptorWrite g d)) := by
  obtain ⟨m, hm, hi⟩ := h.reaches
  refine ⟨m, hm, ?_⟩
  have hown := own_half g d p
  have ha := h.alone
  have e0 : ∀ z, writeUplink m (p.lanesOf (descriptorWrite g d)) z = writeDescriptor (2 * m + 1) (laneSlice (p.lanesOf (descriptorWrite g d)) (16 * 1) 16) (writeDescriptor (2 * m) (laneSlice (p.lanesOf (descriptorWrite g d)) (16 * 0) 16) z) := fun _ => rfl
  rw [e0]
  rcases half_le d with hh | hh
  · rw [hh] at hown ha hi
    rw [writeDescriptor_none (ls := laneSlice (p.lanesOf (descriptorWrite g d)) (16 * 1) 16) (fun b hb => by rw [lane_laneSlice _ _ _ hb]; exact ha b hb), hown, hi]
    rfl
  · rw [hh] at hown ha hi
    rw [writeDescriptor_none (ls := laneSlice (p.lanesOf (descriptorWrite g d)) (16 * 0) 16) (fun b hb => by rw [lane_laneSlice _ _ _ hb]; exact ha b hb), hown, hi]

theorem lane_descriptor (g : Byte) (d : DescriptorBurst) : lane ((descriptorBytes g d).map some) 7 = some g ∧ lane ((descriptorBytes g d).map some) 6 = some d.cls ∧ (laneSlice ((descriptorBytes g d).map some) 0 16).any Option.isNone = false := ⟨rfl, rfl, rfl⟩

theorem modify_at {es : List Entry} {i : Nat} {e : Entry} (h : es[i]? = some e) (f : Entry → Entry) : es.modify i f = es.set i (f e) := by
  apply List.ext_getElem?
  intro j
  rw [List.getElem?_modify, List.getElem?_set]
  by_cases hj : i = j
  · subst hj
    obtain ⟨h1, h2⟩ := List.getElem?_eq_some_iff.mp h
    simp [h1, h2]
  · simp [hj]

theorem entryAt_of {es : List Entry} {i : Nat} {e : Entry} (h : es[i]? = some e) : entryAt es i = e := by
  unfold entryAt; rw [List.getD_eq_getElem?_getD, h]; rfl


theorem heldBefore_run (es : List Entry) (e : Entry) (i fuel n : Nat) (hi : i < es.length) (hn : n ≤ fuel) (hf : fuel < es.length)
    (hrun : ∀ j, 1 ≤ j → j ≤ n → (entryAt es ((i + es.length - j) % es.length)).state = .held)
    (hstop : n < fuel → (entryAt es ((i + es.length - (n + 1)) % es.length)).state ≠ .held) :
    heldBefore es i fuel = (List.range n).map fun k => (i + es.length - (k + 1)) % es.length := by
  induction fuel generalizing i n with
  | zero => have : n = 0 := by omega
            subst this; rfl
  | succ f ih =>
    unfold heldBefore
    dsimp only
    cases n with
    | zero =>
      have := hstop (by omega)
      rw [show i + es.length - (0 + 1) = i + es.length - 1 from rfl] at this
      rw [if_neg this]; rfl
    | succ n =>
      have h1 := hrun 1 (by omega) (by omega)
      rw [if_pos h1]
      have hj : (i + es.length - 1) % es.length < es.length := Nat.mod_lt _ (by omega)
      have hstep : ∀ k, k + 1 ≤ es.length → ((i + es.length - 1) % es.length + es.length - k) % es.length = (i + es.length - (k + 1)) % es.length := by
        intro k hk
        by_cases h0 : i = 0
        · subst h0
          rw [show 0 + es.length - 1 = es.length - 1 by omega, Nat.mod_eq_of_lt (show es.length - 1 < es.length by omega)]
          rw [show es.length - 1 + es.length - k = (0 + es.length - (k + 1)) + es.length by omega, Nat.add_mod_right]
        · rw [show i + es.length - 1 = (i - 1) + es.length by omega, Nat.add_mod_right, Nat.mod_eq_of_lt (show i - 1 < es.length by omega)]
          congr 1
          omega
      rw [ih _ n hj (by omega) (by omega) (fun j h1 h2 => by rw [hstep j (by omega)]; exact hrun (j + 1) (by omega) (by omega)) (fun h => by rw [hstep (n + 1) (by omega)]; exact hstop (by omega))]
      rw [List.range_succ_eq_map, List.map_cons, List.map_map]
      congr 1
      apply List.map_congr_left
      intro k hk
      have := List.mem_range.mp hk
      rw [hstep (k + 1) (by omega)]; rfl

theorem displaceFor_eq (n limit out : Nat) (queue : List Frame) (k : Nat) (hk : k ≤ queue.length)
    (h1 : blocksOf (queue.drop k) + out + n ≤ limit) (h2 : ∀ k', k' < k → ¬blocksOf (queue.drop k') + out + n ≤ limit) :
    displaceFor n limit out queue = (queue.take k, queue.drop k) := by
  induction queue generalizing k with
  | nil => have : k = 0 := by simpa using hk
           subst this; rfl
  | cons f fs ih =>
    unfold displaceFor
    cases k with
    | zero => rw [if_pos (by exact h1)]; rfl
    | succ k =>
      rw [if_neg (by exact h2 0 (by omega))]
      dsimp only
      rw [ih k (by simpa using hk) h1 (fun k' hk' => h2 (k' + 1) (by omega))]
      rfl


end Sys2Proof.Machine
end

