-- ==== Sys2Proof/WellFormed.lean ====
section
/-! DEFINITION. Which terms of `Instr` stand for a command the outside can give: lists of the right
length, numbers in range, and bursts that are what their row says. -/

namespace Sys2Proof

/-- The burst selects the upper half of its line and is chopped, so that it carries none of bytes 0 to 15. -/
def AnchorBurst.upper (w : AnchorBurst) : Bool := w.chop && decide (4 ≤ w.start.toNat)

/-- A write burst has a lane for each byte of its line (00_scope.md, "Lines, half-lines and beats"). -/
def WriteBurst.ok (w : WriteBurst) : Bool := w.lanes.length == 32

/-- A read burst has 32 bytes, or 16 where it is chopped. -/
def ReadBurst.ok (r : ReadBurst) : Bool := r.dram.length == 32 || r.dram.length == 16

/-- An anchor write has a lane for each byte of its line. -/
def AnchorBurst.ok (w : AnchorBurst) : Bool := w.lanes.length == 32

/-- A header write that carries a command: byte 1 unmasked, the lower half transferred, 28 bytes after
the first four (R23). -/
def HeaderBurst.ok (h : HeaderBurst) : Bool :=
  h.second.isSome && h.rest.length == 28 && !(h.chop && decide (4 ≤ h.start.toNat))

/-- A whole descriptor write: five spare bytes, and the other half-line's sixteen lanes (R140). -/
def DescriptorBurst.ok (d : DescriptorBurst) : Bool := d.spare.length == 5 && d.other.length == 16

/-- Lanes `i` to `i + 15` of a line. -/
def halfLine (ls : List Lane) (i : Nat) : List Lane := (ls.drop i).take 16

/-- The sixteen lanes post or withdraw: the give byte is 1 or 2 and no byte is masked (R140, R141). -/
def gives (half : List Lane) : Bool :=
  half.all Option.isSome && (half.getD 7 none == some 1 || half.getD 7 none == some 2)

/-- The sixteen lanes are a partial write: the give byte unmasked, another byte masked (R140). -/
def isPartial (half : List Lane) : Bool :=
  (half.getD 7 none).isSome && half.any Option.isNone

/-- A cut access has fewer than eight beats transferred (R8). -/
def CutAccess.ok : CutAccess → Bool
  | .none => true
  | .write w beats => w.ok && decide (beats < 8)
  | .read r beats => r.ok && decide (beats < 8)

/-- An attempt that has put 12 symbols on the bus after its first address byte has but the last byte to read,
and at most nine clock pulses free a stuck data line (R35). -/
def Unanswered.ok : Unanswered → Bool
  | .timeout reached => decide (reached ≤ 12)
  | .stuck reached pulses => decide (reached ≤ 12) && decide (pulses ≤ 9)
  | _ => true

/-- The term stands for a command of its row. -/
def Instr.wellFormed : Instr → Bool
  | .channelResetAssert cut => cut.ok
  | .commandOutOfPlace pins => pins.lanes.length == 32 && (pins.dram.length == 32 || pins.dram.length == 16)
  | .lineRead r => r.ok
  | .lineWrite w => w.ok
  | .commandParameterWrite w => w.ok
  | .commandHeaderMerge w => w.ok && ((w.lanes.take 4).any Option.isNone || w.upper)
  | .commandRefusedBusy _ h => h.ok
  | .unknownCommand code h => h.ok && (code == 0 || decide (0x11 < code.toNat))
  | .identify h => h.ok
  | .restart h => h.ok
  | .setEvents h => h.ok
  | .clearCounters h => h.ok
  | .defineUplink h => h.ok
  | .defineCapture h => h.ok
  | .defineDelivery h => h.ok
  | .setOptics h => h.ok
  | .fibreRestart h => h.ok
  | .setThresholds h => h.ok
  | .clearLatches h => h.ok
  | .setPathTimers h => h.ok
  | .force h => h.ok
  | .setRadio h => h.ok
  | .radioAttach h => h.ok
  | .radioDetach h => h.ok
  | .setRelay h => h.ok
  | .acknowledgeWrite w => w.ok
  | .fibreReport w => w.ok
  | .captureWrite w => w.ok
  | .descriptorFieldWrite w => w.ok && !gives (halfLine w.lanes 0) && !gives (halfLine w.lanes 16)
  | .partialDescriptorWrite w => w.ok && (isPartial (halfLine w.lanes 0) || isPartial (halfLine w.lanes 16))
  | .post d => d.ok
  | .withdraw d => d.ok
  | .release w => w.ok
  | .pollRetry cause => cause.ok
  | .pollFailed cause => cause.ok
  | .pollComplete bytes => bytes.length == 10
  | .dataDown _ frame => decide (frame.length ≤ 1536)
  | .partReset _ _ => true
  | .firstMillisecond _ _ _ _ => true
  | .channelResetRelease => true
  | .openRow _ _ => true
  | .closeRow _ _ => true
  | .refresh => true
  | .modeSet _ _ => true
  | .powerDownEntry => true
  | .selfRefreshEntry => true
  | .powerDownExit => true
  | .pollStart => true
  | .opticalPresenceFall => true
  | .opticalPresenceRise _ => true
  | .losChange _ => true
  | .txOffEnd => true
  | .settlingEnd => true
  | .automaticRestartExpiry => true
  | .stalenessExpiry => true
  | .radioTestChange _ => true
  | .dwellExpiry => true
  | .proveExpiry => true
  | .strandedProveExpiry => true
  | .voiceQuietExpiry => true
  | .voiceStickExpiry => true
  | .drainLimitExpiry _ => true
  | .radioPresenceFall => true
  | .radioPresenceRise => true
  | .startTimerExpiry => true
  | .silenceTimerExpiry => true
  | .recoverTimerExpiry => true
  | .messageDropped _ => true
  | .ready _ _ => true
  | .attachOk _ _ _ => true
  | .attachFail _ => true
  | .detached _ => true
  | .signalReport _ _ _ => true
  | .upAccept _ _ => true
  | .upReject _ _ => true
  | .resetNotice => true
  | .answerTimerExpiry => true
  | .retryTimerExpiry => true
  | .reAttemptTimerExpiry => true
  | .lingerExpiry => true
  | .detachTimerExpiry => true
  | .acceptTimerExpiry _ => true
  | .attachReqStart => true
  | .detachReqStart => true
  | .transferEnd => true
  | .creditAccrual => true
  | .dataUpStart => true
  | .ageExpiry _ => true

end Sys2Proof
end

