-- ==== Sys2Proof/Tests/Slice0.lean ====
section
/-! SUPPORT. Tests: the checks of WellFormed refuse, and single commands on small states give what the
spec's rules, tables and worked cases give. Every expected value is the spec's, or worked out by hand from
the rule named. -/

open Sys2Proof Sys2Proof.Machine

namespace Sys2Proof.Tests

/-! ### States and commands for the tests -/

/-- The part after one command, the part itself where the command is not answered. -/
def after (i : Instr) (p : Part) : Part :=
  match exec i { pending := [], part := p } with
  | .next t => t.part
  | _ => p

/-- The part after one step of the machine with an empty queue, and the events it queues. -/
def ticked (p : Part) : State :=
  match step { pending := [], part := p } with
  | .next t => t
  | _ => { pending := [], part := p }

/-- One second after part reset: mode learned, strap value 0, the anchor row of bank 7 open. -/
def live : Part :=
  { State.reset.part with
    clock := { State.reset.part.clock with now := 1000, firstTaken := true }
    channel := { State.reset.part.channel with
      known0 := true, known1 := true, known2 := true
      banks := [none, none, none, none, none, none, none, some 0] } }

/-- The same with the optical module PRESENT and a seeded filter. -/
def lit : Part :=
  { live with
    optical := { live.optical with present := true, seedPending := false, nextPoll := some 1000 }
    health := { live.health with filter := some 1500, lastTemp := some 20, verdict := .good } 
    path := { live.path with verdict := .good } }

/-- The radio module powered and in the state `m`, with figures taken from it. -/
def powered (m : Module) (p : Part) : Part :=
  { p with
    radio := { p.radio with
      state := m, present := true, rpwr := true, silence := some 4000, maxBuffers := 8, buffers := 4, grant := 2000 } }

/-- Service on radio: verdict BAD by LOS, the module ATTACHED, every class on RADIO, the credit full. -/
def onAir : Part :=
  let p := powered .attached live
  { p with
    health := { p.health with live := 1, verdict := .bad, causes := 1 }
    path := { p.path with
      service := .radio, verdict := .bad, causes := 1, classes := PerClass.ofFn fun _ => onRadio false }
    radio := { p.radio with demand := true }
    relay := { p.relay with credit := 65536 } }

/-- Service on radio with an uplink table of eight entries at 0x8000 (row 1, bank 0), a capture window at
0x101000 (row 32, bank 1) and a delivery ring at 0xA000 (row 1, bank 2) with its area at 0x200000. -/
def wired : Part :=
  { onAir with
    channel := { onAir.channel with
      banks := [some 1, some 32, some 1, none, none, none, none, some 0] }
    windows :=
      { strap := 0, uplink := some { base := 0x8000, size := 128 }
        captures := [some { base := 0x101000, size := 4096 }, none, none, none]
        delivery := some { ring := 0xA000, area := 0x200000 } }
    uplink := { onAir.uplink with
      entries := List.replicate 8
        { host := List.replicate 16 0, state := .idle, reason := none, carriage := 0 } } }

/-- A full burst from column `column` of bank `bank`. -/
def burst (bank : BitVec 3) (column : BitVec 10) : Burst :=
  { bank := bank, column := column, autoClose := false, chop := false }

/-- A command header line written whole, `tag` and the first 28 parameter bytes given. -/
def slotWrite (tag : BitVec 16) (ps : List Byte) : HeaderBurst :=
  { start := 0, autoClose := false, chop := false, second := some 0, tag := tag
    rest := (padTo 28 ps).map some }

/-- A whole write of an anchor line: `bs` and zeros. -/
def anchorLine (bs : List Byte) : AnchorBurst :=
  { start := 0, autoClose := false, chop := false, lanes := (padTo 32 bs).map some }

/-- A chopped write of the descriptor at the lower half of the table line at `column`. -/
def descriptor (column : BitVec 10) (address : BitVec 32) (length : BitVec 16) (cls chain : Byte) :
    DescriptorBurst :=
  { place := { burst 0 column with chop := true }, address := address, length := length, cls := cls
    chain := chain, tag := 0x0605, spare := [9, 9, 9, 9, 9], other := List.replicate 16 none }

/-- The lanes of a line that carries `bs` from byte `i` and nothing else. -/
def carrying (i : Nat) (bs : List Byte) : List Lane :=
  List.replicate i none ++ bs.map some ++ List.replicate (32 - i - bs.length) none

/-- A queued VOICE frame of entry 0. -/
def voiceFrame : Frame := { parts := [0], cls := .voice, bytes := [1, 2, 3], enqueued := 990 }

/-- The frame sent under link sequence 5, its accept timer due. -/
def sentFrame : Sent := { frame := voiceFrame, carriage := 7, link := 5, accept := some 1000 }

/-- A part with `fs` waiting in the VOICE queue. -/
def waiting (fs : List Frame) (p : Part) : Part :=
  { p with relay := { p.relay with queues := ⟨fs, [], [], []⟩ } }

/-! ### WellFormed refuses what no command of its row is -/

theorem test_wellFormed_read_burst_length :
    (Instr.lineRead { place := burst 0 0, dram := [1, 2, 3] }).wellFormed = false := by decide
theorem test_wellFormed_write_burst_lanes :
    (Instr.lineWrite { place := burst 0 0, lanes := [some 1] }).wellFormed = false := by decide
theorem test_wellFormed_cut_write_short_of_eight_beats :
    (Instr.channelResetAssert
      (.write { place := burst 0 0, lanes := List.replicate 32 none } 8)).wellFormed = false := by decide
theorem test_wellFormed_pins_lanes :
    (Instr.commandOutOfPlace { cke := .steady, cs := false, ras := true, cas := false, we := false, bank := 0,
                               addr := 0, lanes := [], dram := List.replicate 32 0 }).wellFormed = false := by
  decide
theorem test_wellFormed_anchor_lanes :
    (Instr.acknowledgeWrite { anchorLine [] with lanes := [] }).wellFormed = false := by decide
theorem test_wellFormed_merge_leaves_a_command_byte_out :
    (Instr.commandHeaderMerge (anchorLine [1, 0, 0, 0])).wellFormed = false := by decide
theorem test_wellFormed_header_carries_byte_one :
    (Instr.identify { slotWrite 1 [] with second := none }).wellFormed = false := by decide
theorem test_wellFormed_header_not_upper_half :
    (Instr.identify { slotWrite 1 [] with chop := true, start := 4 }).wellFormed = false := by decide
theorem test_wellFormed_unknown_code_names_no_command :
    (Instr.unknownCommand 0x11 (slotWrite 1 [])).wellFormed = false := by decide
theorem test_wellFormed_descriptor_spare_bytes :
    (Instr.post { descriptor 0 0 0 0 0 with spare := [] }).wellFormed = false := by decide
theorem test_wellFormed_field_write_gives_nothing :
    (Instr.descriptorFieldWrite { place := burst 0 0, lanes := List.replicate 32 (some 1) }).wellFormed =
      false := by decide
theorem test_wellFormed_partial_write_has_a_part :
    (Instr.partialDescriptorWrite { place := burst 0 0, lanes := List.replicate 32 (some 1) }).wellFormed =
      false := by decide
theorem test_wellFormed_at_most_nine_pulses : (Instr.pollRetry (.stuck 0 10)).wellFormed = false := by decide
theorem test_wellFormed_thirteen_symbols_reached : (Instr.pollRetry (.timeout 13)).wellFormed = false := by decide
theorem test_wellFormed_ten_bytes_polled : (Instr.pollComplete [0]).wellFormed = false := by decide
set_option maxRecDepth 20000 in
theorem test_wellFormed_frame_length :
    (Instr.dataDown { serviceId := 0, cls := 0, sequence := 0 } (List.replicate 1537 0)).wellFormed =
      false := by decide
theorem test_wellFormed_takes_a_post : (Instr.post (descriptor 0 0 0 0 0)).wellFormed = true := by decide

/-! ### No row has a bit pattern (opcode_table.json) -/

theorem test_decode_no_word : decodeTableWord 8 1 = none := by decide

/-! ### The queue, the tick, resets -/

theorem test_step_takes_the_front :
    step { pending := [.refresh, .openRow 1 2], part := live } =
      exec .refresh { pending := [.openRow 1 2], part := live } := rfl

/-- R40: the tenth consecutive sample is taken; the ninth is not. -/
theorem test_tick_tenth_sample :
    (ticked { lit with
      optical := { lit.optical with nextPoll := none }
      clock := { lit.clock with opticalRun := 9 } }).pending = [.opticalPresenceFall] := by decide
theorem test_tick_ninth_sample :
    (ticked { lit with
      optical := { lit.optical with nextPoll := none }
      clock := { lit.clock with opticalRun := 8 } }).pending = [] := by decide

/-- R13: strap value 15 puts the anchor block at 0x3C007000. -/
theorem test_part_reset_anchor : (after (.partReset 15 false) onAir).windows.anchor = 0x3C007000 := by decide
/-- R8: part reset with the channel reset line asserted. -/
theorem test_part_reset_in_reset :
    (after (.partReset 0 true) onAir).channel.state = .inReset ∧
      (after (.partReset 0 true) onAir).radio.state = .off := by decide
/-- R107: a module found at the first millisecond is powered, STARTING, for 20 s. -/
theorem test_first_millisecond :
    (after (.firstMillisecond true true false true) State.reset.part).radio.start = some 20000 ∧
      (after (.firstMillisecond true true false true) State.reset.part).health.live = 0x001 := by decide
/-- R8: the row of bank 7 closes, mode is unlearned, the release returns to ACTIVE. -/
theorem test_channel_reset_assert :
    (after (.channelResetAssert .none) live).channel.banks = List.replicate 8 none ∧
      (after (.channelResetAssert .none) live).channel.learned = false := by decide
/-- R8: a read cut after three beats returns their twelve bytes, one after one beat the four of that beat. -/
theorem test_cut_read_of_dram :
    ((after (.channelResetAssert (.read { place := burst 7 64, dram := List.replicate 32 7 } 3)) live).channel.toHost.map
      ReadReturn.bytes) = some (List.replicate 12 7) := by decide
theorem test_cut_read_of_the_status_page :
    ((after (.channelResetAssert (.read { place := burst 7 0, dram := List.replicate 32 7 } 1)) live).channel.toHost.map
      ReadReturn.bytes) = some [0x40, 0x21, 0x01, 0x00] := by decide
/-- R1, R8: of a write to memory the part does not watch, cut after two beats, eight bytes have passed to DRAM. -/
theorem test_cut_write_passes_its_beats :
    (after (.channelResetAssert (.write { place := burst 7 512, lanes := List.replicate 32 (some 5) } 2))
      live).channel.toDram = some (.named (.write
        { place := burst 7 512, lanes := List.replicate 8 (some 5) ++ List.replicate 24 none })) := by decide
/-- R8, R68: the report cut short sets and latches SYNC_LOST (bit 8), the reset clears it, and the one evaluation
of the event finds GOOD as before. -/
theorem test_cut_report_evaluated_once :
    let p := { lit with health := { lit.health with settings := { lit.health.settings with latchMask := 0x100 } } }
    let q := after (.channelResetAssert (.write (anchorWrite 0x160 (anchorLine [2])) 1)) p
    q.health.latched = 0x100 ∧ q.health.live = 0 ∧ q.health.verdict = .good ∧ q.flag .verdictChanged = false ∧
      q.path.service = .fibre := by decide
/-- R8, R63, R202: SET_EVENTS cut after two beats, in SUSPECT by SYNC_LOST: the reset clears the condition, the
verdict is GOOD and the service state FIBRE, and the flags posted are COMMAND_DONE, PATH_CHANGED and
VERDICT_CHANGED. -/
theorem test_cut_set_events_posts_the_flags_left :
    let p := { lit with
      health := { lit.health with live := 0x100, verdict := .bad, causes := 0x10 }
      path := { lit.path with verdict := .bad, causes := 0x10, service := .suspect, dwell := some 1500 } }
    let q := after (.channelResetAssert (.write (headerWrite 0x03 (slotWrite 9 [0xFF, 0x01])) 2)) p
    q.path.service = .fibre ∧ q.command.result = 0x01 ∧ q.command.data.take 4 = [0xFF, 0x01, 0x07, 0x00] := by
  decide +kernel
theorem test_channel_reset_release :
    (after .channelResetRelease { live with channel := { live.channel with state := .inReset } }).channel.state =
      .active := by decide

/-! ### The memory channel -/

/-- R3: an open-row to an OPEN bank forgets the old row and counts. -/
theorem test_open_row_twice :
    (after (.openRow 7 5) live).channel.row 7 = some 5 ∧
      (after (.openRow 7 5) live).events.counters.channelProtocol = 1 := by decide
theorem test_close_row : (after (.closeRow false 7) live).channel.row 7 = none := by decide
theorem test_refresh_with_a_bank_open :
    (after .refresh live).channel.row 7 = none ∧
      (after .refresh live).events.counters.channelProtocol = 1 := by decide
/-- R5: bits 6, 5, 4 and 2 of register 0 at 0 1 0 1, value 5: read latency 14. -/
theorem test_mode_set_read_latency : (after (.modeSet 0 0x24) live).channel.readLatency = 14 := by decide
/-- R6: the fourth burst coding, sent with a bank OPEN, counts twice and unlearns mode. -/
theorem test_mode_set_invalid :
    (after (.modeSet 0 0x23) live).events.counters.channelProtocol = 2 ∧
      (after (.modeSet 0 0x23) live).channel.known2 = false := by decide
/-- R7: power-down keeps the bank table, self-refresh closes it and counts. -/
theorem test_power_down_keeps_banks : (after .powerDownEntry live).channel.row 7 = some 0 := by decide
theorem test_self_refresh_closes_banks :
    (after .selfRefreshEntry live).channel.row 7 = none ∧
      (after .selfRefreshEntry live).events.counters.channelProtocol = 1 := by decide
theorem test_exit_in_active_counts : (after .powerDownExit live).events.counters.channelProtocol = 1 := by
  decide
/-- R2, R7: an open-row on the pins in POWER_DOWN counts and opens nothing. -/
theorem test_command_out_of_place :
    let p := after .powerDownEntry live
    let q := after (.commandOutOfPlace
      { cke := .steady, cs := false, ras := false, cas := true, we := true, bank := 1, addr := 9, lanes := [],
        dram := [] }) p
    q.channel.row 1 = none ∧ q.events.counters.channelProtocol = 1 := by decide
/-- R1, R2: a calibration passes with its bank and address, and has no other effect. -/
theorem test_calibration_passes_its_address :
    let pins : ChannelPins :=
      { cke := .steady, cs := false, ras := true, cas := true, we := false, bank := 5, addr := 0x1234, lanes := []
        dram := [] }
    after (.commandOutOfPlace pins) live =
      { live with channel := { live.channel with toDram := some (.pins pins) } } := by decide

/-- Chapter 1, "Beat order: worked case". -/
theorem test_beat_order_worked_case :
    (List.range 8).map (beatPosition .sequential 5) = [5, 6, 7, 4, 1, 2, 3, 0] ∧
      (List.range 8).map (beatPosition .interleaved 5) = [5, 4, 7, 6, 1, 0, 3, 2] ∧
      (List.range 4).map (beatPosition .interleaved 6) = [6, 7, 4, 5] ∧
      lineAddress 100 (burst 2 77) = 0x00322120 := by decide
/-- R19: the presence marker, read from start position 0. -/
theorem test_line_read_marker :
    ((after (.lineRead { place := burst 7 0, dram := List.replicate 32 0 }) live).channel.toHost.map
      fun r => r.bytes.take 3) = some [0x40, 0x21, 0x01] := by decide
/-- R4: a read of a CLOSED bank is a stray access and returns DRAM. -/
theorem test_stray_read :
    (after (.lineRead { place := burst 3 0, dram := List.replicate 32 7 }) live).events.counters.strayAccesses =
      1 := by decide
/-- R13: a write to the status page reaches DRAM and changes nothing of the part. -/
theorem test_status_page_write :
    (after (.lineWrite { place := burst 7 0, lanes := List.replicate 32 (some 0) }) live).command =
      live.command := by decide

/-! ### The command slot -/

/-- R22: a chopped write to the upper half changes bytes 16 to 31 alone. -/
theorem test_parameter_merge_upper_half :
    (after (.commandParameterWrite { start := 4, autoClose := false, chop := true,
                                     lanes := List.replicate 32 (some 7) })
      { live with channel := { live.channel with burstMode := .onTheFly } }).command.params =
      List.replicate 16 0 ++ List.replicate 16 7 := by decide
theorem test_header_merge_carries_no_command :
    (after (.commandHeaderMerge { anchorLine [1, 0, 0x34] with
      lanes := [some 1, some 0, some 0x34, none] ++ List.replicate 28 none }) live).command =
      { live.command with header := [1, 0, 0x34] ++ List.replicate 29 0 } := by decide
/-- R27: the running command stays, the last refused tag and the counter change. -/
theorem test_refused_busy :
    let p := { live with command := { live.command with running := some .radioAttach, tag := 1 } }
    let q := after (.commandRefusedBusy 0x77 (slotWrite 9 [])) p
    q.command.tag = 1 ∧ q.command.refused = 9 ∧ q.events.counters.commandsRefusedBusy = 1 := by decide
theorem test_unknown_command : (after (.unknownCommand 0x12 (slotWrite 9 [])) live).command.result = 0x05 := by
  decide
/-- R31. -/
theorem test_identify :
    (after (.identify (slotWrite 9 [])) live).command.data =
      [0x40, 0x21, 0x01, 0, 0x00, 0x04, 0x00, 0x08, 32, 0, 0, 0, 0, 0, 0, 0] := by decide
/-- R32: RESTART clears every flag but its own COMMAND_DONE, and the frames queued are not discarded. -/
theorem test_restart :
    let q := after (.restart (slotWrite 9 [])) (waiting [voiceFrame] wired)
    q.events.flags = 1 ∧ q.relay.queues.voice = [] ∧ q.events.counters.framesDiscarded = 0 := by decide
/-- R32, R93, R133, R205: the service state moves from RETURNING to FIBRE with a linger of 0; the module stays ATTACHED
and demand on, and the flags are COMMAND_DONE and PATH_CHANGED. -/
theorem test_restart_ends_returning :
    let p := { wired with
      health := { wired.health with live := 0, verdict := .good, causes := 0 }
      path := { wired.path with
        service := .returning, verdict := .good, causes := 0, classes := PerClass.ofFn fun _ =>
          { word := .hold, reason := .none, sub := .draining, drain := some 9000 } }
      radio := { wired.radio with settings := { wired.radio.settings with linger := 0 } } }
    let q := after (.restart (slotWrite 9 [])) p
    q.path.service = .fibre ∧ q.radio.state = .attached ∧ q.radio.demand = true ∧ q.radio.control = none ∧
      q.events.flags = 3 := by decide +kernel
/-- R202: the result shows the mask and the flags with COMMAND_DONE. -/
theorem test_set_events :
    (after (.setEvents (slotWrite 9 [0xFF, 0xFF])) live).command.data.take 4 = [0xFF, 0x01, 0x01, 0x00] ∧
      (after (.setEvents (slotWrite 9 [0xFF, 0xFF])) live).attention = true := by decide
theorem test_clear_counters :
    (after (.clearCounters (slotWrite 9 [])) (count .returns 3 live)).events.counters.returns = 0 := by decide
/-- R142: nine entries become ten, in clamp mask bit 1. -/
theorem test_define_uplink_rounds_up :
    let q := after (.defineUplink (slotWrite 9 [0x00, 0x80, 0, 0, 9])) live
    q.uplink.entries.length = 10 ∧ q.command.clamp = 2 ∧ q.command.result = 0x02 := by decide
theorem test_define_uplink_overlap :
    (after (.defineUplink (slotWrite 9 [0xE0, 0x7F, 0, 0, 8])) live).command.result = 0x03 := by decide
/-- R144: one byte becomes one line. -/
theorem test_define_capture :
    let q := after (.defineCapture (slotWrite 9 [3, 0, 0, 0, 0, 0, 0x10, 0, 1])) live
    q.windows.captures = [none, none, none, some { base := 0x100000, size := 32 }] ∧ q.command.clamp = 4 := by
  decide
/-- R196: a READY slot discarded counts, raises DATA_LOSS and shows in the result. -/
theorem test_define_delivery :
    let f : Slot := { cls := .voice, bytes := [1], carriage := 2, number := 3 }
    let q := after (.defineDelivery (slotWrite 9 [0, 0, 0, 0, 0, 0, 0, 0, 1]))
      { wired with delivery := { wired.delivery with slots := some f :: List.replicate 31 none, fill := 1 } }
    q.windows.delivery = none ∧ q.events.counters.deliveryOverruns = 1 ∧ q.flag .dataLoss = true ∧
      q.delivery.fill = 0 := by decide
/-- R49: an address of 0 and a period of 50 ms are clamped, as are the zeros of parameters 4 to 12. -/
theorem test_set_optics :
    let q := after (.setOptics (slotWrite 9 [0x00, 0x20, 50, 0])) lit
    q.optical.settings.address = 0x08 ∧ q.optical.settings.period = 100 ∧ q.optical.poll = .firstAttempt := by
  decide
/-- R50: the poll in flight ends with a stop condition before the new attempt begins. -/
theorem test_set_optics_stops_the_poll :
    let p := { lit with optical := { lit.optical with poll := .firstAttempt, bus := [.start, .send 0xAC] } }
    ∃ before, (after (.setOptics (slotWrite 9 [0x50])) p).optical.bus =
      before ++ [.stop, .start, .send 0xA0] :=
  ⟨_, (rfl : _ = _ ++ [BusSymbol.stop] ++ [.start, .send 0xA0]).trans (List.append_assoc _ _ _)⟩
/-- R45: refused in FIBRE; accepted in RADIO with the module present (R43). -/
theorem test_fibre_restart_refused : (after (.fibreRestart (slotWrite 9 [])) lit).command.result = 0x04 := by
  decide
theorem test_fibre_restart_begins :
    let q := after (.fibreRestart (slotWrite 9 []))
      { onAir with optical := { onAir.optical with present := true } }
    q.optical.txDisable = true ∧ q.optical.window = .txOff 1500 2000 ∧ q.command.result = 0x80 := by decide
/-- R71: equal thresholds fail the structural check. -/
theorem test_set_thresholds_order :
    (after (.setThresholds (slotWrite 9 [100, 0, 100, 0, 200, 0, 255, 0, 85])) lit).command.result = 0x03 := by
  decide
/-- R57, R72: with warn_low at 1600 the filtered value 1500 sets RX_LOW_WARN (bit 4): WARN. -/
theorem test_set_thresholds_evaluates :
    (after (.setThresholds (slotWrite 9 [100, 0, 0x40, 0x06, 0x88, 0x13, 0x10, 0x27, 85])) lit).health.verdict =
      .warn := by decide
/-- R66: a live condition in the latch mask latches again. -/
theorem test_clear_latches :
    (after (.clearLatches (slotWrite 9 []))
      { live with health := { live.health with
        live := 0x003, latched := 0xFFF, settings := { live.health.settings with latchMask := 0x002 } } }
      ).health.latched = 0x002 := by decide
/-- R102: zeros are clamped to the lower ends, the first two being in range. -/
theorem test_set_path_timers :
    let q := after (.setPathTimers (slotWrite 9 [])) live
    q.path.settings.prove = 1 ∧ q.path.settings.voiceQuiet = 100 ∧ q.command.clamp = 0x7C := by decide
/-- R97, R101: FORCE RADIO with no module attached. -/
theorem test_force_radio :
    let q := after (.force (slotWrite 9 [2])) live
    q.path.service = .forcedRadio ∧ q.path.classes.voice.reason = .noRadio ∧
      q.command.data.take 2 = [7, 2] := by decide
theorem test_set_radio :
    (after (.setRadio (slotWrite 9 [1, 9])) live).radio.settings =
      { hot := true, profile := 7, retryCount := 0, linger := 0 } ∧
      (after (.setRadio (slotWrite 9 [1, 9])) live).radio.demand = true := by decide
/-- R114: from IDLE the attach series starts, its ATTACH_REQ on the free lane. -/
theorem test_radio_attach :
    let q := after (.radioAttach (slotWrite 9 [])) (powered .idle live)
    q.radio.state = .attaching ∧ q.radio.phase = .awaiting ∧ q.command.running = some .radioAttach := by decide
/-- R132: refused in RADIO; done at once, detaching, in FIBRE. -/
theorem test_radio_detach_refused : (after (.radioDetach (slotWrite 9 [])) onAir).command.result = 0x04 := by
  decide
theorem test_radio_detach :
    (after (.radioDetach (slotWrite 9 [])) (powered .attached live)).radio.state = .detaching := by decide
/-- R180: four limits of 1024 exceed the frame store. -/
theorem test_set_relay_sum :
    (after (.setRelay (slotWrite 9 [0, 4, 0, 4, 0, 4, 0, 4])) live).command.result = 0x03 := by decide

/-! ### The other watched writes -/

/-- R200: bit 8 stands in byte 1. -/
theorem test_acknowledge :
    (after (.acknowledgeWrite (anchorLine [0x01, 0x01]))
      { live with events := { live.events with flags := 0x1FF } }).events.flags = 0x0FE := by decide
/-- Chapter 4, "Reports across a sleep", rows 2 and 3. -/
theorem test_report_out_of_sync :
    (after (.fibreReport (anchorLine [2])) lit).health.verdict = .bad := by decide
theorem test_report_errored_blocks :
    (after (.fibreReport (anchorLine [1, 0, 12, 0]))
      { lit with health := { lit.health with
        settings := { lit.health.settings with errWarn := 10, errBad := 100 } } }).health.live = 0x400 := by decide
/-- R135: a new line takes the bytes the write carries. -/
theorem test_capture_write :
    (after (.captureWrite { place := burst 1 8, lanes := carrying 31 [5] }) wired).uplink.staging =
      [{ line := 0x101020, lanes := carrying 31 [5] }] := by decide
/-- A capture window of 64 KiB whose first 1024 lines are staged, line 0 the least recently written. -/
def stocked : Part :=
  { wired with
    windows := { wired.windows with captures := [some { base := 0x101000, size := 65536 }, none, none, none] }
    uplink := { wired.uplink with
      staging := (List.range 1024).map fun n => { line := 0x108FE0 - 32 * n, lanes := List.replicate 32 (some 0) } } }
/-- R136: a line that is not staged evicts the least recently written, line 0x101000, and counts. -/
theorem test_capture_write_evicts :
    let q := after (.captureWrite { place := burst 1 0, lanes := carrying 31 [5] })
      { stocked with channel := { stocked.channel with banks := stocked.channel.banks.set 1 (some 33) } }
    q.uplink.staging.length = 1024 ∧ q.uplink.staging.head?.map Staged.line = some 0x109000 ∧
      q.uplink.staging.getLast?.map Staged.line = some 0x101020 ∧ q.events.counters.stageEvictions = 1 := by
  decide +kernel
/-- R140: a write that leaves the give byte out is a field write. -/
theorem test_descriptor_field_write :
    ((after (.descriptorFieldWrite { place := burst 0 8, lanes := carrying 0 (List.replicate 7 1) })
      wired).uplink.entries.map Entry.host).take 3 =
      [List.replicate 16 0, List.replicate 16 0, List.replicate 7 1 ++ List.replicate 9 0] := by decide
/-- R140: the give byte without the rest is refused. -/
theorem test_partial_descriptor_write :
    (after (.partialDescriptorWrite { place := burst 0 8, lanes := carrying 7 [1] }) wired).events.counters.postsRefused = 1 := by decide
/-- R147: a post that continues is HELD; one that ends a chain without staged bytes is INCOMPLETE (R152). -/
theorem test_post_held :
    ((after (.post (descriptor 0 0x101000 4 0 1))
      { wired with channel := { wired.channel with burstMode := .onTheFly } }).uplink.entries.map Entry.state).take
        2 = [.held, .idle] := by decide
theorem test_post_incomplete :
    ((after (.post (descriptor 0 0x101000 4 0 0))
      { wired with channel := { wired.channel with burstMode := .onTheFly } }).uplink.entries.map Entry.reason).take
        1 = [some .incomplete] := by decide
/-- R156: a withdraw of a HELD entry. -/
theorem test_withdraw_held :
    let p := { wired with
      channel := { wired.channel with burstMode := .onTheFly }
      uplink := { wired.uplink with
        entries := wired.uplink.entries.map fun e => { e with state := .held } } }
    let q := after (.withdraw (descriptor 8 0 0 0 0)) p
    (q.uplink.entries.map Entry.reason).take 3 = [none, none, some .withdrawn] ∧
      q.events.counters.framesDiscarded = 1 ∧ q.flag .dataLoss = false := by decide
/-- R192: byte 24 releases descriptor 2m + 1. -/
theorem test_release :
    let f : Slot := { cls := .voice, bytes := [1], carriage := 2, number := 3 }
    let q := after (.release { place := burst 2 0, lanes := carrying 24 [1] })
      { wired with delivery := { wired.delivery with slots := some f :: some f :: List.replicate 30 none } }
    q.delivery.slots = some f :: List.replicate 31 none := by decide

/-! ### Optical monitor and fibre health -/

/-- R34, R35: the address byte of 0x56 for writing is 0xAC. -/
theorem test_poll_start :
    (after .pollStart lit).optical.bus = [.start, .send 0xAC] ∧
      (after .pollStart lit).optical.nextPoll = some 1200 := by decide
theorem test_poll_retry :
    (after (.pollRetry .addressWrite) { lit with optical := { lit.optical with poll := .firstAttempt } }
      ).optical.poll = .retry := by decide
/-- Chapter 3, "Polling through failures", the row at 800 ms: the third failure sets POLL_FAIL, BAD. -/
theorem test_third_poll_failed :
    let q := after (.pollFailed .addressWrite)
      { lit with optical := { lit.optical with poll := .retry, failures := 2 } }
    q.optical.failures = 3 ∧ q.health.live = 0x004 ∧ q.health.verdict = .bad := by decide
set_option maxRecDepth 20000 in
/-- Chapter 4, "The filter at work": T 12160, raw 1234, factor 140 in band 4, filtered 1500, k = 2. -/
theorem test_filter_at_work :
    let p := { lit with optical := { lit.optical with
      poll := .firstAttempt, began := 1000
      settings := { lit.optical.settings with factors := [128, 128, 128, 128, 140, 128, 128, 128] } } }
    let q := after (.pollComplete [0x2F, 0x80, 0, 0, 0, 0, 0, 0, 0x04, 0xD2]) p
    q.health.corrected = 1349 ∧ q.health.filter = some 1463 ∧ q.health.live = 0 := by decide
set_option maxRecDepth 20000 in
/-- Chapter 4, "Band and correction", second and fourth rows. -/
theorem test_correction_floor :
    let p := { lit with optical := { lit.optical with
      poll := .firstAttempt, began := 1000
      settings := { lit.optical.settings with factors := [128, 64, 128, 128, 128, 128, 128, 255] } } }
    (after (.pollComplete [0xFA, 0xC0, 0, 0, 0, 0, 0, 0, 0x04, 0xD2]) p).health.corrected = 617 ∧
      (after (.pollComplete [0x64, 0x00, 0, 0, 0, 0, 0, 0, 0x9C, 0x40]) p).health.corrected = 65535 := by decide
theorem test_optical_presence_fall :
    (after .opticalPresenceFall lit).health.live = 0x002 ∧
      (after .opticalPresenceFall lit).optical.nextPoll = none := by decide
/-- R41: the schedule starts one period after the rise. -/
theorem test_optical_presence_rise : (after (.opticalPresenceRise true) live).optical.nextPoll = some 1200 := by
  decide
/-- R82: a BAD verdict in FIBRE with LOS among its causes begins SUSPECT with los_dwell. -/
theorem test_los_change :
    (after (.losChange true) lit).path.service = .suspect ∧
      (after (.losChange true) lit).path.dwell = some 1050 := by decide
theorem test_tx_off_end :
    let q := after .txOffEnd { onAir with optical := { onAir.optical with
      window := .txOff 1000 2000, txDisable := true } }
    q.optical.window = .settling 3000 ∧ q.optical.txDisable = false := by decide
/-- R44, R86: the verdict is evaluated as the window ends; GOOD in RADIO begins PROVING. -/
theorem test_settling_end :
    (after .settlingEnd
      { onAir with
        optical := { onAir.optical with window := .settling 1000 }
        health := { onAir.health with live := 0, hold := true } }).path.service = .proving := by decide
theorem test_automatic_restart :
    (after .automaticRestartExpiry
      { onAir with
        clock := { onAir.clock with now := 600000 }
        optical := { onAir.optical with
          present := true, run := some 0, settings := { onAir.optical.settings with interval := 600 } } }
      ).optical.window = .txOff 600500 2000 := by decide
/-- R61. -/
theorem test_staleness_expiry :
    let q := after .stalenessExpiry { lit with health := { lit.health with stale := .running 0 } }
    q.health.live = 0x800 ∧ q.health.stale = .disarmed := by decide

/-! ### Path controller -/

theorem test_radio_test_change : (after (.radioTestChange true) live).path.service = .forcedRadio := by decide
/-- R84: RADIO with a failover counted where the module is ATTACHED, else STRANDED. -/
theorem test_dwell_expiry :
    let p := { onAir with path := { onAir.path with
      service := .suspect, dwell := some 1000, classes := PerClass.ofFn fun _ => onFibre } }
    (after .dwellExpiry p).events.counters.failovers = 1 ∧
      (after .dwellExpiry (powered .idle p)).path.service = .stranded := by decide
/-- R88: VOICE waits for quiet; a class with nothing queued is RETURNED at once (R91). -/
theorem test_prove_expiry :
    let q := after .proveExpiry { onAir with path := { onAir.path with
      service := .proving, verdict := .good, prove := some 1000 } }
    q.path.service = .returning ∧ q.path.classes.voice.sub = .waitingQuiet ∧
      q.path.classes.bulk.sub = .returned := by decide
theorem test_stranded_prove_expiry :
    (after .strandedProveExpiry { live with path := { live.path with
      service := .stranded, strandedProve := some 1000, classes := PerClass.ofFn fun _ => blocked .noPath } }
      ).path.service = .fibre := by decide

/-- RETURNING with VOICE the last class, waiting for quiet. -/
def quieting : Part :=
  { onAir with path := { onAir.path with
    service := .returning, verdict := .good, quiet := some 1000, stick := some 1000
    classes := ⟨{ word := .radio, reason := .none, sub := .waitingQuiet, drain := none }, onFibre, onFibre,
      onFibre⟩ } }

/-- R90, R91, R93: VOICE drains, has nothing left, and the hand-back completes. -/
theorem test_voice_quiet_expiry :
    (after .voiceQuietExpiry quieting).path.service = .fibre ∧
      (after .voiceQuietExpiry quieting).events.counters.returns = 1 := by decide
theorem test_voice_stick_expiry :
    (after .voiceStickExpiry (waiting [voiceFrame] quieting)).path.classes.voice.word = .hold := by decide
/-- R92: what is still queued is discarded with DRAIN_LIMIT. -/
theorem test_drain_limit_expiry :
    let held : ClassPath := { word := .hold, reason := .none, sub := .draining, drain := some 1000 }
    let p := { quieting with path := { quieting.path with classes := quieting.path.classes.set .voice held } }
    let q := after (.drainLimitExpiry .voice)
      (waiting [voiceFrame] { p with uplink := wired.uplink })
    q.path.service = .fibre ∧ (q.uplink.entries.map Entry.reason).take 1 = [some .drainLimit] := by decide

/-! ### Radio link controller -/

/-- R107, R111: the module lost from ATTACHED: ABSENT, its frames discarded, the path STRANDED (R85). -/
theorem test_radio_presence_fall :
    let q := after .radioPresenceFall
      { wired with radio := { wired.radio with outstanding := [sentFrame] } }
    q.radio.state = .absent ∧ q.radio.rpwr = false ∧ q.path.service = .stranded ∧
      (q.uplink.entries.map Entry.reason).take 1 = [some .radioLost] := by decide
theorem test_radio_presence_rise :
    (after .radioPresenceRise { live with radio := { live.radio with state := .absent } }).radio.start =
      some 21000 := by decide
theorem test_start_timer_expiry :
    let p := powered .starting live
    (after .startTimerExpiry { p with radio := { p.radio with start := some 1000 } }).radio.recover =
      some 3000 := by decide
theorem test_silence_timer_expiry :
    let p := powered .idle live
    (after .silenceTimerExpiry { p with radio := { p.radio with silence := some 1000 } }).radio.rpwr = false := by
  decide
theorem test_recover_timer_expiry :
    (after .recoverTimerExpiry { live with radio := { live.radio with
      state := .recovering, recover := some 1000 } }).radio.state = .starting := by decide
set_option maxRecDepth 20000 in
/-- R120: the check of the nine bytes 0x31 to 0x39. -/
theorem test_crc : crc16 [0x31, 0x32, 0x33, 0x34, 0x35, 0x36, 0x37, 0x38, 0x39] = 0x29B1 := by decide
set_option maxRecDepth 20000 in
/-- R121: a wrong check counts once and does nothing else. -/
theorem test_message_dropped :
    after (.messageDropped { bytes := [0x8F, 0, 0, 0, 0, 0, 0, 0, 0, 0], stopBits := true }) (powered .idle live) =
      count .linkErrors 1 (powered .idle live) := by decide
/-- R108: READY ends STARTING. -/
theorem test_ready :
    let q := after (.ready 7 8) (powered .starting live)
    q.radio.state = .idle ∧ q.radio.firmware = 7 := by decide
/-- R115, R164, R167, R170: attached in STRANDED on a BAD verdict, a grant of 1000 sheds BULK alone. -/
theorem test_attach_ok :
    let p := powered .attaching onAir
    let q := after (.attachOk 99 1000 20) { p with
      radio := { p.radio with phase := .awaiting }
      path := { p.path with service := .stranded, classes := PerClass.ofFn fun _ => blocked .noPath } }
    q.radio.state = .attached ∧ q.radio.buffers = 8 ∧ q.relay.credit = 65536 ∧
      q.path.classes.bulk.reason = .shed ∧ q.path.classes.interactive.word = .radio := by decide
/-- R116: the first failed attempt of four is tried again after 10 s. -/
theorem test_attach_fail :
    let p := powered .attaching onAir
    (after (.attachFail 1) { p with
      radio := { p.radio with phase := .awaiting, attempts := 1 }
      path := { p.path with service := .stranded, classes := PerClass.ofFn fun _ => blocked .noPath } }
      ).radio.retry = some 11000 := by decide
theorem test_detached :
    (after (.detached 2) onAir).path.service = .stranded ∧
      (after (.detached 2) onAir).radio.lastDetach = some .network := by decide
/-- R164: below 256 INTERACTIVE is shed too. -/
theorem test_signal_report :
    (after (.signalReport 3 255 4) onAir).relay.shed = ⟨false, false, true, true⟩ := by decide
/-- R127. -/
theorem test_up_accept :
    let q := after (.upAccept 5 3) { wired with radio := { wired.radio with outstanding := [sentFrame] } }
    q.radio.outstanding = [] ∧ q.events.counters.bytesSent = 3 ∧
      (q.uplink.entries.map Entry.state).take 2 = [.sent, .idle] := by decide
/-- R128: NOT_ATTACHED is a radio loss; the frame keeps MODULE_REJECT. -/
theorem test_up_reject :
    let q := after (.upReject 5 3) { wired with radio := { wired.radio with outstanding := [sentFrame] } }
    q.radio.state = .attaching ∧ (q.uplink.entries.map Entry.reason).take 1 = [some .moduleReject] := by decide
theorem test_reset_notice : (after .resetNotice onAir).radio.state = .starting := by decide
/-- R187, R188: two frames missed before the third; the slot is filled. -/
theorem test_data_down :
    let q := after (.dataDown { serviceId := 1, cls := 9, sequence := 12 } [1, 2])
      { wired with delivery := { wired.delivery with
        fill := 31, number := 65535, expected := ⟨none, none, none, some 10⟩ } }
    q.events.counters.downlinkGaps = 2 ∧ q.delivery.fill = 0 ∧ q.delivery.number = 0 ∧
      q.delivery.slots.getD 31 none =
        some { cls := .bulk, bytes := [1, 2], carriage := 12, number := 65535 } := by decide
/-- R116: the last attempt's answer timer ends the series; with demand on the wait is 120 s. -/
theorem test_answer_timer_expiry :
    let p := powered .attaching onAir
    let q := after .answerTimerExpiry { p with
      radio := { p.radio with phase := .awaiting, attempts := 4, answer := some 1000 }
      path := { p.path with service := .stranded, classes := PerClass.ofFn fun _ => blocked .noPath } }
    q.radio.state = .idle ∧ q.radio.reattempt = some 121000 := by decide
theorem test_retry_timer_expiry :
    let p := powered .attaching onAir
    (after .retryTimerExpiry { p with
      radio := { p.radio with phase := .retryWait, attempts := 1, retry := some 1000 }
      path := { p.path with service := .stranded, classes := PerClass.ofFn fun _ => blocked .noPath } }
      ).radio.attempts = 2 := by decide
theorem test_re_attempt_timer_expiry :
    let p := powered .idle onAir
    (after .reAttemptTimerExpiry { p with
      radio := { p.radio with reattempt := some 1000 }
      path := { p.path with service := .stranded, classes := PerClass.ofFn fun _ => blocked .noPath } }
      ).radio.state = .attaching := by decide
/-- R112, R113: demand off in ATTACHED asks the module to detach. -/
theorem test_linger_expiry :
    let p := powered .attached live
    let q := after .lingerExpiry { p with radio := { p.radio with demand := true, linger := some 1000 } }
    q.radio.demand = false ∧ q.radio.state = .detaching := by decide
theorem test_detach_timer_expiry :
    let p := powered .detaching live
    (after .detachTimerExpiry { p with radio := { p.radio with detach := some 1000 } }).radio.state = .idle := by
  decide
/-- R129: the third timeout in a row is a radio loss. -/
theorem test_accept_timer_expiry :
    let q := after (.acceptTimerExpiry 5)
      { wired with radio := { wired.radio with outstanding := [sentFrame], timeouts := 2 } }
    q.radio.state = .recovering ∧ (q.uplink.entries.map Entry.reason).take 1 = [some .linkTimeout] := by decide
/-- R119: ATTACH_REQ of profile 3 under link sequence 0x0102. -/
theorem test_attach_req_start :
    let p := powered .attaching onAir
    let q := after .attachReqStart { p with
      radio := { p.radio with phase := .pending, control := some (.attachReq 3), linkSeq := 0x0102 }
      path := { p.path with service := .stranded, classes := PerClass.ofFn fun _ => blocked .noPath } }
    (q.radio.lane.map fun t => t.bytes.take 9) = some [0x01, 0, 0, 1, 0x01, 0x02, 0, 0, 3] ∧
      q.radio.linkSeq = 0x0103 := by decide
/-- R119: 0x81 as sent, least significant bit first between start and stop bit; a DATA_UP of 1558 bytes ends
1997.5 microseconds after it began. -/
theorem test_byte_on_the_line :
    byteOnLine 0x81 = [.start, .data true, .data false, .data false, .data false, .data false, .data false,
      .data false, .data true, .stop] := by decide
theorem test_longest_transfer (bytes : List Byte) (h : bytes.length = 1558) :
    transferNanoseconds bytes = 1997500 := by
  unfold transferNanoseconds
  rw [h]
  rfl
theorem test_detach_req_start :
    let p := powered .attached live
    (after .detachReqStart { p with radio := { p.radio with control := some (.detachReq true) } }).radio.detach =
      some 6000 := by decide
/-- R126: the accept timer starts at the end of the transfer. -/
theorem test_transfer_end :
    ((after .transferEnd { wired with radio := { wired.radio with
      outstanding := [{ sentFrame with accept := none }]
      lane := some { bytes := [], owes := .accept 5, ends := 1000 } } }).radio.outstanding.map Sent.accept) =
      [some 1200] := by decide

/-! ### Relay -/

set_option maxRecDepth 20000 in
/-- Chapter 8, "Waiting for credit", the third millisecond: 10000 bits send a frame of 1200 bytes. -/
theorem test_credit_accrual_sends :
    (after .creditAccrual (waiting [{ voiceFrame with bytes := List.replicate 1200 0 }]
      { wired with relay := { wired.relay with credit := 8000 } })).relay.credit = 112 := by decide
/-- Chapter 8, "At the ceiling": 12,500 bits and a grant of 500 stop at 12,576. -/
theorem test_credit_accrual_stops_at_the_top :
    (after .creditAccrual { wired with
      radio := { wired.radio with grant := 500 }
      relay := { wired.relay with credit := 12500, depth := 1572 } }).relay.credit = 12576 := by decide
/-- R175, R176: the carriage sequence is taken and the parts are SENDING. -/
theorem test_data_up_start :
    let q := after .dataUpStart (waiting [voiceFrame] wired)
    q.radio.outstanding = [{ sentFrame with carriage := 0, link := 0, accept := none }] ∧
      q.relay.nextSeq.voice = 1 ∧ (q.uplink.entries.map Entry.state).take 1 = [.sending] := by decide
/-- R163: 60 ms is VOICE's age limit. -/
theorem test_age_expiry :
    let old := { voiceFrame with enqueued := 940 }
    (after (.ageExpiry .voice) (waiting [old] { wired with radio := { wired.radio with buffers := 0 } })
      ).relay.queues.voice = [] ∧
    (after (.ageExpiry .voice) (waiting [{ old with enqueued := 941 }]
      { wired with radio := { wired.radio with buffers := 0 } })).relay.queues.voice.length = 1 := by decide

/-! ### Witnesses: for each statement, states and operands that meet the hypotheses of each of its clauses -/

/-- What the end of an event asks of the part in the statements: no forced request on a free lane, no drained
class, draining only on air, demand following its wants, classes on FIBRE empty, frames in their own queues. -/
structure Settled (p : Part) : Prop where
  stays : p.Stays
  drained : p.NoneDrained
  onAir : p.DrainsOnAir
  follows : p.DemandFollows
  empty : p.FibreIsEmpty
  byClass : p.QueuedByClass

/-- The same as a check. -/
def settles (p : Part) : Bool :=
  (p.radio.control != some (.detachReq true) || p.radio.lane.isSome) &&
    (classes.all fun c =>
      let k := p.path.classes.get c
      (k.sub != .draining ||
        (!(p.relay.queues.get c == [] && p.sentOf c == []) && p.radio.state == .attached &&
          (p.path.service == .returning || p.path.service == .forcedFibre))) &&
      (k.word != .fibre || p.relay.queues.get c == []) &&
      (p.relay.queues.get c).all fun f => f.cls == c) &&
    (if p.wants then p.radio.demand && p.radio.linger == none else !p.radio.demand || p.radio.linger.isSome)

theorem settled {p : Part} (h : settles p = true) : Settled p := by
  unfold settles at h
  simp only [Bool.and_eq_true, List.all_eq_true] at h
  obtain ⟨⟨h1, h2⟩, h3⟩ := h
  have h2 : ∀ c : ServiceClass, _ := fun c => h2 c (by cases c <;> decide)
  refine ⟨?_, fun c hs => ?_, fun c hs => ?_, ?_, fun c hw => ?_, fun c f hf => ?_⟩
  · simpa [Part.Stays] using h1
  · have := (h2 c).1.1
    simp [hs] at this
    rintro ⟨h4, h5⟩
    simp [h4, h5] at this
  · have := (h2 c).1.1; simp [hs] at this; exact ⟨this.1.2, this.2⟩
  · constructor
    · intro hw; simpa [hw] using h3
    · intro hw hd; simpa [hw, hd] using h3
  · have := (h2 c).1.2; simpa [hw] using this
  · simpa using (h2 c).2 f hf

/-- The part takes a command that is written whole. -/
def canTake (p : Part) : Bool :=
  p.channel.state == .active && p.channel.learned &&
    p.channel.row 7 == some (BitVec.ofNat 15 (p.windows.strap.toNat * 2048)) && p.command.running == none

theorem opened {p : Part} (h : canTake p = true) : p.AnchorOpen := by
  simp only [canTake, Bool.and_eq_true, beq_iff_eq] at h
  exact ⟨h.1.1.1, h.1.1.2, h.1.2⟩

theorem takes {p : Part} (ps : List Byte) (h : canTake p = true) : p.Takes (slotWrite 9 ps) := by
  refine ⟨opened h, ⟨rfl, fun _ => ?_⟩, ?_⟩
  · show (0 : BitVec 3).toNat < 4
    decide
  · simp only [canTake, Bool.and_eq_true, beq_iff_eq] at h
    exact h.2

theorem test_witness_LineChangesNeedTheirSamples :
    live.clock.firstTaken = true ∧ ∃ t, step { pending := [], part := live } = .next t := ⟨rfl, _, rfl⟩

theorem test_witness_FirstMillisecondTakesTheLines :
    live.clock.firstTaken = true ∧ State.reset.part.clock.firstTaken = false := by decide

theorem test_witness_ChannelReset :
    (after .powerDownEntry live).channel.state ≠ .inReset ∧
      (after (.channelResetAssert .none) live).channel.state = .inReset := by decide

/-- SET_EVENTS, FORCE and RADIO_DETACH cut after their first beat, the last two with their result DONE. -/
theorem test_witness_ChannelReset_cut_commands :
    live.Takes (slotWrite 9 []) ∧ 0 < 1 ∧
    (after (.channelResetAssert (.write (headerWrite 0x0D (slotWrite 9 [])) 1)) live).command.result = 0x01 ∧
    (after (.channelResetAssert (.write (headerWrite 0x10 (slotWrite 9 [])) 1)) live).command.result = 0x01 :=
  ⟨takes _ (by decide), by decide +kernel⟩

/-- A report cut after one beat, a SET_THRESHOLDS cut after the beats of its four rising thresholds, and a write to a
line the part does not watch. -/
theorem test_witness_ChannelReset_cut_writes :
    let report := anchorWrite 0x160 (anchorLine [2])
    let header := headerWrite 0x0A (slotWrite 9 [100, 0, 0x40, 0x06, 0x88, 0x13, 0x10, 0x27])
    let ls (beats : Nat) (w : WriteBurst) :=
      carried (lit.channel.chopped w.place) (w.place.column.toNat % 8) beats w.lanes
    let hit (w : WriteBurst) := lit.windows.classify (lineAddress 0 w.place)
    let st := thresholdsIn (parameterBlock (mergeLanes lit.command.header (ls 3 header)) lit.command.params)
    lit.channel.state = .active ∧ lit.channel.learned = true ∧ lit.channel.row 7 = some 0 ∧
    (hit report = .report ∧ lit.health.settings.reportTimeout ≠ 0 ∧ lane (ls 1 report) 0 = some 2) ∧
    (hit header = .header ∧ lit.command.running = none ∧ headerCommand (ls 3 header) = some (0x0A, 9) ∧
      st.alarmLow < st.warnLow ∧ st.warnLow < st.warnHigh ∧ st.warnHigh < st.alarmHigh) ∧
    lit.windows.classify (lineAddress 0 (burst 7 512)) = .plain := by
  decide +kernel

theorem test_witness_CutWriteCarriesItsBeats : 7 < 8 ∧ 31 < 32 ∧ 0 < 8 ∧ live.channel.state = .active := by decide

theorem test_witness_BankTable : live.channel.state = .active := rfl

/-- Register 0: read latency values 1, 5 and 14, the burst codings, and the three ways to be invalid; register 1:
the three additive latencies and the fourth coding. -/
theorem test_witness_ModeSet :
    let latency (n : Nat) := 2 * (n / 16 % 8) + n / 4 % 2
    let sound (n : Nat) := latency n ≠ 0 ∧ (latency n % 2 = 0 ∨ latency n ≤ 5)
    live.channel.state = .active ∧
    (0x04 % 4 = 0 ∧ sound 0x04) ∧ (0x25 % 4 = 1 ∧ sound 0x25) ∧ (0x72 % 4 = 2 ∧ sound 0x72) ∧
    0x73 % 4 = 3 ∧ latency 0 = 0 ∧ (latency 0x34 % 2 = 1 ∧ 5 < latency 0x34) ∧
    0x00 / 8 % 4 = 0 ∧ 0x08 / 8 % 4 = 1 ∧ 0x10 / 8 % 4 = 2 ∧ 0x18 / 8 % 4 = 3 := by decide

/-- Pins of a no-op. -/
def noOpPins : ChannelPins :=
  { cke := .steady, cs := false, ras := true, cas := true, we := true, bank := 0, addr := 0, lanes := []
    dram := [] }

theorem test_witness_SleepingChannel :
    live.channel.state = .active ∧ (after .powerDownEntry live).channel.state = .powerDown ∧
    (after .selfRefreshEntry live).channel.state = .selfRefresh ∧
    (after (.channelResetAssert .none) live).channel.state = .inReset ∧
    channelOp .refresh = some (.named .refresh) ∧ channelOp (.commandOutOfPlace noOpPins) = some (.pins noOpPins) ∧
    (DramCommand.pins noOpPins).op = .noOp ∧ (DramCommand.pins { noOpPins with cs := true }).op = .deselect ∧
    channelOp (.commandOutOfPlace { noOpPins with cke := .rising }) = some (.pins { noOpPins with cke := .rising }) ∧
    (DramCommand.pins { noOpPins with cke := .rising }).op = .exit := by
  decide

theorem test_witness_CommandCoding :
    (3 : BitVec 3).toNat < 4 ∧ live.channel.state = .active ∧
    channelOp .refresh = some (.named (sortCommand { noOpPins with ras := false, cas := false })) ∧
    sortCommand noOpPins = .noOp ∧ sortCommand { noOpPins with cs := true } = .deselect ∧
    sortCommand { noOpPins with we := false } = .calibration := by decide

/-- A read of bank 7, column `column`. -/
def reading (column : BitVec 10) : ReadBurst := { place := burst 7 column, dram := List.replicate 32 0 }

theorem test_witness_StrayAccess :
    channelOp (.lineRead { reading 0 with place := burst 3 0 }) = some (.named (.read { reading 0 with place := burst 3 0 })) ∧
    (DramCommand.named (.read { reading 0 with place := burst 3 0 })).op.burst = some (burst 3 0) ∧
    live.channel.state = .active ∧ live.channel.row 3 = none := by decide

/-- The last line of the status page is owned, the line after it is not. -/
theorem test_witness_LineRead :
    live.channel.state = .active ∧ live.channel.row 7 = some 0 ∧
    ownerLine (live.windows.classify (lineAddress 0 (burst 7 64))) live = none ∧
    ownerLine (live.windows.classify (lineAddress 0 (burst 7 56))) live = some (List.replicate 32 0) ∧
    (live.channel.learned = true ∧ live.channel.readout = false ∧ live.channel.outputDisable = false) ∧
    ¬((after (.modeSet 3 4) live).channel.learned = true ∧ (after (.modeSet 3 4) live).channel.readout = false ∧
      (after (.modeSet 3 4) live).channel.outputDisable = false) := by decide

theorem test_witness_WritePassesOrIsWithheld :
    writeOf (.post (descriptor 0 0 0 0 0)) = some (descriptorWrite 1 (descriptor 0 0 0 0 0)) ∧
    live.channel.state = .active ∧ live.channel.row 7 = some 0 ∧
    (live.windows.classify (lineAddress 0 (burst 7 0))).capturing = false ∧
    (live.windows.classify (lineAddress 0 (burst 7 64))).capturing = true ∧
    (after (.modeSet 0 0) live).channel.learned = false := by decide

theorem test_witness_SubstitutedLines :
    live.command.data.length = 16 ∧ 15 < 16 ∧
    [ServiceClass.voice, .signal, .interactive, .bulk][3]? = some .bulk ∧
    wired.uplink.entries[2 * 3 + 1]? = wired.uplink.entries[0]? ∧ 1 < 2 ∧ 31 < 32 := by decide

theorem test_witness_SlotWritesMerge :
    live.AnchorOpen ∧ live.command.params.length = 32 ∧
    lane (live.lanesOf (anchorWrite 0x100 { anchorLine [] with lanes := carrying 4 [1] })) 3 = none ∧
    headerRow (.identify (slotWrite 9 [])) = some (0x01, slotWrite 9 []) ∧
    ¬live.CarriesCommand { slotWrite 9 [] with second := none } :=
  ⟨opened (by decide), by decide, by decide, rfl, fun h => Bool.noConfusion h.1⟩

theorem test_witness_RefusedWhileBusy :
    let p := { live with command := { live.command with running := some .radioAttach } }
    headerRow (.restart (slotWrite 9 [])) = some (0x02, slotWrite 9 []) ∧ p.AnchorOpen ∧
      p.CarriesCommand (slotWrite 9 []) ∧ p.command.running.isSome = true :=
  ⟨rfl, ⟨rfl, rfl, rfl⟩, ⟨rfl, fun h => Bool.noConfusion h⟩, rfl⟩

theorem test_witness_UnknownCommandAndIdentify :
    live.Takes (slotWrite 9 []) ∧ (0 : Byte) = 0 ∧ 0x11 < (0x12 : Byte).toNat ∧ 0x11 < (0xFF : Byte).toNat :=
  ⟨takes _ (by decide), by decide⟩

theorem test_witness_FlagsAndCounters : live.Takes (slotWrite 9 []) ∧ live.AnchorOpen :=
  ⟨takes _ (by decide), opened (by decide)⟩

/-- A table at the top of the address space fits; one a line further does not; an entry QUEUED is in use. -/
theorem test_witness_DefineUplink :
    live.Takes (slotWrite 9 []) ∧
    Admits ({ wired.windows with uplink := none } : Windows).regions [{ base := 0x3FFFFF80, size := 128 }] ∧
    ¬Admits ({ wired.windows with uplink := none } : Windows).regions [{ base := 0x3FFFFFA0, size := 128 }] ∧
    ¬(∃ e ∈ wired.uplink.entries, e.state = .queued ∨ e.state = .sending) ∧
    ∃ e ∈ (after (.post (descriptor 0 0x101000 4 0 0))
        { wired with
          channel := { wired.channel with burstMode := .onTheFly }
          radio := { wired.radio with buffers := 0 }
          uplink := { wired.uplink with
            staging := [{ line := 0x101000, lanes := List.replicate 32 (some 7) }] } }).uplink.entries,
      e.state = .queued ∨ e.state = .sending := by
  refine ⟨takes _ (by decide), ?_, ?_, by decide, by decide⟩ <;> unfold Admits Window.apart <;> decide

theorem test_witness_DefineCapture :
    wired.Takes (slotWrite 9 []) ∧
    Admits ({ wired.windows with captures := wired.windows.captures.set 3 none } : Windows).regions
      [{ base := 0x102000, size := 32 }] ∧
    ¬Admits ({ wired.windows with captures := wired.windows.captures.set 3 none } : Windows).regions
      [{ base := 0x101FE0, size := 32 }] := by
  refine ⟨takes _ (by decide), ?_, ?_⟩ <;> unfold Admits Window.apart <;> decide

theorem test_witness_DefineDelivery :
    let ps (operation : Byte) := slotParams 0x07 (slotWrite 9 [0, 0, 0, 0, 0, 0, 0, 0, operation]) wired
    wired.Takes (slotWrite 9 []) ∧ param8 (ps 0) 8 = 0 ∧ param8 (ps 1) 8 = 1 ∧ 1 < param8 (ps 2) 8 ∧
    Admits ({ wired.windows with delivery := none } : Windows).regions
      [{ base := 0x8080, size := 512 }, { base := 0x8280, size := 49152 }] ∧
    ¬Admits ({ wired.windows with delivery := none } : Windows).regions
      [{ base := 0x9000, size := 512 }, { base := 0x91E0, size := 49152 }] := by
  refine ⟨takes _ (by decide), by decide, by decide, by decide, ?_, ?_⟩ <;> unfold Admits Window.apart <;> decide

theorem test_witness_LatchesAndPathTimers : live.Takes (slotWrite 9 []) := takes _ (by decide)

theorem test_witness_ClampMaskNamesChanges : 31 < [List.replicate 32 0].flatten.length ∧ 32 ≤ 32 := by decide

/-- The run reaches an interval of 600 s at 600000 ms and not a millisecond before; it goes on in RADIO on a BAD
verdict, with the module absent and present. -/
theorem test_witness_SetOptics :
    let run (now : Nat) : Part :=
      { lit with clock := { lit.clock with now := now }, optical := { lit.optical with run := some 0 } }
    let st : OpticalSettings := { live.optical.settings with interval := 600 }
    lit.Takes (slotWrite 9 []) ∧ (run 600000).RunReached st ∧ ¬(run 599999).RunReached st ∧
      lit.optical.present = true ∧ live.optical.present = false ∧ Settled lit ∧ Settled onAir ∧
      onAir.Takes (slotWrite 9 []) ∧ onAir.optical.run = none ∧
      (onAir.path.service = .radio ∧ onAir.path.verdict = .bad ∧ onAir.optical.window = .none) ∧
      ¬lit.path.service = .radio := by
  refine ⟨takes _ (by decide), ⟨0, rfl, by decide, by decide⟩, ?_, rfl, rfl, settled (by decide), settled (by decide),
    takes _ (by decide), rfl, by decide, by decide⟩
  rintro ⟨b, hb, -, h⟩
  cases hb
  exact absurd h (by decide)

theorem test_witness_FibreRestart :
    onAir.Takes (slotWrite 9 []) ∧ onAir.optical.present = false ∧
    let p := { onAir with optical := { onAir.optical with present := true } }
    p.Takes (slotWrite 9 []) ∧
      ¬(p.optical.present = false ∨ p.optical.window ≠ .none ∨ p.path.service = .fibre ∨ p.path.service = .suspect ∨
        p.path.service = .returning ∨ p.path.service = .forcedFibre) :=
  ⟨takes _ (by decide), rfl, takes _ (by decide), by decide⟩

/-- The four thresholds at the top of their range, and all equal. -/
theorem test_witness_SetThresholds :
    let rising (ps : List Byte) := param16 ps 0 < param16 ps 2 ∧ param16 ps 2 < param16 ps 4 ∧ param16 ps 4 < param16 ps 6
    lit.Takes (slotWrite 9 []) ∧ ¬rising (slotParams 0x0A (slotWrite 9 []) lit) ∧
    rising (slotParams 0x0A (slotWrite 9 [0xFC, 0xFF, 0xFD, 0xFF, 0xFE, 0xFF, 0xFF, 0xFF]) lit) :=
  ⟨takes _ (by decide), by decide, by decide⟩

theorem test_witness_ForceAndRadioTest :
    live.Takes (slotWrite 9 []) ∧ 2 < param8 (slotParams 0x0D (slotWrite 9 [3]) live) 0 ∧
    param8 (slotParams 0x0D (slotWrite 9 [2]) live) 0 = 2 ∧ Settled live ∧
    live.path.test = false ∧ live.path.test ≠ true :=
  ⟨takes _ (by decide), by decide, by decide, settled (by decide), rfl, by decide⟩

theorem test_witness_SetRadio :
    live.Takes (slotWrite 9 []) ∧ 1 < param8 (slotParams 0x0E (slotWrite 9 [2]) live) 0 ∧
    param8 (slotParams 0x0E (slotWrite 9 [1]) live) 0 ≤ 1 := ⟨takes _ (by decide), by decide, by decide⟩

/-- A transfer under way. -/
def busy : Transfer := { bytes := [], owes := .nothing, ends := 1001 }

/-- `p` with the lane busy. -/
def laned (p : Part) : Part := { p with radio := { p.radio with lane := some busy } }

theorem test_witness_RadioAttach :
    (powered .absent live).Takes (slotWrite 9 []) ∧ onAir.Takes (slotWrite 9 []) ∧
    (powered .idle live).Takes (slotWrite 9 []) ∧ (laned (powered .idle live)).Takes (slotWrite 9 []) ∧
    (powered .starting live).Takes (slotWrite 9 []) ∧
    (powered .absent live).radio.state = .absent ∧ onAir.radio.state = .attached ∧
    (powered .idle live).radio.state = .idle ∧ (powered .idle live).radio.lane = none ∧
    (laned (powered .idle live)).radio.lane.isSome = true ∧ (powered .starting live).radio.state ≠ .idle := by
  refine ⟨takes _ (by decide), takes _ (by decide), takes _ (by decide), takes _ (by decide), takes _ (by decide), ?_⟩
  decide

theorem test_witness_RadioDetach :
    let refused (p : Part) :=
      p.path.service = .radio ∨ p.path.service = .proving ∨ p.path.service = .forcedRadio
    (onAir.Takes (slotWrite 9 []) ∧ refused onAir) ∧
    ((powered .idle live).Takes (slotWrite 9 []) ∧ ¬refused (powered .idle live) ∧
      (powered .idle live).radio.state ≠ .attached) ∧
    ((powered .attached live).Takes (slotWrite 9 []) ∧ ¬refused (powered .attached live) ∧
      (powered .attached live).radio.state = .attached ∧ (powered .attached live).radio.lane = none) ∧
    (laned (powered .attached live)).Takes (slotWrite 9 []) ∧
      (laned (powered .attached live)).radio.lane.isSome = true :=
  ⟨⟨takes _ (by decide), by decide⟩, ⟨takes _ (by decide), by decide, by decide⟩,
    ⟨takes _ (by decide), by decide, by decide, by decide⟩, takes _ (by decide), by decide⟩

/-- `wired` is ATTACHED with a free lane. -/
theorem wired_open : wired.Open :=
  have h : Settled wired := settled (by decide)
  ⟨rfl, ⟨rfl, rfl⟩, ⟨rfl, h.follows⟩, h.drained⟩

/-- The class limits at their greatest sum, 2048, and one block above it; a change of limits with a frame held. -/
theorem test_witness_SetRelay :
    let p := waiting [voiceFrame] wired
    wired.Takes (slotWrite 9 []) ∧ p.Takes (slotWrite 9 []) ∧ 2048 < 257 + 256 + 512 + 1024 ∧
    256 + 256 + 512 + 1024 ≤ 2048 ∧ (⟨255, 256, 512, 1024⟩ : PerClass Nat) ≠ p.relay.limits ∧
    ¬(p.radio.outstanding = [] ∧ ∀ c, p.relay.queues.get c = []) ∧
    (⟨256, 256, 512, 1024⟩ : PerClass Nat) = p.relay.limits ∧
    (wired.radio.outstanding = [] ∧ ∀ c, wired.relay.queues.get c = []) ∧ (laned wired).Still ∧ wired.Open ∧
    Settled p := by
  refine ⟨takes _ (by decide), takes _ (by decide), by decide, by decide, by decide, fun h => ?_, by decide,
    ⟨rfl, fun c => ?_⟩, .inl rfl, wired_open, settled (by decide)⟩
  · exact absurd (h.2 .voice) (by decide)
  · cases c <;> rfl

theorem test_witness_Restart :
    (laned wired).Takes (slotWrite 9 []) ∧ (laned wired).Still ∧ wired.Takes (slotWrite 9 []) ∧ Settled wired ∧ wired.Open :=
  ⟨takes _ (by decide), .inl rfl, takes _ (by decide), settled (by decide), wired_open⟩

theorem test_witness_FibreReports :
    live.AnchorOpen ∧
    (live.health.settings.reportTimeout ≠ 0 ∧ lane (live.lanesOf (anchorWrite 0x160 (anchorLine [2]))) 0 = some 2) ∧
    ¬(lane (live.lanesOf (anchorWrite 0x160 (anchorLine [3]))) 0 = some 1 ∨
      lane (live.lanesOf (anchorWrite 0x160 (anchorLine [3]))) 0 = some 2) ∧
    (∃ since, Staleness.running 0 = .running since ∧
      since + live.health.settings.reportTimeout ≤ live.clock.now) ∧
    ¬∃ since, Staleness.running 1 = .running since ∧
      since + live.health.settings.reportTimeout ≤ live.clock.now := by
  refine ⟨opened (by decide), by decide, by decide, ⟨0, rfl, by decide⟩, ?_⟩
  rintro ⟨n, hn, h⟩
  cases hn
  exact absurd h (by decide)

/-- The last line of the window, written with every byte and with none; and a full store without the line. -/
theorem test_witness_CaptureWrites :
    wired.channel.state = .active ∧ wired.channel.learned = true ∧ wired.channel.row 1 = some 32 ∧
    wired.windows.classify (lineAddress 32 (burst 1 1016)) = .capture ∧
    (∀ b, b < 32 → lane (wired.lanesOf { place := burst 1 1016, lanes := List.replicate 32 none }) b = none) ∧
    ¬(∀ b, b < 32 → lane (wired.lanesOf { place := burst 1 1016, lanes := List.replicate 32 (some 1) }) b = none) ∧
    (let p := { stocked with channel := { stocked.channel with banks := stocked.channel.banks.set 1 (some 33) } }
     p.channel.state = .active ∧ p.channel.learned = true ∧ p.channel.row 1 = some 33 ∧
       p.windows.classify (lineAddress 33 (burst 1 0)) = .capture ∧
       (∀ e ∈ p.uplink.staging, e.line ≠ lineAddress 33 (burst 1 0)) ∧ 1024 ≤ p.uplink.staging.length) := by
  refine ⟨by decide, by decide, by decide, by decide, by decide, by decide, ?_⟩
  decide +kernel

theorem test_witness_Releases :
    wired.channel.state = .active ∧ wired.channel.learned = true ∧ wired.channel.row 2 = some 1 ∧
    wired.windows.classify (lineAddress 1 (burst 2 120)) = .ring 15 := by decide

/-- The lower half-line alone of the first table line, the upper alone of the last; nothing that posts. -/
theorem test_witness_UplinkTableWrites :
    let w : WriteBurst := { place := burst 0 0, lanes := carrying 7 [1] }
    let v : WriteBurst := { place := burst 0 24, lanes := carrying 23 [0] }
    writeOf (.lineWrite w) = some w ∧ wired.ReachesTable w 0 ∧ wired.ReachesTable v 3 ∧
    (∀ b, b < 16 → lane (laneSlice (wired.lanesOf w) 16 16) b = none) ∧
    (∀ b, b < 16 → lane (laneSlice (wired.lanesOf v) 0 16) b = none) ∧
    (∀ e ∈ wired.uplink.entries, e.host.length = 16) ∧
    (∀ k, k < 2 → (laneSlice (wired.lanesOf w) (16 * k) 16).all Option.isSome = true →
      lane (laneSlice (wired.lanesOf w) (16 * k) 16) 7 ≠ some 1 ∧
      lane (laneSlice (wired.lanesOf w) (16 * k) 16) 7 ≠ some 2) ∧
    (laned wired).ReachesTable w 0 ∧ (laned wired).Still ∧ Settled wired ∧ wired.Open :=
  ⟨rfl, ⟨rfl, rfl, 1, by decide, by decide⟩, ⟨rfl, rfl, 1, by decide, by decide⟩, by decide, by decide, by decide,
    by decide, ⟨rfl, rfl, 1, by decide, by decide⟩, .inl rfl, settled (by decide), wired_open⟩

/-- `wired` with the lane busy, bursts chopped by their flag, and every entry in state `st`. -/
def entriesAt (st : EntryState) : Part :=
  laned { wired with
    channel := { wired.channel with burstMode := .onTheFly }
    uplink := { wired.uplink with entries := wired.uplink.entries.map fun e => { e with state := st } } }

/-- An entry of that state. -/
def entryIn (st : EntryState) : Entry :=
  { host := List.replicate 16 0, state := st, reason := none, carriage := 0 }

/-- The descriptor reaches entry `i` in line `m`, as a check. -/
def givesAt (give : Byte) (d : DescriptorBurst) (m i : Nat) (e : Entry) (p : Part) : Bool :=
  p.channel.state == .active && p.channel.learned && p.channel.row d.place.bank == some 1 &&
    p.windows.classify (lineAddress 1 d.place) == .uplink m && i == 2 * m + halfOf d &&
    ((List.range 16).all fun b =>
      lane (p.lanesOf (descriptorWrite give d)) (16 * (1 - halfOf d) + b) == none) &&
    p.uplink.entries[i]? == some e && e.host.length == 16

theorem gives {give : Byte} {d : DescriptorBurst} (m : Nat) {i : Nat} {e : Entry} {p : Part}
    (h : givesAt give d m i e p = true) : p.Gives give d i e := by
  simp only [givesAt, Bool.and_eq_true, beq_iff_eq, List.all_eq_true, List.mem_range] at h
  obtain ⟨⟨⟨⟨⟨⟨⟨h1, h2⟩, h3⟩, h4⟩, h5⟩, h6⟩, h7⟩, h8⟩ := h
  exact ⟨⟨m, ⟨h1, h2, 1, h3, h4⟩, h5⟩, h6, h7, h8⟩

theorem test_witness_PostsAndWithdraws :
    (∀ st, (entriesAt st).Gives 1 (descriptor 24 0x101000 4 0 1) 6 (entryIn st)) ∧
    (∀ st, (entriesAt st).Gives 2 (descriptor 24 0x101000 4 0 1) 6 (entryIn st)) ∧
    (∀ st, (entriesAt st).Still ∧ Settled (entriesAt st) ∧ (entryIn st).state = st) ∧ (descriptor 24 0x101000 4 0 1).chain ≠ 0 ∧
    let f : Frame := { voiceFrame with parts := [5, 6] }
    let p := waiting [f] (entriesAt .queued)
    p.Gives 2 (descriptor 24 0x101000 4 0 1) 6 (entryIn .queued) ∧ f.cls = .voice ∧
      f ∈ p.relay.queues.get .voice ∧ 6 ∈ f.parts ∧
      ∀ c' g, g ∈ p.relay.queues.get c' → 6 ∈ g.parts → g = f := by
  refine ⟨fun st => (by cases st <;> exact gives 3 (by decide)), fun st => (by cases st <;> exact gives 3 (by decide)),
    fun st => ⟨.inl rfl, by cases st <;> exact settled (by decide), rfl⟩, by decide, gives 3 (by decide), rfl, by decide, by decide, fun c' g hg hm => ?_⟩
  cases c' <;> simp [waiting, PerClass.get] at hg
  · exact hg

/-- Entries 4 and 5 HELD before entry 6, the rest IDLE: a chain of three parts; a queue with room for the frame,
and one that is full so that VOICE displaces. -/
theorem test_witness_FrameFormation :
    let p : Part := { entriesAt .idle with uplink := { wired.uplink with
      entries := [.idle, .idle, .idle, .idle, .held, .held, .idle, .idle].map entryIn } }
    p.Gives 1 (descriptor 24 0x101000 4 0 0) 6 (entryIn .idle) ∧ (descriptor 24 0x101000 4 0 0).chain = 0 ∧
    (∀ j, 1 ≤ j → j ≤ 2 → (p.uplink.entries.getD ((6 + 8 - j) % 8) (entryIn .idle)).state = .held) ∧
    (p.uplink.entries.getD ((6 + 8 - 3) % 8) (entryIn .idle)).state ≠ .held ∧ p.Still ∧ Settled p ∧
    (0 ≤ [voiceFrame].length ∧ blocksOf ([voiceFrame].drop 0) + 0 + 1 ≤ 256) ∧
    (¬blocksOf ([voiceFrame, voiceFrame].drop 0) + 255 ≤ 256 ∧ blocksOf ([voiceFrame, voiceFrame].drop 1) + 255 ≤ 256) := by
  exact ⟨gives 3 (by decide), rfl, by decide, by decide, .inl rfl, settled (by decide), by decide, by decide⟩

theorem test_witness_Polls :
    (lit.optical.present = true ∧ lit.optical.poll = .waiting ∧ lit.optical.nextPoll = some 1000 ∧
      1000 ≤ lit.clock.now) ∧
    live.optical.present ≠ true ∧
    (let o := { lit.optical with poll := Poll.firstAttempt, began := 975 }
     o.poll = .firstAttempt ∧ o.began + 25 ≤ lit.clock.now ∧ lit.clock.now ≤ o.began + 25) ∧
    (let o := { lit.optical with poll := Poll.retry, began := 975 }
     o.poll = .retry ∧ o.began + 25 ≤ lit.clock.now) ∧ lit.optical.poll ≠ .firstAttempt ∧ Settled lit := by
  refine ⟨by decide, by decide, by decide, by decide, by decide, settled (by decide)⟩

theorem test_witness_OpticalLines :
    live.optical.present = false ∧ lit.optical.present = true ∧ lit.optical.losLevel = false ∧
      lit.optical.losLevel ≠ true ∧ Settled live ∧ Settled lit :=
  ⟨rfl, rfl, rfl, by decide, settled (by decide), settled (by decide)⟩

/-- Each window at the millisecond it ends and at the one before; the automatic run at its interval, the module
absent. -/
theorem test_witness_RestartWindows :
    (let o := { onAir.optical with window := .txOff 1000 0 }
     o.window = .txOff 1000 0 ∧ 1000 ≤ onAir.clock.now ∧ onAir.clock.now < 1001 ∧ o.run = none) ∧
    (let p : Part := { onAir with
       clock := { onAir.clock with now := 600000 }
       optical := { onAir.optical with
         run := some 0, settings := { onAir.optical.settings with interval := 600 } } }
     p.RunReached p.optical.settings ∧ p.optical.present = false ∧ p.RunFollows ∧ Settled p) ∧
    ¬onAir.RunReached onAir.optical.settings ∧ Settled onAir :=
  ⟨by decide, ⟨⟨0, rfl, by decide, by decide⟩, rfl, ⟨fun _ => ⟨rfl, rfl, rfl, by decide⟩, fun _ => rfl⟩,
    settled (by decide)⟩, fun ⟨_, h, _⟩ => (by cases h), settled (by decide)⟩

theorem test_witness_PathTimers :
    (∃ m, (some 1000 : Timer) = some m ∧ m ≤ live.clock.now) ∧
    ¬(∃ m, (some 1001 : Timer) = some m ∧ m ≤ live.clock.now) ∧ quieting.path.classes.voice.sub = .waitingQuiet ∧
    Settled onAir ∧ Settled quieting ∧ (laned quieting).Still ∧ quieting.path.verdict ≠ .bad ∧
    ∀ d, (quieting.path.classes.get d).sub = .draining → (quieting.path.classes.get d).word ≠ .fibre := by
  refine ⟨⟨_, rfl, by decide⟩, ?_, rfl, settled (by decide), settled (by decide), .inl rfl, by decide, fun d => ?_⟩
  · rintro ⟨m, hm, h⟩
    cases hm
    exact absurd h (by decide)
  · cases d <;> decide

theorem test_witness_ModuleRestarts :
    onAir.radio.present = true ∧ (powered .absent live).radio.state = .absent ∧
    ((powered .starting live).radio.state = .starting ∧ ∃ m, (some 1000 : Timer) = some m ∧ m ≤ live.clock.now) ∧
    (powered .idle live).radio.state = .idle ∧ (powered .recovering live).radio.state = .recovering ∧
    live.radio.present ≠ true ∧ Settled onAir :=
  ⟨rfl, rfl, ⟨rfl, _, rfl, by decide⟩, rfl, rfl, by decide, settled (by decide)⟩

theorem test_witness_ModuleIdles :
    live.radio.state = .off ∧ (powered .starting live).radio.state = .starting ∧
    (powered .idle live).radio.state = .idle ∧ (powered .attaching live).radio.state = .attaching ∧
    (powered .attaching live).radio.phase ≠ .awaiting ∧ onAir.radio.state = .attached ∧
    (powered .detaching live).radio.state = .detaching ∧ (∃ m, (some 1000 : Timer) = some m ∧ m ≤ live.clock.now) ∧
    Settled onAir ∧ Settled (powered .idle live) :=
  ⟨rfl, rfl, rfl, rfl, by decide, rfl, rfl, ⟨_, rfl, by decide⟩, settled (by decide), settled (by decide)⟩

/-- In ATTACHING on a BAD verdict, service STRANDED, demand on. -/
def seeking (phase : Phase) (attempts : Nat) : Part :=
  let p := powered .attaching onAir
  { p with
    radio := { p.radio with
      phase := phase, attempts := attempts, answer := some 1000, retry := some 1000, reattempt := some 1000 }
    path := { p.path with service := .stranded, classes := PerClass.ofFn fun _ => blocked .noPath } }

/-- In each state of ATTACHED and IDLE and ATTACHING with demand on and nothing wanted, the linger timer due. -/
def lingering (m : Module) (phase : Phase) : Part :=
  let p := powered m live
  { p with radio := { p.radio with demand := true, linger := some 1000, phase := phase } }

theorem test_witness_AttachAttempts :
    (let r := (seeking .awaiting 3).radio
     r.state = .attaching ∧ r.phase = .awaiting ∧ r.attempts ≤ r.settings.retryCount ∧ r.demand = true ∧
       r.control = none ∧ (∃ m, r.answer = some m ∧ m ≤ 1000)) ∧
    (let r := (seeking .awaiting 4).radio
     ¬r.attempts ≤ r.settings.retryCount) ∧
    (seeking .retryWait 1).radio.phase = .retryWait ∧ (powered .idle live).radio.state = .idle ∧
    live.radio.state = .off ∧ Settled (seeking .awaiting 3) ∧ Settled (seeking .retryWait 1) ∧
    (lingering .attached .none).wants = false ∧ Settled (lingering .attached .none) ∧
    (lingering .idle .none).wants = false ∧ Settled (lingering .idle .none) ∧
    (lingering .attaching .awaiting).wants = false ∧ Settled (lingering .attaching .retryWait) :=
  ⟨⟨rfl, rfl, by decide, rfl, rfl, 1000, rfl, by decide⟩, by decide, rfl, rfl, rfl, settled (by decide),
    settled (by decide), by decide, settled (by decide), by decide, settled (by decide), by decide,
    settled (by decide)⟩

theorem test_witness_Grants :
    live.radio.state = .off ∧ (powered .starting live).radio.state = .starting ∧
    (powered .idle live).radio.state = .idle ∧ onAir.radio.state = .attached ∧ onAir.radio.grant = 2000 ∧
    onAir.radio.grant ≠ 1999 ∧ Settled onAir ∧ (laned onAir).Still ∧
    (let p := seeking .awaiting 1
     p.radio.state = .attaching ∧ p.radio.phase = .awaiting ∧ p.radio.control = none ∧
       p.path.service = .stranded ∧ Settled p) ∧
    Settled wired ∧ (laned (seeking .awaiting 1)).radio.lane.isSome = true :=
  ⟨rfl, rfl, rfl, rfl, rfl, by decide, settled (by decide), .inl rfl,
    ⟨rfl, rfl, rfl, rfl, settled (by decide)⟩, settled (by decide), rfl⟩

theorem test_witness_Answers :
    let r := { onAir.radio with outstanding := [sentFrame] }
    live.radio.state = .off ∧ onAir.radio.state = .attached ∧
    (∀ x ∈ r.outstanding, x.link ≠ 6) ∧ r.outstanding.find? (fun x => x.link = 5) = some sentFrame ∧
    (∃ m, sentFrame.accept = some m ∧ m ≤ onAir.clock.now) ∧
    (¬∃ m, ({ sentFrame with accept := some 1001 } : Sent).accept = some m ∧ m ≤ onAir.clock.now) ∧
    min 3 (1 + 1) < 3 ∧ min 3 (2 + 1) = 3 ∧ Settled onAir ∧ (laned onAir).Still ∧
    (powered .idle live).radio.state ≠ .attached := by
  refine ⟨rfl, rfl, by decide, by decide, ⟨1000, rfl, by decide⟩, ?_, by decide, by decide, settled (by decide),
    .inl rfl, by decide⟩
  rintro ⟨m, hm, h⟩
  cases hm
  exact absurd h (by decide)

set_option maxRecDepth 20000 in
theorem test_witness_Messages :
    live.radio.state = .off ∧ (powered .idle live).radio.state = .idle ∧
    ¬Passes { bytes := [], stopBits := true } ∧
    Passes { bytes := message 0x8F 0 [], stopBits := true } := by
  refine ⟨rfl, rfl, fun h => absurd h.long.1 (by decide), ⟨rfl, by decide, by decide, by decide, ?_⟩⟩
  unfold Fits
  decide

theorem test_witness_MessageCoding_line :
    ∃ p : Machine.Part, ∃ t, p.radio.lane = some t ∧ t.bytes[1]? = some 0 :=
  ⟨{ live with radio := { live.radio with
    lane := some { bytes := message 0x02 1 [], owes := .nothing, ends := 1001 } } }, _, rfl, by decide⟩

theorem test_witness_MessageCoding : ([] : List Byte).length ≤ 1536 ∧ (List.replicate 1536 (0 : Byte)).length ≤ 1536 :=
  ⟨by decide, List.length_replicate.le⟩

theorem test_witness_DataDown :
    live.radio.state = .off ∧ (powered .idle live).radio.state ≠ .attached ∧ onAir.radio.state = .attached ∧
    ([1] : List Byte) ≠ [] ∧ 1536 < (List.replicate 1537 (0 : Byte)).length ∧
    ((List.replicate 1536 (0 : Byte)).length ≤ 1536 ∧ List.replicate 1536 (0 : Byte) ≠ []) ∧
    (onAir.windows.delivery = none) ∧
    ¬((wired.delivery.slots.getD wired.delivery.fill none).isSome = true ∨ wired.windows.delivery = none) ∧
    Settled onAir ∧ Settled wired ∧ (laned onAir).Still ∧ wired.Open := by
  refine ⟨rfl, by decide, rfl, by decide, List.length_replicate.symm ▸ by decide,
    ⟨List.length_replicate.le, fun h => ?_⟩, rfl, by decide, settled (by decide),
    settled (by decide), .inl rfl, wired_open⟩
  exact absurd (List.length_replicate.symm.trans (congrArg List.length h)) (by decide)

/-- ATTACHED in service FIBRE with demand off and a request to detach pending. -/
def parting (forced : Bool) : Part :=
  let p := powered .attached live
  { p with radio := { p.radio with control := some (.detachReq forced) } }

theorem test_witness_Lane :
    (let r := { (seeking .pending 1).radio with control := some (.attachReq 7) }
     r.lane = none ∧ r.control = some (.attachReq 7) ∧ r.state = .attaching ∧ r.demand = true) ∧
    (let r := (parting true).radio
     r.lane = none ∧ r.control = some (.detachReq true) ∧ r.state = .attached) ∧
    (parting false).radio.demand = false ∧
    ((parting true).path.service ≠ .radio ∧ (parting true).path.service ≠ .proving ∧
      (parting true).path.service ≠ .forcedRadio) ∧
    (∀ profile, ¬(live.radio.lane = none ∧ live.radio.control = some (.attachReq profile) ∧
      live.radio.state = .attaching)) ∧
    (∀ forced, ¬(live.radio.lane = none ∧ live.radio.control = some (.detachReq forced) ∧
      live.radio.state = .attached)) ∧
    (laned onAir).radio.lane = some busy ∧ Settled (laned (parting true)) ∧ Settled (laned (parting false)) ∧
    Settled (laned (seeking .pending 1)) ∧
    (let p := laned (seeking .awaiting 1)
     p.radio.control = none ∧ p.radio.state = .attaching ∧ p.radio.phase = .awaiting ∧ Settled p) ∧
    (let p := laned (powered .idle live)
     p.radio.control = none ∧ p.radio.state = .idle ∧ p.radio.demand = false ∧ p.radio.reattempt = none ∧ Settled p) ∧
    (let p := { lingering .idle .none with radio := { (laned (lingering .idle .none)).radio with reattempt := some 1001 } }
     p.radio.control = none ∧ p.radio.demand = true ∧ p.radio.reattempt.isSome = true ∧ Settled p) ∧
    ((laned (powered .starting live)).radio.state ≠ .attached ∧ (laned (powered .starting live)).radio.state ≠ .idle ∧
      (laned (powered .starting live)).radio.control = none) :=
  ⟨⟨rfl, rfl, rfl, rfl⟩, ⟨rfl, rfl, rfl⟩, rfl, by decide, fun _ h => (by cases h.2.1), fun _ h => (by cases h.2.1), rfl,
    settled (by decide), settled (by decide), settled (by decide), ⟨rfl, rfl, rfl, settled (by decide)⟩,
    ⟨rfl, rfl, rfl, rfl, settled (by decide)⟩, ⟨rfl, rfl, rfl, settled (by decide)⟩, by decide, by decide, rfl⟩

/-- The credit of exactly one frame, the last buffer, one millisecond within the age limit. -/
theorem test_witness_Sends :
    let p := waiting [{ voiceFrame with enqueued := 941 }] { wired with
      radio := { wired.radio with buffers := 1 }, relay := { wired.relay with credit := 312 } }
    let f : Frame := { voiceFrame with enqueued := 941 }
    p.Next f ∧ p.Ready f ∧ Settled p ∧ p.Open ∧
    (∀ g, (waiting [] wired).Next g → ¬(waiting [] wired).Ready g) ∧
    (p.relay.queues.get .voice).find? (fun f => p.relay.ages.get .voice ≤ 1001 - f.enqueued) = some f ∧
    (∀ g ∈ p.relay.queues.get .voice, decide (p.relay.ages.get .voice ≤ p.clock.now - g.enqueued) = false) ∧
    live.radio.state ≠ .attached ∧ wired.radio.state = .attached := by
  intro p f
  have hs : Settled p := settled (by decide)
  refine ⟨⟨.inl rfl, ⟨[], rfl⟩, fun d hd => absurd hd (Nat.not_lt_zero _)⟩,
    ⟨rfl, ⟨rfl, rfl⟩, by decide, by decide, by decide⟩, hs, ⟨rfl, ⟨rfl, rfl⟩, ⟨rfl, hs.follows⟩, hs.drained⟩,
    fun g hg => ?_, by decide, by decide, by decide, rfl⟩
  obtain ⟨rest, h⟩ := hg.head
  generalize g.cls = c at h
  cases c <;> cases h

/-- A command other than a part reset that changes the service state and one that changes the module state. -/
theorem test_witness_ChangesAreReported :
    (∀ strap asserted, Instr.resetNotice ≠ .partReset strap asserted) ∧
    (∃ t, exec .resetNotice { pending := [], part := onAir } = .next t ∧
      onAir.path.service ≠ t.part.path.service ∧ onAir.radio.state ≠ t.part.radio.state) :=
  ⟨fun _ _ h => (nomatch h), { pending := [], part := after .resetNotice onAir }, rfl, by decide, by decide⟩

/-- A step from a part that meets the invariants: the reset state's (Obligations.ResetHasTheInvariants). -/
theorem test_witness_EveryStepKeepsTheInvariants :
    ∃ t, step { pending := [.refresh], part := State.reset.part } = .next t := ⟨_, rfl⟩

/-- Entry 0 in a queued frame, entry 1 in an outstanding one, entry 2 discarded, the others IDLE. -/
def standing : Part :=
  waiting [{ voiceFrame with parts := [0] }]
    { wired with
      radio := { wired.radio with
        outstanding := [{ sentFrame with frame := { sentFrame.frame with parts := [1] } }] }
      uplink := { wired.uplink with
        entries := [entryIn .queued, entryIn .sending, { entryIn .discarded with reason := some .aged }] ++
          List.replicate 5 (entryIn .idle) } }

theorem test_witness_EntriesStand : standing.EntriesStand := by
  have beyond : ∀ i, 8 ≤ i → standing.entryState i = none := fun i h => by
    rw [Part.entryState, List.getElem?_eq_none h]; rfl
  refine ⟨by decide, fun i => ?_, fun i => ?_, by decide, by decide, by decide, fun c f h => ?_⟩
  · by_cases h : i < 8
    · exact (by decide : ∀ i < 8, standing.entryState i = some .queued ↔ i ∈ standing.queuedParts) i h
    · rw [beyond i (by omega), show standing.queuedParts = [0] from rfl]
      simp; omega
  · by_cases h : i < 8
    · exact (by decide : ∀ i < 8, standing.entryState i = some .sending ↔ i ∈ standing.sentParts) i h
    · rw [beyond i (by omega), show standing.sentParts = [1] from rfl]
      simp; omega
  · cases c
    · exact (List.mem_singleton.mp h) ▸ rfl
    all_goals cases h

end Sys2Proof.Tests
end

section
/-! # Settling O14 and O15: reads and writes of the memory channel (R3, R4, R9, R11, R12, R17, R18). -/

namespace Sys2Proof.Machine

/-! ### Stray accesses (R4) -/

/-- A read or write to a CLOSED bank, whatever its line access would do (R4). -/
theorem access_closed {b : Burst} {p : Part} (line : Nat → Bool → Nat → Part → Part)
    (h : p.channel.row b.bank = none) : access b line p = count .strayAccesses 1 p := by
  unfold access
  rw [h]

/-- A read and a write in ACTIVE are stray alike where their bank is CLOSED (R4). -/
theorem activeCommand_closed {op : ChannelOp} {b : Burst} {p : Part} (hb : op.burst = some b)
    (h : p.channel.row b.bank = none) : activeCommand op p = count .strayAccesses 1 p := by
  cases op with
  | read r => cases hb; exact access_closed readAccess h
  | write w =>
    cases hb
    exact access_closed (fun a chopped start => writeAccess a (carried chopped start 8 w.lanes)) h
  | _ => cases hb

/-- A read or write to a CLOSED bank is passed on and counts, and that is all (R1, R4). -/
theorem channelCommand_closed {op : ChannelOp} {b : Burst} {p : Part} (ha : p.channel.state = .active)
    (hb : op.burst = some b) (h : p.channel.row b.bank = none) :
    channelCommand op p = count .strayAccesses 1 (forward op p) := by
  have hrow : (forward op p).channel.row b.bank = none := by rw [forward_eq]; exact h
  unfold channelCommand
  rw [ha]
  exact activeCommand_closed hb hrow

/-- A row that names its channel command acts as that command (R1, R2). -/
theorem exec_named {i : Instr} {op : ChannelOp} (h : channelOp i = some (.named op)) (s : State) :
    exec i s = .next (s.having (channelCommand op s.part)) := exec_channelOp h s

/-- A row that comes as pins acts by the kind they code (R1, R2). -/
theorem exec_pins {i : Instr} {c : ChannelPins} (h : channelOp i = some (.pins c)) (s : State) :
    exec i s = .next (s.having (pinsCommand c s.part)) := exec_channelOp h s

/-- Settles O14: the command is stray by its kind, and it has passed to DRAM as its row gives it, named or
coded on the pins. -/
theorem strayAccess : Obligations.StrayAccess := by
  intro i sent b s hi hb p ha hrow
  cases sent with
  | named op =>
    rw [exec_named hi, channelCommand_closed (op := op) ha hb hrow, forward_eq]
    rfl
  | pins c =>
    rw [exec_pins hi, pinsCommand_eq, channelCommand_closed (op := sortCommand c) ha hb hrow, forward_eq]
    rfl

/-! ### What auto-close leaves (R3) -/

/-- Auto-close changes the bank table alone (R3). -/
theorem autoClosed_banks (b : Burst) (p : Part) :
    autoClosed b p = { p with channel := { p.channel with
      banks := if b.autoClose then p.channel.banks.set b.bank.toNat none else p.channel.banks } } := by
  unfold autoClosed
  split <;> rfl

/-! ### Bytes at a place -/

@[simp] theorem slice_length (bs : List Byte) (i n : Nat) : (slice bs i n).length = n := by simp [slice]

/-- A byte of a slice is the byte of the whole at its place. -/
theorem slice_getD (bs : List Byte) (i : Nat) {n k : Nat} (h : k < n) :
    (slice bs i n).getD k 0 = bs.getD (i + k) 0 := by
  simp [slice, List.getD, h]

/-- A slice that is the whole of the first part. -/
theorem slice_append_left {bs : List Byte} {n : Nat} (h : bs.length = n) (cs : List Byte) :
    slice (bs ++ cs) 0 n = bs := by
  subst h
  refine List.ext_getElem (slice_length _ _ _) fun k _ hlt => ?_
  simp [slice, List.getElem?_append_left hlt, List.getElem?_eq_getElem hlt]

/-- A slice that begins in the second part. -/
theorem slice_append_right {bs : List Byte} {i : Nat} (h : bs.length ≤ i) (cs : List Byte) (n : Nat) :
    slice (bs ++ cs) i n = slice cs (i - bs.length) n := by
  unfold slice
  refine List.map_congr_left fun k _ => ?_
  rw [List.getD_append_right _ _ _ _ (by omega), Nat.sub_add_comm h]

/-- The bytes of a list are the list. -/
theorem slice_whole {bs : List Byte} {n : Nat} (h : bs.length = n) : slice bs 0 n = bs := by
  simpa using slice_append_left h []

/-- A run of blocks of `w` bytes is as long as its blocks together. -/
theorem blocks_length {w : Nat} {f : Nat → List Byte} (hf : ∀ i, (f i).length = w) (n : Nat) :
    ((List.range n).flatMap f).length = w * n := by
  simp [List.length_flatMap, hf, Nat.mul_comm]

/-- Byte `k` of block `i` in a run of blocks of `w` bytes. -/
theorem blocks_getD {w : Nat} {f : Nat → List Byte} (hf : ∀ i, (f i).length = w) {n i k : Nat}
    (hi : i < n) (hk : k < w) : ((List.range n).flatMap f).getD (w * i + k) 0 = (f i).getD k 0 := by
  induction n with
  | zero => omega
  | succ n ih =>
    have hlen : ((List.range n).flatMap f).length = w * n := blocks_length hf n
    rw [List.range_succ, List.flatMap_append, List.flatMap_singleton]
    obtain hlt | rfl := Nat.lt_succ_iff_lt_or_eq.mp hi
    · have hin : w * i + k < w * n :=
        calc w * i + k < w * (i + 1) := by rw [Nat.mul_succ]; omega
          _ ≤ w * n := Nat.mul_le_mul_left w hlt
      rw [List.getD_append _ _ _ _ (by omega), ih hlt]
    · rw [List.getD_append_right _ _ _ _ (by omega), hlen, Nat.add_sub_cancel_left]

/-! ### Substituted reads (R11, R12, R18) -/

/-- Four bytes to a beat (R11). -/
theorem beatsOf_length (order : ReadOrder) (chopped : Bool) (start : Nat) (line : List Byte) :
    (beatsOf order chopped start line).length = if chopped then 16 else 32 := by
  unfold beatsOf
  rw [blocks_length (fun _ => slice_length _ _ _)]
  split <;> rfl

/-- Beat `i` carries the four bytes of its position (R11). -/
theorem beatsOf_getD (order : ReadOrder) {chopped : Bool} (start : Nat) (line : List Byte) {i k : Nat}
    (hi : i < if chopped then 4 else 8) (hk : k < 4) :
    (beatsOf order chopped start line).getD (4 * i + k) 0 =
      line.getD (4 * beatPosition order start i + k) 0 := by
  unfold beatsOf
  rw [blocks_getD (fun _ => slice_length _ _ _) hi hk, slice_getD _ _ hk]

/-- When substitution is in force (R18). -/
theorem substitutes_iff (c : Channel) :
    c.substitutes = true ↔ c.learned = true ∧ c.readout = false ∧ c.outputDisable = false := by
  simp [Channel.substitutes, and_assoc]

/-- A read of an open row for which the blocks supply `line`: it is passed on, substituted where that may be, and
the bank closes where the burst asks for it (R3, R9, R17). -/
theorem exec_lineRead_open {r : ReadBurst} {row : BitVec 15} {s : State} {line : Option (List Byte)}
    (ha : s.part.channel.state = .active) (hr : s.part.channel.row r.place.bank = some row)
    (hl : ownerLine (s.part.windows.classify (lineAddress row r.place)) s.part = line) :
    exec (.lineRead r) s = .next (s.having (autoClosed r.place
      (substitute line (s.part.channel.chopped r.place) (startPosition r.place)
        (forward (.read r) s.part)))) := by
  have howner : ownerLine ((forward (.read r) s.part).windows.classify (lineAddress row r.place))
      (forward (.read r) s.part) = line := by
    rw [ownerLine_forward, forward_eq]
    exact hl
  rw [exec_named (op := .read r) rfl, channelRead_open ha hr, readAccess_line _ _ howner]

/-- Settles O15, by whether a block supplies the line and whether substitution is in force. -/
theorem lineRead : Obligations.LineRead := by
  intro r row s p c place chopped start address position banks back dram ha hrow owner
  refine ⟨fun h => ?_, fun line h hoff => ?_, fun line h hlearned hreadout houtput => ?_⟩
  · rw [exec_lineRead_open ha hrow h, substitute_none, autoClosed_banks, forward_eq]
  · have hoff' : (forward (.read r) p).channel.substitutes = false :=
      Bool.eq_false_iff.mpr fun hs => hoff ((substitutes_iff _).mp hs)
    rw [exec_lineRead_open ha hrow h, substitute_withheld line _ _ hoff', autoClosed_banks, forward_eq]
    rfl
  · have hon : (forward (.read r) p).channel.substitutes = true :=
      (substitutes_iff _).mpr ⟨hlearned, hreadout, houtput⟩
    rw [exec_lineRead_open ha hrow h, substitute_some line _ _ hon, autoClosed_banks, forward_eq]
    exact ⟨beatsOf c.readOrder chopped start line, rfl, beatsOf_length _ _ _ _,
      fun i k hi hk => beatsOf_getD _ _ _ hi hk⟩

end Sys2Proof.Machine
end

section
/-! # Settling O17: what a substituted read finds, byte by byte (R19, R20, R21, R184, R203). -/

namespace Sys2Proof.Machine

/-! ### Tables of fields

A line of the status page is a table of its fields in order, each a width in bytes and a value. -/

@[simp] theorem leBytes_length (n v : Nat) : (leBytes n v).length = n := by
  induction n generalizing v with
  | zero => rfl
  | succ n ih => rw [leBytes, List.length_cons, ih]

/-- A byte is its own coding. -/
@[simp] theorem leBytes_one_toNat (b : Byte) : leBytes 1 b.toNat = [b] := by simp [leBytes]

theorem leBytes_zero (n : Nat) : leBytes n 0 = List.replicate n 0 := by
  induction n with
  | zero => rfl
  | succ n ih => rw [leBytes, Nat.zero_div, ih]; rfl

/-- The bytes of the fields in order, each little-endian. -/
def laid (fields : List (Nat × Nat)) : List Byte := fields.flatMap fun f => leBytes f.1 f.2

/-- The field that begins at byte `i` of the table. -/
def fieldAt : List (Nat × Nat) → Nat → Option (Nat × Nat)
  | [], _ => none
  | f :: fs, i => if i = 0 then some f else if f.1 ≤ i then fieldAt fs (i - f.1) else none

theorem laid_nil : laid [] = [] := rfl

theorem laid_cons (f : Nat × Nat) (fs : List (Nat × Nat)) : laid (f :: fs) = leBytes f.1 f.2 ++ laid fs := rfl

theorem laid_append (fs gs : List (Nat × Nat)) : laid (fs ++ gs) = laid fs ++ laid gs := List.flatMap_append

theorem laid_map {α : Type} (n : Nat) (v : α → Nat) (cs : List α) :
    laid (cs.map fun c => (n, v c)) = cs.flatMap fun c => leBytes n (v c) := List.flatMap_map _ _ _

/-- A table is as long as its fields together. -/
theorem laid_length (fields : List (Nat × Nat)) : (laid fields).length = (fields.map Prod.fst).sum := by
  simp [laid, List.length_flatMap]

/-- Each field of a table stands at its place, little-endian. -/
theorem slice_laid {fields : List (Nat × Nat)} {i n v : Nat} (h : fieldAt fields i = some (n, v)) :
    slice (laid fields) i n = leBytes n v := by
  induction fields generalizing i with
  | nil => cases h
  | cons f fs ih =>
    rw [laid_cons]
    unfold fieldAt at h
    split at h
    · next hi =>
      cases h
      rw [hi]
      exact slice_append_left (leBytes_length n v) _
    · split at h
      · next hle => rw [slice_append_right (by rwa [leBytes_length]), leBytes_length, ih h]
      · cases h

/-- Fields of one byte each are those bytes. -/
theorem laid_bytes {α : Type} (f : α → Byte) (cs : List α) :
    laid (cs.map fun c => (1, (f c).toNat)) = cs.map f := by
  simp only [laid_map, leBytes_one_toNat, ← List.map_eq_flatMap]

/-! ### The status page (R19, R20, R203) -/

/-- The fields of line `i` of the status page in order (chapter 1, "Status page lines"). -/
def statusFields (p : Part) (i : Nat) : List (Nat × Nat) :=
  let now := p.clock.now
  let c := p.command
  let o := p.optical
  let h := p.health
  let r := p.radio
  let y := p.path
  match i with
  | 0 =>
    [(2, 0x2140), (1, 0x01), (1, y.service.code.toNat), (1, y.software.code.toNat),
      (1, y.effective.code.toNat), (1, h.verdict.code.toNat), (1, r.state.code.toNat)] ++
    (classes.map fun c => (1, (y.classes.get c).word.code.toNat)) ++
    (classes.map fun c => (1, (y.classes.get c).reason.code.toNat)) ++
    [(2, p.events.flags.toNat), (1, p.channel.state.code.toNat), (1, if p.channel.learned then 1 else 0)] ++
    (classes.map fun c => (1, (y.classes.get c).sub.code.toNat)) ++ [(8, 0)]
  | 1 =>
    [(2, o.temperature.toNat), (2, o.supply.toNat), (2, o.bias.toNat), (2, o.txPower.toNat),
      (2, o.rxPower.toNat), (2, h.corrected), (2, h.filter.getD 0), (4, o.samples.toNat), (2, h.live.toNat),
      (2, h.latched.toNat), (2, h.causes.toNat), (1, o.failures), (7, 0)]
  | 2 =>
    [(1, r.quality), (1, r.buffers.toNat), (2, r.grant.toNat), (2, p.relay.credit / 8),
      (1, r.outstanding.length), (1, r.attempts), (4, r.serviceId.toNat)] ++
    (classes.map fun c => (2, p.held c)) ++ [(1, p.relay.shedBits), (1, p.delivery.fill), (10, 0)]
  | 3 =>
    [(2, c.tag.toNat), (1, c.code.toNat), (1, c.result.toNat), (4, c.clamp.toNat), (2, c.refused.toNat),
      (6, 0)] ++ (List.range 16).map fun k => (1, (c.data.getD k 0).toNat)
  | 4 => (Counter.all.take 8).map fun c => (4, (p.events.counters.get c).toNat)
  | 5 => (Counter.all.drop 8).map fun c => (4, (p.events.counters.get c).toNat)
  | 6 =>
    ([y.dwell, y.prove, y.strandedProve, y.quiet, y.stick].map fun t => (4, Timer.remaining t now)) ++
    (classes.map fun c => (2, Timer.remaining (y.classes.get c).drain now)) ++ [(4, h.staleRemaining now)]
  | _ => [(32, 0)]

theorem leBytes_flag (b : Bool) : leBytes 1 (if b then 1 else 0) = [flagByte b] := by cases b <;> rfl

/-- Each line of the status page is its table of fields. -/
theorem statusLine_eq_laid {p : Part} (h : p.command.data.length = 16) (i : Nat) :
    statusLine p i = laid (statusFields p i) := by
  match i with
  | 0 =>
    simp only [statusLine, statusLine0, statusFields, laid_append, laid_cons, laid_nil, laid_bytes,
      leBytes_one_toNat, leBytes_flag, leBytes_zero]
    rfl
  | 1 => simp [statusLine, statusLine1, statusFields, laid_cons, laid_nil, leBytes_zero]
  | 2 => simp [statusLine, statusLine2, statusFields, laid_append, laid_cons, laid_nil, laid_map, leBytes_zero]
  | 3 =>
    have hdata : (List.range 16).map (fun k => p.command.data.getD k 0) = p.command.data := by
      simpa [slice] using slice_whole h
    simp only [statusLine, statusLine3, statusFields, laid_append, laid_cons, laid_nil, laid_bytes,
      leBytes_one_toNat, leBytes_zero, hdata]
    simp
  | 4 => rfl
  | 5 => rfl
  | 6 => simp [statusLine, statusLine6, statusFields, laid_append, laid_cons, laid_nil, laid_map]
  | n + 7 => rfl

/-- A line of the status page is 32 bytes. -/
theorem statusFields_width (p : Part) (i : Nat) : ((statusFields p i).map Prod.fst).sum = 32 := by
  match i with
  | 0 | 1 | 2 | 3 | 4 | 5 | 6 | n + 7 => simp [statusFields, classes, Counter.all, Function.comp_def]

/-- A substituted read of the status page finds each field of its table at its place (R20). -/
theorem ownerLine_status {p : Part} (h : p.command.data.length = 16) {line i n v : Nat}
    (hf : fieldAt (statusFields p line) i = some (n, v)) :
    ∃ bytes, ownerLine (.status line) p = some bytes ∧ bytes.length = 32 ∧
      slice bytes i n = leBytes n v := by
  refine ⟨statusLine p line, rfl, ?_, ?_⟩
  · rw [statusLine_eq_laid h, laid_length, statusFields_width]
  · rw [statusLine_eq_laid h, slice_laid hf]

/-- The shed status, bit by bit (R164). -/
theorem shedBits_eq (r : Relay) : r.shedBits = (if r.shed.voice then 1 else 0) +
    2 * (if r.shed.signal then 1 else 0) + 4 * (if r.shed.interactive then 1 else 0) +
    8 * (if r.shed.bulk then 1 else 0) := by
  unfold Relay.shedBits
  cases r.shed with
  | mk voice signal interactive bulk => revert voice signal interactive bulk; decide

/-- What remains of the staleness timer, state by state (R61, R62, R72). -/
theorem staleRemaining_eq (h : Health) (now : Nat) : h.staleRemaining now =
    match h.stale with
    | .disarmed => 0
    | .running since => h.settings.reportTimeout - (now - since)
    | .paused passed => h.settings.reportTimeout - passed := by
  unfold Health.staleRemaining
  cases h.stale <;> rfl

/-! ### The uplink table, the delivery ring and the delivery area (R21, R184) -/

/-- The byte at place `j` of descriptor `n` of a line of two. -/
theorem twoDescriptors_getD {f : Nat → List Byte} (hf : ∀ n, (f n).length = 16) {n j : Nat} (hn : n < 2)
    (hj : j < 16) : (f 0 ++ f 1).getD (16 * n + j) 0 = (f n).getD j 0 := by
  have hblocks := blocks_getD hf hn hj
  simpa [List.range_succ] using hblocks

/-- Descriptor `n` of a line of two. -/
theorem twoDescriptors_slice {f : Nat → List Byte} (hf : ∀ n, (f n).length = 16) {n : Nat} (hn : n < 2) :
    slice (f 0 ++ f 1) (16 * n) 16 = f n :=
  calc slice (f 0 ++ f 1) (16 * n) 16
      _ = slice (f n) 0 16 := List.map_congr_left fun j hj => by
        rw [twoDescriptors_getD hf hn (List.mem_range.mp hj), Nat.zero_add]
      _ = f n := slice_whole (hf n)

theorem view_length (e : Entry) : e.view.length = 16 := by simp [Entry.view]

/-- The part's view of an entry, place by place (R21, R138). -/
theorem view_getD (e : Entry) {j : Nat} (hj : j < 16) : e.view.getD j 0 =
    if j ≤ 8 ∨ j = 12 ∨ j = 13 then e.host.getD j 0
    else if j = 9 then e.state.code
    else if j = 10 then (e.reason.map Discard.code).getD 0
    else if j = 11 then 0
    else (leBytes 2 e.carriage.toNat).getD (j - 14) 0 := by
  interval_cases j <;> rfl

theorem slotDescriptor_length (slot : Option Slot) : (slotDescriptor slot).length = 16 := by
  cases slot <;> simp [slotDescriptor]

/-- Both descriptors of a line of the uplink table (R21). -/
theorem uplinkLine_getD {p : Part} {m n : Nat} {e : Entry} (hn : n < 2)
    (he : p.uplink.entries[2 * m + n]? = some e) {j : Nat} (hj : j < 16) :
    (uplinkLine p m).getD (16 * n + j) 0 = e.view.getD j 0 := by
  rw [← entryAt_of he]
  exact twoDescriptors_getD (f := fun k => (entryAt p.uplink.entries (2 * m + k)).view)
    (fun _ => view_length _) hn hj

/-- Both descriptors of a line of the delivery ring (R184). -/
theorem ringLine_slice (d : Delivery) (m : Nat) {n : Nat} (hn : n < 2) :
    slice (ringLine d m) (16 * n) 16 = slotDescriptor (d.slot (2 * m + n)) :=
  twoDescriptors_slice (f := fun k => slotDescriptor (d.slot (2 * m + k))) (fun _ => slotDescriptor_length _) hn

theorem areaLine_length (d : Delivery) (k : Nat) : (areaLine d k).length = 32 := by
  unfold areaLine
  split <;> simp

/-- An EMPTY slot reads as 0 (R184). -/
theorem areaLine_getD_empty {d : Delivery} {k j : Nat} (h : d.slot (k / 48) = none) (hj : j < 32) :
    (areaLine d k).getD j 0 = 0 := by
  unfold areaLine
  rw [h]
  exact List.getD_replicate 0 hj

/-- A READY slot reads as its frame (R184). -/
theorem areaLine_getD_ready {d : Delivery} {k j : Nat} {s : Slot} (h : d.slot (k / 48) = some s) (hj : j < 32) :
    (areaLine d k).getD j 0 = s.bytes.getD (k % 48 * 32 + j) 0 := by
  unfold areaLine
  rw [h]
  exact slice_getD _ _ hj

/-- Settles O17: the status page by its tables of fields, the codes by their lists, and the lines of descriptors
and of the area by the lemmas above. -/
theorem substitutedLines : Obligations.SubstitutedLines := by
  refine ⟨fun p hdata => ?_, ?_, fun p m n hn => ⟨fun e he => ?_, ?_, ?_⟩⟩
  · intro now left o h r y c b field
    have found {line i n v : Nat} (hf : fieldAt (statusFields p line) i = some (n, v)) :
        field line i n v := ownerLine_status hdata hf
    refine ⟨⟨found rfl, found rfl, found rfl, found rfl, found rfl, found rfl, found rfl,
        found rfl, found rfl, found rfl, found rfl⟩,
      ⟨found rfl, found rfl, found rfl, found rfl, found rfl, found rfl, found rfl,
        found rfl, found rfl, found rfl, found rfl, found rfl, found rfl⟩,
      ⟨found rfl, found rfl, found rfl, found rfl, found rfl, found rfl, found rfl,
        found (congrArg (fun v => some (1, v)) (shedBits_eq p.relay)), found rfl, found rfl⟩,
      ⟨found rfl, found rfl, found rfl, found rfl, found rfl, found rfl, fun k hk => ?_⟩,
      ⟨found rfl, found rfl, found rfl, found rfl, found rfl,
        found (congrArg (fun v => some (4, v)) (staleRemaining_eq h now))⟩,
      fun n c hc => ?_, fun n c hc => ?_, found rfl⟩
    · interval_cases k <;> exact found rfl
    · have hn : n < 4 := (List.getElem?_eq_some_iff.mp hc).1
      interval_cases n <;> cases hc <;> exact ⟨found rfl, found rfl, found rfl, found rfl, found rfl⟩
    · have hn : n < 16 := (List.getElem?_eq_some_iff.mp hc).1
      interval_cases n <;> cases hc <;> exact found rfl
  · exact ⟨rfl, rfl, rfl, rfl, rfl, rfl, rfl, rfl, rfl, rfl⟩
  · refine ⟨uplinkLine p m, rfl, by simp [uplinkLine, view_length], fun j hj => ?_⟩
    rw [uplinkLine_getD hn he hj, view_getD e hj]
  · refine ⟨ringLine p.delivery m, rfl, by simp [ringLine, slotDescriptor_length], ?_⟩
    rw [ringLine_slice _ _ hn]
    unfold Delivery.slot
    cases p.delivery.slots.getD (2 * m + n) none with
    | none => rfl
    | some s => cases s with | mk cls => cases cls <;> rfl
  · refine ⟨areaLine p.delivery m, rfl, areaLine_length _ _, fun j hj => ?_⟩
    cases h : p.delivery.slots.getD (m / 48) none with
    | none => exact areaLine_getD_empty h hj
    | some s => exact areaLine_getD_ready h hj

end Sys2Proof.Machine
end

section
/-! # Settling O20: a code that names no command, and IDENTIFY (R24, R25, R30, R31). -/

namespace Sys2Proof.Machine

/-- The codes that name no command: 0 and those above 0x11 (R24). -/
theorem commandOf_eq_none_iff {code : Byte} : commandOf code = none ↔ code = 0 ∨ 0x11 < code.toNat := by
  revert code; decide

/-- A row of the command slot acts as the write of its header (R22). -/
theorem exec_headerRow {i : Instr} {code : Byte} {h : HeaderBurst} (hi : headerRow i = some (code, h)) (s : State) :
    exec i s = .next (s.having (slotWrite code h s.part)) := by
  have hw : writeOf i = some (headerWrite code h) := by
    cases i <;> cases hi <;> rfl
  exact exec_writeOf hw s

/-- A command taken with a code that names none ends at once, and no block runs it (R24, R30). -/
theorem slotWrite_unknown {p : Part} {h : HeaderBurst} (ht : p.Takes h) {code : Byte} (hc : commandOf code = none) :
    slotWrite code h p =
      autoClosed (headerWrite code h).place (finish Result.unknownCommand [] (takenPart code h p)) := by
  have hfree : ({ passed (.write (headerWrite code h)) p with
      command := { p.command with header := slotHeader code h p } } : Part).command.running.isSome = false := by
    rw [Option.isSome_eq_false_iff, Option.isNone_iff_eq_none]
    exact ht.idle
  rw [slotWrite_reaches ht.anchor ht.carries]
  unfold commandArrives commandArrivesBy
  rw [hfree, hc]
  rfl

/-- A command that ends on the part as taken is answered and changes nothing else (R25). -/
theorem finish_takenPart (code : Byte) (h : HeaderBurst) (r : Byte) (d : List Byte) (p : Part) :
    autoClosed (headerWrite code h).place (finish r d (takenPart code h p)) = answered code h r 0 d p :=
  finish_answered (x := p) rfl rfl rfl

/-- IDENTIFY ends at once with its nine bytes of data (R31). -/
theorem runCommand_identify (ps : List Byte) (p : Part) :
    runCommand .identify ps p = finish Result.done
      [0x40, 0x21, 0x01, BitVec.ofNat 8 p.windows.strap.toNat, 0x00, 0x04, 0x00, 0x08, 32] p := rfl

/-- Settles O20: the unknown code finds no owner, IDENTIFY's owner only posts its data, and either way the part
as taken is finished. -/
theorem unknownCommandAndIdentify : Obligations.UnknownCommandAndIdentify := by
  refine ⟨fun code h s ht hcode => ?_, fun h s ht => ?_⟩
  · rw [exec_headerRow (code := code) (h := h) rfl, slotWrite_unknown ht (commandOf_eq_none_iff.mpr hcode),
      finish_takenPart]
    rfl
  · rw [slot_exec (code := 0x01) (h := h) (c := .identify) rfl ht rfl, runCommand_identify,
      finish_takenPart]
    rfl

end Sys2Proof.Machine
end

section
/-! # Settling O25: CLEAR_LATCHES and SET_PATH_TIMERS (R65, R66, R102, R103). -/

namespace Sys2Proof.Machine

/-- Raising a flag commutes with what a command write changes, the channel monitor and the command unit. -/
theorem raiseIf_withSlot (b : Bool) (f : Flag) (p : Part) (ch : Channel) (c : Command) :
    ({ raiseIf b f p with channel := ch, command := c } : Part) =
      raiseIf b f { p with channel := ch, command := c } := by
  cases b <;> rfl

/-- The conditions that may be latched, as the bits of the status page: a restart window takes out LOS (0),
RX_LOW_ALARM (3), RX_LOW_WARN (4) and SYNC_LOST (8) (R64, R65). -/
theorem latchable_eq (h : Health) (s : Conditions) :
    h.latchable s = s &&& h.settings.latchMask &&& (if h.hold then 0xEE6 else 0xFFF) := by
  unfold Health.latchable
  cases h.hold <;> rfl

/-- CLEAR_LATCHES on the part as taken: the health unit's copies and LATCHED, as on the part before the
write, then the answer (R66). -/
theorem runCommand_clearLatches (ps : List Byte) (code : Byte) (h : HeaderBurst) (p : Part) :
    let again := p.health.latchable p.health.live
    runCommand .clearLatches ps (takenPart code h p) = finish Result.done []
      { raiseIf (again != 0) .latched (p.withHealth { p.health with latched := again }) with
        channel := (passed (.write (headerWrite code h)) p).channel
        command := (takenPart code h p).command } := by
  intro again
  rw [raiseIf_withSlot]
  rfl

/-- The seven settings with the clamps of R102 as minima and maxima; a range from 0 needs no lower bound. -/
theorem pathTaken_eq (ps : List Byte) : pathTaken ps =
    { failDwell := min 10000 (param16 ps 0), losDwell := min 2000 (param16 ps 2),
      prove := max 1 (min 3600 (param16 ps 4)), strandedProve := max 1 (min 600 (param16 ps 6)),
      drainLimit := max 10 (min 5000 (param16 ps 8)),
      voiceQuiet := max 100 (min 10000 (param16 ps 10)),
      voiceStick := max 10 (min 7200 (param16 ps 12)) } := by
  simp only [pathTaken, clampTo, Nat.zero_max]

/-- SET_PATH_TIMERS on the part as taken: the settings alone change, and no running timer (R102, R103). -/
theorem runCommand_setPathTimers (ps : List Byte) (code : Byte) (h : HeaderBurst) (p : Part) :
    let clamp := clampMask ((List.range 7).map fun i => param16 ps (2 * i)) (pathTaken ps).numbers
    runCommand .setPathTimers ps (takenPart code h p) = finish (doneCode clamp) []
      { p.withPath { p.path with settings := pathTaken ps } with
        channel := (passed (.write (headerWrite code h)) p).channel
        command := { (takenPart code h p).command with clamp := clamp } } := rfl

/-- CLEAR_LATCHES as the host sees it (R65, R66). -/
theorem exec_clearLatches {h : HeaderBurst} {s : State} (ht : s.part.Takes h) :
    let again := s.part.health.latchable s.part.health.live
    exec (.clearLatches h) s = .next (s.having (answered 0x0B h Result.done 0 []
      (raiseIf (again != 0) .latched
        (s.part.withHealth { s.part.health with latched := again })))) := by
  intro again
  rw [slot_exec (code := 0x0B) (h := h) (c := .clearLatches) rfl ht rfl]
  congr 2
  exact finish_answered (runCommand_clearLatches _ _ _ _) (raiseIf_channel ..) (raiseIf_command ..)

/-- SET_PATH_TIMERS as the host sees it (R102, R103). -/
theorem exec_setPathTimers {h : HeaderBurst} {s : State} (ht : s.part.Takes h) :
    let ps := slotParams 0x0C h s.part
    let clamp := clampMask ((List.range 7).map fun i => param16 ps (2 * i)) (pathTaken ps).numbers
    exec (.setPathTimers h) s = .next (s.having (answered 0x0C h (doneCode clamp) clamp []
      (s.part.withPath { s.part.path with settings := pathTaken ps }))) := by
  intro ps clamp
  rw [slot_exec (code := 0x0C) (h := h) (c := .setPathTimers) rfl ht rfl]
  congr 2
  exact finish_answered (runCommand_setPathTimers _ _ _ _) rfl rfl

/-- Settles O25: each command's owner changes its own block, and the part so changed is answered; the latch
bits and the clamps are the two lemmas above. -/
theorem latchesAndPathTimers : Obligations.LatchesAndPathTimers := by
  refine fun h s ht => ⟨?_, ?_⟩
  · rw [exec_clearLatches ht, latchable_eq]
    rfl
  · rw [exec_setPathTimers ht, pathTaken_eq]
    rfl

end Sys2Proof.Machine
end

section
/-! # Settling O22 and O23: DEFINE_UPLINK and DEFINE_CAPTURE (R15, R137, R142 to R145). -/

namespace Sys2Proof.Machine

/-! ### The checks of R15 -/

/-- Two windows share no byte exactly when one ends before the other begins. -/
theorem overlaps_eq_false_iff {v w : Window} : w.overlaps v = false ↔ w.apart v := by
  simp only [Window.overlaps, Window.apart, decide_eq_false_iff_not]
  omega

/-- The part's pairwise check is that any two of the extents are apart. -/
theorem disjoint_iff (ws : List Window) : disjoint ws = true ↔ ws.Pairwise Window.apart := by
  induction ws with
  | nil => simp [disjoint]
  | cons w ws ih =>
    simp only [disjoint, Bool.and_eq_true, List.all_eq_true, Bool.not_eq_true', overlaps_eq_false_iff, ih,
      List.pairwise_cons]

/-- The checks the part makes on extents are those of R15. -/
theorem accepts_iff (others new : List Window) : accepts others new = true ↔ Admits others new := by
  simp only [accepts, Admits, Window.placed, Bool.and_eq_true, List.all_eq_true, decide_eq_true_eq,
    Bool.not_eq_true', overlaps_eq_false_iff, disjoint_iff, ← forall₂_and, and_assoc, Nat.add_comm]

/-- The negative of `accepts_iff`. -/
theorem accepts_eq_false_iff (others new : List Window) :
    accepts others new = false ↔ ¬Admits others new := by
  rw [← accepts_iff, Bool.not_eq_true]

/-! ### The clamp mask -/

/-- Where clamping may change the last value alone, the mask is that value's bit or nothing (R29). -/
theorem clampMask_last (kept : List Nat) (g t : Nat) :
    clampMask (kept ++ [g]) (kept ++ [t]) = if t = g then 0 else 1#32 <<< kept.length := by
  have unchanged : (List.range kept.length).foldl (fun m i =>
      if (kept ++ [g]).getD i 0 = (kept ++ [t]).getD i 0 then m else m ||| (1#32 <<< i)) 0 = 0#32 := by
    refine (List.foldl_ext _ (fun m _ => m) _ fun m i hi => ?_).trans (List.foldl_fixed _)
    have hlt := List.mem_range.mp hi
    rw [List.getD_append _ _ _ _ hlt, List.getD_append _ _ _ _ hlt, if_pos rfl]
  unfold clampMask
  rw [List.length_append, List.length_singleton, List.range_succ, List.foldl_append, unchanged]
  simp [eq_comm]

/-! ### A command that ends at once -/

/-- A command row whose owner turns the part into `x` and ends at once is answered (R24, R25). -/
theorem slot_answered {i : Instr} {code : Byte} {h : HeaderBurst} {c : CommandName} {s : State} {r : Byte}
    {clamp : BitVec 32} {d : List Byte} {x : Part} (hi : headerRow i = some (code, h)) (ht : s.part.Takes h)
    (hc : commandOf code = some c)
    (hrun : runCommand c (slotParams code h s.part) (takenPart code h s.part) = finish r d
      { x with
        channel := (passed (.write (headerWrite code h)) s.part).channel
        command := { (takenPart code h s.part).command with clamp := clamp } })
    (hx : x.channel = s.part.channel) (hxc : x.command = s.part.command) :
    exec i s = .next (s.having (answered code h r clamp d x)) := by
  rw [slot_exec hi ht hc, finish_answered hrun hx hxc]

/-! ### DEFINE_UPLINK (R142, R143) -/

/-- The window DEFINE_UPLINK asks for, its count clamped and made even (R142). -/
def uplinkAsked (ps : List Byte) : Window := { base := param32 ps 0, size := 16 * takenEntries (param16 ps 4) }

/-- The clamp mask of DEFINE_UPLINK: the count is value 1 (R29, R142). -/
def uplinkClamp (ps : List Byte) : BitVec 32 := if takenEntries (param16 ps 4) = param16 ps 4 then 0 else 2

/-- An entry of the table is QUEUED or SENDING (R143). -/
def Uplink.InUse (u : Uplink) : Prop := ∃ e ∈ u.entries, e.state = .queued ∨ e.state = .sending

/-- The table that DEFINE_UPLINK sets up: the window taken, its entries fresh, the staging store as it was (R143). -/
def Part.withTable (w : Window) (n : Nat) (p : Part) : Part :=
  { p with
    windows := { p.windows with uplink := some w }
    uplink := { p.uplink with entries := List.replicate n Entry.fresh } }

theorem inUse_iff (u : Uplink) :
    (u.entries.any fun e => e.state = .queued || e.state = .sending) = true ↔ u.InUse := by
  simp [Uplink.InUse]

/-- What DEFINE_UPLINK does, by the checks in their order (R15, R142, R143). -/
theorem doDefineUplink_cases (ps : List Byte) (p : Part) :
    let fits := Admits ({ p.windows with uplink := none } : Windows).regions [uplinkAsked ps]
    (¬fits → doDefineUplink ps p = finish Result.paramError [] (postClamp (uplinkClamp ps) p)) ∧
    (fits → p.uplink.InUse →
      doDefineUplink ps p = finish Result.stateError [] (postClamp (uplinkClamp ps) p)) ∧
    (fits → ¬p.uplink.InUse →
      doDefineUplink ps p = finish (doneCode (uplinkClamp ps)) (leBytes 2 (takenEntries (param16 ps 4)))
        (postClamp (uplinkClamp ps) (p.withTable (uplinkAsked ps) (takenEntries (param16 ps 4))))) := by
  intro fits
  have hclamp : clampMask [param32 ps 0, param16 ps 4] [param32 ps 0, takenEntries (param16 ps 4)] =
      uplinkClamp ps := clampMask_last [param32 ps 0] _ _
  have hcheck : (!accepts ({ p.windows with uplink := none } : Windows).regions [uplinkAsked ps]) = true ↔
      ¬fits := by
    rw [Bool.not_eq_true', accepts_eq_false_iff]
  have admitted (hf : fits) := mt hcheck.mp (not_not_intro hf)
  rw [← hclamp]
  refine ⟨fun hf => ?_, fun hf hu => ?_, fun hf hu => ?_⟩
  · exact if_pos (hcheck.mpr hf)
  · exact (if_neg (admitted hf)).trans (if_pos ((inUse_iff _).mpr hu))
  · exact (if_neg (admitted hf)).trans (if_neg (mt (inUse_iff _).mp hu))

/-- Settles O22: the owner's three endings, each answered on the part it leaves. -/
theorem defineUplink : Obligations.DefineUplink := by
  intro h s ht p ps given n0 n w clamp fits inUse
  obtain ⟨unfit, used, taken⟩ := doDefineUplink_cases ps (takenPart 0x05 h p)
  refine ⟨fun hf => ?_, fun hf hu => ?_, fun hf hu => ?_⟩
  · exact slot_answered (c := .defineUplink) rfl ht rfl (unfit hf) rfl rfl
  · exact slot_answered (c := .defineUplink) rfl ht rfl (used hf hu) rfl rfl
  · exact slot_answered (c := .defineUplink) (x := p.withTable w n) rfl ht rfl (taken hf hu) rfl rfl

/-! ### DEFINE_CAPTURE (R144, R145) -/

/-- The window DEFINE_CAPTURE asks for, none where it removes (R144). -/
def captureAsked (ps : List Byte) : Option Window :=
  if takenSize (param32 ps 8) = 0 then none
  else some { base := param32 ps 4, size := takenSize (param32 ps 8) }

/-- The clamp mask of DEFINE_CAPTURE: the size is value 2 (R29, R144). -/
def captureClamp (ps : List Byte) : BitVec 32 := if takenSize (param32 ps 8) = param32 ps 8 then 0 else 4

/-- The window table with capture slot `slot` at `w` (R14, R145). -/
def Windows.withCapture (slot : Nat) (w : Option Window) (t : Windows) : Windows :=
  { t with captures := t.captures.set slot w }

/-- The window table replaced, and the staged lines that it no longer covers dropped (R137). -/
def Part.withCaptures (t : Windows) (p : Part) : Part :=
  { p with windows := t, uplink := { p.uplink with staging := keepCovered t p.uplink.staging } }

/-- Result data of DEFINE_CAPTURE: how many staged lines were dropped and how many are kept (R145). -/
def droppedData (t : Windows) (st : List Staged) : List Byte :=
  leBytes 2 (st.length - (keepCovered t st).length) ++ leBytes 2 (keepCovered t st).length

/-- What DEFINE_CAPTURE does, by its checks (R15, R137, R144, R145). -/
theorem doDefineCapture_cases (ps : List Byte) (p : Part) :
    let fits := param8 ps 0 ≤ 3 ∧
      Admits (p.windows.withCapture (param8 ps 0) none).regions (captureAsked ps).toList
    let t := p.windows.withCapture (param8 ps 0) (captureAsked ps)
    (¬fits → doDefineCapture ps p = finish Result.paramError [] (postClamp (captureClamp ps) p)) ∧
    (fits → doDefineCapture ps p =
      finish (doneCode (captureClamp ps)) (droppedData t p.uplink.staging)
        (postClamp (captureClamp ps) (p.withCaptures t))) := by
  intro fits t
  have hclamp : clampMask [param8 ps 0, param32 ps 4, param32 ps 8]
      [param8 ps 0, param32 ps 4, takenSize (param32 ps 8)] = captureClamp ps :=
    clampMask_last [param8 ps 0, param32 ps 4] _ _
  have hcheck : (3 < param8 ps 0 ∨ accepts (p.windows.withCapture (param8 ps 0) none).regions
      (captureAsked ps).toList = false) ↔ ¬fits := by
    rw [accepts_eq_false_iff, not_and_or, Nat.not_le]
  rw [← hclamp]
  exact ⟨fun hf => if_pos (hcheck.mpr hf), fun hf => if_neg fun hc => hcheck.mp hc hf⟩

/-- Settles O23: the owner's two endings, each answered on the part it leaves. -/
theorem defineCapture : Obligations.DefineCapture := by
  intro h s ht p ps slot given size w clamp windows kept fits
  obtain ⟨unfit, taken⟩ := doDefineCapture_cases ps (takenPart 0x06 h p)
  refine ⟨fun hf => ?_, fun hf => ?_⟩
  · exact slot_answered (c := .defineCapture) rfl ht rfl (unfit hf) rfl rfl
  · exact slot_answered (c := .defineCapture) (x := p.withCaptures windows) rfl ht rfl (taken hf) rfl rfl

end Sys2Proof.Machine
end

section
/-! # Settling O39: a write to a capture window, and eviction (R134 to R136). -/

namespace Sys2Proof.Machine

/-! ### The staging store -/

/-- A line is not staged exactly when no entry holds it (R134). -/
theorem stagedAt_eq_none_iff {st : List Staged} {line : Nat} :
    stagedAt st line = none ↔ ∀ e ∈ st, e.line ≠ line := by
  simp [stagedAt]

/-- The entry a write makes is found at its line (R135). -/
theorem stagedAt_stageLine_same (line : Nat) (ls : List Lane) (st : List Staged) :
    stagedAt (stageLine line ls st) line =
      some { line := line, lanes := mergeStaged (((stagedAt st line).map Staged.lanes).getD []) ls } := by
  simp [stagedAt, stageLine]

/-- Of another line what was staged stays (R135). -/
theorem stagedAt_stageLine_other {line other : Nat} (ls : List Lane) (st : List Staged) (h : other ≠ line) :
    stagedAt (stageLine line ls st) other = stagedAt st other := by
  unfold stagedAt stageLine
  rw [List.find?_cons_of_neg (by simpa using h.symm), List.find?_filter]
  congr 1
  funext e
  by_cases he : e.line = other <;> simp [he, h]

/-- Byte `i` of the merged lanes: the byte written, or the byte before (R135). -/
theorem lane_mergeStaged (old new : List Lane) {i : Nat} (h : i < 32) :
    lane (mergeStaged old new) i = (lane new i).or (lane old i) := by
  simp [lane, mergeStaged, List.getD, h]

/-- A byte staged is the lane of its line's entry, and absent where the line has none. -/
theorem stagedByte_eq_lane (st : List Staged) (a : Nat) :
    stagedByte st a = lane (((stagedAt st (a / 32 * 32)).map Staged.lanes).getD []) (a % 32) := by
  unfold stagedByte
  cases stagedAt st (a / 32 * 32) <;> rfl

/-- What is staged for a byte after a write to `line` (R135, R150). -/
theorem stagedByte_stageLine (line : Nat) (ls : List Lane) (st : List Staged) (a : Nat) :
    stagedByte (stageLine line ls st) a =
      if a / 32 * 32 = line then (lane ls (a % 32)).or (stagedByte st a) else stagedByte st a := by
  rw [stagedByte_eq_lane, stagedByte_eq_lane st]
  split
  · rename_i hline
    rw [hline, stagedAt_stageLine_same]
    exact lane_mergeStaged _ _ (Nat.mod_lt _ (by decide))
  · rename_i hline
    rw [stagedAt_stageLine_other _ _ hline]

/-- Of a line that is not staged no byte is. -/
theorem stagedByte_eq_none {st : List Staged} {a : Nat} (h : ∀ e ∈ st, e.line ≠ a / 32 * 32) :
    stagedByte st a = none := by
  unfold stagedByte
  rw [stagedAt_eq_none_iff.mpr h]
  rfl

/-! ### Making room (R136) -/

/-- A write to `line` needs a new entry while every entry is in use (R136). -/
abbrev Evicts (line : Nat) (st : List Staged) : Prop :=
  (∀ e ∈ st, e.line ≠ line) ∧ Config.stagingLines ≤ st.length

/-- The store with an entry free for a write to `line`: the least recently written entry is the last (R136). -/
def makeRoom (line : Nat) (st : List Staged) : List Staged :=
  if Evicts line st then st.take (Config.stagingLines - 1) else st

theorem evicts_iff {line : Nat} {st : List Staged} :
    ((stagedAt st line).isNone = true ∧ Config.stagingLines ≤ st.length) ↔ Evicts line st := by
  rw [Option.isNone_iff_eq_none, stagedAt_eq_none_iff]

/-- What makes room takes nothing of the line written (R136). -/
theorem stagedAt_makeRoom (line : Nat) (st : List Staged) : stagedAt (makeRoom line st) line = stagedAt st line := by
  unfold makeRoom
  split
  · rename_i hev
    rw [stagedAt_eq_none_iff.mpr hev.1, stagedAt_eq_none_iff.mpr fun e he => hev.1 e (List.mem_of_mem_take he)]
  · rfl

/-- The entries behind the one just written: a full store loses its last, and any other the line's old entry
(R135, R136). -/
theorem makeRoom_filter (line : Nat) (st : List Staged) :
    ((makeRoom line st).filter fun e => e.line ≠ line) =
      if Evicts line st then st.take (Config.stagingLines - 1) else st.filter fun e => e.line ≠ line := by
  unfold makeRoom
  split
  · rename_i hev
    exact List.filter_eq_self.mpr fun e he => decide_eq_true (hev.1 e (List.mem_of_mem_take he))
  · rfl

/-- The store after a write, as its new entry and the entries behind it (R135, R136). -/
theorem stageLine_makeRoom (line : Nat) (ls : List Lane) (st : List Staged) :
    stageLine line ls (makeRoom line st) =
      { line := line, lanes := mergeStaged (((stagedAt st line).map Staged.lanes).getD []) ls } ::
        (if Evicts line st then st.take (Config.stagingLines - 1) else st.filter fun e => e.line ≠ line) := by
  unfold stageLine
  rw [stagedAt_makeRoom, makeRoom_filter]

/-- What is staged for a byte after a write that may evict: of the line written, the byte written or the byte
before; of another line, what making room has left (R135, R136). -/
theorem stagedByte_stageLine_makeRoom (line : Nat) (ls : List Lane) (st : List Staged) (a : Nat) :
    stagedByte (stageLine line ls (makeRoom line st)) a =
      if a / 32 * 32 = line then (lane ls (a % 32)).or (stagedByte st a)
      else stagedByte (makeRoom line st) a := by
  rw [stagedByte_stageLine]
  split
  · rename_i hline
    rw [stagedByte_eq_lane (makeRoom line st), hline, stagedAt_makeRoom, stagedByte_eq_lane st, hline]
  · rfl

/-! ### The write -/

/-- A write that carries no byte stages nothing (R135). -/
theorem captureLine_empty {line : Nat} {ls : List Lane} (p : Part) (h : ls.all Option.isNone = true) :
    captureLine line ls p = p := by
  unfold captureLine
  rw [h, Bool.or_true]
  rfl

/-- A write that carries a byte to a covered line is merged, and counts where it evicts (R135, R136). -/
theorem captureLine_carrying {line : Nat} {ls : List Lane} {p : Part} (hw : p.windows.captured line = true)
    (h : ls.all Option.isNone = false) :
    captureLine line ls p = count .stageEvictions (if Evicts line p.uplink.staging then 1 else 0)
      (p.withUplink { p.uplink with staging := stageLine line ls (makeRoom line p.uplink.staging) }) := by
  have taken : ¬(!p.windows.captured line || ls.all Option.isNone) = true := by simp [hw, h]
  unfold captureLine makeRoom
  rw [if_neg taken]
  by_cases hev : Evicts line p.uplink.staging
  · rw [if_pos (evicts_iff.mpr hev), if_pos hev, if_pos hev]
  · rw [if_neg (mt evicts_iff.mp hev), if_neg hev, if_neg hev, count_zero]

/-- A write carries no byte exactly when each of its 32 lanes is absent (R10). -/
theorem lanesOf_all_none_iff (p : Part) (w : WriteBurst) :
    (p.lanesOf w).all Option.isNone = true ↔ ∀ b, b < 32 → lane (p.lanesOf w) b = none := by
  have hlen : (p.lanesOf w).length = 32 := by simp [Part.lanesOf, carried]
  rw [List.all_eq_true, List.forall_mem_iff_getElem]
  simp +contextual [hlen, lane, List.getD]

/-- A write to a captured line hands its lanes to the staging store (R17). -/
theorem exec_captureWrite {w : WriteBurst} {row : BitVec 15} {s : State}
    (ha : s.part.channel.state = .active) (hl : s.part.channel.learned = true)
    (hr : s.part.channel.row w.place.bank = some row)
    (hc : s.part.windows.classify (lineAddress row w.place) = .capture) :
    exec (.captureWrite w) s = .next (s.having (autoClosed w.place
      (captureLine (lineAddress row w.place) (s.part.lanesOf w) (passed (.write w) s.part)))) := by
  rw [exec_writeOf (w := w) rfl, write_reaches ha hl hr hc rfl]
  rfl

/-- Settles O39: by whether the write carries a byte, and the byte staged afterwards by its line. -/
theorem captureWrites : Obligations.CaptureWrites := by
  intro w row s p c address ls old was entry full staging sent ha hl hr hc
  have hstaging : staging = stageLine address ls (makeRoom address old) := by
    rw [stageLine_makeRoom]
    have hwas : was = ((stagedAt old address).map Staged.lanes).getD [] := by
      show ((stagedAt old address).elim [] Staged.lanes) = _
      cases stagedAt old address <;> rfl
    rw [← hwas]
    rfl
  refine ⟨fun hnone => ?_, fun hsome => ?_, fun a => ?_⟩
  · rw [exec_captureWrite ha hl hr hc, captureLine_empty _ ((lanesOf_all_none_iff p w).mpr hnone), sent_eq]
  · have carries : ls.all Option.isNone = false :=
      Bool.eq_false_iff.mpr fun hall => hsome ((lanesOf_all_none_iff p w).mp hall)
    have covered : (passed (.write w) p).windows.captured address = true := captured_of_classify hc
    rw [exec_captureWrite ha hl hr hc, captureLine_carrying covered carries,
      autoClosed_sent (p := p), hstaging]
    · rfl
    · rfl
  · rw [hstaging, stagedByte_stageLine_makeRoom]
    rfl

end Sys2Proof.Machine
end

section
/-! # Settling O24: DEFINE_DELIVERY (R15, R195, R196). -/

namespace Sys2Proof.Machine

/-- The ring and area that DEFINE_DELIVERY asks for (R195). -/
def deliveryAsked (ps : List Byte) : DeliveryDef := { ring := param32 ps 0, area := param32 ps 4 }

/-- The part with the delivery table at `d`: every slot EMPTY, each READY one an overrun (R196). -/
def Part.withRing (d : Option DeliveryDef) (p : Part) : Part :=
  raiseIf (p.delivery.ready != 0) .dataLoss (count .deliveryOverruns p.delivery.ready
    { p with
      windows := { p.windows with delivery := d }
      delivery := { p.delivery with slots := List.replicate 32 none, fill := 0 } })

/-- How many slots were discarded is the result data (R196). -/
theorem redefineDelivery_eq (d : Option DeliveryDef) (p : Part) :
    redefineDelivery d p = finish Result.done [BitVec.ofNat 8 p.delivery.ready] (p.withRing d) := rfl

theorem withRing_channel (d : Option DeliveryDef) (p : Part) : (p.withRing d).channel = p.channel :=
  raiseIf_channel ..

theorem withRing_command (d : Option DeliveryDef) (p : Part) : (p.withRing d).command = p.command :=
  raiseIf_command ..

/-- What DEFINE_DELIVERY does, by its operation and the checks (R15, R195). -/
theorem doDefineDelivery_cases (ps : List Byte) (p : Part) :
    let asked := deliveryAsked ps
    let fits := Admits ({ p.windows with delivery := none } : Windows).regions [asked.ringWindow, asked.areaWindow]
    (param8 ps 8 = 0 → fits → doDefineDelivery ps p = redefineDelivery (some asked) p) ∧
    (param8 ps 8 = 0 → ¬fits → doDefineDelivery ps p = finish Result.paramError [] p) ∧
    (param8 ps 8 = 1 → doDefineDelivery ps p = redefineDelivery none p) ∧
    (1 < param8 ps 8 → doDefineDelivery ps p = finish Result.paramError [] p) := by
  intro asked fits
  have hcheck := accepts_iff ({ p.windows with delivery := none } : Windows).regions
    [asked.ringWindow, asked.areaWindow]
  unfold doDefineDelivery
  refine ⟨fun hop hf => ?_, fun hop hf => ?_, fun hop => ?_, fun hop => ?_⟩
  · rw [hop]
    exact if_pos (hcheck.mpr hf)
  · rw [hop]
    exact if_neg (mt hcheck.mp hf)
  · rw [hop]
    rfl
  · obtain ⟨n, hn⟩ := Nat.exists_eq_add_of_le' hop
    rw [hn]
    rfl

/-- A DEFINE_DELIVERY that takes effect is answered with the number of slots discarded (R25, R196). -/
theorem exec_defineDelivery_done {h : HeaderBurst} {s : State} (ht : s.part.Takes h) {d : Option DeliveryDef}
    (hdo : doDefineDelivery (slotParams 0x07 h s.part) (takenPart 0x07 h s.part) =
      redefineDelivery d (takenPart 0x07 h s.part)) :
    exec (.defineDelivery h) s = .next (s.having
      (answered 0x07 h Result.done 0 [BitVec.ofNat 8 s.part.delivery.ready] (s.part.withRing d))) := by
  refine slot_answered (c := .defineDelivery) rfl ht rfl (hdo.trans ?_) (withRing_channel ..) (withRing_command ..)
  unfold Part.withRing
  rw [redefineDelivery_eq, raiseIf_withSlot]
  rfl

/-- A DEFINE_DELIVERY that is refused is answered PARAM_ERROR and changes nothing (R25, R195). -/
theorem exec_defineDelivery_refused {h : HeaderBurst} {s : State} (ht : s.part.Takes h)
    (hdo : doDefineDelivery (slotParams 0x07 h s.part) (takenPart 0x07 h s.part) =
      finish Result.paramError [] (takenPart 0x07 h s.part)) :
    exec (.defineDelivery h) s = .next (s.having (answered 0x07 h Result.paramError 0 [] s.part)) :=
  slot_answered (c := .defineDelivery) rfl ht rfl hdo rfl rfl

/-- Settles O24: each ending of the owner, by operation and checks, is answered on the part it leaves. -/
theorem defineDelivery : Obligations.DefineDelivery := by
  intro h s ht p ps ring area fits n emptied
  obtain ⟨defined, unfit, removed, unknown⟩ := doDefineDelivery_cases ps (takenPart 0x07 h p)
  exact ⟨fun hop hf => exec_defineDelivery_done ht (defined hop hf),
    fun hop hf => exec_defineDelivery_refused ht (unfit hop hf),
    fun hop => exec_defineDelivery_done ht (removed hop),
    fun hop => exec_defineDelivery_refused ht (unknown hop)⟩

end Sys2Proof.Machine
end

section
/-! # Settling O40: releases of delivery slots (R192, R193). -/

namespace Sys2Proof.Machine

/-- Replacing one element, as a map over the places. -/
theorem set_eq_mapIdx {α : Type} (l : List α) (n : Nat) (v : α) :
    l.set n v = l.mapIdx fun k a => if k = n then v else a := by
  refine List.ext_getElem? fun k => ?_
  rw [List.getElem?_set', List.getElem?_mapIdx]
  by_cases hk : n = k
  · simp [hk, Function.const_def]
  · simp [hk, Ne.symm hk]

/-- A release of one slot, slot by slot: its own becomes EMPTY where the byte holds 1 (R192, R193). -/
theorem releaseSlot_eq (n : Nat) (b : Lane) (d : Delivery) :
    releaseSlot n b d = { d with
      slots := d.slots.mapIdx fun k slot => if k = n ∧ b = some 1 then none else slot } := by
  unfold releaseSlot
  split
  · next hb => simp only [hb, and_true, set_eq_mapIdx]
  · next hb =>
    have same : d.slots.mapIdx (fun _ slot => slot) = d.slots := List.mapIdx_eq_iff.mpr fun k => by simp
    simp only [hb, and_false, if_false, same]

/-- Slot `n` is described in half `n mod 2` of line `n div 2`, so it is released by byte 8 or 24 of that line
(R184, R192). -/
theorem released_iff (m n : Nat) (ls : List Lane) :
    (n / 2 = m ∧ lane ls (16 * (n % 2) + 8) = some 1) ↔
      (n = 2 * m + 1 ∧ lane ls 24 = some 1) ∨ (n = 2 * m ∧ lane ls 8 = some 1) := by
  obtain hn | hn := Nat.mod_two_eq_zero_or_one n
  · have even : n / 2 = m ↔ n = 2 * m := by omega
    have odd : n ≠ 2 * m + 1 := by omega
    simp [hn, even, odd]
  · have odd : n / 2 = m ↔ n = 2 * m + 1 := by omega
    have even : n ≠ 2 * m := by omega
    simp [hn, even, odd]

/-- A write to line `m` of the delivery ring, slot by slot (R192, R193). -/
theorem writeRing_eq (m : Nat) (ls : List Lane) (p : Part) :
    writeRing m ls p = p.withDelivery { p.delivery with
      slots := p.delivery.slots.mapIdx fun n slot =>
        if n / 2 = m ∧ lane ls (16 * (n % 2) + 8) = some 1 then none else slot } := by
  unfold writeRing
  rw [releaseSlot_eq, releaseSlot_eq, List.mapIdx_mapIdx]
  congr 3
  funext n slot
  simp only [released_iff, ite_or, Function.comp_apply]

/-- A write to line `m` of the delivery ring hands its lanes to the delivery unit (R17, R192). -/
theorem exec_release {w : WriteBurst} {row : BitVec 15} {m : Nat} {s : State}
    (ha : s.part.channel.state = .active) (hl : s.part.channel.learned = true)
    (hr : s.part.channel.row w.place.bank = some row)
    (hc : s.part.windows.classify (lineAddress row w.place) = .ring m) :
    exec (.release w) s = .next (s.having (autoClosed w.place
      (writeRing m (s.part.lanesOf w) (passed (.write w) s.part)))) := by
  rw [exec_writeOf (w := w) rfl, write_reaches ha hl hr hc rfl]
  rfl

/-- Settles O40: the write reaches the delivery ring, which releases slot by slot, and the bank closes. -/
theorem releases : Obligations.Releases := by
  intro w row m s p c ls ha hl hr hc
  rw [exec_release ha hl hr hc, writeRing_eq, autoClosed_sent (p := p)]
  · rfl
  · rfl

end Sys2Proof.Machine
end

section
/-! # Settling O21: SET_EVENTS, CLEAR_COUNTERS, the acknowledge line, the attention line (R200 to R204). -/

namespace Sys2Proof.Machine

/-! ### SET_EVENTS and CLEAR_COUNTERS (R202, R204) -/

/-- SET_EVENTS on the part as taken: the mask alone changes, and the data show the flags with COMMAND_DONE (R202). -/
theorem runCommand_setEvents (ps : List Byte) (code : Byte) (h : HeaderBurst) (p : Part) :
    let mask := BitVec.ofNat 9 (param16 ps 0)
    runCommand .setEvents ps (takenPart code h p) =
      finish Result.done (leBytes 2 mask.toNat ++ leBytes 2 (p.events.flags ||| 1).toNat)
        { p.withEvents { p.events with mask := mask } with
          channel := (passed (.write (headerWrite code h)) p).channel
          command := { (takenPart code h p).command with clamp := 0 } } := rfl

/-- CLEAR_COUNTERS on the part as taken: the counters alone change (R204). -/
theorem runCommand_clearCounters (ps : List Byte) (code : Byte) (h : HeaderBurst) (p : Part) :
    runCommand .clearCounters ps (takenPart code h p) = finish Result.done []
      { p.withEvents { p.events with counters := Counters.zero } with
        channel := (passed (.write (headerWrite code h)) p).channel
        command := { (takenPart code h p).command with clamp := 0 } } := rfl

theorem Counters.get_zero (c : Counter) : Counters.zero.get c = 0 := by cases c <;> rfl

/-! ### The acknowledge line (R200) -/

/-- A number spelled by two bytes has the bits of the byte that its bit position falls in. -/
theorem getLsbD_ofNat_leNat_pair (b0 b1 : Byte) {i : Nat} (h : i < 9) :
    (BitVec.ofNat 9 (leNat [b0, b1])).getLsbD i = if i / 8 = 0 then b0.getLsbD (i % 8) else b1.getLsbD (i % 8) := by
  have spelled : leNat [b0, b1] = (b1 ++ b0).toNat := by
    rw [BitVec.toNat_append, ← Nat.shiftLeft_add_eq_or_of_lt b0.isLt, Nat.shiftLeft_eq]
    simp only [leNat]
    omega
  rw [spelled, BitVec.ofNat_toNat, BitVec.getLsbD_setWidth, BitVec.getLsbD_append]
  simp only [h, decide_true, Bool.true_and]
  by_cases hi : i < 8
  · rw [if_pos hi, if_pos (Nat.div_eq_of_lt hi), Nat.mod_eq_of_lt hi]
  · obtain rfl : i = 8 := by omega
    rfl

theorem Flag.bit_lt (f : Flag) : f.bit < 9 := by cases f <;> decide

/-- Flag by flag, a write to the acknowledge line clears what its byte of the flag's bit names, where it carries
that byte (R200). -/
theorem writeAcknowledge_flag (ls : List Lane) (p : Part) (f : Flag) :
    (writeAcknowledge ls p).flag f =
      (p.flag f && !((lane ls (f.bit / 8)).getD 0).getLsbD (f.bit % 8)) := by
  have hf := f.bit_lt
  have named : (BitVec.ofNat 9 (leNat [(lane ls 0).getD 0, (lane ls 1).getD 0])).getLsbD f.bit =
      ((lane ls (f.bit / 8)).getD 0).getLsbD (f.bit % 8) := by
    rw [getLsbD_ofNat_leNat_pair _ _ hf]
    split
    · next h => rw [h]
    · next h => rw [show f.bit / 8 = 1 by omega]
  simp only [writeAcknowledge, Part.flag, withEvents_events, BitVec.getLsbD_and, BitVec.getLsbD_not, named, hf,
    decide_true, Bool.true_and]

/-- A write to the acknowledge line over the channel changes the channel monitor and the flags alone (R17, R200). -/
theorem exec_acknowledgeWrite {w : AnchorBurst} {s : State} (ha : s.part.AnchorOpen) :
    let cleared := writeAcknowledge (s.part.lanesOf (anchorWrite 0x140 w)) s.part
    exec (.acknowledgeWrite w) s = .next (s.having
      { s.part with
        channel := anchorChannel 0x140 w s.part
        events := { s.part.events with flags := cleared.events.flags } }) := by
  intro cleared
  have reached := anchorWrite_reaches ha acknowledgeOffset w (by decide) (by decide) rfl
  rw [exec_writeOf (w := anchorWrite acknowledgeOffset w) rfl, reached, autoClosed_passed]
  · rfl
  · rfl

/-! ### The attention line (R201) -/

/-- Every bit of the event flag field is a flag's (R199). -/
theorem exists_flag_bit {i : Nat} (h : i < 9) : ∃ f : Flag, f.bit = i := by
  interval_cases i
  exacts [⟨.commandDone, rfl⟩, ⟨.pathChanged, rfl⟩, ⟨.verdictChanged, rfl⟩, ⟨.radioChanged, rfl⟩, ⟨.latched, rfl⟩,
    ⟨.uplinkDone, rfl⟩, ⟨.downlinkReady, rfl⟩, ⟨.wake, rfl⟩, ⟨.dataLoss, rfl⟩]

/-- A field of event flags differs from 0 exactly when it has some flag's bit. -/
theorem ne_zero_iff_exists_flag (x : BitVec 9) : x ≠ 0 ↔ ∃ f : Flag, x.getLsbD f.bit = true := by
  constructor
  · contrapose!
    intro clear
    refine BitVec.eq_of_getLsbD_eq fun i hi => ?_
    obtain ⟨f, rfl⟩ := exists_flag_bit hi
    simpa using clear f
  · rintro ⟨f, hf⟩ rfl
    simp at hf

theorem attention_iff (p : Part) :
    p.attention = true ↔ ∃ f : Flag, p.flag f = true ∧ p.events.mask.getLsbD f.bit = true := by
  simp only [Part.attention, Part.flag, bne_iff_ne, ne_zero_iff_exists_flag, BitVec.getLsbD_and, Bool.and_eq_true]

/-- Settles O21: each command's owner changes the event unit alone and is answered, the acknowledge line clears flag
by flag, and the attention line is the meet of flags and mask. -/
theorem flagsAndCounters : Obligations.FlagsAndCounters := by
  refine ⟨fun h s ht => ?_, fun w s ha => ?_, attention_iff⟩
  · refine ⟨?_, ?_, Counters.get_zero⟩
    · exact slot_answered (c := .setEvents) rfl ht rfl (runCommand_setEvents _ _ _ _) rfl rfl
    · exact slot_answered (c := .clearCounters) rfl ht rfl (runCommand_clearCounters _ _ _ _) rfl rfl
  · exact ⟨_, exec_acknowledgeWrite ha, writeAcknowledge_flag _ s.part⟩

end Sys2Proof.Machine
end

section
-- Elaborated in sequence: the joined text stands close to the memory the check allows.
set_option Elab.async false

section
/-! # Settling O1, O2, O58 and O60: what a command can do to the part, and what every step keeps. -/

namespace Sys2Proof.Machine

/-! ### What a command can do -/

/-- What a command other than PART_RESET can make of the part `p`: it is a channel command, it moves the channel
reset line, it lets the traffic and the service alone, or it is an event whose own rule `f` keeps what the blocks
need and the shapes of the stores. -/
inductive Acts (p : Part) : Part → Prop where
  | named (op : ChannelOp) : Acts p (channelCommand op p)
  | pins (c : ChannelPins) : Acts p (pinsCommand c p)
  | asserts (cut : CutAccess) : Acts p (assertReset cut p)
  | releases : Acts p (releaseReset p)
  | quiet {q : Part} (hq : Quiet p q) (ht : Tidy p q) : Acts p q
  | event {f : Part → Part} (hc : Core p → Core (f p)) (hs : p.Shaped → (f p).Shaped) : Acts p (event f p)

theorem Acts.refl (p : Part) : Acts p p := .quiet (Quiet.refl p) (Tidy.refl p)

theorem Acts.linkError (p : Part) : Acts p (linkError p) := .quiet (count_quiet _ _ _) (linkError_tidy p)

theorem Acts.ite {c : Prop} [Decidable c] {p q r : Part} (h : c → Acts p q) (k : Acts p r) :
    Acts p (if c then q else r) := by
  split
  · next hc => exact h hc
  · exact k

/-- An event that comes about only where `c` holds (log 3, log 7, log 14). -/
theorem Acts.eventIf {c : Prop} [Decidable c] {f : Part → Part} {p : Part} (hc : c → Core p → Core (f p))
    (hs : p.Shaped → (f p).Shaped) : Acts p (if c then Machine.event f p else p) :=
  .ite (fun h => .event (hc h) hs) (.refl p)

/-- `Acts.eventIf` for a rule that leaves the stores and the frames' parts alone. -/
theorem Acts.tidyIf {c : Prop} [Decidable c] {f : Part → Part} {p : Part} (hc : c → Core p → Core (f p))
    (ht : Tidy p (f p)) : Acts p (if c then Machine.event f p else p) :=
  .eventIf hc fun h => h.tidy ht

/-- A message received acts by the table of R122, or not at all. -/
theorem Acts.received (m : Inbound) (p : Part) : Acts p (received (takeMessage m) p) :=
  .eventIf (fun _ h => takeMessage_core m (heard_core h)) fun h => takeMessage_shaped m (h.tidy (heard_tidy p))

theorem Acts.receiveRaw (m : RawMessage) (p : Part) : Acts p (receiveRaw m p) := by
  unfold Machine.receiveRaw
  split
  · exact .received _ p
  · exact .ite (fun _ => .linkError p) (.refl p)

/-- The guard of an expiry: the state in which the timer runs. -/
theorem guard_of {c d : Prop} [Decidable c] {b : Bool} (h : (decide c && b) = true) (k : c → d) : d :=
  k (of_decide_eq_true (Bool.and_eq_true_iff.mp h).1)

/-- A DATA_DOWN too long for a message is dropped; any other is received (R121, R186, log 30). -/
theorem Acts.dataDown (h : Carriage) (frame : List Byte) (p : Part) :
    Acts p (if Config.slotBytes < frame.length then (if p.radio.state.receives then Machine.linkError p else p)
      else Machine.received (takeDown h frame) p) := by
  split
  · exact .ite (fun _ => .linkError p) (.refl p)
  · exact .received (.dataDown h frame) p

/-- A frame sent under a link sequence that the outstanding list holds is answered for by an event, if at all. -/
theorem Acts.acceptTimer (link : BitVec 16) (p : Part) :
    Acts p (match p.sentUnder link with
      | some e => if Timer.due e.accept p.clock.now then Machine.event (acceptExpires e) p else p
      | none => p) := by
  split
  · next e he => exact .tidyIf (fun _ => acceptExpires_core e) (acceptExpires_tidy (sentUnder_link he))
  · exact .refl p

/-- The negative branch of an `if` is where the event comes about. -/
theorem Acts.iteNot {c : Prop} [Decidable c] {p q : Part} (h : ¬c → Acts p q) : Acts p (if c then p else q) := by
  split
  · exact .refl p
  · next hc => exact h hc

theorem Acts.attachReq (p : Part) :
    Acts p (match p.radio.lane, p.radio.control with
      | none, some (.attachReq profile) =>
        if p.radio.state = .attaching then Machine.event (startAttachReq profile) p else p
      | _, _ => p) := by
  split
  · exact .tidyIf (fun hs h => startAttachReq_core _ h hs) (withRadio_tidy _ _)
  · exact .refl p

theorem Acts.detachReq (p : Part) :
    Acts p (match p.radio.lane, p.radio.control with
      | none, some (.detachReq _) => if p.attached then Machine.event startDetachReq p else p
      | _, _ => p) := by
  split
  · exact .tidyIf (fun ha h => startDetachReq_core h (attached_of ha)) (startDetachReq_tidy _)
  · exact .refl p

theorem Acts.dataUp (p : Part) :
    Acts p (match p.sendable with
      | some f => Machine.event (startDataUp f) p
      | none => p) := by
  split
  · next f hf =>
    obtain ⟨hcand, hsend⟩ := Option.filter_eq_some_iff.mp hf
    exact .event (fun h => startDataUp_core h hsend) fun h => h.tidy (startDataUp_tidy hcand)
  · exact .refl p

theorem Acts.age (c : ServiceClass) (p : Part) :
    Acts p (match p.overdue c with
      | some f => Machine.event (ageOut c f) p
      | none => p) := by
  split
  · next f hf =>
    exact .event (ageOut_core c f) fun h => h.tidy (ageOut_tidy (List.mem_of_find?_eq_some hf))
  · exact .refl p

/-- Every row but PART_RESET, by the kind of what it does. -/
theorem exec_acts (i : Instr) (s : State) (hi : ∀ strap asserted, i ≠ .partReset strap asserted) :
    ∃ q, exec i s = .next (s.having q) ∧ Acts s.part q := by
  cases hop : channelOp i with
  | some sent =>
    refine ⟨_, exec_channelOp hop s, ?_⟩
    cases sent with
    | named op => exact .named op
    | pins c => exact .pins c
  | none =>
    cases i
    case partReset => exact absurd rfl (hi _ _)
    case firstMillisecond =>
      exact ⟨_, rfl, .iteNot fun _ => .event (firstLevels_core _) fun h => h.tidy (firstLevels_tidy _ _)⟩
    case channelResetAssert cut => exact ⟨_, rfl, .asserts cut⟩
    case channelResetRelease => exact ⟨_, rfl, .releases⟩
    case pollStart => exact ⟨_, rfl, .ite (fun _ => .quiet (startPoll_quiet _) (withOptical_tidy _ _)) (.refl _)⟩
    case pollRetry u => exact ⟨_, rfl, .ite (fun _ => .quiet (retryPoll_quiet u _) (withOptical_tidy _ _)) (.refl _)⟩
    case pollFailed u =>
      exact ⟨_, rfl, .tidyIf (fun _ => failPoll_core u) ((conditionsChange_tidy _ _).after (withOptical_tidy _ _))⟩
    case pollComplete bs =>
      exact ⟨_, rfl, .tidyIf (fun _ => completePoll_core bs) ((conditionsTo_tidy _ _).after ((withHealth_tidy _ _).after (withOptical_tidy _ _)))⟩
    case opticalPresenceFall =>
      exact ⟨_, rfl, .tidyIf (fun _ h => presenceFalls_core (withClock_core _ h)) ((withClock_tidy _ _).trans ((conditionsChange_tidy _ _).after (withOptical_tidy _ _)))⟩
    case opticalPresenceRise olos =>
      exact ⟨_, rfl, .iteNot fun _ => .event (fun h => presenceRises_core olos (withClock_core _ (withClock_core _ h)))
        fun h => h.tidy ((withClock_tidy _ _).trans ((withClock_tidy _ _).trans ((conditionsChange_tidy _ _).after (withOptical_tidy _ _))))⟩
    case losChange active =>
      exact ⟨_, rfl, .tidyIf (fun _ h => losChanges_core active (withClock_core _ h))
        ((withClock_tidy _ _).trans ((conditionsChange_tidy _ _).after (withOptical_tidy _ _)))⟩
    case txOffEnd =>
      refine ⟨_, rfl, ?_⟩
      show Acts s.part (match s.part.txOffDue with
        | some settle => event (endTxOff settle) s.part
        | none => s.part)
      split
      · exact .event (endTxOff_core _) fun h => h.tidy (endTxOff_tidy _ _)
      · exact .refl _
    case settlingEnd => exact ⟨_, rfl, .tidyIf (fun _ => endWindow_core) (endWindow_tidy _)⟩
    case automaticRestartExpiry => exact ⟨_, rfl, .tidyIf (fun _ h => h.calm (runExpires_calm _)) (runExpires_tidy _)⟩
    case stalenessExpiry =>
      exact ⟨_, rfl, .tidyIf (fun _ => staleExpires_core) ((conditionsTo_tidy _ _).after (withHealth_tidy _ _))⟩
    case radioTestChange active =>
      exact ⟨_, rfl, .iteNot fun _ => .event (fun h => takeTest_core active (withClock_core _ h))
        fun h => h.tidy ((withClock_tidy _ _).trans (takeTest_tidy _ _))⟩
    case dwellExpiry =>
      exact ⟨_, rfl, .tidyIf (fun hd h => dwellEnds_core h (guard_of hd id)) (dwellEnds_tidy _)⟩
    case proveExpiry =>
      exact ⟨_, rfl, .tidyIf (fun hd h => enterReturning_core h (guard_of hd id)) (enterReturning_tidy _)⟩
    case strandedProveExpiry =>
      exact ⟨_, rfl, .tidyIf (fun hd h => enterFibre_core h (guard_of hd id)) (enterFibre_tidy _ _)⟩
    case voiceQuietExpiry =>
      exact ⟨_, rfl, .tidyIf (fun hd h => voiceDrains_core h (guard_of hd id)) (withPath_tidy _ _)⟩
    case voiceStickExpiry =>
      exact ⟨_, rfl, .tidyIf (fun hd h => voiceDrains_core h (guard_of hd id)) (withPath_tidy _ _)⟩
    case drainLimitExpiry c =>
      exact ⟨_, rfl, .tidyIf (fun hd h => drainExpires_core h (guard_of hd id))
        (((withPath_tidy _ _).trans (discardFibre_tidy _ _)).trans (returnEnds_tidy _))⟩
    case radioPresenceFall =>
      exact ⟨_, rfl, .tidyIf (fun _ h => takeRadioPresence_core false (withClock_core _ h))
        ((withClock_tidy _ _).trans (takeRadioPresence_tidy _ _))⟩
    case radioPresenceRise =>
      exact ⟨_, rfl, .tidyIf (fun _ h => takeRadioPresence_core true (withClock_core _ h))
        ((withClock_tidy _ _).trans (takeRadioPresence_tidy _ _))⟩
    case startTimerExpiry => exact ⟨_, rfl, .tidyIf (fun _ => moduleTo_restarts_core rfl) (moduleTo_tidy _ _)⟩
    case silenceTimerExpiry => exact ⟨_, rfl, .tidyIf (fun _ => moduleTo_restarts_core rfl) (moduleTo_tidy _ _)⟩
    case recoverTimerExpiry => exact ⟨_, rfl, .tidyIf (fun _ => moduleTo_restarts_core rfl) (moduleTo_tidy _ _)⟩
    case detachTimerExpiry =>
      exact ⟨_, rfl, .tidyIf (fun hd h => moduleToIdle_core h (guard_of hd fun e => by rw [e]; decide))
        (moduleToIdle_tidy _)⟩
    case messageDropped m => exact ⟨_, rfl, .receiveRaw m _⟩
    case ready fw mb => exact ⟨_, rfl, .received (.ready fw mb) _⟩
    case attachOk sid g b => exact ⟨_, rfl, .received (.attachOk sid g b) _⟩
    case attachFail r => exact ⟨_, rfl, .received (.attachFail r) _⟩
    case detached c => exact ⟨_, rfl, .received (.detached c) _⟩
    case signalReport q g b => exact ⟨_, rfl, .received (.signalReport q g b) _⟩
    case upAccept l b => exact ⟨_, rfl, .received (.upAccept l b) _⟩
    case upReject l r => exact ⟨_, rfl, .received (.upReject l r) _⟩
    case resetNotice => exact ⟨_, rfl, .received .resetNotice _⟩
    case dataDown h f => exact ⟨_, rfl, .dataDown h f _⟩
    case answerTimerExpiry =>
      exact ⟨_, rfl, .tidyIf (fun hd h => failAttempt_core h (Bool.and_eq_true_iff.mp hd).1) (failAttempt_tidy _ _)⟩
    case retryTimerExpiry =>
      exact ⟨_, rfl, .tidyIf (fun hd h => placeAttach_core _ h (h.phase.mpr (guard_of hd fun e => by rw [e]; decide)))
        (withRadio_tidy _ _)⟩
    case reAttemptTimerExpiry =>
      exact ⟨_, rfl, .tidyIf (fun _ h => h.figures rfl rfl rfl le_rfl) (withRadio_tidy _ _)⟩
    case lingerExpiry => exact ⟨_, rfl, .tidyIf (fun _ h => h.figures rfl rfl rfl le_rfl) (withRadio_tidy _ _)⟩
    case acceptTimerExpiry link => exact ⟨_, rfl, .acceptTimer link _⟩
    case attachReqStart => exact ⟨_, rfl, .attachReq _⟩
    case detachReqStart => exact ⟨_, rfl, .detachReq _⟩
    case transferEnd =>
      refine ⟨_, rfl, ?_⟩
      show Acts s.part (match s.part.radio.lane with
        | some t => event (endTransfer t) s.part
        | none => s.part)
      split
      · exact .event (endTransfer_core _) fun h => h.tidy (endTransfer_tidy _ _)
      · exact .refl _
    case creditAccrual => exact ⟨_, rfl, .tidyIf (fun _ => accrue_core) (withRelay_tidy _ _)⟩
    case dataUpStart => exact ⟨_, rfl, .dataUp _⟩
    case ageExpiry c => exact ⟨_, rfl, .age c _⟩
    all_goals cases hop

/-! ### What every step keeps -/

theorem Acts.coherent {p q : Part} (h : Acts p q) (hp : p.Coherent) : q.Coherent := by
  cases h with
  | named op => exact channelCommand_coherent op hp
  | pins c => exact pinsCommand_coherent c hp
  | asserts cut => exact assertReset_coherent cut hp
  | releases => exact hp.quiet (releaseReset_quiet p)
  | quiet hq => exact hp.quiet hq
  | event hc => exact event_coherent (hc hp.core)

theorem Acts.shaped {p q : Part} (h : Acts p q) (hp : p.Shaped) : q.Shaped := by
  cases h with
  | named op => exact channelCommand_shaped op hp
  | pins c => exact pinsCommand_shaped c hp
  | asserts cut => exact assertReset_shaped cut hp
  | releases => exact releaseReset_shaped hp
  | quiet _ ht => exact hp.tidy ht
  | event _ hs => exact (hs hp).tidy (closeEvent_tidy _ _)

/-- The data that a reset posts last belong to the command unit: the flags stand as the event raised them (R8). -/
theorem assertReset_told (cut : CutAccess) (p : Part) : Told p (assertReset cut p) := by
  unfold assertReset
  split
  · exact Told.refl p
  · have told := told_event (fun q => channelReset (cutAccess cut q)) p
    generalize event (fun q => channelReset (cutAccess cut q)) p = q at told
    obtain hd | ⟨data, hd⟩ := postAtEnd_eq (cutCommand cut p) q
    · rwa [hd]
    · rw [hd]
      exact told.post rfl rfl fun _ h => h

theorem Acts.told {p q : Part} (h : Acts p q) : Told p q := by
  cases h with
  | named op => exact channelCommand_told op p
  | pins c => exact pinsCommand_told c p
  | asserts cut => exact assertReset_told cut p
  | releases => exact (releaseReset_quiet p).told
  | quiet hq => exact hq.told
  | event => exact told_event _ p

/-- A step with a command waiting leaves the part as that command does. -/
theorem step_next {s t : State} (h : step s = .next t) :
    (∃ strap asserted, t.part = Part.reset strap asserted s.part.clock.pins) ∨ Acts s.part t.part ∨
      t.part = sampled s.part := by
  obtain ⟨pending, p⟩ := s
  cases pending with
  | nil =>
    cases h
    exact .inr (.inr rfl)
  | cons i rest =>
    by_cases hi : ∃ strap asserted, i = .partReset strap asserted
    · obtain ⟨strap, asserted, rfl⟩ := hi
      cases h
      exact .inl ⟨strap, asserted, rfl⟩
    · obtain ⟨q, hq, ha⟩ := exec_acts i { pending := rest, part := p } fun strap asserted e => hi ⟨strap, asserted, e⟩
      cases (hq.symm.trans h : Host.Outcome.next _ = _)
      exact .inr (.inl ha)

theorem sampled_tidy (p : Part) : Tidy p (sampled p) := Tidy.ite (withClock_tidy _ _) (withClock_tidy _ _)

/-! ### Part reset -/

theorem reset_pathStands (strap : BitVec 4) (asserted : Bool) (pins : Pins) :
    (Part.reset strap asserted pins).PathStands where
  stands c := by cases c <;> rfl
  onAir h := by obtain h | h | h := h <;> cases h
  drainsOnAir c h := by cases c <;> cases h
  returns h := by cases h
  judges := by intro h; cases h
  forced := ⟨⟨fun h => (by cases h), fun h => (by cases h)⟩, fun h => (by cases h), fun h => (by cases h)⟩
  fibre c _ := by cases c <;> rfl

theorem reset_coherent (strap : BitVec 4) (asserted : Bool) (pins : Pins) :
    (Part.reset strap asserted pins).Coherent where
  path := reset_pathStands strap asserted pins
  handed := ⟨rfl, rfl⟩
  shed := ⟨fun c h => (by cases c <;> cases h), rfl, rfl⟩
  control := ⟨fun _ h => (by cases h), fun _ h => (by cases h)⟩
  phase := ⟨fun h => (by cases h), fun h => absurd rfl h⟩
  bounds := ⟨Nat.zero_le _, Nat.zero_le _⟩
  queued c f hf := by cases c <;> cases hf
  stays := .inl fun h => by cases h
  drained c h := by cases c <;> cases h
  demand := ⟨fun h => (by cases h), fun _ h => (by cases h)⟩
  run := ⟨fun h => (by cases h), fun ⟨h, _⟩ => (by cases h)⟩

theorem reset_shaped (strap : BitVec 4) (asserted : Bool) (pins : Pins) :
    (Part.reset strap asserted pins).Shaped where
  header := rfl
  params := rfl
  data := rfl
  banks := rfl
  captures := rfl
  hosts e he := by cases he
  staging := rfl
  slots := rfl
  fill := Nat.zero_lt_succ 31
  entries := (entriesStand_iff _).mpr ⟨idle_follows rfl rfl fun e he => (by cases he), rfl, rfl⟩

/-! ### The statements -/

/-- Settles O1: it is how the step is defined. -/
theorem stepRunsTheFrontCommand : Obligations.StepRunsTheFrontCommand := fun _ _ _ => rfl

/-- Settles O2: PART_RESET answers with the part reset, every other row by `exec_acts`. -/
theorem everyCommandIsAnswered : Obligations.EveryCommandIsAnswered := by
  intro i s
  by_cases hi : ∃ strap asserted, i = .partReset strap asserted
  · obtain ⟨strap, asserted, rfl⟩ := hi
    exact ⟨_, rfl, trivial⟩
  · obtain ⟨q, hq, -⟩ := exec_acts i s fun strap asserted e => hi ⟨strap, asserted, e⟩
    exact ⟨q, hq, trivial⟩

/-- Settles O5: each value stands in the reset record of its block. -/
theorem resetValues : Obligations.ResetValues := by
  unfold Obligations.ResetValues
  refine ⟨rfl, rfl, rfl, rfl, rfl, rfl, rfl, rfl, rfl, rfl, rfl, rfl, rfl, rfl, rfl, rfl, rfl, rfl, rfl, rfl, rfl, rfl,
    rfl, rfl, rfl, rfl, rfl, ?_, rfl, rfl, rfl, rfl, rfl, rfl, rfl, rfl, rfl, rfl, ?_, rfl, rfl, rfl, rfl, rfl, rfl, ?_,
    rfl, rfl⟩
  · exact PerClass.get_ofFn _
  · intro c
    exact ⟨PerClass.get_ofFn _ c, PerClass.get_ofFn _ c, by cases c <;> rfl⟩
  · exact PerClass.get_ofFn _

/-- Settles O6: every block is its reset record. -/
theorem partResetResetsEveryBlock : Obligations.PartResetResetsEveryBlock := by
  intro strap asserted s
  refine ⟨_, rfl, rfl, ?_, rfl, rfl, rfl, rfl, rfl, rfl, rfl, rfl, rfl, rfl, rfl⟩
  exact Nat.add_comm _ _

/-- Settles O59. -/
theorem resetHasTheInvariants : Obligations.ResetHasTheInvariants :=
  ⟨fun strap asserted pins => ⟨reset_coherent strap asserted pins, reset_shaped strap asserted pins⟩,
    reset_coherent _ _ _, reset_shaped _ _ _⟩

/-- Settles O58: a step resets the part, does what `Acts` names, or lets a millisecond pass, and each keeps both. -/
theorem everyStepKeepsTheInvariants : Obligations.EveryStepKeepsTheInvariants := by
  intro s t h
  obtain ⟨strap, asserted, hr⟩ | ha | hr := step_next h
  · rw [hr]
    exact ⟨fun _ => reset_coherent _ _ _, fun _ => reset_shaped _ _ _⟩
  · exact ⟨ha.coherent, ha.shaped⟩
  · rw [hr]
    exact ⟨fun hp => hp.quiet (sampled_quiet _), fun hp => hp.tidy (sampled_tidy _)⟩

/-- Settles O60: whatever acts tells its changes. -/
theorem changesAreReported : Obligations.ChangesAreReported := by
  intro i s t hi h p q shown
  obtain ⟨r, hr, ha⟩ := exec_acts i s hi
  cases (hr.symm.trans h : Host.Outcome.next _ = _)
  obtain ⟨hpath, hradio⟩ := ha.told
  refine ⟨fun hc => hpath ?_, fun hc => hradio (Ne.symm hc)⟩
  obtain hc | ⟨c, hc⟩ := hc
  · simp only [pathMoved, Bool.or_eq_true]
    exact .inl (bne_iff_ne.mpr hc)
  · simp only [pathMoved, Bool.or_eq_true, List.any_eq_true]
    exact .inr ⟨c, mem_classes c, bne_iff_ne.mpr hc⟩

end Sys2Proof.Machine
end

section
/-! # Settling O10 to O13: the bank table, mode knowledge, the sleeping channel and how commands are coded (R1 to R7,
R62). -/

namespace Sys2Proof.Machine

/-- In ACTIVE a command passes on and acts by its kind (R1, R2). -/
theorem channelCommand_active {p : Part} (h : p.channel.state = .active) (op : ChannelOp) :
    channelCommand op p = activeCommand op (forward op p) := by
  unfold channelCommand
  rw [h]

/-- In POWER_DOWN and SELF_REFRESH a command passes on and only the exit acts (R7). -/
theorem channelCommand_sleeping {p : Part} (h : p.channel.state = .powerDown ∨ p.channel.state = .selfRefresh)
    (op : ChannelOp) : channelCommand op p = sleepingCommand op (forward op p) := by
  unfold channelCommand
  obtain h | h := h <;> rw [h]

/-- In IN_RESET a command passes on and nothing else comes of it (R7). -/
theorem channelCommand_inReset {p : Part} (h : p.channel.state = .inReset) (op : ChannelOp) :
    channelCommand op p = forward op p := by
  unfold channelCommand
  rw [h]

/-! ### The bank table (R3) -/

/-- Settles O10: each row is its channel command in ACTIVE. -/
theorem bankTable : Obligations.BankTable := by
  intro s bank row p c ha
  have act {i : Instr} {op : ChannelOp} (hi : channelOp i = some (.named op)) :
      exec i s = .next (s.having (activeCommand op (forward op p))) := by
    rw [exec_named hi, channelCommand_active ha]
  exact ⟨act (op := .openRow bank row) rfl, act (op := .closeRow bank) rfl, act (op := .closeAll) rfl,
    act (op := .refresh) rfl⟩

/-! ### Mode knowledge (R5, R6) -/

/-- The bits of an address, as a number. -/
theorem toNat_extract (v : BitVec 15) (i n : Nat) : (v.extractLsb' i n).toNat = v.toNat / 2 ^ i % 2 ^ n := by
  simp [Nat.shiftRight_eq_div_pow]

theorem getLsbD_eq_decide (v : BitVec 15) (i : Nat) : v.getLsbD i = decide (v.toNat / 2 ^ i % 2 = 1) := by
  simp [BitVec.getLsbD, Nat.testBit_eq_decide_div_mod_eq]

/-- Bits 1 and 0 of mode register 0 (R5). -/
theorem burstModeOf_iff (v : BitVec 15) (m : BurstMode) : burstModeOf v = some m ↔
    v.toNat % 4 = 0 ∧ m = .fixed8 ∨ v.toNat % 4 = 1 ∧ m = .onTheFly ∨ v.toNat % 4 = 2 ∧ m = .fixed4 := by
  have low : (v.extractLsb' 0 2).toNat = v.toNat % 4 := by rw [toNat_extract]; simp
  have bound : v.toNat % 4 < 4 := Nat.mod_lt _ (by decide)
  unfold burstModeOf
  rw [low]
  generalize v.toNat % 4 = n at bound
  interval_cases n <;> simp [eq_comm]

/-- The number that bits 6 to 4 and 2 of mode register 0 spell (R5). -/
def latencyCode (v : BitVec 15) : Nat := 2 * (v.toNat / 16 % 8) + v.toNat / 4 % 2

/-- Bits 6 to 4 and 2 of mode register 0 (R5). -/
theorem readLatencyOf_eq (v : BitVec 15) : readLatencyOf v =
    if latencyCode v ≠ 0 ∧ (latencyCode v % 2 = 0 ∨ latencyCode v ≤ 5) then
      some (if latencyCode v % 2 = 0 then 4 + latencyCode v / 2 else 12 + latencyCode v / 2)
    else none := by
  have code : 2 * (v.extractLsb' 4 3).toNat + (v.extractLsb' 2 1).toNat = latencyCode v := by
    rw [toNat_extract, toNat_extract]; rfl
  have bound : latencyCode v < 16 := by unfold latencyCode; omega
  unfold readLatencyOf
  rw [code]
  generalize latencyCode v = n at bound
  interval_cases n <;> rfl

/-- Bits 4 and 3 of mode register 1 (R5). -/
theorem additiveOf_iff (v : BitVec 15) (a : Additive) : additiveOf v = some a ↔
    v.toNat / 8 % 4 = 0 ∧ a = .zero ∨ v.toNat / 8 % 4 = 1 ∧ a = .readLess1 ∨
      v.toNat / 8 % 4 = 2 ∧ a = .readLess2 := by
  have bits : (v.extractLsb' 3 2).toNat = v.toNat / 8 % 4 := toNat_extract v 3 2
  have bound : v.toNat / 8 % 4 < 4 := Nat.mod_lt _ (by decide)
  unfold additiveOf
  rw [bits]
  generalize v.toNat / 8 % 4 = n at bound
  interval_cases n <;> simp [eq_comm]

theorem burstModeOf_none {v : BitVec 15} (h : v.toNat % 4 = 3) : burstModeOf v = none := by
  refine Option.eq_none_iff_forall_ne_some.mpr fun m hm => ?_
  have := (burstModeOf_iff v m).mp hm
  omega

theorem additiveOf_none {v : BitVec 15} (h : v.toNat / 8 % 4 = 3) : additiveOf v = none := by
  refine Option.eq_none_iff_forall_ne_some.mpr fun a ha => ?_
  have := (additiveOf_iff v a).mp ha
  omega

/-- A mode-set to register 0 whose burst mode and read latency are both coded is valid (R5). -/
theorem readMode_zero_valid {v : BitVec 15} {m : BurstMode} {l : Nat} (hm : burstModeOf v = some m)
    (hl : readLatencyOf v = some l) (p : Part) : readMode 0 v p = p.withChannel { p.channel with
      burstMode := m, readOrder := if v.getLsbD 3 then .interleaved else .sequential, readLatency := l,
      known0 := true } := by
  simp [readMode, hm, hl]

theorem readMode_zero_invalid {v : BitVec 15} (h : burstModeOf v = none ∨ readLatencyOf v = none) (p : Part) :
    readMode 0 v p = invalidMode p := by
  obtain h | h := h
  · simp [readMode, h]
  · cases hm : burstModeOf v <;> simp [readMode, h, hm]

theorem readMode_one_valid {v : BitVec 15} {a : Additive} (h : additiveOf v = some a) (p : Part) :
    readMode 1 v p = p.withChannel { p.channel with
      additive := a, outputDisable := v.getLsbD 12, known1 := true } := by
  simp [readMode, h]

theorem readMode_one_invalid {v : BitVec 15} (h : additiveOf v = none) (p : Part) :
    readMode 1 v p = invalidMode p := by
  simp [readMode, h]

/-- Settles O11: a mode-set in ACTIVE reads its register, valid or not, once an OPEN bank has counted. -/
theorem modeSet : Obligations.ModeSet := by
  intro s v p c n latency sent invalid ha
  have reads (r : BitVec 2) : exec (.modeSet r v) s = .next (s.having (readMode r v (sent r c))) := by
    rw [exec_named (op := .modeSet r v) rfl, channelCommand_active ha]
    rfl
  refine ⟨fun m hm h0 hl => ?_, fun h => ?_, fun a h => ?_, fun h => ?_, ?_, ?_⟩
  · have hlat : readLatencyOf v = some (if latency % 2 = 0 then 4 + latency / 2 else 12 + latency / 2) :=
      (readLatencyOf_eq v).trans (if_pos ⟨h0, hl⟩)
    rw [reads, readMode_zero_valid ((burstModeOf_iff v m).mpr hm) hlat, getLsbD_eq_decide]
    simp only [decide_eq_true_eq]
    rfl
  · have none : burstModeOf v = none ∨ readLatencyOf v = none := by
      refine h.imp burstModeOf_none fun h => (readLatencyOf_eq v).trans (if_neg ?_)
      show ¬(latency ≠ 0 ∧ (latency % 2 = 0 ∨ latency ≤ 5))
      omega
    rw [reads, readMode_zero_invalid none]
    rfl
  · rw [reads, readMode_one_valid ((additiveOf_iff v a).mpr h), getLsbD_eq_decide]
    rfl
  · rw [reads, readMode_one_invalid (additiveOf_none h)]
    rfl
  · rw [reads]
    show Host.Outcome.next (s.having ((sent 2 c).withChannel { (sent 2 c).channel with
      writeLatency := 5 + (v.extractLsb' 3 3).toNat, known2 := true })) = _
    rw [toNat_extract]
    rfl
  · rw [reads]
    show Host.Outcome.next (s.having ((sent 3 c).withChannel { (sent 3 c).channel with
      readout := v.getLsbD 2 })) = _
    rw [getLsbD_eq_decide]
    rfl

/-! ### The sleeping channel (R7, R62) -/

/-- A named row over the sleeping or reset channel, or a row that comes as pins: what it does, and what it shows
passed (R1, R2). -/
theorem exec_over {i : Instr} {sent : DramCommand} (hi : channelOp i = some sent) (s : State) :
    exec i s = .next (s.having { channelCommand sent.op s.part with
      channel := { (channelCommand sent.op s.part).channel with toDram := some sent } }) ∨
    ∃ op, sent = .named op ∧ exec i s = .next (s.having (channelCommand op s.part)) := by
  cases sent with
  | named op => exact .inr ⟨op, rfl, exec_named hi s⟩
  | pins c => exact .inl (by rw [exec_pins hi, pinsCommand_eq]; rfl)

/-- Where what a command does leaves the command passed alone, it is shown as the row gave it (R1). -/
theorem exec_shown {i : Instr} {sent : DramCommand} (hi : channelOp i = some sent) (s : State)
    (h : (channelCommand sent.op s.part).channel.toDram = some (.named sent.op)) :
    exec i s = .next (s.having { channelCommand sent.op s.part with
      channel := { (channelCommand sent.op s.part).channel with toDram := some sent } }) := by
  obtain hx | ⟨op, rfl, hx⟩ := exec_over hi s
  · exact hx
  · rw [hx]
    show _ = Host.Outcome.next (s.having { channelCommand op s.part with
      channel := { (channelCommand op s.part).channel with toDram := some (.named op) } })
    rw [← (show _ = some (DramCommand.named op) from h)]
    rfl

/-- A command out of place passes on and counts (R7). -/
theorem sleepingCommand_other {op : ChannelOp} (h1 : op ≠ .exit) (h2 : op ≠ .noOp) (h3 : op ≠ .deselect) (p : Part) :
    sleepingCommand op p = count .channelProtocol 1 p := by
  cases op with
  | exit => exact absurd rfl h1
  | noOp => exact absurd rfl h2
  | deselect => exact absurd rfl h3
  | _ => rfl

theorem sleepingCommand_silent {op : ChannelOp} (h : op = .noOp ∨ op = .deselect) (p : Part) :
    sleepingCommand op p = p := by
  obtain rfl | rfl := h <;> rfl

/-- No command that sleeps takes back what passed to DRAM (R1). -/
theorem sleepingCommand_toDram (op : ChannelOp) (p : Part) :
    (sleepingCommand op p).channel.toDram = p.channel.toDram := by
  cases op <;> rfl

theorem forward_toDram (op : ChannelOp) (p : Part) : (forward op p).channel.toDram = some (.named op) := by
  cases op <;> rfl

/-- Settles O12: the entries and exits in ACTIVE and asleep, then every row over a channel that sleeps or is in
reset. -/
theorem sleepingChannel : Obligations.SleepingChannel := by
  refine ⟨fun s => ?_, fun i sent s hi => ?_⟩
  · intro p c now slept woken
    have slept_eq : slept = p.health.stale.pause now := by
      show (match p.health.stale with | .running since => _ | t => t) = _
      cases p.health.stale <;> rfl
    have woken_eq : woken = p.health.stale.resume now := by
      show (match p.health.stale with | .paused passed => _ | t => t) = _
      cases p.health.stale <;> rfl
    rw [slept_eq, woken_eq]
    refine ⟨fun ha => ⟨?_, ?_, ?_⟩, fun ha => ?_⟩
    · rw [exec_named (op := .powerDownEntry) rfl, channelCommand_active ha]
      rfl
    · rw [exec_named (op := .selfRefreshEntry) rfl, channelCommand_active ha]
      rfl
    · rw [exec_named (op := .exit) rfl, channelCommand_active ha]
      rfl
    · rw [exec_named (op := .exit) rfl, channelCommand_sleeping ha]
      rfl
  · intro p op c
    refine ⟨fun ha => ?_, fun ha => ?_⟩
    · have asleep := channelCommand_sleeping ha op
      have shown := exec_shown hi s (by rw [asleep, sleepingCommand_toDram, forward_toDram])
      rw [asleep, forward_eq] at shown
      refine ⟨fun h1 h2 h3 => ?_, fun h => ?_, fun h => ?_⟩
      · rw [shown, sleepingCommand_other h1 h2 h3]
        rfl
      · rw [sleepingCommand_silent h] at shown
        exact shown
      · have woken (t : Staleness) (now : Nat) : t.resume now = match t with
            | .paused passed => .running (now - passed)
            | t => t := by cases t <;> rfl
        rw [shown, show sleepingCommand op = wake from h ▸ rfl]
        exact congrArg (fun t => Host.Outcome.next (s.having { p with
          channel := { c with state := .active }, health := { p.health with stale := t } })) (woken _ _)
    · have reset := channelCommand_inReset ha op
      have shown := exec_shown hi s (by rw [reset, forward_toDram])
      rw [show channelCommand sent.op s.part = forward op p from reset, forward_eq] at shown
      exact shown

/-! ### How commands are coded (R2) -/

/-- The burst that address pins `addr` name, in numbers (R2, log 36). -/
theorem pinsBurst_eq (c : ChannelPins) : pinsBurst c =
    { bank := c.bank, column := BitVec.ofNat 10 (c.addr.toNat % 1024),
      autoClose := decide (c.addr.toNat / 1024 % 2 = 1), chop := decide (c.addr.toNat / 4096 % 2 = 0) } := by
  have column : c.addr.extractLsb' 0 10 = BitVec.ofNat 10 (c.addr.toNat % 1024) :=
    BitVec.eq_of_toNat_eq (by simp)
  have chop : (!c.addr.getLsbD 12) = decide (c.addr.toNat / 4096 % 2 = 0) := by
    rw [getLsbD_eq_decide, ← decide_not]
    exact decide_eq_decide.mpr Nat.mod_two_ne_one
  unfold pinsBurst
  rw [column, chop, getLsbD_eq_decide]
  rfl

/-- A mode-set coding names the register of its bank address, where there is one (R2, log 12). -/
theorem register_eq {b : BitVec 3} : b.extractLsb' 0 2 = BitVec.ofNat 2 b.toNat := by
  revert b; decide

/-- Settles O13: the coding pin by pin; a command on the pins is the command of its kind, shown as it came. -/
theorem commandCoding : Obligations.CommandCoding := by
  refine ⟨fun b a ls dram ras cas we => ?_, fun pins s => ⟨_, rfl, rfl⟩, fun pins s ha => ⟨fun i hi => ?_, fun hk => ?_⟩⟩
  · intro place kind
    have burst (ras cas we : Bool) : pinsBurst (ChannelPins.mk .steady false ras cas we b a ls dram) = place :=
      pinsBurst_eq _
    refine ⟨rfl, congrArg (ChannelOp.read ⟨·, dram⟩) (burst _ _ _), congrArg (ChannelOp.write ⟨·, ls⟩) (burst _ _ _),
      ?_, rfl, fun hb => ?_, rfl, rfl, rfl, fun _ => rfl, rfl, rfl, rfl⟩
    · show (if a.getLsbD 10 then ChannelOp.closeAll else .closeRow b) = _
      rw [getLsbD_eq_decide]
      simp only [decide_eq_true_eq]
      rfl
    · show (if b.toNat < 4 then ChannelOp.modeSet (b.extractLsb' 0 2) a else .unnamed) = _
      rw [if_pos hb, register_eq]
  · exact ⟨_, exec_named hi s, rfl⟩
  · rw [exec_pins (i := .commandOutOfPlace pins) rfl, pinsCommand_eq, channelCommand_active ha]
    obtain h | h | h := hk <;> rw [h] <;> rfl

end Sys2Proof.Machine
end

section
/-! # Settling O16, O18, O19 and O26: writes passed, withheld, merged and refused, and the clamp mask (R9, R17, R18,
R22, R23, R27, R29). -/

namespace Sys2Proof.Machine

/-! ### Writes that no block takes (R9, R17, R18) -/

/-- Settles O16: every writing row is the write of its burst; where no block takes it, it passes or counts. -/
theorem writePassesOrIsWithheld : Obligations.WritePassesOrIsWithheld := by
  intro i w row s hi p c region sent
  refine ⟨(exec_writeOf hi s).trans (exec_writeOf rfl s).symm, fun ha hr => ⟨fun hn => ?_, fun hc hl => ?_⟩⟩
  · rw [exec_writeOf hi, channelWrite_open ha hr, writeAccess_plain (p := passed (.write w) p) _ hn, sent_eq]
  · rw [exec_writeOf hi, channelWrite_open ha hr, writeAccess_withheld (p := passed (.write w) p) _ hc hl, autoClosed_sent (p := p)]
    · rfl
    · rfl

/-! ### Writes to the command slot that carry no command (R22, R23) -/

/-- The bytes of a copy after a merge (R22). -/
theorem mergeLanes_getD (old : List Byte) (ls : List Lane) {b : Nat} (h : b < old.length) :
    (mergeLanes old ls).getD b 0 = (lane ls b).getD (old.getD b 0) := by
  simp [mergeLanes, List.getD, h]

/-- The lanes that reach an anchor line: those of the half that a chopped burst starts in, or all (R9, R10). -/
theorem anchor_lane (p : Part) {offset : Nat} (h0 : offset % 32 = 0) (w : AnchorBurst) {b : Nat} (hb : b < 32) :
    lane (p.lanesOf (anchorWrite offset w)) b =
      if p.channel.chopped (anchorWrite offset w).place = true ∧ b / 16 ≠ w.start.toNat / 4 then none
      else lane w.lanes b := by
  have half : b / 4 / 4 = b / 16 := Nat.div_div_eq_div_mul b 4 4
  unfold Part.lanesOf
  rw [lane_carried _ _ _ _ _ hb, carries_whole _ _ _ (by omega), anchor_start _ _ h0, half]
  cases p.channel.chopped (anchorWrite offset w).place
  · simp; rfl
  · by_cases hs : b / 16 = w.start.toNat / 4 <;> simp [hs]; rfl

/-- A header write that leaves one of bytes 0 to 3 out is no command (R23). -/
theorem headerCommand_none {ls : List Lane} {b : Nat} (hb : b < 4) (h : lane ls b = none) : headerCommand ls = none := by
  unfold headerCommand
  split
  · interval_cases b <;> simp_all
  · rfl

/-- Such a write is merged into the header copy over the channel, and does nothing else (R22). -/
theorem headerWrite_merges {p : Part} (ha : p.AnchorOpen) {w : AnchorBurst} {b : Nat} (hb : b < 4)
    (h : lane (p.lanesOf (anchorWrite headerOffset w)) b = none) :
    channelWrite (anchorWrite headerOffset w) p =
      { p with
        channel := anchorChannel headerOffset w p
        command := { p.command with header := mergeLanes p.command.header (p.lanesOf (anchorWrite headerOffset w)) } } := by
  have merged : writeHeader (p.lanesOf (anchorWrite headerOffset w)) (passed (.write (anchorWrite headerOffset w)) p) =
      { passed (.write (anchorWrite headerOffset w)) p with command := { p.command with
        header := mergeLanes p.command.header (p.lanesOf (anchorWrite headerOffset w)) } } := by
    unfold writeHeader writeHeaderBy
    rw [headerCommand_none hb h]
    rfl
  rw [anchorWrite_reaches ha headerOffset w (by decide) (by decide) rfl]
  show autoClosed _ (writeHeader _ _) = _
  rw [merged, autoClosed_passed (p := p) (op := .write (anchorWrite headerOffset w))]
  · rfl
  · rfl

/-- A header write that carries no command leaves a byte of 0 to 3 out (R23). -/
theorem lane_none_of_not_carries {p : Part} {h : HeaderBurst} (hc : ¬p.CarriesCommand h) (code : Byte) :
    ∃ b, b < 4 ∧ lane (p.lanesOf (headerWrite code h)) b = none := by
  by_cases hs : h.second.isSome = true
  · have outside : p.channel.chopped (headerWrite code h).place = true ∧ 0 / 16 ≠ h.start.toNat / 4 := by
      by_contra inside
      exact hc ⟨hs, fun hch => by
        have : ¬(0 / 16 ≠ h.start.toNat / 4) := fun hne => inside ⟨hch, hne⟩
        omega⟩
    exact ⟨0, by decide, (anchor_lane p rfl _ (by decide)).trans (if_pos outside)⟩
  · have second : h.second = none := by simpa using hs
    refine ⟨1, by decide, (anchor_lane p rfl _ (by decide)).trans ?_⟩
    split
    · rfl
    · exact second

/-- Settles O18: the parameter copy byte by byte, then a header write of either kind of row. -/
theorem slotWritesMerge : Obligations.SlotWritesMerge := by
  refine ⟨fun w s => ?_, fun w s b => ?_, fun i code h s hi ha hc => ?_⟩
  · intro p place copy ha
    refine ⟨?_, fun hlen b hb => ?_⟩
    · have reached := anchorWrite_reaches ha parameterOffset w (by decide) (by decide) rfl
      rw [exec_writeOf (w := anchorWrite parameterOffset w) rfl, reached]
      show Host.Outcome.next (s.having (autoClosed _ (writeParameters _ _))) = _
      rw [autoClosed_passed (p := p) (op := .write (anchorWrite parameterOffset w))]
      · rfl
      · rfl
    · show (mergeLanes _ _).getD b 0 = _
      rw [mergeLanes_getD _ _ (hlen ▸ hb), anchor_lane p rfl w hb]
      show _ = if p.channel.chopped place = true ∧ b / 16 ≠ w.start.toNat / 4 then _ else _
      split <;> rfl
  · intro p ls ha hb h
    rw [exec_writeOf (w := anchorWrite headerOffset w) rfl, headerWrite_merges ha hb h]
    rfl
  · obtain ⟨b, hb, hl⟩ := lane_none_of_not_carries hc code
    rw [exec_headerRow hi]
    exact congrArg (fun q => Host.Outcome.next (s.having q)) (headerWrite_merges ha hb hl)

/-! ### A command refused (R27) -/

/-- Settles O19: while the unit is BUSY the write is merged and the command counted. -/
theorem refusedWhileBusy : Obligations.RefusedWhileBusy := by
  intro i code h s hi p ha hc hbusy
  have refused : commandArrives code h.tag (slotParams code h p)
      { passed (.write (headerWrite code h)) p with command := { p.command with header := slotHeader code h p } } =
      count .commandsRefusedBusy 1 { passed (.write (headerWrite code h)) p with
        command := { p.command with header := slotHeader code h p, refused := h.tag } } := if_pos hbusy
  rw [exec_headerRow hi, slotWrite_reaches ha hc, refused,
    autoClosed_passed (p := p) (op := .write (headerWrite code h))]
  · rfl
  · rfl

/-! ### The clamp mask (R29) -/

/-- The mask that a run of the values gathers: what stood before, and a bit for each value that clamping changed. -/
theorem clampMask_bits (given taken : List Nat) (is : List Nat) (m : BitVec 32) {n : Nat} (hn : n < 32) :
    (is.foldl (fun m i => if given.getD i 0 = taken.getD i 0 then m else m ||| (1#32 <<< i)) m).getLsbD n =
      (m.getLsbD n || decide (n ∈ is ∧ given.getD n 0 ≠ taken.getD n 0)) := by
  induction is generalizing m with
  | nil => simp
  | cons i is ih =>
    rw [List.foldl_cons, ih]
    by_cases hi : n = i
    · subst hi
      split <;> simp_all
    · have other : (!decide (n < i) && decide (n - i = 0)) = false := by grind
      split <;> simp [hi, hn, other]

/-- Settles O26: bit n of the mask is gathered at value n. -/
theorem clampMaskNamesChanges : Obligations.ClampMaskNamesChanges := by
  intro given taken n hn hlen
  unfold clampMask
  rw [clampMask_bits _ _ _ _ (by omega)]
  simp [hn]

end Sys2Proof.Machine
end

section
/-! # Settling O3 and O4: what a millisecond queues (R34 to R51, R76, R84 to R92, R107 to R117, R163, R168). -/

namespace Sys2Proof.Machine

/-! ### The events a millisecond queues -/

/-- What the lines give rise to, line by line (R40, R42, R51, R76, R107). -/
theorem mem_lineEvents {q : Part} {i : Instr} : i ∈ lineEvents q ↔
    q.clock.firstTaken = false ∧
        i = .firstMillisecond q.clock.pins.opres q.clock.pins.olos q.clock.pins.rtest q.clock.pins.rpres ∨
      q.clock.firstTaken = true ∧
        (10 ≤ q.clock.opticalRun ∧
            (q.optical.present = true ∧ i = .opticalPresenceFall ∨
              q.optical.present = false ∧ i = .opticalPresenceRise q.clock.pins.olos) ∨
          (q.optical.present = true ∧ q.clock.pins.olos ≠ q.optical.losLevel) ∧ i = .losChange q.clock.pins.olos ∨
          20 ≤ q.clock.testRun ∧ i = .radioTestChange q.clock.pins.rtest ∨
          10 ≤ q.clock.radioRun ∧
            (q.radio.present = true ∧ i = .radioPresenceFall ∨ q.radio.present = false ∧ i = .radioPresenceRise)) := by
  unfold lineEvents presenceSamples testSamples
  cases q.clock.firstTaken <;> cases q.optical.present <;> cases q.radio.present <;> simp

/-- A tick queues what the lines give rise to and the expiries, block by block. -/
theorem mem_pending {p : Part} {i : Instr} : i ∈ (tick { pending := [], part := p }).pending ↔
    i ∈ lineEvents (sampled p) ∨ i ∈ opticalDue (sampled p) ∨ i ∈ pathDue (sampled p) ∨ i ∈ radioDue (sampled p) ∨
      i ∈ relayDue (sampled p) := by
  rw [mem_tick]
  simp [dueEvents]

/-- Sampling the lines changes the clock alone, and of it the time and the runs of samples. -/
theorem sampled_eq (p : Part) :
    sampled p = { p with clock := (sampled p).clock } ∧ (sampled p).clock.now = p.clock.now + 1 ∧
      (sampled p).clock.pins = p.clock.pins ∧ (sampled p).clock.firstTaken = p.clock.firstTaken := by
  cases first : p.clock.firstTaken <;> simp [sampled, first, Part.withClock]

/-- Which states of the module a silence timer runs in (R109). -/
theorem listens_iff (m : Module) :
    m.listens = true ↔ m = .idle ∨ m = .attaching ∨ m = .attached ∨ m = .detaching := by
  cases m <;> decide

/-! ### When an expiry falls due -/

theorem txOffDue_iff (p : Part) :
    p.txOffDue.isSome = true ↔ ∃ ends settle, p.optical.window = .txOff ends settle ∧ ends ≤ p.clock.now := by
  unfold Part.txOffDue
  cases p.optical.window <;> simp

theorem settlingDue_iff (p : Part) :
    p.settlingDue = true ↔ ∃ ends, p.optical.window = .settling ends ∧ ends ≤ p.clock.now := by
  unfold Part.settlingDue
  cases p.optical.window <;> simp

theorem runDue_iff (p : Part) : p.runDue = true ↔ ∃ began, p.optical.run = some began ∧
    p.optical.settings.interval ≠ 0 ∧ began + p.optical.settings.interval * 1000 ≤ p.clock.now := by
  unfold Part.runDue
  cases p.optical.run <;> simp

theorem staleDue_iff (p : Part) : p.staleDue = true ↔
    ∃ since, p.health.stale = .running since ∧ since + p.health.settings.reportTimeout ≤ p.clock.now := by
  unfold Part.staleDue
  cases p.health.stale <;> simp

theorem laneDue_iff (p : Part) : p.laneDue = true ↔ ∃ x, p.radio.lane = some x ∧ x.ends ≤ p.clock.now := by
  unfold Part.laneDue
  cases p.radio.lane <;> simp

/-- An attempt past its limit is left unanswered by one cause or the other, once (R35; log 28). -/
theorem limitPassed_queued (now : Nat) (late : Prop) :
    (∃ n, late ∧ .timeout n = limitPassed now ∨ ∃ m, late ∧ .stuck n m = limitPassed now) ↔ late := by
  refine ⟨?_, fun h => ?_⟩
  · rintro ⟨n, ⟨h, -⟩ | ⟨m, h, -⟩⟩ <;> exact h
  · obtain ⟨n, e⟩ | ⟨n, m, e⟩ := limitPassed_shape now
    · exact ⟨n, .inl ⟨h, e.symm⟩⟩
    · exact ⟨n, .inr ⟨m, h, e.symm⟩⟩

/-- The instruction is queued by a millisecond that passes on an empty queue. -/
def Queued (p : Part) (i : Instr) : Prop := i ∈ (tick { pending := [], part := p }).pending

/-- The list an event that falls due stands in: that of the lines, or of its block (chapters 3 to 6 and 8). -/
def dueFrom : Instr → Part → List Instr
  | .pollStart | .pollRetry _ | .pollFailed _ | .txOffEnd | .settlingEnd | .automaticRestartExpiry
  | .stalenessExpiry => opticalDue
  | .dwellExpiry | .proveExpiry | .strandedProveExpiry | .voiceQuietExpiry | .voiceStickExpiry
  | .drainLimitExpiry _ => pathDue
  | .startTimerExpiry | .silenceTimerExpiry | .recoverTimerExpiry | .detachTimerExpiry | .answerTimerExpiry
  | .retryTimerExpiry | .reAttemptTimerExpiry | .lingerExpiry | .acceptTimerExpiry _ | .transferEnd => radioDue
  | .creditAccrual | .ageExpiry _ => relayDue
  | _ => lineEvents

theorem dueFrom_lines {q : Part} {i : Instr} (h : i ∈ lineEvents q) : dueFrom i = lineEvents := by
  obtain ⟨-, rfl⟩ | ⟨-, ⟨-, ⟨-, rfl⟩ | ⟨-, rfl⟩⟩ | ⟨-, rfl⟩ | ⟨-, rfl⟩ | ⟨-, ⟨-, rfl⟩ | ⟨-, rfl⟩⟩⟩ := mem_lineEvents.mp h <;> rfl

theorem dueFrom_optical {q : Part} {i : Instr} (h : i ∈ opticalDue q) : dueFrom i = opticalDue := by
  simp only [opticalDue, List.mem_append, mem_fallsDue, or_assoc] at h
  obtain ⟨-, rfl⟩ | ⟨-, rfl⟩ | ⟨-, rfl⟩ | ⟨-, rfl⟩ | ⟨-, rfl⟩ | ⟨-, rfl⟩ | ⟨-, rfl⟩ := h <;> rfl

theorem dueFrom_path {q : Part} {i : Instr} (h : i ∈ pathDue q) : dueFrom i = pathDue := by
  simp only [pathDue, List.mem_append, List.mem_flatMap, mem_fallsDue, or_assoc] at h
  obtain ⟨-, rfl⟩ | ⟨-, rfl⟩ | ⟨-, rfl⟩ | ⟨-, rfl⟩ | ⟨-, rfl⟩ | ⟨c, -, -, rfl⟩ := h <;> rfl

theorem dueFrom_radio {q : Part} {i : Instr} (h : i ∈ radioDue q) : dueFrom i = radioDue := by
  simp only [radioDue, List.mem_append, List.mem_map, mem_fallsDue, or_assoc] at h
  obtain ⟨-, rfl⟩ | ⟨-, rfl⟩ | ⟨-, rfl⟩ | ⟨-, rfl⟩ | ⟨-, rfl⟩ | ⟨-, rfl⟩ | ⟨-, rfl⟩ | ⟨-, rfl⟩ | ⟨e, -, rfl⟩ | ⟨-, rfl⟩ := h <;>
    rfl

theorem dueFrom_relay {q : Part} {i : Instr} (h : i ∈ relayDue q) : dueFrom i = relayDue := by
  simp only [relayDue, List.mem_append, List.mem_flatMap, List.mem_map, mem_fallsDue] at h
  obtain ⟨-, rfl⟩ | ⟨c, -, f, -, rfl⟩ := h <;> rfl

/-- An event stands in its own list alone. -/
theorem queued_iff {f : Part → List Instr} {i : Instr} (h : dueFrom i = f)
    (listed : f = lineEvents ∨ f = opticalDue ∨ f = pathDue ∨ f = radioDue ∨ f = relayDue) (p : Part) :
    Queued p i ↔ i ∈ f (sampled p) := by
  subst h
  refine mem_pending.trans ⟨?_, fun m => ?_⟩
  · rintro (m | m | m | m | m)
    · rwa [dueFrom_lines m]
    · rwa [dueFrom_optical m]
    · rwa [dueFrom_path m]
    · rwa [dueFrom_radio m]
    · rwa [dueFrom_relay m]
  · obtain e | e | e | e | e := listed <;> rw [e] at m <;> simp [m]

theorem lines_queued (p : Part) :
    (∀ a b c d, Queued p (.firstMillisecond a b c d) ↔ (sampled p).clock.firstTaken = false ∧
      (sampled p).clock.pins = { opres := a, olos := b, rtest := c, rpres := d }) ∧
    (∀ level, Queued p (.losChange level) ↔ (sampled p).clock.firstTaken = true ∧ (sampled p).optical.present = true ∧
      (sampled p).clock.pins.olos = level ∧ (sampled p).optical.losLevel ≠ level) ∧
    (Queued p .opticalPresenceFall ↔ (sampled p).clock.firstTaken = true ∧ 10 ≤ (sampled p).clock.opticalRun ∧
      (sampled p).optical.present = true) ∧
    (∀ olos, Queued p (.opticalPresenceRise olos) ↔ (sampled p).clock.firstTaken = true ∧
      10 ≤ (sampled p).clock.opticalRun ∧ (sampled p).optical.present = false ∧ olos = (sampled p).clock.pins.olos) ∧
    (∀ active, Queued p (.radioTestChange active) ↔ (sampled p).clock.firstTaken = true ∧
      20 ≤ (sampled p).clock.testRun ∧ active = (sampled p).clock.pins.rtest) ∧
    (Queued p .radioPresenceFall ↔ (sampled p).clock.firstTaken = true ∧ 10 ≤ (sampled p).clock.radioRun ∧
      (sampled p).radio.present = true) ∧
    (Queued p .radioPresenceRise ↔ (sampled p).clock.firstTaken = true ∧ 10 ≤ (sampled p).clock.radioRun ∧
      (sampled p).radio.present = false) := by
  have pins (a b c d : Bool) : (sampled p).clock.pins = { opres := a, olos := b, rtest := c, rpres := d } ↔
      a = (sampled p).clock.pins.opres ∧ b = (sampled p).clock.pins.olos ∧ c = (sampled p).clock.pins.rtest ∧
        d = (sampled p).clock.pins.rpres := by
    cases (sampled p).clock.pins
    simp [eq_comm]
  refine ⟨fun a b c d => ?_, fun level => ?_, ?_, fun olos => ?_, fun active => ?_, ?_, ?_⟩
  all_goals refine (queued_iff rfl (.inl rfl) p).trans (mem_lineEvents.trans ?_)
  · simp [pins]
  all_goals simp
  grind

theorem optical_queued (p : Part) :
    (Queued p .pollStart ↔ (sampled p).pollDue = true) ∧
    (∀ cause, Queued p (.pollRetry cause) ↔
      ((sampled p).optical.poll = .firstAttempt ∧ (sampled p).attemptLate = true) ∧
        cause = limitPassed (sampled p).clock.now) ∧
    (∀ cause, Queued p (.pollFailed cause) ↔
      ((sampled p).optical.poll = .retry ∧ (sampled p).attemptLate = true) ∧
        cause = limitPassed (sampled p).clock.now) ∧
    (Queued p .txOffEnd ↔ (sampled p).txOffDue.isSome = true) ∧
    (Queued p .settlingEnd ↔ (sampled p).settlingDue = true) ∧
    (Queued p .automaticRestartExpiry ↔ (sampled p).runDue = true) ∧
    (Queued p .stalenessExpiry ↔ (sampled p).staleDue = true) := by
  refine ⟨?_, fun cause => ?_, fun cause => ?_, ?_, ?_, ?_, ?_⟩
  all_goals
    refine (queued_iff (f := opticalDue) rfl (.inr (.inl rfl)) p).trans ?_
    simp [opticalDue]

theorem path_queued (p : Part) :
    (Queued p .dwellExpiry ↔ (sampled p).dwellDue = true) ∧ (Queued p .proveExpiry ↔ (sampled p).proveDue = true) ∧
    (Queued p .strandedProveExpiry ↔ (sampled p).strandedProveDue = true) ∧
    (Queued p .voiceQuietExpiry ↔ (sampled p).voiceDue (sampled p).path.quiet = true) ∧
    (Queued p .voiceStickExpiry ↔ (sampled p).voiceDue (sampled p).path.stick = true) ∧
    ∀ c, Queued p (.drainLimitExpiry c) ↔ (sampled p).drainDue c = true := by
  refine ⟨?_, ?_, ?_, ?_, ?_, fun c => ?_⟩
  all_goals
    refine (queued_iff (f := pathDue) rfl (.inr (.inr (.inl rfl))) p).trans ?_
    simp [pathDue]

theorem radio_queued (p : Part) :
    (Queued p .startTimerExpiry ↔ (sampled p).startDue = true) ∧
    (Queued p .silenceTimerExpiry ↔ (sampled p).silenceDue = true) ∧
    (Queued p .recoverTimerExpiry ↔ (sampled p).recoverDue = true) ∧
    (Queued p .detachTimerExpiry ↔ (sampled p).detachDue = true) ∧
    (Queued p .answerTimerExpiry ↔ (sampled p).answerDue = true) ∧
    (Queued p .retryTimerExpiry ↔ (sampled p).retryDue = true) ∧
    (Queued p .reAttemptTimerExpiry ↔ (sampled p).reattemptDue = true) ∧
    (Queued p .lingerExpiry ↔ (sampled p).lingerDue = true) ∧
    (∀ link, Queued p (.acceptTimerExpiry link) ↔
      ∃ e ∈ (sampled p).radio.outstanding, e.link = link ∧ Timer.due e.accept (sampled p).clock.now = true) ∧
    (Queued p .transferEnd ↔ (sampled p).laneDue = true) := by
  refine ⟨?_, ?_, ?_, ?_, ?_, ?_, ?_, ?_, fun link => ?_, ?_⟩
  all_goals
    refine (queued_iff (f := radioDue) rfl (.inr (.inr (.inr (.inl rfl)))) p).trans ?_
    simp [radioDue]
  grind

theorem relay_queued (p : Part) :
    (Queued p .creditAccrual ↔ (sampled p).attached = true) ∧
    ∀ c, Queued p (.ageExpiry c) ↔
      ∃ f ∈ (sampled p).relay.queues.get c, (sampled p).relay.ages.get c ≤ f.age (sampled p).clock.now := by
  refine ⟨?_, fun c => ?_⟩
  all_goals
    refine (queued_iff (f := relayDue) rfl (.inr (.inr (.inr (.inr rfl)))) p).trans ?_
    simp [relayDue]

/-- Settles O3: the tick queues a permutation of what falls due, and each expiry is read off its block's list. -/
theorem emptyQueuePassesAMillisecond : Obligations.EmptyQueuePassesAMillisecond := by
  intro p
  obtain ⟨part, time, pins, first⟩ := sampled_eq p
  refine ⟨tick { pending := [], part := p }, rfl, part, time, pins, orderTies_perm _ _, ?_⟩
  intro now lines due late o y r listens queued
  have time : (sampled p).clock.now = now := time
  have pins : (sampled p).clock.pins = lines := pins
  have isDue (x : Timer) : Timer.due x now = true ↔ due x := due_iff x now
  have optical : (sampled p).optical = o := by rw [part]
  have path : (sampled p).path = y := by rw [part]
  have radio : (sampled p).radio = r := by rw [part]
  have relay : (sampled p).relay = p.relay := by rw [part]
  have health : (sampled p).health = p.health := by rw [part]
  have isLate (k : Poll) (hk : k ≠ .waiting) :
      (sampled p).optical.poll = k ∧ (sampled p).attemptLate = true ↔ o.poll = k ∧ late := by
    have isLate : o.poll = k → ((sampled p).attemptLate = true ↔ late) := by
      intro h
      simp only [Part.attemptLate, optical, time, h, hk, ne_eq, not_false_eq_true, decide_true, Bool.true_and,
        decide_eq_true_eq]
      rfl
    rw [optical]
    exact and_congr_right isLate
  obtain ⟨firstMs, los, -⟩ := lines_queued p
  obtain ⟨poll, retry, failed, txOff, settling, run, stale⟩ := optical_queued p
  obtain ⟨dwell, prove, stranded, quiet, stick, drain⟩ := path_queued p
  obtain ⟨start, silence, recover, detach, answer, again, reattempt, linger, accept, lane⟩ := radio_queued p
  obtain ⟨accrual, age⟩ := relay_queued p
  refine ⟨⟨fun a b c d => (firstMs a b c d).trans ?_, fun level => (los level).trans ?_⟩,
    ⟨poll.trans ?_,
      ((exists_congr fun n => or_congr (retry _) (exists_congr fun m => retry _)).trans
        (limitPassed_queued _ _)).trans (isLate .firstAttempt (by decide)),
      ((exists_congr fun n => or_congr (failed _) (exists_congr fun m => failed _)).trans
        (limitPassed_queued _ _)).trans (isLate .retry (by decide)),
      txOff.trans ?_, settling.trans ?_, run.trans ?_, stale.trans ?_⟩,
    ⟨dwell.trans ?_, prove.trans ?_, stranded.trans ?_, quiet.trans ?_, stick.trans ?_, fun c => (drain c).trans ?_⟩,
    ⟨start.trans ?_, silence.trans ((Bool.and_eq_true_iff).trans (and_congr ?_ ?_)), recover.trans ?_, detach.trans ?_,
      answer.trans ?_, again.trans ?_, reattempt.trans ?_, linger.trans ?_, fun link => (accept link).trans ?_,
      lane.trans ?_⟩,
    accrual.trans ?_, fun c => (age c).trans ?_⟩
  case refine_15 => rw [radio]; exact listens_iff _
  all_goals
    simp [txOffDue_iff, settlingDue_iff, runDue_iff, staleDue_iff, laneDue_iff, and_assoc,
      Part.pollDue, Part.dwellDue, Part.proveDue, Part.strandedProveDue, Part.voiceDue, Part.drainDue,
      Part.draining, Part.startDue, Part.recoverDue, Part.detachDue, Part.answerDue, Part.awaiting,
      Part.retryDue, Part.reattemptDue, Part.lingerDue, Part.attached, Frame.age,
      isDue, optical, path, radio, relay, health, time, pins, first]

theorem nextRun_eq (taken level : Bool) (run : Nat) :
    nextRun taken level run = if taken = level then 0 else run + 1 := by
  simp only [nextRun, eq_comm]

/-- A run reaches a length at this sample where the level differs and it stood one short (R40, R76, R107). -/
theorem succ_le_nextRun (taken level : Bool) (run n : Nat) :
    n + 1 ≤ nextRun taken level run ↔ taken ≠ level ∧ n ≤ run := by
  unfold nextRun
  split <;> simp_all [eq_comm]

/-- Settles O4: a run that has reached its length, counted with this sample, is what queues the change. -/
theorem lineChangesNeedTheirSamples : Obligations.LineChangesNeedTheirSamples := by
  intro p t first ht
  obtain rfl : tick { pending := [], part := p } = t := by injection ht
  have taken : sampled p = p.withClock _ := if_pos first
  obtain ⟨-, -, fall, rise, test, radioFall, radioRise⟩ := lines_queued p
  rw [taken] at fall rise test radioFall radioRise
  refine ⟨?_, fall.trans ?_, (exists_congr rise).trans ?_, (exists_congr test).trans ?_, radioFall.trans ?_,
    radioRise.trans ?_⟩
  · simp only [nextRun_eq] at taken
    exact taken
  all_goals simp [first, succ_le_nextRun (n := 9), succ_le_nextRun (n := 19)]
  all_goals grind

end Sys2Proof.Machine
end

section
/-! # Settling O7: the first millisecond (R40, R42, R51, R76, R107). -/

namespace Sys2Proof.Machine

/-! ### The first millisecond -/

/-- The radio link controller once the presence of the module is taken (R107, R111). -/
theorem takeRadioPresence_radio (present : Bool) (p : Part) :
    (takeRadioPresence present p).radio.present = present ∧ (takeRadioPresence present p).radio.rpwr = present ∧
      (takeRadioPresence present p).radio.state = (if present then .starting else .absent) ∧
      (takeRadioPresence present p).radio.start = (if present then some (p.clock.now + 20000) else none) ∧
      (takeRadioPresence present p).radio.settings = p.radio.settings := by
  cases present
  · have e := moduleTo_restarts_radio (new := .absent) rfl (p.withRadio { p.radio with present := false })
    simp [takeRadioPresence, e, Radio.move, Radio.endSeries]
  · have e := moduleTo_restarts_radio (new := .starting) rfl (p.withRadio { p.radio with present := true })
    simp [takeRadioPresence, e, Radio.move, Radio.endSeries, startTime]

/-- What the later lines leave of what an earlier one took: all but the radio-test level and the module (R51). -/
structure LineKept (p q : Part) : Prop where
  clock : q.clock = p.clock
  channel : q.channel = p.channel
  windows : q.windows = p.windows
  delivery : q.delivery = p.delivery
  optical : ∃ r, q.optical = { p.optical with run := r }
  health : q.health = p.health
  software : q.path.software = p.path.software
  settings : q.radio.settings = p.radio.settings

theorem LineKept.trans {p q r : Part} (h : LineKept p q) (k : LineKept q r) : LineKept p r where
  clock := k.clock.trans h.clock
  channel := k.channel.trans h.channel
  windows := k.windows.trans h.windows
  delivery := k.delivery.trans h.delivery
  optical := by
    obtain ⟨r1, h1⟩ := h.optical
    obtain ⟨r2, h2⟩ := k.optical
    exact ⟨r2, by rw [h2, h1]⟩
  health := k.health.trans h.health
  software := k.software.trans h.software
  settings := k.settings.trans h.settings

theorem EventFrame.lineKept {p q : Part} (h : EventFrame p q) : LineKept p q :=
  ⟨h.clock, h.channel, h.windows, h.delivery, ⟨_, h.optical⟩, h.health, (congrArg Path.software h.path :),
    (congrArg Radio.settings h.radio :)⟩

theorem EventFrame.test {p q : Part} (h : EventFrame p q) : q.path.test = p.path.test := (congrArg Path.test h.path :)

theorem takeTest_kept (active : Bool) (p : Part) :
    LineKept p (takeTest active p) ∧ (takeTest active p).path.test = active := by
  have frame := takeForce_frame p.path.effective (p.withPath { p.path with test := active })
  have kept : LineKept p (p.withPath { p.path with test := active }) := ⟨rfl, rfl, rfl, rfl, ⟨_, rfl⟩, rfl, rfl, rfl⟩
  exact ⟨kept.trans frame.lineKept, frame.test⟩

theorem takeRadioPresence_kept (present : Bool) (p : Part) :
    LineKept p (takeRadioPresence present p) ∧ (takeRadioPresence present p).path.test = p.path.test := by
  have settings := (takeRadioPresence_radio present p).2.2.2.2
  have frame := moduleTo_frame (if present then .starting else .absent)
    (p.withRadio { p.radio with present := present })
  unfold takeRadioPresence at settings ⊢
  obtain ⟨clock, channel, windows, health, delivery, -, optical, path, -, -, -, -⟩ := frame
  exact ⟨⟨clock, channel, windows, delivery, ⟨_, optical⟩, health, (congrArg Path.software path :), settings⟩,
    (congrArg Path.test path :)⟩

/-- The optical lines as first taken: presence, loss of signal, and a poll at once if present (R40, R42, R51). -/
theorem firstOptical_takes (opres olos : Bool) (p : Part) :
    let live := (p.health.live.put .moduleAbsent (!opres)).put .los (opres && olos)
    let q := firstOptical opres olos p
    q.clock = p.clock ∧ q.channel = p.channel ∧ q.windows = p.windows ∧ q.delivery = p.delivery ∧
      q.optical.present = opres ∧ q.optical.losLevel = (opres && olos) ∧
      (opres = true → q.optical.poll = .firstAttempt ∧
        q.optical.nextPoll = some (p.clock.now + p.optical.settings.period)) ∧
      (opres = false → q.optical.poll = p.optical.poll ∧ q.optical.nextPoll = p.optical.nextPoll) ∧
      q.optical.settings = p.optical.settings ∧
      q.health = (if live = p.health.live then p.health else p.health.after live) ∧
      q.path.software = p.path.software ∧ q.radio.settings = p.radio.settings := by
  intro live q
  let lit := p.withOptical { p.optical with present := opres, losLevel := opres && olos }
  let x := if opres then startPoll lit else lit
  have hq : q = conditionsChange live x := rfl
  have frame := conditionsChange_frame live x
  have health := conditionsChange_health live x
  rw [← hq] at frame health
  obtain ⟨clock, channel, windows, -, delivery, -, optical, path, radio, -, -, -⟩ := frame
  clear_value q
  have poll : q.optical.poll = x.optical.poll := (congrArg Optical.poll optical :)
  have next : q.optical.nextPoll = x.optical.nextPoll := (congrArg Optical.nextPoll optical :)
  cases opres
  · exact ⟨clock, channel, windows, delivery, (congrArg Optical.present optical :),
      (congrArg Optical.losLevel optical :), nofun, fun _ => ⟨poll, next⟩, (congrArg Optical.settings optical :), health,
      (congrArg Path.software path :), (congrArg Radio.settings radio :)⟩
  · exact ⟨clock, channel, windows, delivery, (congrArg Optical.present optical :),
      (congrArg Optical.losLevel optical :), fun _ => ⟨poll, next⟩, nofun, (congrArg Optical.settings optical :), health,
      (congrArg Path.software path :), (congrArg Radio.settings radio :)⟩

/-- Presence taken, the module is in a state in which the end of the event moves it no further. -/
theorem closeEvent_taken (b : Part) {z : Part} (h : z.radio.state = .starting ∨ z.radio.state = .absent) :
    ∃ d l c, (closeEvent b z).radio = { z.radio with demand := d, linger := l, control := c } := by
  refine ⟨_, _, _, closeEvent_module ?_ ?_ ?_⟩ <;> obtain h | h := h <;> rw [h] <;> decide

/-- Settles O7: line by line, what is taken first the later lines and the end of the event leave. -/
theorem firstMillisecondTakesTheLines : Obligations.FirstMillisecondTakesTheLines := by
  intro opres olos rtest rpres s
  let pins : Pins := { opres := opres, olos := olos, rtest := rtest, rpres := rpres }
  refine ⟨fun h => congrArg (fun q => Host.Outcome.next (s.having q)) (if_pos h), fun h =>
    ⟨event (firstLevels pins) s.part, congrArg (fun q => Host.Outcome.next (s.having q)) (if_neg (by simp [h])), ?_⟩⟩
  have hoptical := firstOptical_takes opres olos (takePins pins s.part)
  have htest := takeTest_kept rtest (firstOptical opres olos (takePins pins s.part))
  have hradio := takeRadioPresence_kept rpres (takeTest rtest (firstOptical opres olos (takePins pins s.part)))
  have hmodule := takeRadioPresence_radio rpres (takeTest rtest (firstOptical opres olos (takePins pins s.part)))
  have hlast : event (firstLevels pins) s.part = closeEvent s.part
    (takeRadioPresence rpres (takeTest rtest (firstOptical opres olos (takePins pins s.part)))) := rfl
  generalize event (firstLevels pins) s.part = q at hlast ⊢
  generalize takeRadioPresence rpres _ = d at hradio hmodule hlast
  generalize takeTest rtest _ = c at htest hradio hmodule
  generalize firstOptical opres olos _ = b at hoptical htest
  obtain ⟨bclock, channel, windows, delivery, present, los, poll, noPoll, settings, health, software, radio⟩ := hoptical
  obtain ⟨kept, test⟩ := htest
  obtain ⟨rkept, rtested⟩ := hradio
  obtain ⟨mpresent, mpower, mstate, mstart, msettings⟩ := hmodule
  have frame := closeEvent_frame s.part d
  obtain ⟨dem, lin, con, closed⟩ := closeEvent_taken s.part (z := d) (by cases rpres <;> simp [mstate])
  rw [← hlast] at frame closed
  have all := (kept.trans rkept).trans frame.lineKept
  obtain ⟨run, optical⟩ := all.optical
  have clock : q.clock = (takePins pins s.part).clock := all.clock.trans bclock
  have time : c.clock.now = s.part.clock.now := (congrArg Clock.now (kept.clock.trans bclock) :)
  refine ⟨by rw [clock]; rfl, by rw [clock]; rfl, all.channel.trans channel, all.windows.trans windows,
    all.delivery.trans delivery, ?_, ?_, ?_, ?_, ?_, all.health.trans health, ?_, all.software.trans software, ?_, ?_, ?_,
    ?_, all.settings.trans radio⟩
  · rw [optical]; exact present
  · rw [optical]; exact los
  · rw [optical]; exact poll
  · rw [optical]; exact noPoll
  · rw [optical]; exact settings
  · rw [frame.test, rtested, test]
  · rw [closed]; exact mpresent
  · rw [closed]; exact mpower
  · rw [closed]; exact mstate
  · rw [closed]; exact mstart.trans (by rw [time])

end Sys2Proof.Machine
end

section
/-! # Settling O29, O30 and O38: the health unit (R57 to R61, R64, R68, R70 to R72). -/

namespace Sys2Proof.Machine

/-! ### Sets of conditions -/

theorem Condition.bit_inj {c d : Condition} (h : c.bit = d.bit) : c = d := by
  have back (e : Condition) : Condition.ofNat e.bit = e := by cases e <;> rfl
  rw [← back c, h, back d]

theorem Condition.mask_bit (c d : Condition) : c.mask.getLsbD d.bit = decide (d = c) := by
  have inside : c.bit < 12 := by cases c <;> decide
  unfold Condition.mask
  rw [← BitVec.twoPow_eq, BitVec.getLsbD_twoPow, decide_eq_true inside, Bool.true_and]
  exact decide_eq_decide.mpr ⟨fun h => Condition.bit_inj h.symm, fun h => congrArg Condition.bit h.symm⟩

/-- The set after a condition is set or cleared, condition by condition. -/
theorem Conditions.has_put (s : Conditions) (c d : Condition) (on : Bool) :
    (s.put c on).has d = if d = c then on else s.has d := by
  have hd : d.bit < 12 := by cases d <;> decide
  unfold Conditions.put Conditions.has
  cases on
  · rw [if_neg Bool.false_ne_true, BitVec.getLsbD_and, BitVec.getLsbD_not, Condition.mask_bit]
    by_cases h : d = c <;> simp [h, hd]
  · rw [if_pos rfl, BitVec.getLsbD_or, Condition.mask_bit]
    by_cases h : d = c <;> simp [h]

/-- Two sets are one where they hold the same conditions. -/
theorem Conditions.ext_has {s t : Conditions} (h : ∀ c : Condition, s.has c = t.has c) : s = t := by
  refine BitVec.eq_of_getLsbD_eq fun i hi => ?_
  have at_bit (c : Condition) (hc : c.bit = i) : s.getLsbD i = t.getLsbD i := hc ▸ h c
  interval_cases i
  · exact at_bit .los rfl
  · exact at_bit .moduleAbsent rfl
  · exact at_bit .pollFail rfl
  · exact at_bit .rxLowAlarm rfl
  · exact at_bit .rxLowWarn rfl
  · exact at_bit .rxHighWarn rfl
  · exact at_bit .rxHighAlarm rfl
  · exact at_bit .tempHigh rfl
  · exact at_bit .syncLost rfl
  · exact at_bit .errBad rfl
  · exact at_bit .errWarn rfl
  · exact at_bit .reportStale rfl

/-- The four report conditions are bits 8 to 11 (R63, R72). -/
theorem clearReports_eq (s : Conditions) : clearReports s = s &&& 0x0FF := by
  refine Conditions.ext_has fun c => ?_
  have low (c : Condition) : Conditions.has (s &&& 0x0FF) c = (s.has c && Conditions.has 0x0FF c) := BitVec.getLsbD_and
  unfold clearReports
  simp only [Conditions.has_put, low]
  cases c <;> simp <;> intro _ <;> decide

theorem clearReports_idem (s : Conditions) : clearReports (clearReports s) = clearReports s := by
  rw [clearReports_eq, clearReports_eq, BitVec.and_assoc, BitVec.and_self]

/-- A condition with hysteresis, and that no other changes (R57, R58). -/
theorem hysteresis_has (c d : Condition) (sets clears : Bool) (s : Conditions) :
    (hysteresis c sets clears s).has d =
      if d = c then (if s.has c then !clears else sets) else s.has d := by
  unfold hysteresis
  by_cases h : d = c
  · subst h
    cases hs : s.has d <;> cases sets <;> cases clears <;> simp [Conditions.has_put, hs]
  · cases s.has c <;> cases sets <;> cases clears <;> simp [Conditions.has_put, h]

/-- Settles O30: each condition is put by its own hysteresis, and the others by none. -/
theorem conditionsWithHysteresis : Obligations.ConditionsWithHysteresis := by
  intro st f t live power temp sets clears
  refine ⟨fun c => ?_, ?_, fun c hc => ?_⟩
  · show (powerConditions st f live).has c = true ↔ _
    unfold powerConditions
    simp only [hysteresis_has]
    cases c <;> simp [sets, clears] <;> cases live.has _ <;> simp
  · show (tempCondition st t live).has .tempHigh = true ↔ _
    unfold tempCondition
    rw [hysteresis_has]
    cases live.has .tempHigh <;> simp
  · show (tempCondition st t live).has c = _
    unfold tempCondition
    rw [hysteresis_has, if_neg hc]

/-! ### SET_THRESHOLDS -/

theorem rising_iff (st : HealthSettings) : st.rising = true ↔ st.Rises := by
  simp [HealthSettings.rising, HealthSettings.Rises, and_assoc]

/-- The staleness timer under the settings `st` (R72, steps 4 and 5). -/
def Health.staleUnder (st : HealthSettings) (now : Nat) (h : Health) : Staleness :=
  if st.reportTimeout = 0 ∨ h.runsOut st now = true then .disarmed else h.stale

/-- The staleness timer and the report conditions as SET_THRESHOLDS leaves them (R72). -/
theorem restale_eq (st : HealthSettings) (now : Nat) (h : Health) (live : Conditions) :
    restale st.reportTimeout now h.stale live =
      (h.staleUnder st now, if st.reportTimeout = 0 then live &&& 0x0FF
        else if h.runsOut st now then live ||| 0x800 else live) := by
  unfold restale Health.staleUnder Health.runsOut
  by_cases h0 : st.reportTimeout = 0
  · simp [h0, clearReports_eq]
  · cases h.stale <;> simp [h0] <;> split <;> simp_all [Conditions.put, Condition.mask, Condition.bit]

/-- SET_THRESHOLDS sets its settings and the staleness timer, and the live conditions under them (R72). -/
theorem thresholdsSet_eq (st : HealthSettings) (p : Part) :
    thresholdsSet st p = setLive (p.health.liveUnder st p.clock.now)
      { p with health := { p.health with settings := st, stale := p.health.staleUnder st p.clock.now } } := by
  unfold thresholdsSet
  dsimp only
  rw [restale_eq]
  rfl

/-- What a command write changes beside what the command does, done to both sides (R3, R25). -/
theorem Judged.beside {live : Conditions} {x q : Part} (h : Judged live x q) (c : Channel) (k : Command) :
    Judged live { x with channel := c, command := k } { q with channel := c, command := k } :=
  ⟨⟨⟨h.ends.frame.clock, rfl, h.ends.frame.windows, h.ends.frame.health, h.ends.frame.delivery, rfl,
      h.ends.frame.optical, h.ends.frame.path, h.ends.frame.radio, h.ends.frame.relay, h.ends.frame.uplink,
      h.ends.frame.events⟩,
    ⟨h.ends.mild.flags, h.ends.mild.counters, h.ends.mild.hosts⟩⟩,
    h.latched, h.changed, h.path⟩

theorem Judged.raise {live : Conditions} {x q : Part} (h : Judged live x q) (f : Flag) :
    Judged live (Machine.raise f x) (Machine.raise f q) :=
  ⟨h.ends.raise f, fun k => (raise_flag_iff ..).mpr (.inl (h.latched k)),
    fun k => (raise_flag_iff ..).mpr (.inl (h.changed k)), h.path⟩

/-- The part that a command written to the header has just left as it completes: the result area written (R25). -/
theorem finish_closed {code : Byte} {h : HeaderBurst} {r : Byte} {clamp : BitVec 32} {d : List Byte} {p q : Part}
    (hq : q.channel = (passed (.write (headerWrite code h)) p).channel)
    (hc : q.command = { (takenPart code h p).command with clamp := clamp }) :
    autoClosed (headerWrite code h).place (finish r d q) =
      raise .commandDone { q with channel := slotChannel code h p, command := completed code h r clamp d p } := by
  rw [autoClosed_passed (op := .write (headerWrite code h)) (p := p) (x := finish r d q) hq]
  unfold finish
  rw [hc]
  rfl

theorem answered_closed {code : Byte} {h : HeaderBurst} {r : Byte} {clamp : BitVec 32} {d : List Byte} {p x : Part}
    (hx : x.channel = p.channel) (hxc : x.command = p.command) :
    answered code h r clamp d x =
      raise .commandDone { x with channel := slotChannel code h p, command := completed code h r clamp d p } := by
  have channel : slotChannel code h x = slotChannel code h p :=
    autoClosed_channel (by simp [passed, Part.withChannel, hx])
  have command : completed code h r clamp d x = completed code h r clamp d p := by
    unfold completed slotHeader Part.lanesOf
    rw [hx, hxc]
  unfold answered
  rw [channel, command]

/-- A command done in an event that evaluates the verdict (R25, R64 to R70). -/
theorem slot_judged {code : Byte} {h : HeaderBurst} {r : Byte} {clamp : BitVec 32} {live : Conditions} {p x b : Part}
    (hidle : p.command.running = none) (hx : x.channel = p.channel) (hxc : x.command = p.command) :
    let y := { x with
      channel := (passed (.write (headerWrite code h)) p).channel
      command := { (takenPart code h p).command with clamp := clamp } }
    let q := autoClosed (headerWrite code h).place (finish r [] (closeEvent b (conditionsTo live y)))
    q.command = completed code h r clamp [] p ∧ Judged live (answered code h r clamp [] x) q := by
  intro y q
  have judged := conditionsTo_judged b live y
  have command : (closeEvent b (conditionsTo live y)).command = y.command := by
    rw [closeEvent_command, conditionsTo_command]
    rw [conditionsTo_command]
    show p.command.running ≠ _
    rw [hidle]
    nofun
  have closed : q = _ := finish_closed judged.ends.frame.channel command
  rw [closed, answered_closed hx hxc]
  exact ⟨rfl, (judged.beside _ _).raise _⟩

/-- Settles O29: refused, or one evaluation over the conditions under the new settings. -/
theorem setThresholds : Obligations.SetThresholds := by
  intro h s ht p ps st clamp result stale
  have hexec := slot_exec (i := .setThresholds h) (code := 0x0A) (h := h) (c := .setThresholds) rfl ht rfl
  have run (q : Part) : runCommand .setThresholds ps q =
      if st.rising then finish (doneCode clamp) [] (event (takeThresholds st) (postClamp clamp q))
      else finish Result.paramError [] (postClamp clamp q) := rfl
  refine ⟨fun hr => ?_, fun hr => ⟨_, hexec, ?_⟩⟩
  · refine slot_answered (code := 0x0A) (h := h) (c := .setThresholds) (x := p) rfl ht rfl ?_ rfl rfl
    exact (run _).trans (if_neg fun k => hr ((rising_iff st).mp k))
  · rw [show runCommand .setThresholds _ _ = _ from (run _).trans (if_pos ((rising_iff st).mpr hr))]
    unfold event takeThresholds
    rw [thresholdsSet_eq]
    exact slot_judged (x := { p with health := { p.health with settings := st, stale := stale } }) ht.idle rfl rfl

/-! ### Fibre reports -/

/-- What a taken report makes of the live conditions (R60). -/
theorem takeReport_eq (lost : Bool) (errored : Nat) (p : Part) :
    takeReport lost errored p = conditionsTo (p.health.liveReported lost errored)
      { p with health := { p.health with stale := .running p.clock.now } } := rfl

/-- A write to the fibre report line is a report or nothing (R59). -/
theorem writeReportBy_eq (take : Bool → Nat → Part → Part) (ls : List Lane) (p : Part) :
    (¬(p.health.settings.reportTimeout ≠ 0 ∧ (lane ls 0 = some 1 ∨ lane ls 0 = some 2)) → writeReportBy take ls p = p) ∧
    (p.health.settings.reportTimeout ≠ 0 ∧ (lane ls 0 = some 1 ∨ lane ls 0 = some 2) →
      writeReportBy take ls p = take (lane ls 0 = some 2)
        (((lane ls 2).getD 0).toNat + 256 * ((lane ls 3).getD 0).toNat) p) := by
  have errored : leNat [(lane ls 2).getD 0, (lane ls 3).getD 0] =
      ((lane ls 2).getD 0).toNat + 256 * ((lane ls 3).getD 0).toNat := by simp [leNat]
  unfold writeReportBy
  rw [errored]
  refine ⟨fun h => ?_, fun ⟨h0, h⟩ => ?_⟩
  · by_cases h0 : p.health.settings.reportTimeout = 0
    · simp [h0]
    · simp_all
  · obtain h | h := h <;> simp [h0, h]

/-- Settles O38: a report and the expiry of the staleness timer each evaluate the verdict once. -/
theorem fibreReports : Obligations.FibreReports := by
  refine ⟨fun w s => ?_, fun s => ?_⟩
  · intro ha p ls errored sent taken
    have reached : channelWrite (anchorWrite 0x160 w) p = autoClosed (anchorWrite 0x160 w).place
        (writeReport ls (passed (.write (anchorWrite 0x160 w)) p)) :=
      anchorWrite_reaches ha 0x160 w (by decide) (by decide) rfl
    have exec_report : exec (.fibreReport w) s = .next (s.having (channelWrite (anchorWrite 0x160 w) p)) := rfl
    obtain ⟨not_taken, is_taken⟩ := writeReportBy_eq (fun outOfSync errored => event (takeReport outOfSync errored)) ls
      (passed (.write (anchorWrite 0x160 w)) p)
    refine ⟨fun h => ?_, fun h => ⟨_, exec_report, ?_⟩⟩
    · rw [exec_report, reached, writeReport, not_taken h]
      exact congrArg (fun q => Host.Outcome.next (s.having q)) (autoClosed_eq _ _)
    · rw [reached, writeReport, is_taken h]
      unfold event
      rw [takeReport_eq, autoClosed_passed (op := .write (anchorWrite 0x160 w)) (p := p)]
      · have judged := conditionsTo_judged (passed (.write (anchorWrite 0x160 w)) p)
          (p.health.liveReported (lane ls 0 = some 2) errored)
          { passed (.write (anchorWrite 0x160 w)) p with health := { p.health with stale := .running p.clock.now } }
        exact judged.swapChannel (anchorChannel 0x160 w p)
      · rw [(closeEvent_frame _ _).channel, (conditionsTo_frame _ _).channel]
  · intro p due
    have isDue : p.staleDue = true ↔ due := staleDue_iff p
    refine ⟨fun h => ?_, fun h => ⟨event staleExpires p, ?_, conditionsTo_judged _ _ _⟩⟩
    · exact congrArg (fun q => Host.Outcome.next (s.having q)) (if_neg fun k => h (isDue.mp k))
    · exact congrArg (fun q => Host.Outcome.next (s.having q)) (if_pos (isDue.mpr h))

end Sys2Proof.Machine
end

section
/-! # Settling O44 and O45: polls, and presence and loss of signal (R34 to R42, R53 to R58). -/

namespace Sys2Proof.Machine

/-! ### Rows with a guard -/

theorem exec_guard {i : Instr} {s : State} {c : Prop} [Decidable c] {q : Part}
    (hi : exec i s = .next (s.having (if c then q else s.part))) (h : c) : exec i s = .next (s.having q) := by
  rw [hi, if_pos h]

theorem exec_guard_not {i : Instr} {s : State} {c : Prop} [Decidable c] {q : Part}
    (hi : exec i s = .next (s.having (if c then q else s.part))) (h : ¬c) : exec i s = .next s := by
  rw [hi, if_neg h]
  rfl

theorem leads_guard {i : Instr} {s : State} {c : Prop} [Decidable c] {q : Part} {Q : Part → Prop}
    (hi : exec i s = .next (s.having (if c then q else s.part))) (h : c) (hq : Q q) : Leads i s Q :=
  ⟨q, exec_guard hi h, hq⟩

/-! ### The I2C bus (R35) -/

/-- An attempt broken off stops within the twelve symbols that precede the last byte read. -/
theorem attemptCut_eq (st : OpticalSettings) (reached : Nat) : attemptCut st reached = brokenOff st reached := by
  unfold attemptCut brokenOff
  have split : attemptAnswered st = (([.send st.offset, .start, .send (st.address <<< 1 ||| 1)] : List BusSymbol) ++
      List.replicate 9 (BusSymbol.receive true)) ++ [.receive false, .stop] := rfl
  rw [split, List.take_append_of_le_length (Nat.min_le_right reached 12)]
  exact List.take_eq_take_iff.mpr (by simp)

/-- The optical monitor with a poll in flight abandoned (R40, R50). -/
theorem abandon_eq (now : Nat) (o : Optical) : o.abandon now = { o with
    poll := .waiting
    bus := if o.poll = .waiting then o.bus
      else o.bus ++ brokenOff o.settings (Config.busReached now) ++ [.stop] } := by
  unfold Optical.abandon
  rw [attemptCut_eq]
  split
  · next h => rw [← h]
  · rfl

theorem pollDue_iff (p : Part) : p.pollDue = true ↔ p.optical.present = true ∧ p.optical.poll = .waiting ∧
    ∃ t, p.optical.nextPoll = some t ∧ t ≤ p.clock.now := by
  simp [Part.pollDue, due_iff, and_assoc]

/-- An attempt in flight may be left unanswered for its cause (R35). -/
theorem mayFail_iff {p : Part} (h : p.optical.poll ≠ .waiting) (cause : Unanswered) : p.mayFail cause = true ↔
    ((∃ m, cause = .timeout m) ∨ (∃ m n, cause = .stuck m n) → p.optical.began + 25 ≤ p.clock.now) := by
  cases cause <;> simp [Part.mayFail, Part.attemptLate, h, attemptLimit]
  all_goals exact decide_eq_true_iff

/-! ### Presence and loss of signal -/

theorem exec_unless {i : Instr} {s : State} {c : Prop} [Decidable c] {q : Part}
    (hi : exec i s = .next (s.having (if c then s.part else q))) (h : c) : exec i s = .next s := by
  rw [hi, if_pos h]
  rfl

theorem leads_unless {i : Instr} {s : State} {c : Prop} [Decidable c] {q : Part} {Q : Part → Prop}
    (hi : exec i s = .next (s.having (if c then s.part else q))) (h : ¬c) (hq : Q q) : Leads i s Q :=
  ⟨q, by rw [hi, if_neg h], hq⟩

/-- Settles O45: each line's change is one event that turns the conditions. -/
theorem opticalLines : Obligations.OpticalLines := by
  intro level s p o live clock
  refine ⟨fun h => exec_guard_not (i := .opticalPresenceFall) rfl (ne_true_of_eq_false h),
    fun h => leads_guard rfl h ?_, exec_unless rfl, fun h => leads_unless rfl (ne_true_of_eq_false h) ?_,
    fun h => exec_guard_not (i := .losChange level) rfl ?_, fun hp hl => leads_guard rfl ⟨hp, hl⟩ ?_⟩
  · unfold event presenceFalls
    dsimp only
    rw [abandon_eq]
    exact conditionsChange_turned _ _ _
  · exact conditionsChange_turned _ _ _
  · rintro ⟨hp, hl⟩
    obtain h | h := h
    · exact ne_true_of_eq_false h hp
    · exact hl h
  · have seed : (o.seedPending || !level) = if level then o.seedPending else true := by cases level <;> simp
    unfold event losChanges
    show Turned _ _ (closeEvent _ (conditionsChange _ { p with clock := _, optical := { o with losLevel := level, seedPending := o.seedPending || !level } }))
    rw [seed]
    exact conditionsChange_turned _ _ _

/-! ### Polls -/

/-- What an attempt left unanswered puts on the bus after its address byte (R35; log 28). -/
theorem attemptUnanswered_eq (st : OpticalSettings) (cause : Unanswered) : attemptUnanswered st cause =
    match cause with
    | .addressWrite => [.stop]
    | .offset => [.send st.offset, .stop]
    | .addressRead => [.send st.offset, .start, .send (st.address <<< 1 ||| 1), .stop]
    | .timeout reached => brokenOff st reached ++ [.stop]
    | .stuck reached n => brokenOff st reached ++ List.replicate (min n 9) .pulse ++ [.stop] := by
  cases cause <;> simp only [attemptUnanswered, attemptCut_eq, addressByte, if_true]

theorem attemptBegins_eq (st : OpticalSettings) :
    attemptBegins st = [.start, .send (st.address <<< 1)] := by
  simp [attemptBegins, addressByte]

/-- A poll starts, after `before` on the bus (R34). -/
theorem startPollAfter_eq (before : List BusSymbol) (p : Part) : startPollAfter before p = { p with optical :=
    { p.optical with
      poll := .firstAttempt, began := p.clock.now, nextPoll := some (p.clock.now + p.optical.settings.period)
      bus := before ++ [.start, .send (p.optical.settings.address <<< 1)] } } := by
  dsimp only [startPollAfter]
  rw [attemptBegins_eq]
  rfl

/-- The filtered receive power a sample leaves, not raw: the sample where it seeds (R37, R56). -/
def Health.filteredBy (m : Mark) (shift sample : Nat) (h : Health) : Nat :=
  if m = .seed ∨ h.filter = none then sample else smooth shift (h.filter.getD 0) sample

/-- The stages a completed sample goes through (R53 to R58). -/
theorem takeSample_eq (m : Mark) (live : Conditions) (p : Part) :
    let h := p.health
    let whole := wholeDegrees p.optical.temperature
    let sample := correct p.optical.rxPower.toNat (p.optical.settings.factors.getD (band whole) 0)
    let filtered := h.filteredBy m p.optical.settings.shift sample
    takeSample m live p =
      conditionsTo (tempCondition h.settings whole (if m = .raw then live else powerConditions h.settings filtered live))
        { p with health := { h with
          lastTemp := some whole, corrected := sample, filter := if m = .raw then h.filter else some filtered } } := by
  intro h whole sample filtered
  have hf : filtered = h.filteredBy m p.optical.settings.shift sample := rfl
  unfold Health.filteredBy at hf
  unfold takeSample
  cases m <;> cases hh : p.health.filter <;> simp [h, hh, hf] <;> rfl

/-- A measured value is its two bytes, the most significant first (R36). -/
theorem measured_value (bytes : List Byte) (i : Nat) {hi lo : Byte} (h : slice bytes i 2 = [hi, lo]) :
    BitVec.ofNat 16 (beNat (slice bytes i 2)) = hi ++ lo := by
  rw [h]
  apply BitVec.eq_of_toNat_eq
  have := lo.isLt
  rw [BitVec.toNat_append, ← Nat.shiftLeft_add_eq_or_of_lt lo.isLt, Nat.shiftLeft_eq]
  simp [beNat, leNat]
  omega

theorem measured_eq (o : Optical) (b0 b1 b2 b3 b4 b5 b6 b7 b8 b9 : Byte) :
    o.measured [b0, b1, b2, b3, b4, b5, b6, b7, b8, b9] = { o with
      temperature := b0 ++ b1, supply := b2 ++ b3, bias := b4 ++ b5, txPower := b6 ++ b7, rxPower := b8 ++ b9 } := by
  dsimp only [Optical.measured]
  rw [measured_value _ 0 rfl, measured_value _ 2 rfl, measured_value _ 4 rfl, measured_value _ 6 rfl,
    measured_value _ 8 rfl]
  rfl

/-- The filtered receive power that a sample leaves, where it is not raw (R37, R56). -/
def Part.filtered (sample : Nat) (p : Part) : Nat :=
  if p.optical.seedPending = true ∨ p.health.filter = none then sample
  else smooth p.optical.settings.shift (p.health.filter.getD 0) sample

/-- A completed poll: the measurement set, and its sample handed on (R36 to R38). -/
theorem completePoll_eq (b0 b1 b2 b3 b4 b5 b6 b7 b8 b9 : Byte) (p : Part) :
    let o := p.optical
    let h := p.health
    let raw := o.window ≠ .none
    let whole := wholeDegrees (b0 ++ b1)
    let sample := correct (b8 ++ b9).toNat (o.settings.factors.getD (band whole) 0)
    let live0 := h.live.put .pollFail false
    completePoll [b0, b1, b2, b3, b4, b5, b6, b7, b8, b9] p =
      conditionsTo
        (tempCondition h.settings whole
          (if raw then live0 else powerConditions h.settings (p.filtered sample) live0))
        { p with
          optical := { o with
            temperature := b0 ++ b1, supply := b2 ++ b3, bias := b4 ++ b5, txPower := b6 ++ b7, rxPower := b8 ++ b9
            poll := .waiting, samples := satAdd o.samples 1, failures := 0
            seedPending := if raw then o.seedPending else false
            bus := o.bus ++ attemptAnswered o.settings }
          health := { h with
            lastTemp := some whole, corrected := sample
            filter := if raw then h.filter else some (p.filtered sample) } } := by
  dsimp only [completePoll]
  rw [measured_eq, takeSample_eq]
  dsimp only [Part.withOptical]
  unfold Health.filteredBy Part.filtered
  by_cases hw : p.optical.window = .none
  · have hm : p.optical.mark = if p.optical.seedPending then .seed else .filter := if_neg (not_not_intro hw)
    cases hs : p.optical.seedPending <;> simp [hw, hm, hs]
  · have hm : p.optical.mark = .raw := if_pos hw
    simp [hw, hm]

/-- Settles O44: starts and retries are moves of the monitor alone; a failed or completed poll is one event. -/
theorem polls : Obligations.Polls := by
  refine ⟨fun cause s => ?_, fun cause s => ?_, fun b0 b1 b2 b3 b4 b5 b6 b7 b8 b9 s => ?_⟩
  · intro p o now begins reread ended starts retries
    have hstarts : p.pollDue = true ↔ starts := pollDue_iff p
    have hretries : (o.poll = .firstAttempt ∧ p.mayFail cause = true) ↔ retries :=
      and_congr_right fun h => mayFail_iff (h ▸ by decide) cause
    have hended : attemptUnanswered o.settings cause = ended :=
      (attemptUnanswered_eq o.settings cause).trans (by cases cause <;> rfl)
    refine ⟨fun h => (exec_guard (i := .pollStart) rfl (hstarts.mpr h)).trans
        (congrArg (fun q => Host.Outcome.next (s.having q)) (startPollAfter_eq [] p)), fun h => exec_guard_not (i := .pollStart) rfl (mt hstarts.mp h),
      fun h => ?_, fun h => exec_guard_not (i := .pollRetry cause) rfl (mt hretries.mp h)⟩
    rw [exec_guard (i := .pollRetry cause) rfl (hretries.mpr h), retryPoll, attemptBegins_eq, hended]
    rfl
  · intro p o n ended fails
    have hfails : (o.poll = .retry ∧ p.mayFail cause = true) ↔ fails :=
      and_congr_right fun h => mayFail_iff (h ▸ by decide) cause
    have hended : attemptUnanswered s.part.optical.settings cause = ended :=
      (attemptUnanswered_eq s.part.optical.settings cause).trans (by cases cause <;> rfl)
    refine ⟨fun h => exec_guard_not (i := .pollFailed cause) rfl (mt hfails.mp h), fun h =>
      leads_guard rfl (hfails.mpr h) ?_⟩
    unfold event failPoll
    dsimp only
    rw [hended]
    exact conditionsChange_turned _ _ _
  · intro p o h completes raw whole sample moved filtered live0 live
    refine ⟨fun hc => exec_guard_not (i := .pollComplete [b0, b1, b2, b3, b4, b5, b6, b7, b8, b9]) rfl hc, fun hc =>
      leads_guard rfl hc ?_⟩
    have event_eq : event (completePoll [b0, b1, b2, b3, b4, b5, b6, b7, b8, b9]) p = closeEvent p (conditionsTo live _) :=
      congrArg (closeEvent p) (completePoll_eq b0 b1 b2 b3 b4 b5 b6 b7 b8 b9 p)
    rw [event_eq]
    exact conditionsTo_judged _ _ _

end Sys2Proof.Machine
end

section
/-! # Settling O27, O28 and O46: the settings of the optical monitor and restart windows (R43 to R50, R69). -/

namespace Sys2Proof.Machine

/-- What a taken command leads to, from what its owner makes of the part as taken (R24). -/
theorem slot_leads {i : Instr} {code : Byte} {h : HeaderBurst} {c : CommandName} {s : State} {q : Part} {Q : Part → Prop}
    (hi : headerRow i = some (code, h)) (ht : s.part.Takes h) (hc : commandOf code = some c)
    (hrun : runCommand c (slotParams code h s.part) (takenPart code h s.part) = q)
    (hQ : Q (autoClosed (headerWrite code h).place q)) : Leads i s Q :=
  ⟨_, by rw [slot_exec hi ht hc, hrun], hQ⟩

/-! ### FIBRE_RESTART -/

theorem refusesRestart_iff (svc : Service) :
    svc.refusesRestart = true ↔ svc = .fibre ∨ svc = .suspect ∨ svc = .returning ∨ svc = .forcedFibre := by
  cases svc <;> decide

/-- Settles O28: refused, or a window begun in an event while the command goes on. -/
theorem fibreRestart : Obligations.FibreRestart := by
  intro h s ht p refused
  have run (q : Part) : runCommand .fibreRestart (slotParams 0x09 h p) q =
      if !q.optical.present ∨ q.optical.window ≠ .none ∨ q.path.service.refusesRestart then
        finish Result.stateError [] q
      else event (fun q => beginWindow (startTimed .fibreRestart q)) q := rfl
  have isRefused : (!p.optical.present ∨ p.optical.window ≠ .none ∨ p.path.service.refusesRestart) ↔ refused := by
    simp [refused, refusesRestart_iff]
  refine ⟨fun hr => ?_, fun hr => ?_⟩
  · refine slot_answered (code := 0x09) (h := h) (c := .fibreRestart) (x := p) rfl ht rfl ?_ rfl rfl
    exact (run _).trans (if_pos (isRefused.mpr hr))
  · refine slot_leads (code := 0x09) (h := h) (c := .fibreRestart) rfl ht rfl
      ((run _).trans (if_neg fun k => hr (isRefused.mp k))) ?_
    have ends := closeEvent_ends (takenPart 0x09 h p) (beginWindow (startTimed .fibreRestart (takenPart 0x09 h p)))
    obtain ⟨going, command⟩ := slot_runs (code := 0x09) (h := h) (t := .fibreRestart) (p := p) (x := windowBegun p)
      ends rfl rfl
    refine ⟨going, command.trans ?_⟩
    rw [closeEvent_command (by nofun)]
    rfl

/-! ### The verdict leaves the optical monitor -/

theorem enterSuspect_optical (p : Part) : (enterSuspect p).optical = p.optical := by
  have dwell (p : Part) : (dwellEnds p).optical = p.optical := by
    unfold dwellEnds
    split <;> rfl
  unfold enterSuspect
  rw [apply_ite Part.optical, dwell, ite_self]

theorem takeVerdict_optical (a b : Bool) (p : Part) : (takeVerdict a b p).optical = p.optical := by
  unfold takeVerdict
  split
  · rw [apply_ite Part.optical, enterSuspect_optical, ite_self]
  all_goals (repeat' split) <;> rfl

theorem conditionsTo_optical (live : Conditions) (p : Part) : (conditionsTo live p).optical = p.optical := by
  unfold conditionsTo evaluate
  dsimp only
  have set : (setLive live p).optical = p.optical := raiseIf_optical ..
  split
  · exact set
  · rw [takeVerdict_optical]
    exact (raiseIf_optical ..).trans set

/-! ### Restart windows -/

/-- A restart window that ends: one evaluation of the verdict, its hold gone (R44, R69). -/
theorem endWindow_eq (p : Part) : endWindow p = conditionsTo p.health.live { p with
    optical := { p.optical with window := .none, seedPending := true }, health := { p.health with hold := false } } :=
  evaluate_eq _

/-- After an evaluation in an event that leaves the automatic run stopped, it runs where R47 asks (log 25). -/
theorem closeEvent_reruns (b : Part) (live : Conditions) {x : Part} (hr : x.optical.run = none)
    (hw : x.optical.window = .none) :
    (closeEvent b (conditionsTo live x)).optical.run =
      if (closeEvent b (conditionsTo live x)).path.service = .radio ∧
        (closeEvent b (conditionsTo live x)).path.verdict = .bad ∧ x.optical.settings.interval ≠ 0 then some x.clock.now
      else none := by
  have optical := conditionsTo_optical live x
  rw [closeEvent_run_stopped b (by rw [optical, hr]), optical, (conditionsTo_frame live x).clock]
  simp [hw]

/-- The part as a FIBRE_RESTART in execution leaves it that ends with DONE (R45). -/
def Part.restarted (p : Part) : Part :=
  if p.command.running = some .fibreRestart then
    raise .commandDone { p with command := { p.command with running := none, result := 0x01, data := List.replicate 16 0 } }
  else p

theorem restarted_kept (p : Part) : p.restarted.path = p.path ∧ p.restarted.radio = p.radio ∧
    p.restarted.relay = p.relay ∧ p.restarted.clock = p.clock := by
  unfold Part.restarted
  split <;> exact ⟨rfl, rfl, rfl, rfl⟩

/-- TX_OFF that ends before SETTLING, and with it (R43, R45). -/
theorem endTxOff_eq (settle : Nat) (p : Part) :
    (settle ≠ 0 → endTxOff settle p = { p.restarted with optical := { p.optical with
      txDisable := false, window := .settling (p.clock.now + settle) } }) ∧
    (settle = 0 → endTxOff settle p = conditionsTo p.health.live { p.restarted with
      optical := { p.optical with txDisable := false, window := .none, seedPending := true }
      health := { p.restarted.health with hold := false } }) := by
  by_cases hc : p.command.running = some .fibreRestart
  · have hp : p.restarted = finish Result.done [] p := if_pos hc
    rw [hp]
    unfold endTxOff
    refine ⟨fun h => ?_, fun h => ?_⟩
    · dsimp only
      rw [if_neg h]
      exact if_pos hc
    · dsimp only
      rw [if_pos h, endWindow_eq, conditionsTo_command]
      exact (if_pos hc).trans (finish_conditionsTo ..)
  · have hp : p.restarted = p := if_neg hc
    rw [hp]
    unfold endTxOff
    refine ⟨fun h => ?_, fun h => ?_⟩
    · dsimp only
      rw [if_neg h]
      exact if_neg hc
    · dsimp only
      rw [if_pos h, endWindow_eq, conditionsTo_command]
      exact if_neg hc

/-- What the event does of itself to a command in execution no end of an event adds to. -/
theorem txOff_command {p : Part} (hr : p.command.running = some .fibreRestart) (settle : Nat) :
    (event (endTxOff settle) p).command = p.restarted.command := by
  have hp : p.restarted.command = (finish Result.done [] p).command := congrArg Part.command (if_pos hr)
  obtain ⟨settles, over_⟩ := endTxOff_eq settle p
  have command : (endTxOff settle p).command = p.restarted.command := by
    by_cases h : settle = 0
    · rw [over_ h, conditionsTo_command]
    · rw [settles h]
  rw [event, closeEvent_command (by rw [command, hp]; nofun), command]

/-- Settles O46: each end is one event; the run is looked at as it ends. -/
theorem restartWindows : Obligations.RestartWindows := by
  intro s p o now kept restarting finished closed rerun
  have hfinished : p.restarted = finished := rfl
  refine ⟨fun ends settle hw he => ?_, fun hn => ?_, fun ends hw he => ?_, fun hn => ?_, fun hr => ?_,
    fun hr => ?_⟩
  · intro x
    have due : p.txOffDue = some settle := by
      unfold Part.txOffDue
      rw [show p.optical.window = _ from hw]
      exact if_pos he
    have exec_end : exec .txOffEnd s = .next (s.having (event (endTxOff settle) p)) := by
      show Host.Outcome.next (s.having (match s.part.txOffDue with
        | some settle => event (endTxOff settle) s.part
        | none => s.part)) = _
      rw [show s.part.txOffDue = _ from due]
    obtain ⟨settles, over_⟩ := endTxOff_eq settle p
    refine ⟨_, exec_end, fun h => ?_, fun h => ?_, fun h => txOff_command h settle⟩
    · rw [event, settles h]
      obtain ⟨path, radio, relay, -⟩ := restarted_kept p
      exact ⟨closeEvent_ends _ _, kept_of path radio relay⟩
    · rw [event, over_ h]
      have rerun := closeEvent_reruns p p.health.live (x := closed x)
      refine ⟨conditionsTo_judged _ _ _, fun hr => (rerun hr rfl).trans ?_⟩
      rw [show (closed x).clock = p.clock from (restarted_kept p).2.2.2]
      rfl
  · refine exec_guard_not (i := .txOffEnd) (c := False) (q := s.part) ?_ id
    have none_due : p.txOffDue = none := by
      unfold Part.txOffDue
      split
      · next hw => exact if_neg (Nat.not_le.mpr (hn _ _ hw))
      · rfl
    show Host.Outcome.next (s.having (match s.part.txOffDue with
      | some settle => event (endTxOff settle) s.part
      | none => s.part)) = _
    rw [show s.part.txOffDue = _ from none_due]
    rfl
  · have due : p.settlingDue = true := (settlingDue_iff p).mpr ⟨ends, hw, he⟩
    refine leads_guard rfl due ?_
    rw [event, endWindow_eq]
    exact ⟨conditionsTo_judged _ _ _, fun hr => closeEvent_reruns p _ hr rfl⟩
  · refine exec_guard_not (i := .settlingEnd) rfl fun due => ?_
    obtain ⟨ends, hw, he⟩ := (settlingDue_iff p).mp due
    exact Nat.not_le.mpr (hn ends hw) he
  · have due : p.runDue = true := (runDue_iff p).mpr hr
    refine leads_guard rfl due ?_
    have expires : runExpires p = if o.present then windowBegun p
      else { p with optical := { o with run := some now } } := rfl
    rw [event, expires]
    by_cases hp : o.present = true
    · rw [if_pos hp]
      refine ⟨closeEvent_ends _ _, kept_of rfl rfl rfl, fun _ => ?_, fun h => absurd hp (ne_true_of_eq_false h)⟩
      exact (closeEvent_run_stopped p rfl).trans (if_neg fun h => RestartWindow.noConfusion h.2.2.1)
    · rw [if_neg hp]
      refine ⟨closeEvent_ends _ _, kept_of rfl rfl rfl, fun h => absurd h hp, fun _ hf hs hn => ?_⟩
      obtain ⟨began, hb, -⟩ := hr
      have holds := hf.mp (by rw [hb]; rfl)
      let again : Part := { p with optical := { o with run := some now } }
      have kept : (closeEvent p again).optical.run = runKept again := closeEvent_run (p := again) hs hn
      exact kept.trans (if_pos holds)
  · exact exec_guard_not (i := .automaticRestartExpiry) rfl (mt (runDue_iff s.part).mp hr)

/-! ### SET_OPTICS -/

/-- The optical monitor as SET_OPTICS leaves it, the automatic run apart: the settings taken, a poll in flight broken
off, and a poll at once where the module is present (R50). -/
def Optical.retuned (st : OpticalSettings) (now : Nat) (o : Optical) : Optical :=
  let stopped := o.bus ++ brokenOff o.settings (Config.busReached now) ++ [.stop]
  if o.present then
    { o with
      settings := st, seedPending := true, poll := .firstAttempt, began := now
      nextPoll := some (now + st.period)
      bus := (if o.poll = .waiting then [] else stopped) ++ [.start, .send (st.address <<< 1)] }
  else
    { o with
      settings := st, seedPending := true, poll := .waiting
      bus := if o.poll = .waiting then o.bus else stopped }

theorem retuned_kept (st : OpticalSettings) (now : Nat) (o : Optical) :
    (o.retuned st now).present = o.present ∧ (o.retuned st now).window = o.window ∧ (o.retuned st now).run = o.run ∧
      (o.retuned st now).settings = st := by
  unfold Optical.retuned
  dsimp only
  split <;> exact ⟨rfl, rfl, rfl, rfl⟩

/-- SET_OPTICS retunes the monitor, and the automatic run expires that has reached the new interval (R50). -/
theorem takeOptics_eq (st : OpticalSettings) (p : Part) : takeOptics st p =
    let r := { p with optical := p.optical.retuned st p.clock.now }
    if r.runDue then runExpires r else r := by
  have polled : (let q := p.withOptical { p.optical.abandon p.clock.now with settings := st, seedPending := true }
      if q.optical.present then startPollAfter (if p.optical.poll = .waiting then [] else q.optical.bus) q else q) =
      { p with optical := p.optical.retuned st p.clock.now } := by
    dsimp only
    rw [startPollAfter_eq, abandon_eq]
    unfold Optical.retuned
    dsimp only [Part.withOptical]
    by_cases hp : p.optical.present = true
    · by_cases hw : p.optical.poll = .waiting <;> simp [hp, hw]
    · simp [hp]
  unfold takeOptics
  dsimp only at polled ⊢
  rw [polled]

/-- The run has expired at the new interval (R48, R50). -/
theorem retuned_runDue (st : OpticalSettings) (p : Part) :
    ({ p with optical := p.optical.retuned st p.clock.now } : Part).runDue = true ↔ p.RunReached st := by
  obtain ⟨-, -, run, settings⟩ := retuned_kept st p.clock.now p.optical
  rw [runDue_iff]
  dsimp only
  rw [run, settings]
  rfl

/-- What SET_OPTICS comes to with its settings at `st`, before the event ends (R50). -/
def Part.retuned (st : OpticalSettings) (p : Part) : Part := { p with optical := p.optical.retuned st p.clock.now }

theorem autoClosed_optical (b : Burst) (p : Part) : (autoClosed b p).optical = p.optical := by rw [autoClosed_eq]

/-- Settles O27: the monitor retuned, the run expired where it had reached the new interval, and the run looked at as
the event ends. -/
theorem setOptics : Obligations.SetOptics := by
  intro h s ht p o ps factor given st clamp result stopped x goesOn
  have hx : x = p.retuned st := by
    unfold Part.retuned Optical.retuned
    show _ = { p with optical := if o.present then _ else _ }
    rfl
  have hst : opticalTaken ps = st := by
    unfold opticalTaken clampTo clampOrZero
    simp only [Nat.zero_max]
    rfl
  have hclamp : clampMask (opticalGiven ps) st.numbers = clamp := rfl
  let y : Part := { takenPart 0x08 h p with command := { (takenPart 0x08 h p).command with clamp := clamp } }
  have run : runCommand .setOptics (slotParams 0x08 h p) (takenPart 0x08 h p) =
      finish result [] (closeEvent y (takeOptics st y)) := by
    show doSetOptics ps (takenPart 0x08 h p) = _
    unfold doSetOptics
    dsimp only
    rw [hst, hclamp]
    rfl
  refine slot_leads (code := 0x08) (h := h) (c := .setOptics) rfl ht rfl run ?_
  have due : (y.retuned st).runDue = true ↔ p.RunReached st := retuned_runDue st y
  have takes : takeOptics st y = if (y.retuned st).runDue then runExpires (y.retuned st) else y.retuned st :=
    takeOptics_eq st y
  obtain ⟨present, window, running, settings⟩ := retuned_kept st p.clock.now p.optical
  by_cases hreached : p.RunReached st ∧ o.present = true
  · obtain ⟨hr, hp⟩ := hreached
    have expires : takeOptics st y = windowBegun (y.retuned st) := by
      rw [takes, if_pos (due.mpr hr)]
      exact if_pos (present.trans hp)
    rw [expires]
    have closed := slot_event (code := 0x08) (h := h) (r := result) (clamp := clamp) (d := []) (p := p)
      (x := windowBegun x) (y := windowBegun (y.retuned st)) (b := y) ht.idle (hx ▸ EventEnds.refl _) rfl (hx ▸ rfl) (hx ▸ rfl)
    refine ⟨closed.2, fun _ _ => ⟨closed.1, ?_⟩, fun h => (h.elim (· hr) (absurd hp ∘ ne_true_of_eq_false)).elim⟩
    rw [autoClosed_optical, finish_optical]
    exact (closeEvent_run_stopped y rfl).trans (if_neg fun k => RestartWindow.noConfusion k.2.2.1)
  · obtain ⟨R, again, first, still⟩ : ∃ R, takeOptics st y =
        { y with optical := { p.optical.retuned st p.clock.now with run := R } } ∧
        (p.RunReached st → R = some p.clock.now) ∧ (¬p.RunReached st → R = o.run) := by
      rw [takes]
      by_cases hr : p.RunReached st
      · refine ⟨some p.clock.now, ?_, fun _ => rfl, fun k => absurd hr k⟩
        rw [if_pos (due.mpr hr)]
        exact if_neg fun hp => hreached ⟨hr, present.symm.trans hp⟩
      · refine ⟨o.run, ?_, fun k => absurd k hr, fun _ => rfl⟩
        rw [if_neg (mt due.mp hr), show o.run = _ from running.symm]
        rfl
    let z : Part := { y with optical := { p.optical.retuned st p.clock.now with run := R } }
    have ends : EventEnds { x with
        channel := (passed (.write (headerWrite 0x08 h)) p).channel
        command := { (takenPart 0x08 h p).command with clamp := clamp } } z := by
      rw [hx]
      exact ⟨⟨rfl, rfl, rfl, rfl, rfl, rfl, rfl, rfl, rfl, rfl, rfl, rfl⟩, Mild.of_eq rfl rfl⟩
    have closed := slot_event (code := 0x08) (h := h) (r := result) (clamp := clamp) (d := []) (p := p)
      (x := x) (y := z) (b := y) ht.idle ends rfl (hx ▸ rfl) (hx ▸ rfl)
    rw [again]
    refine ⟨closed.2, fun hr hp => absurd ⟨hr, hp⟩ hreached, fun _ => ⟨closed.1, fun hs hn => ?_⟩⟩
    have kept : (closeEvent y z).optical.run = if goesOn then some (R.getD p.clock.now) else none := by
      rw [closeEvent_run (p := z) hs hn]
      unfold runKept
      show (if _ ∧ _ ∧ (p.optical.retuned st p.clock.now).window = _ ∧ (p.optical.retuned st p.clock.now).settings.interval ≠ 0
        then _ else _) = _
      rw [window, settings]
      rfl
    rw [autoClosed_optical, finish_optical, kept]
    refine ⟨fun k => if_neg k, fun k => ⟨fun hr => ?_, fun hr began hb => ?_⟩⟩
    · rw [if_pos k]
      by_cases hr' : p.RunReached st
      · rw [first hr']
        rfl
      · rw [still hr', hr.resolve_left hr']
        rfl
    · rw [if_pos k, still hr, hb]
      rfl

end Sys2Proof.Machine
end

section
/-! # Settling O8 and O9: the channel reset line and the access it cuts short (R1, R8, R10, R22, R60, R63, R68, R72,
R101, R132, R137, R202). -/

namespace Sys2Proof.Machine

/-! ### Accesses cut short -/

theorem cutAccess_write {p : Part} (ha : p.channel.state = .active) (w : WriteBurst) (beats : Nat) :
    cutAccess (.write w beats) p = cutWrite w beats p := by
  unfold cutAccess
  rw [ha]

theorem cutAccess_read {p : Part} (ha : p.channel.state = .active) (r : ReadBurst) (beats : Nat) :
    cutAccess (.read r beats) p = cutRead r beats p := by
  unfold cutAccess
  rw [ha]

/-- The bytes a burst carries after so many beats (R8, R10). -/
theorem carried_lane (chopped : Bool) (start beats : Nat) (ls : List Lane) (b : Nat) (hb : b < 32) :
    lane (carried chopped start beats ls) b =
      (if chopped then (if b / 16 = start / 4 ∧ b % 16 < 4 * beats then lane ls b else none)
       else if b < 4 * beats then lane ls b else none) := by
  rw [lane_carried _ _ _ _ _ hb]
  unfold carries
  have half : b / 4 / 4 = b / 16 := Nat.div_div_eq_div_mul b 4 4
  have beat : b / 4 % 4 < beats ↔ b % 16 < 4 * beats := by omega
  have whole : b / 4 < beats ↔ b < 4 * beats := by omega
  cases chopped <;> simp [half, beat, whole]

/-- What a substituted read returns does not depend on what DRAM returned (R11, R17). -/
theorem substitute_returns (line : Option (List Byte)) (chopped : Bool) (start : Nat) (p : Part) :
    (substitute line chopped start p).channel.toDram = p.channel.toDram ∧
      (substitute line chopped start p).channel.toHost =
        (line.bind fun l => if p.channel.substitutes then
          some { bytes := beatsOf p.channel.readOrder chopped start l, source := .part p.channel.latency } else none).or
          p.channel.toHost := by
  cases line with
  | none => exact ⟨rfl, rfl⟩
  | some l =>
    cases hs : p.channel.substitutes
    · rw [substitute_withheld l chopped start hs]
      simp
    · rw [substitute_some l chopped start hs]
      simp [returned]

theorem autoClosed_shown (b : Burst) (p : Part) :
    (autoClosed b p).channel.toDram = p.channel.toDram ∧ (autoClosed b p).channel.toHost = p.channel.toHost := by
  unfold autoClosed setBank
  split <;> exact ⟨rfl, rfl⟩

/-- A read in ACTIVE has passed to DRAM, and returned DRAM's bytes or others that do not depend on them (R1, R17). -/
theorem channelRead_returns {p : Part} (ha : p.channel.state = .active) (place : Burst) :
    ∃ own : Option ReadReturn, ∀ dram : List Byte, let r : ReadBurst := { place := place, dram := dram }
      (channelCommand (.read r) p).channel.toDram = some (.named (.read r)) ∧
        (channelCommand (.read r) p).channel.toHost = own.or (some { bytes := dram, source := .dram }) := by
  cases hr : p.channel.row place.bank with
  | none =>
    refine ⟨none, fun dram => ?_⟩
    have stray (f : Nat → Bool → Nat → Part → Part) (q : Part) (hq : q.channel.row place.bank = none) :
        access place f q = count .strayAccesses 1 q := by
      unfold access
      rw [hq]
    dsimp only
    rw [channelCommand_active ha, show activeCommand (.read _) _ = access place readAccess _ from rfl,
      stray readAccess (forward (.read { place := place, dram := dram }) p) hr]
    exact ⟨rfl, rfl⟩
  | some row =>
    refine ⟨(ownerLine (p.windows.classify (lineAddress row place)) p).bind fun l =>
      if p.channel.substitutes then
        some { bytes := beatsOf p.channel.readOrder (p.channel.chopped place) (startPosition place) l
               source := .part p.channel.latency }
      else none, fun dram => ?_⟩
    dsimp only
    rw [channelRead_open (r := { place := place, dram := dram }) ha hr, (autoClosed_shown _ _).1,
      (autoClosed_shown _ _).2, readAccess_line _ _ (ownerLine_forward _ _ p)]
    exact substitute_returns _ _ _ _

/-- A read cut short returns the beats of the whole read that were sent (R8). -/
theorem cutRead_returns {p : Part} (ha : p.channel.state = .active) (r : ReadBurst) (beats : Nat) :
    (cutRead r beats p).channel.toDram = some (.named (.read { r with dram := r.dram.take (4 * beats) })) ∧
      (cutRead r beats p).channel.toHost = (channelCommand (.read r) p).channel.toHost.map fun back =>
        { back with bytes := back.bytes.take (4 * beats) } := by
  obtain ⟨own, returns⟩ := channelRead_returns ha r.place
  have whole := (returns r.dram).2
  obtain ⟨dram, host⟩ := returns (r.dram.take (4 * beats))
  refine ⟨dram, ?_⟩
  show ((channelCommand (.read (readCut r beats)) p).channel.toHost.map _) = _
  rw [whole, show (channelCommand (.read (readCut r beats)) p).channel.toHost = _ from host]
  cases own <;> simp

/-- Settles O9. -/
theorem cutWriteCarriesItsBeats : Obligations.CutWriteCarriesItsBeats := by
  refine ⟨fun chopped start beats ls b _ hb => carried_lane chopped start beats ls b hb, fun w beats s ha => ?_,
    fun r beats s ha => ?_⟩
  · have awake : s.part.channel.state ≠ .inReset := by rw [ha]; decide
    refine ⟨assertReset (.write w beats) s.part, rfl, ?_⟩
    exact (assertReset_passed _ awake).1.trans (by rw [cutAccess_write ha, cutWrite_toDram]; rfl)
  · have awake : s.part.channel.state ≠ .inReset := by rw [ha]; decide
    obtain ⟨dram, host⟩ := cutRead_returns ha r beats
    obtain ⟨toDram, toHost⟩ := assertReset_passed (.read r beats) awake
    rw [cutAccess_read ha] at toDram toHost
    exact ⟨_, _, rfl, rfl, toDram.trans dram, toHost.trans host⟩

/-! ### The channel reset line -/

/-- The part as the assertion clears it, before the conditions it leaves are evaluated (R8, R22, R63, R137). -/
def Part.cleared (p : Part) : Part :=
  { p with
    channel := { p.channel with
      state := .inReset, banks := List.replicate 8 none, known0 := false, known1 := false, known2 := false
      readout := false, dramReset := true }
    command := { p.command with header := List.replicate 32 0, params := List.replicate 32 0 }
    uplink := { p.uplink with staging := [] }
    health := { p.health with stale := .disarmed } }

/-- The assertion acts on what the access it cuts short leaves, and the data of a command done in the event are
posted last (R8; log 20). -/
theorem assertReset_acts (cut : CutAccess) {p : Part} (h : p.channel.state ≠ .inReset) :
    assertReset cut p = postAtEnd (cutCommand cut p)
      (closeEvent p (conditionsChange (clearReports (cutAccess cut p).health.live) (cutAccess cut p).cleared)) :=
  assertReset_eq cut h

/-- What posting the data of a command last changes: those data. -/
theorem postAtEnd_data (c : Option CommandName) (p : Part) :
    ∃ data, postAtEnd c p = { p with command := { p.command with data := data } } := by
  obtain h | ⟨data, h⟩ := postAtEnd_eq c p
  · exact ⟨p.command.data, h⟩
  · exact ⟨padTo 16 data, h⟩

/-- Settles the first clause of O8: each block as the assertion clears it. -/
theorem assertReset_clears (cut : CutAccess) {s : State} (h : s.part.channel.state ≠ .inReset) :
    let p := cutAccess cut s.part
    let live := clearReports p.health.live
    let q := assertReset cut s.part
    q.channel = { p.channel with
      state := .inReset, banks := List.replicate 8 none, known0 := false, known1 := false,
      known2 := false, readout := false, dramReset := true } ∧
    q.command.header = List.replicate 32 0 ∧ q.command.params = List.replicate 32 0 ∧
    q.command.tag = p.command.tag ∧ q.command.clamp = p.command.clamp ∧
    q.uplink.staging = [] ∧
    q.uplink.entries.map Entry.host = p.uplink.entries.map Entry.host ∧
    (q.health = { p.health with stale := .disarmed } ∧ live = p.health.live ∨
      live ≠ p.health.live ∧
        q.health = ({ p.health with stale := .disarmed } : Health).after live) ∧
    q.windows = p.windows ∧ q.delivery = p.delivery ∧ q.clock = p.clock ∧
    q.optical.settings = p.optical.settings ∧ q.optical.window = p.optical.window ∧
    q.events.mask = p.events.mask ∧ (∀ f, p.flag f = true → q.flag f = true) := by
  intro p live q
  have acts : q = _ := assertReset_acts cut h
  obtain ⟨data, posted⟩ := postAtEnd_data (cutCommand cut s.part) (closeEvent s.part (conditionsChange live p.cleared))
  have closed := closeEvent_ends s.part (conditionsChange live p.cleared)
  have turned := conditionsChange_frame live p.cleared
  have mild := (conditionsChange_mild live p.cleared).trans closed.mild
  have health := conditionsChange_health live p.cleared
  rw [posted] at acts
  clear posted
  clear_value q
  generalize closeEvent s.part (conditionsChange live p.cleared) = x at closed mild acts
  generalize conditionsChange live p.cleared = z at closed turned health
  rw [acts]
  obtain ⟨kclock, kchannel, kwindows, khealth, kdelivery, kcommand, koptical, -, -, -, kuplink, kevents⟩ := closed.frame
  obtain ⟨tclock, tchannel, twindows, -, tdelivery, tcommand, toptical, -, -, -, tuplink, tevents⟩ := turned
  have command {β : Type} (f : Command → β) (hf : ∀ (k : Command) r c d, f { k with running := r, result := c, data := d } = f k) :
      f { x.command with data := data } = f p.cleared.command := by
    rw [show f { x.command with data := data } = f x.command from hf x.command _ _ data, kcommand, hf, tcommand, hf]
  refine ⟨kchannel.trans tchannel, command Command.header fun _ _ _ _ => rfl, command Command.params fun _ _ _ _ => rfl,
    command Command.tag fun _ _ _ _ => rfl, command Command.clamp fun _ _ _ _ => rfl,
    (congrArg Uplink.staging kuplink :).trans (congrArg Uplink.staging tuplink :), mild.hosts, ?_,
    kwindows.trans twindows, kdelivery.trans tdelivery, kclock.trans tclock,
    (congrArg Optical.settings koptical :).trans (congrArg Optical.settings toptical :),
    (congrArg Optical.window koptical :).trans (congrArg Optical.window toptical :),
    (congrArg Events.mask kevents :).trans (congrArg Events.mask tevents :), mild.flags⟩
  have health := khealth.trans health
  by_cases same : live = p.health.live
  · exact .inl ⟨health.trans (if_pos same), same⟩
  · exact .inr ⟨same, health.trans (if_neg same)⟩

/-- A command that an assertion's cut write carries and that ends with DONE shows the part as the event leaves it
(R8, R101, R132, R202). -/
theorem assertReset_shows {h : HeaderBurst} {code : Byte} {beats : Nat} {p : Part} {c : CommandName} {data : List Byte}
    (ht : p.Takes h) (hb : 0 < beats) (hc : commandOf code = some c)
    (hd : c.shows (assertReset (.write (headerWrite code h) beats) p) = some data)
    (hr : (assertReset (.write (headerWrite code h) beats) p).command.result = Result.done) :
    (assertReset (.write (headerWrite code h) beats) p).command.data = padTo 16 data := by
  have awake : p.channel.state ≠ .inReset := by rw [ht.anchor.active]; decide
  rw [assertReset_eq _ awake, cutCommand_takes ht code hb, hc] at hd hr ⊢
  exact postAtEnd_shows hd hr

/-- SET_EVENTS ends with DONE in the event of the assertion too. -/
theorem assertReset_setEvents {h : HeaderBurst} {beats : Nat} {p : Part} (ht : p.Takes h) (hb : 0 < beats) :
    (assertReset (.write (headerWrite 0x03 h) beats) p).command.result = Result.done := by
  have awake : p.channel.state ≠ .inReset := by rw [ht.anchor.active]; decide
  obtain ⟨ps, q, command, idle⟩ := cutWrite_runs ht (code := 0x03) hb (c := .setEvents) rfl
  have done_ : (runCut .setEvents ps q).command.result = Result.done ∧ (runCut .setEvents ps q).command.running = none :=
    ⟨rfl, rfl⟩
  rw [← command, ← cutAccess_write ht.anchor.active] at done_
  rw [assertReset_acts _ awake]
  obtain ⟨data, posted⟩ := postAtEnd_data (cutCommand (.write (headerWrite 0x03 h) beats) p)
    (closeEvent p (conditionsChange (clearReports (cutAccess (.write (headerWrite 0x03 h) beats) p).health.live)
      (cutAccess (.write (headerWrite 0x03 h) beats) p).cleared))
  rw [posted]
  show (closeEvent p _).command.result = _
  rw [closeEvent_command, conditionsChange_command]
  · exact done_.1
  · rw [conditionsChange_command]
    show (cutAccess _ p).command.running ≠ _
    rw [done_.2]
    nofun

/-! ### Writes cut short that no evaluation waits for -/

/-- What has come of a burst comes whole (R8, R10). -/
theorem carried_came (chopped : Bool) (start beats : Nat) (ls : List Lane) :
    carried chopped start 8 (carried chopped start beats ls) = carried chopped start beats ls := by
  refine List.map_congr_left fun b hb => ?_
  have hb : b < 32 := List.mem_range.mp hb
  rw [lane_carried _ _ _ _ _ hb, carries_whole _ _ _ (by omega)]
  unfold carries
  cases chopped
  · simp
  · by_cases half : b / 4 / 4 = start / 4 <;> simp [half]

theorem commandOf_thresholds {code : Byte} (h : commandOf code = some .setThresholds) : code = 0x0A := by
  unfold commandOf at h
  split at h <;> simp at h
  exact BitVec.eq_of_toNat_eq ‹_›

/-- A command that a cut write carries runs as in a whole write, unless it is a SET_THRESHOLDS that is taken (R8). -/
theorem runCut_eq {c : CommandName} {ps : List Byte} (h : c = .setThresholds → ¬(thresholdsIn ps).Rises) (p : Part) :
    runCut c ps p = runCommand c ps p := by
  cases c
  case setThresholds =>
    have refused : ¬(healthTaken ps).rising = true := fun hr => h rfl ((rising_iff _).mp hr)
    show cutSetThresholds ps p = doSetThresholds ps p
    unfold cutSetThresholds doSetThresholds doSetThresholdsBy
    rw [if_neg refused, if_neg refused]
  all_goals rfl

/-- A cut header write acts as a whole one, unless it carries a SET_THRESHOLDS that is taken (R8). -/
theorem cutHeader_eq {ls : List Lane} {p : Part}
    (h : ∀ tag, p.command.running = none → headerCommand ls = some (0x0A, tag) →
      ¬(thresholdsIn (parameterBlock (mergeLanes p.command.header ls) p.command.params)).Rises) :
    cutHeader ls p = writeHeader ls p := by
  unfold cutHeader writeHeader writeHeaderBy
  dsimp only
  cases hc : headerCommand ls with
  | none => rfl
  | some c =>
    dsimp only
    unfold commandArrivesBy
    by_cases idle : p.command.running = none
    · simp only [idle, Option.isSome_none, Bool.false_eq_true, if_false]
      cases hn : commandOf c.1 with
      | none => rfl
      | some name =>
        refine runCut_eq (fun hname => h c.2 idle ?_) _
        subst hname
        rw [hc, ← commandOf_thresholds hn]
    · rw [if_pos (Option.isSome_iff_ne_none.mpr idle), if_pos (Option.isSome_iff_ne_none.mpr idle)]

/-- A write cut short, where its line is captured by a block that evaluates no verdict for it, is the whole write of
the bytes that came (R8). -/
theorem cutWrite_whole {p : Part} (ha : p.channel.state = .active) (w : WriteBurst) (beats : Nat)
    (h : ∀ row, p.channel.row w.place.bank = some row → p.channel.learned = true →
      handCut (p.windows.classify (lineAddress row w.place)) (lineAddress row w.place) (p.channel.writeCut w beats).lanes
          (forward (.write (p.channel.writeCut w beats)) p) =
        handWrite (p.windows.classify (lineAddress row w.place)) (lineAddress row w.place)
          (p.channel.writeCut w beats).lanes (forward (.write (p.channel.writeCut w beats)) p)) :
    cutWrite w beats p = channelWrite (p.channel.writeCut w beats) p := by
  have whole : carried (p.channel.chopped w.place) (startPosition w.place) 8 (p.channel.writeCut w beats).lanes =
      (p.channel.writeCut w beats).lanes := carried_came _ _ _ _
  generalize hcame : p.channel.writeCut w beats = came at whole h
  have place : came.place = w.place := by rw [← hcame]; rfl
  unfold cutWrite channelWrite
  rw [hcame, channelCommand_active ha]
  show access w.place _ _ = access came.place (fun a chopped start => writeAccess a (carried chopped start 8 came.lanes)) _
  rw [place]
  unfold access
  cases hr : p.channel.row w.place.bank with
  | none =>
    rw [show (forward (.write came) p).channel.row w.place.bank = none from hr]
  | some row =>
    rw [show (forward (.write came) p).channel.row w.place.bank = some row from hr]
    dsimp only
    rw [show (forward (.write came) p).channel.chopped w.place = p.channel.chopped w.place from rfl, whole]
    have hand : writeAccessBy handCut (lineAddress row w.place) came.lanes (forward (.write came) p) =
        writeAccess (lineAddress row w.place) came.lanes (forward (.write came) p) := by
      unfold writeAccess writeAccessBy
      dsimp only
      split
      · rfl
      · split
        · next hl => exact h row hr hl
        · rfl
    rw [hand]

/-! ### Writes cut short that an evaluation waits for -/

/-- What the assertion clears of a write cut short is what it clears of what the owner of its line did (R8). -/
theorem cutWrite_cleared {p : Part} {w : WriteBurst} {beats : Nat} {row : BitVec 15} {r : Region}
    (hr : p.channel.row w.place.bank = some row) (hl : p.channel.learned = true)
    (hc : p.windows.classify (lineAddress row w.place) = r) (hcap : r.capturing = true) :
    let came := p.channel.writeCut w beats
    let z := handCut r (lineAddress row w.place) came.lanes (forward (.write came) p)
    (cutWrite w beats p).cleared = z.cleared ∧ (cutWrite w beats p).health = z.health := by
  intro came z
  have hand : writeAccessBy handCut (lineAddress row w.place) came.lanes (forward (.write came) p) = z := by
    unfold writeAccessBy
    rw [show (forward (.write came) p).windows.classify (lineAddress row w.place) = r from hc,
      show (forward (.write came) p).channel.learned = true from hl]
    dsimp only
    rw [hcap]
    rfl
  have whole : cutWrite w beats p = if w.place.autoClose then setBank w.place.bank none z else z := by
    unfold cutWrite access
    dsimp only
    rw [show (forward (.write (p.channel.writeCut w beats)) p).channel.row w.place.bank = some row from hr]
    dsimp only
    rw [hand]
  rw [whole]
  split <;> exact ⟨rfl, rfl⟩

/-- A flag raised before the verdict is evaluated stands beside what the evaluation does. -/
theorem Judged.unraised {live : Conditions} {b : Bool} {f : Flag} {x q : Part} (h : Judged live (raiseIf b f x) q) :
    Judged live x q ∧ (b = true → q.flag f = true) := by
  cases b
  · exact ⟨h, nofun⟩
  · have raised : EventEnds
        { x with health := x.health.after live, path := { x.path with verdict := q.path.verdict, causes := q.path.causes } }
        (Machine.raise f { x with
          health := x.health.after live, path := { x.path with verdict := q.path.verdict, causes := q.path.causes } }) :=
      ⟨raise_frame _ _, raise_mild _ _⟩
    exact ⟨⟨raised.trans h.ends, h.latched, h.changed, h.path⟩, fun _ => h.ends.mild.flags _ (raise_flag ..)⟩

/-- The one evaluation of an assertion that cuts short a write which set conditions: over those that it leaves (R60, R68,
R72). -/
theorem cut_judged (b : Bool) (p : Part) {y z : Part} {live : Conditions}
    (hz : z = conditionsTo (clearReports live) (raiseIf b .latched y)) :
    Judged (clearReports live) y.cleared (closeEvent p (conditionsChange (clearReports z.health.live) z.cleared)) ∧
      (b = true → (closeEvent p (conditionsChange (clearReports z.health.live) z.cleared)).flag .latched = true) := by
  have live_eq : z.health.live = clearReports live := by
    rw [hz, conditionsTo_health]
    rfl
  have still : conditionsChange (clearReports z.health.live) z.cleared = z.cleared := by
    refine if_pos ?_
    show clearReports z.health.live = z.health.live
    rw [live_eq, clearReports_idem]
  have turns := conditionsTo_turns (clearReports live) (raiseIf b .latched y)
  rw [← hz] at turns
  have command : z.command = y.command := by rw [hz, conditionsTo_command, raiseIf_command]
  have channel : z.channel = y.channel := by rw [hz, (conditionsTo_frame _ _).channel, raiseIf_channel]
  have beside := turns.beside y.cleared.channel y.cleared.command y.cleared.command rfl [] .disarmed
  have cleared_z : z.cleared = { z with
      channel := y.cleared.channel, command := y.cleared.command, uplink := { z.uplink with staging := [] }
      health := { z.health with stale := .disarmed } } := by
    unfold Part.cleared
    rw [command, channel]
  rw [still, cleared_z]
  refine Judged.unraised (b := b) (f := .latched) (x := y.cleared) ?_
  have raised : raiseIf b .latched y.cleared = { raiseIf b .latched y with
      channel := y.cleared.channel, command := y.cleared.command
      uplink := { (raiseIf b .latched y).uplink with staging := [] }
      health := { (raiseIf b .latched y).health with stale := .disarmed } } := by
    cases b <;> rfl
  rw [raised]
  exact beside.close p

/-- Conditions set and latched, and the evaluation left to the assertion (R8, R64, R68). -/
theorem judgeReset_setLive (live : Conditions) (x : Part) : judgeReset (setLive live x) =
    conditionsTo (clearReports live)
      (raiseIf ((x.health.setting live).latched != x.health.latched) .latched
        { x with health := x.health.setting live }) := by
  unfold judgeReset
  rw [setLive_eq, raiseIf_health]
  rfl

/-- The command that a write cut short in ACTIVE carries, where the row it addresses is open (R8, R23, R24). -/
theorem cutCommand_open {p : Part} {w : WriteBurst} {row : BitVec 15} (beats : Nat) (ha : p.channel.state = .active)
    (hr : p.channel.row w.place.bank = some row) : cutCommand (.write w beats) p =
      if p.channel.learned ∧ p.windows.classify (lineAddress row w.place) = .header ∧ p.command.running = none then
        (headerCommand (p.channel.writeCut w beats).lanes).bind fun c => commandOf c.1
      else none := by
  unfold cutCommand
  simp only [ha, hr]

/-- The assertion that cuts short a write which set conditions, its one evaluation included (R8, R68). -/
theorem assertReset_judged {p : Part} {w : WriteBurst} {beats : Nat} {row : BitVec 15} {r : Region} {b : Bool} {y : Part}
    {live : Conditions} (ha : p.channel.state = .active) (hr : p.channel.row w.place.bank = some row)
    (hl : p.channel.learned = true) (hc : p.windows.classify (lineAddress row w.place) = r) (hcap : r.capturing = true)
    (hpost : ∀ q, postAtEnd (cutCommand (.write w beats) p) q = q)
    (hz : handCut r (lineAddress row w.place) (p.channel.writeCut w beats).lanes
        (forward (.write (p.channel.writeCut w beats)) p) = conditionsTo (clearReports live) (raiseIf b .latched y)) :
    Judged (clearReports live) y.cleared (assertReset (.write w beats) p) ∧
      (b = true → (assertReset (.write w beats) p).flag .latched = true) := by
  obtain ⟨cleared, health⟩ := cutWrite_cleared (beats := beats) hr hl hc hcap
  rw [assertReset_acts _ (by rw [ha]; decide), hpost, cutAccess_write ha, cleared, health]
  exact cut_judged b p hz

/-- A SET_THRESHOLDS that a cut header write carries and that is taken: its settings, its conditions set and latched,
its result posted, and the evaluation left to the assertion (R8, R68, R72). -/
theorem cutHeader_thresholds {ls : List Lane} {tag : BitVec 16} {p : Part} (idle : p.command.running = none)
    (hc : headerCommand ls = some (0x0A, tag)) :
    let ps := parameterBlock (mergeLanes p.command.header ls) p.command.params
    let st := thresholdsIn ps
    let h : Health := { p.health with settings := st, stale := p.health.staleUnder st p.clock.now }
    let live := p.health.liveUnder st p.clock.now
    st.Rises → cutHeader ls p = conditionsTo (clearReports live)
      (raiseIf ((h.setting live).latched != p.health.latched) .latched
        (raise .commandDone { p with
          health := h.setting live
          command := { p.command with
            header := mergeLanes p.command.header ls, tag := tag, code := 0x0A, running := none
            result := doneCode (thresholdsClamp ps), clamp := thresholdsClamp ps, data := padTo 16 [] } })) := by
  intro ps st h live rises
  let g : Part := postClamp (thresholdsClamp ps) (takeResult 0x0A tag
    { p with command := { p.command with header := mergeLanes p.command.header ls } })
  have ran : cutHeader ls p = finish (doneCode (thresholdsClamp ps)) [] (judgeReset (thresholdsSet st g)) := by
    unfold cutHeader writeHeaderBy
    dsimp only
    rw [hc]
    dsimp only
    unfold commandArrivesBy
    refine (if_neg (by simp [idle])).trans ?_
    exact if_pos ((rising_iff st).mpr rises)
  rw [ran, thresholdsSet_eq, judgeReset_setLive, finish_conditionsTo, finish_raiseIf]
  rfl

/-- Settles O8. -/
theorem channelReset_holds : Obligations.ChannelReset := by
  refine ⟨fun cut s => ⟨fun h => ?_, fun h => ⟨_, rfl, assertReset_clears cut h⟩⟩, fun code h beats s ht hb =>
    ⟨_, rfl, ?_⟩, fun w beats s ha => ?_, fun s => ?_⟩
  · show Host.Outcome.next (s.having (assertReset cut s.part)) = _
    unfold assertReset
    rw [h]
    rfl
  · refine ⟨fun hcode => ?_, fun hcode hr => ?_, fun hcode hr => ?_⟩ <;> subst hcode
    · exact assertReset_shows ht hb (c := .setEvents) rfl rfl (assertReset_setEvents ht hb)
    · exact assertReset_shows ht hb (c := .force) rfl rfl hr
    · exact assertReset_shows ht hb (c := .radioDetach) rfl rfl hr
  · intro p ls came reaches errored reports ps st sets
    refine ⟨fun hreports hsets => ?_, fun ⟨⟨hl, row, hr, hc⟩, ht0, hb0⟩ => ?_, fun tag ⟨⟨hl, row, hr, hc⟩, idle, hcmd, rises⟩ => ?_⟩
    · have cut_eq : cutAccess (.write w beats) p = channelWrite came p := by
        rw [cutAccess_write ha]
        refine cutWrite_whole ha w beats fun row hr hl => ?_
        generalize hc : p.windows.classify (lineAddress row w.place) = r
        cases r with
        | header =>
          exact cutHeader_eq fun tag idle hcmd rises => hsets tag ⟨⟨hl, row, hr, hc⟩, idle, hcmd, rises⟩
        | report =>
          have not_taken := fun take =>
            (writeReportBy_eq take ls (forward (.write came) p)).1 fun taken => hreports ⟨⟨hl, row, hr, hc⟩, taken⟩
          exact (not_taken fun lost errored q => judgeReset (reported lost errored q)).trans
            (not_taken fun lost errored => event (takeReport lost errored)).symm
        | _ => rfl
      rw [cut_eq]
      rfl
    · refine ⟨_, rfl, ?_⟩
      have carries : cutCommand (.write w beats) p = none := by
        rw [cutCommand_open beats ha hr, hc]
        exact if_neg fun k => Region.noConfusion k.2.1
      have taken := (writeReportBy_eq (fun lost errored q => judgeReset (reported lost errored q)) ls
        (forward (.write came) p)).2 ⟨ht0, hb0⟩
      have judged := assertReset_judged (beats := beats) ha hr hl hc rfl (fun q => by rw [carries]; rfl)
        (taken.trans (judgeReset_setLive _ _))
      exact ⟨judged.1, fun k => judged.2 (bne_iff_ne.mpr k)⟩
    · refine ⟨_, rfl, ?_⟩
      have carries : cutCommand (.write w beats) p = some .setThresholds := by
        rw [cutCommand_open beats ha hr, hc, if_pos ⟨hl, rfl, idle⟩, show headerCommand (p.channel.writeCut w beats).lanes = _ from hcmd]
        rfl
      have ran := cutHeader_thresholds (p := forward (.write came) p) idle hcmd rises
      have judged := assertReset_judged (beats := beats) ha hr hl hc rfl (fun q => by rw [carries]; rfl) ran
      refine ⟨?_, fun k => judged.2 (bne_iff_ne.mpr k)⟩
      have k_idle : p.command.running = none := idle
      unfold cutDown
      rw [k_idle]
      exact judged.1
  · refine ⟨fun h => ?_, fun h => ?_⟩
    · show Host.Outcome.next (s.having (releaseReset s.part)) = _
      unfold releaseReset
      rw [h]
      rfl
    · show Host.Outcome.next (s.having (releaseReset s.part)) = _
      unfold releaseReset
      split
      · exact absurd ‹_› h
      · rfl

end Sys2Proof.Machine
end

section
/-! # Settling the force, the radio test, SET_RADIO and the discarded frames (O31, O32, O35) -/

namespace Sys2Proof.Machine

/-! ### The force (R76, R77, R97 to R101) -/

/-- What a change of the force does leaves the command slot alone. -/
theorem takeForce_command (was : Force) (p : Part) : (takeForce was p).command = p.command := by
  have leave : (leaveForced was p).command = p.command := by
    unfold leaveForced
    cases was
    case radio =>
      have back : (enterReturning p).command = p.command := discardQueues_command ..
      dsimp only
      split <;> split
      · rfl
      · rfl
      · exact back
      · exact enterFibre_command ..
    all_goals exact enterFibre_command ..
  unfold takeForce
  split
  · rfl
  · split
    · rfl
    · exact discardQueues_command ..
    · exact leave

theorem takeForce_ends (was : Force) (p : Part) : EventEnds p (takeForce was p) :=
  ⟨takeForce_frame was p, takeForce_mild was p⟩

theorem forceOf_iff (n : Nat) (f : Force) : forceOf n = some f ↔
    n = 0 ∧ f = .auto ∨ n = 1 ∧ f = .fibre ∨ n = 2 ∧ f = .radio := by
  rcases n with _ | _ | _ | n <;> cases f <;> simp [forceOf]

theorem forceOf_none {n : Nat} (h : 2 < n) : forceOf n = none := by
  rcases n with _ | _ | _ | n
  case succ.succ.succ => rfl
  all_goals omega

/-- Settles O31: the command and the switch each end in one event that hands the change of the force over. -/
theorem forceAndRadioTest : Obligations.ForceAndRadioTest := by
  constructor
  · intro h s ht p n
    have run (q : Part) : runCommand .force (slotParams 0x0D h p) q = match forceOf n with
        | none => finish Result.paramError [] q
        | some f => finish Result.done (forceData (event (takeSoftware f) q).path) (event (takeSoftware f) q) := rfl
    refine ⟨fun hn => ?_, ?_⟩
    · refine slot_answered (code := 0x0D) (h := h) (c := .force) (x := p) rfl ht rfl ?_ rfl rfl
      rw [run, forceOf_none hn]
      rfl
    · intro f hf x
      refine slot_leads (code := 0x0D) (h := h) (c := .force) rfl ht rfl
        ((run _).trans (by rw [(forceOf_iff n f).mpr hf])) ?_
      obtain ⟨ends, command⟩ := slot_event (code := 0x0D) (h := h) (r := 0x01) (clamp := 0) (p := p) (x := x)
        (d := forceData (event (takeSoftware f) (takenPart 0x0D h p)).path) (b := takenPart 0x0D h p) ht.idle
        (takeForce_ends (takenPart 0x0D h p).path.effective ((takenPart 0x0D h p).withPath
          { (takenPart 0x0D h p).path with software := f })) (takeForce_command _ _) rfl rfl
      have path : (autoClosed (headerWrite 0x0D h).place
          (finish Result.done (forceData (event (takeSoftware f) (takenPart 0x0D h p)).path)
            (event (takeSoftware f) (takenPart 0x0D h p)))).path =
          (event (takeSoftware f) (takenPart 0x0D h p)).path := by
        rw [autoClosed_eq]
        rfl
      refine ⟨?_, ?_, fun hs hn => path.trans (takeForce_closed (p := (takenPart 0x0D h p).withPath
        { (takenPart 0x0D h p).path with software := f }) hs hn)⟩
      · rw [path]
        exact command
      · rw [path]
        exact ends
  · intro active s p x
    refine ⟨exec_unless (i := .radioTestChange active) rfl, fun h => leads_unless rfl h ?_⟩
    refine ⟨(takeForce_ends _ x).trans (closeEvent_ends _ _), fun hs hn => takeForce_closed (p := x) hs hn⟩

/-! ### SET_RADIO (R112, R130) -/

theorem wants_of_hot {p : Part} (h : p.radio.settings.hot = true) : p.wants = true := by
  unfold Part.wants
  simp only [h, Bool.true_or]

theorem wants_of_manualHold {p : Part} (h : p.radio.manualHold = true) : p.wants = true := by
  unfold Part.wants
  simp only [h, Bool.true_or, Bool.or_true]

/-- Settles O32: the settings are taken in one event, which ends with demand following the wants. -/
theorem setRadio : Obligations.SetRadio := by
  intro h s ht p ps st clamp result
  have run (q : Part) : runCommand .setRadio ps q =
      if 1 < param8 ps 0 then finish Result.paramError [] (postClamp clamp q)
      else finish result [] (event (fun q => q.withRadio { q.radio with settings := st }) (postClamp clamp q)) := rfl
  refine ⟨fun hn => ?_, fun hn => ?_⟩
  · refine slot_answered (code := 0x0E) (h := h) (c := .setRadio) (x := p) rfl ht rfl ?_ rfl rfl
    exact (run _).trans (if_pos hn)
  · refine slot_leads (code := 0x0E) (h := h) (c := .setRadio) rfl ht rfl
      ((run _).trans (if_neg (by omega))) ?_
    let y : Part := (postClamp clamp (takenPart 0x0E h p)).withRadio { p.radio with settings := st }
    obtain ⟨ends, command⟩ := slot_event (code := 0x0E) (h := h) (r := result) (clamp := clamp) (p := p) (d := [])
      (x := { p with radio := { p.radio with settings := st } }) (y := y)
      (b := postClamp clamp (takenPart 0x0E h p)) ht.idle (EventEnds.refl _) rfl rfl rfl
    refine ⟨command, ends, fun hot => ?_⟩
    rw [autoClosed_eq]
    have closed := closeEvent_ends (postClamp clamp (takenPart 0x0E h p)) y
    have settings := (congrArg Radio.settings closed.frame.radio :)
    have wants := wants_of_hot ((congrArg RadioSettings.hot settings).trans hot)
    exact (closeEvent_follows (postClamp clamp (takenPart 0x0E h p)) y).1.1 wants

/-! ### Discarded frames (R139, R155, R160) -/

theorem discardParts_flag (r : Discard) (is : List Nat) (p : Part) (f : Flag) :
    (discardParts r is p).flag f = true ↔
      p.flag f = true ∨ f = .uplinkDone ∨ f = .dataLoss ∧ r.isLoss = true := by
  have marked : (count .framesDiscarded 1 (mark is (Entry.discard r) p)).flag f = p.flag f := rfl
  unfold discardParts raiseIf
  split <;> simp [raise_flag_iff, or_assoc, *]

theorem discardFrames_cons (r : Discard) (f : Frame) (fs : List Frame) (p : Part) :
    discardFrames r (f :: fs) p = discardFrames r fs (discardParts r f.parts p) := rfl

/-- Settles O35, by induction on the list of frames. -/
theorem discardedFrames : Obligations.DiscardedFrames := by
  intro r fs
  induction fs with
  | nil =>
    intro p q loss
    exact ⟨rfl, fun i => by simp [q, discardFrames], fun c => by simp [q, discardFrames, satAdd_zero],
      fun f => by simp [q, discardFrames]⟩
  | cons f fs ih =>
    intro p q loss
    have only := discardParts_only r f.parts p
    have flags := discardParts_flag r f.parts p
    rw [isLoss_iff] at flags
    have hq : q = discardFrames r fs (discardParts r f.parts p) := rfl
    obtain ⟨rest, entries, counters, raised⟩ := ih (discardParts r f.parts p)
    rw [← hq] at rest entries counters raised
    clear_value q
    refine ⟨rest.trans ?_, fun i => ?_, fun c => ?_, fun g => ?_⟩
    · rw [only]
    · rw [entries, only]
      dsimp only
      rw [markEntries_get, Option.map_map]
      congr 1
      funext e
      by_cases h : i ∈ f.parts <;> simp [h, Entry.discard]
    · rw [counters, only]
      dsimp only
      rw [counters_get_put]
      by_cases h : c = .framesDiscarded
      · simp [h, satAdd_add, Nat.add_comm]
      · simp [h]
    · rw [raised, flags]
      rw [or_assoc, and_iff_right (List.cons_ne_nil f fs)]
      exact or_congr_right (or_iff_left_of_imp And.right)

end Sys2Proof.Machine
end

section
/-! # Settling RADIO_ATTACH and RADIO_DETACH (O33, O34) -/

namespace Sys2Proof.Machine

/-! ### An event that ends with manual hold on (R112, R113) -/

theorem returnDrained_radio (p : Part) : (returnDrained p).radio = p.radio := (returnDrained_command p).2

theorem settle_clock (p : Part) : (settle p).clock = p.clock := (settle_settle p).frame.clock

theorem returnDrained_clock (p : Part) : (returnDrained p).clock = p.clock := by
  obtain ⟨n, h⟩ := returnDrained_eq p
  rw [h]
  rfl

/-- Manual hold keeps an ATTACHED module from being asked to detach, and an event leaves its attempts. -/
theorem closeEvent_held {b y : Part} (hs : y.radio.state = .attached) (hm : y.radio.manualHold = true) :
    (closeEvent b y).radio.attempts = y.radio.attempts ∧
      (closeEvent b y).radio.control ≠ some (.detachReq false) := by
  rw [closeEvent_radio]
  have start : (returnDrained y).radio = y.radio := returnDrained_radio y
  generalize returnDrained y = z at start
  obtain ⟨settled, control⟩ := settle_attached (p := z) (by rw [start]; exact hs)
    (wants_of_manualHold (by rw [start]; exact hm))
  have attempts : (settle z).radio.attempts = y.radio.attempts := by rw [settled, start]
  have attached : (settle z).radio.state = .attached := by rw [settled, start]; exact hs
  have hold : (settle z).radio.manualHold = true := by rw [settled, start]; exact hm
  generalize settle z = w at *
  unfold takeLane
  split
  · exact ⟨attempts, control⟩
  · split
    · rw [if_neg (by rw [attached]; decide)]
      exact ⟨attempts, control⟩
    · rw [if_pos (by exact decide_eq_true attached)]
      have departed := startDetachReq_radio w
      generalize startDetachReq w = v at departed
      rw [settle_waits (p := v) (by rw [departed]; nofun) (by rw [departed]; nofun)
        (wants_of_manualHold (by rw [departed]; exact hold))]
      refine ⟨by rw [departed]; exact attempts, ?_⟩
      have none : (reviewForced v).radio.control = none := by
        rw [show reviewForced v = v from if_neg fun h => by simp [departed] at h]
        rw [departed]
      rw [none]
      decide
    · unfold trySend
      split
      · split <;> exact ⟨attempts, control⟩
      · exact ⟨attempts, control⟩

/-- A module that is neither IDLE nor ATTACHED keeps its state to the end of an event with manual hold on. -/
theorem closeEvent_held_state {b y : Part} (h1 : y.radio.state ≠ .idle) (h2 : y.radio.state ≠ .attached)
    (hm : y.radio.manualHold = true) : (closeEvent b y).radio.state = y.radio.state := by
  rw [closeEvent_radio]
  have start : (returnDrained y).radio = y.radio := returnDrained_radio y
  generalize returnDrained y = z at start
  rw [← start] at h1 h2 hm ⊢
  have settled : (settle z).radio.state = z.radio.state := by
    rw [settle_waits h1 h2 (wants_of_manualHold hm)]
  rw [← settled] at h2 ⊢
  have off : (settle z).attached = false := decide_eq_false h2
  unfold takeLane
  split
  · rfl
  · split
    · split <;> rfl
    · rw [if_neg (by simp [off])]
    · unfold trySend Part.maySend
      simp only [off, Bool.false_and, Bool.false_eq_true, if_false]
      split <;> rfl

/-- In IDLE manual hold starts a series, whose first request takes the lane where it is free (R113, R114). -/
theorem closeEvent_held_idle {b y : Part} (hs : y.radio.state = .idle) (hm : y.radio.manualHold = true)
    (hr : y.radio.reattempt = none) :
    let series : Radio := { y.radio with
      demand := true, linger := none, attempts := 1, phase := .pending, retry := none
      control := some (.attachReq y.radio.settings.profile), state := .attaching, reattempt := none }
    (closeEvent b y).radio =
      if y.radio.lane.isSome then series else series.requests y.radio.settings.profile y.clock.now := by
  intro series
  rw [closeEvent_radio]
  have start : (returnDrained y).radio = y.radio := returnDrained_radio y
  have time : (returnDrained y).clock = y.clock := returnDrained_clock y
  generalize returnDrained y = z at start time
  have settled : (settle z).radio = series := by
    rw [settle_idle (by rw [start]; exact hs) (wants_of_manualHold (by rw [start]; exact hm)) (by rw [start]; exact hr),
      start]
  have clock : (settle z).clock = y.clock := (settle_clock z).trans time
  generalize settle z = w at settled clock
  unfold takeLane
  rw [settled]
  by_cases h : y.radio.lane.isSome
  · rw [if_pos (show series.lane.isSome = true from h), if_pos h]
    exact settled
  · rw [if_neg (show ¬series.lane.isSome = true from h), if_neg h]
    rw [show series.control = some (.attachReq y.radio.settings.profile) from rfl]
    dsimp only
    rw [if_pos rfl, startAttachReq_requests, settled, clock]

/-! ### RADIO_ATTACH (R131) -/

/-- Settles O33: refused, ended at once, or under way. -/
theorem radioAttach : Obligations.RadioAttach := by
  intro h s ht p r x bytes
  have run (q : Part) : runCommand .radioAttach (slotParams 0x0F h p) q = doRadioAttach q := rfl
  refine ⟨fun hs => ?_, fun hs => ?_, fun hna hnt => ?_⟩
  · refine slot_answered (code := 0x0F) (h := h) (c := .radioAttach) (x := p) rfl ht rfl ?_ rfl rfl
    rw [run]
    unfold doRadioAttach
    rw [show (takenPart 0x0F h p).radio.state = .absent from hs]
    rfl
  · let y := holdRadio (takenPart 0x0F h p)
    let q := closeEvent (takenPart 0x0F h p) y
    refine slot_leads (code := 0x0F) (h := h) (c := .radioAttach) (q := finish Result.done (attachData 0 true q.radio) q)
      rfl ht rfl ?_ ?_
    · rw [run]
      unfold doRadioAttach
      rw [show (takenPart 0x0F h p).radio.state = .attached from hs]
      rfl
    · intro data
      obtain ⟨attempts, control⟩ := closeEvent_held (b := takenPart 0x0F h p) (y := y) hs rfl
      have closed := closeEvent_ends (takenPart 0x0F h p) y
      have hdata : attachData 0 true q.radio = data := by
        unfold attachData
        rw [show q.radio.attempts = r.attempts from attempts,
          show q.radio.serviceId = r.serviceId from (congrArg Radio.serviceId closed.frame.radio :),
          show q.radio.grant = r.grant from (congrArg Radio.grant closed.frame.radio :),
          show q.radio.buffers = r.buffers from (congrArg Radio.buffers closed.frame.radio :),
          show q.radio.firmware = r.firmware from (congrArg Radio.firmware closed.frame.radio :)]
        simp [data]
      have hold : q.radio.manualHold = true := (congrArg Radio.manualHold closed.frame.radio :)
      rw [hdata]
      obtain ⟨ends, command⟩ := slot_event (code := 0x0F) (h := h) (r := 0x01) (clamp := 0) (p := p) (x := x)
        (d := data) (y := y) (b := takenPart 0x0F h p) ht.idle (EventEnds.refl _) rfl rfl rfl
      refine ⟨command, ends, ?_⟩
      rw [autoClosed_eq]
      exact ⟨((closeEvent_follows _ y).1.1 (wants_of_manualHold hold)).1, control⟩
  · let y := holdRadio (startTimed .radioAttach (takenPart 0x0F h p))
    let q := closeEvent (takenPart 0x0F h p) y
    refine slot_leads (code := 0x0F) (h := h) (c := .radioAttach) (q := q) rfl ht rfl ?_ ?_
    · rw [run]
      unfold doRadioAttach
      split
      · rename_i hs; exact absurd hs hna
      · rename_i hs; exact absurd hs hnt
      · rfl
    · have closed := closeEvent_ends (takenPart 0x0F h p) y
      have hold : q.radio.manualHold = true := (congrArg Radio.manualHold closed.frame.radio :)
      obtain ⟨going, command⟩ := slot_runs (code := 0x0F) (h := h) (t := .radioAttach) (p := p) (x := x)
        closed rfl rfl
      refine ⟨going, command.trans ?_, ?_⟩
      · rw [closeEvent_command (by nofun)]
        rfl
      · rw [autoClosed_eq]
        refine ⟨((closeEvent_follows _ y).1.1 (wants_of_manualHold hold)).1,
          fun hs => closeEvent_held_state (y := y) hs hnt rfl, fun hs => ?_⟩
        have idle : q.radio = _ := closeEvent_held_idle (b := takenPart 0x0F h p) (y := y) hs rfl rfl
        show q.radio.state = _ ∧ q.radio.attempts = _ ∧ (_ → q.radio.phase = _ ∧ q.radio.control = _ ∧
          q.radio.linkSeq = _ ∧ q.radio.lane = _) ∧ (_ → q.radio.phase = _ ∧ q.radio.control = _ ∧ q.radio.lane = _)
        rw [idle]
        by_cases hl : y.radio.lane.isSome
        · rw [if_pos hl]
          exact ⟨rfl, rfl, fun h => (Option.isSome_iff_ne_none.mp hl h).elim, fun _ => ⟨rfl, rfl, rfl⟩⟩
        · rw [if_neg hl]
          exact ⟨rfl, rfl, fun _ => ⟨rfl, rfl, rfl, rfl⟩, fun h => absurd h hl⟩

/-! ### RADIO_DETACH (R132) -/

theorem needsRadio_iff (s : Service) : s.needsRadio = true ↔ s = .radio ∨ s = .proving ∨ s = .forcedRadio := by
  cases s <;> decide

/-- A flag that the end of an event has raised may be counted as raised before it. -/
theorem EventEnds.raised {p q : Part} (h : EventEnds p q) {f : Flag} (hf : q.flag f = true) :
    EventEnds (Machine.raise f p) q := by
  have events : q.events = { (Machine.raise f p).events with
      flags := q.events.flags, counters := q.events.counters } := h.frame.events
  refine ⟨⟨h.frame.clock, h.frame.channel, h.frame.windows, h.frame.health, h.frame.delivery,
    h.frame.command, h.frame.optical, h.frame.path, h.frame.radio, h.frame.relay, h.frame.uplink, events⟩,
    ⟨fun g hg => ?_, h.mild.counters, h.mild.hosts⟩⟩
  obtain hg | rfl := (raise_flag_iff f g p).mp hg
  · exact h.mild.flags g hg
  · exact hf

/-- The stages of an event with a forced request to detach pending in ATTACHED: settling leaves it pending. -/
theorem settle_forced {y : Part} (hs : y.radio.state = .attached) (hc : y.radio.control = some (.detachReq true))
    (hn : y.path.service.needsRadio = false) :
    (settle (returnDrained y)).command = y.command ∧ ∃ d l,
      (settle (returnDrained y)).radio = { y.radio with demand := d, linger := l } := by
  obtain ⟨command, radio⟩ := returnDrained_command y
  have service : (returnDrained y).path.service.needsRadio = false := by
    obtain h | h := returnDrained_service y <;> rw [h]
    · exact hn
    · rfl
  generalize returnDrained y = z at *
  obtain ⟨scommand, sradio⟩ := settle_steady (p := z)
    (fun h => by rw [(needsRadio_iff _).mpr h.2] at service; cases service)
    (.inl ⟨by rw [radio]; exact hs, by rw [radio]; exact hc⟩)
  exact ⟨scommand.trans command, _, _, by rw [sradio, radio]⟩

/-- A forced request to detach waits for the lane. -/
theorem closeEvent_forced_busy {b y : Part} (hs : y.radio.state = .attached)
    (hc : y.radio.control = some (.detachReq true)) (hn : y.path.service.needsRadio = false)
    (hl : y.radio.lane.isSome = true) :
    (closeEvent b y).command = y.command ∧ (closeEvent b y).radio.control = some (.detachReq true) ∧
      (closeEvent b y).radio.state = .attached := by
  obtain ⟨command, d, l, radio⟩ := settle_forced hs hc hn
  have lane : takeLane (settle (returnDrained y)) = settle (returnDrained y) := if_pos (by rw [radio]; exact hl)
  have stays : reviewDetach (takeLane (settle (returnDrained y))) = settle (returnDrained y) := by
    rw [lane]
    exact if_pos (decide_eq_true (by rw [radio]; exact hs))
  have closed : closeEvent b y = noteChanges b (settle (returnDrained y)) := congrArg (noteChanges b) stays
  rw [closed, noteChanges_command, (noteChanges_data _ _).2.2.1, radio]
  exact ⟨command, hc, hs⟩

/-- On a free lane a forced request to detach starts, and the module is DETACHING (R117). -/
theorem closeEvent_forced_free {b y : Part} (hs : y.radio.state = .attached)
    (hc : y.radio.control = some (.detachReq true)) (hn : y.path.service.needsRadio = false)
    (hl : y.radio.lane = none) (hr : y.command.running = some .radioDetach) :
    (closeEvent b y).command =
        { y.command with running := none, result := 0x01, data := padTo 16 [6, causeCode y.radio.lastDetach] } ∧
      (closeEvent b y).flag .commandDone = true ∧ ∃ d l,
      (closeEvent b y).radio = { y.radio.departs y.clock.now with demand := d, linger := l } := by
  obtain ⟨command, d, l, radio⟩ := settle_forced hs hc hn
  have clock : (settle (returnDrained y)).clock = y.clock := (settle_clock _).trans (returnDrained_clock y)
  obtain ⟨w, hw⟩ : ∃ w, w = settle (returnDrained y) := ⟨_, rfl⟩
  have begun := startDetachReq_radio w
  have command := (startDetachReq_command w).trans (hw ▸ command)
  rw [hw.trans rfl, clock, radio] at begun
  have lane : takeLane w = settle (startDetachReq w) := by
    unfold takeLane
    rw [if_neg (by rw [hw, radio, hl]; decide), show w.radio.control = some (.detachReq true) by rw [hw, radio]; exact hc]
    exact if_pos (decide_eq_true (by rw [hw, radio]; exact hs))
  rw [← hw] at begun
  generalize startDetachReq w = v at *
  have steady := settle_steady (p := v) (fun h => by rw [begun] at h; cases h.1)
    (.inr (by rw [begun]; exact ⟨nofun, nofun, nofun⟩))
  obtain ⟨scommand, sradio⟩ := steady
  rw [begun] at sradio
  have closed : closeEvent b y = noteChanges b (finish Result.done (detachData (settle v).radio) (settle v)) := by
    unfold closeEvent
    rw [← hw, lane]
    congr 1
    unfold reviewDetach endDetach
    rw [if_neg (by rw [Part.attached, sradio]; simp), if_pos (by rw [scommand, command]; exact hr)]
  have flag := (noteChanges_mild b (finish Result.done (detachData (settle v).radio) (settle v))).flags .commandDone
    ((raise_flag_iff _ _ _).mpr (.inr rfl))
  rw [closed, noteChanges_command, (noteChanges_data _ _).2.2.1]
  refine ⟨?_, flag, _, _, sradio⟩
  show ({ (settle v).command with running := _, result := _, data := _ } : Command) = _
  unfold detachData
  rw [scommand, command, sradio]
  rfl

/-- Settles O34: refused, ended at once, or the forced request placed and, on a free lane, begun. -/
theorem radioDetach : Obligations.RadioDetach := by
  intro h s ht p refused x bytes
  have isRefused : p.path.service.needsRadio = true ↔ refused := needsRadio_iff _
  have run (q : Part) : runCommand .radioDetach (slotParams 0x10 h p) q = doRadioDetach q := rfl
  have hi : headerRow (.radioDetach h) = some (0x10, h) := rfl
  let t := takenPart 0x10 h p
  let y : Part := (startTimed .radioDetach t).withRadio
    { t.radio with manualHold := false, control := some (.detachReq true) }
  let x' : Part := { x with
    channel := (passed (.write (headerWrite 0x10 h)) p).channel
    command := { t.command with running := some .radioDetach } }
  have placed : EventEnds x' y :=
    ⟨⟨rfl, rfl, rfl, rfl, rfl, rfl, rfl, rfl, rfl, rfl, rfl, rfl⟩, fun _ => id, fun _ _ _ _ => rfl, rfl⟩
  have ends : EventEnds x' (closeEvent t y) := placed.trans (closeEvent_ends t y)
  obtain ⟨going, command⟩ := slot_runs (code := 0x10) (h := h) (t := .radioDetach) (p := p) (x := x) ends rfl rfl
  have forced (hr : ¬refused) (hs : p.radio.state = .attached) : doRadioDetach t = closeEvent t y := by
    unfold doRadioDetach
    exact (if_neg (mt isRefused.mp hr)).trans (if_pos (decide_eq_true hs))
  have free (hr : ¬refused) : y.path.service.needsRadio = false := Bool.eq_false_iff.mpr (mt isRefused.mp hr)
  refine ⟨fun hr => ?_, fun hr hs => ?_, fun hr hs hl => ?_, fun hr hs hl => ?_⟩
  · refine slot_answered (h := h) (x := p) (clamp := 0) hi ht rfl ?_ rfl rfl
    exact (run _).trans (if_pos (isRefused.mpr hr))
  · let y : Part := t.withRadio { t.radio with manualHold := false }
    refine slot_leads (h := h) (q := finish Result.done (detachData (closeEvent t y).radio) (closeEvent t y)) hi ht rfl ?_ ?_
    · rw [run]
      unfold doRadioDetach
      exact (if_neg (mt isRefused.mp hr)).trans (if_neg fun k => hs (of_decide_eq_true k))
    · intro data
      have closed := closeEvent_ends t y
      have hdata : detachData (closeEvent t y).radio = data := by
        unfold detachData
        rw [show (closeEvent t y).radio.lastDetach = p.radio.lastDetach from (congrArg Radio.lastDetach closed.frame.radio :)]
        simp only [data]
        rw [autoClosed_eq]
        rfl
      rw [hdata]
      obtain ⟨ends, command⟩ := slot_event (code := 0x10) (h := h) (r := 0x01) (clamp := 0) (p := p) (x := x)
        (d := data) (y := y) (b := t) ht.idle (EventEnds.refl _) rfl rfl rfl
      exact ⟨command, ends⟩
  · refine slot_leads (h := h) hi ht rfl ((run _).trans (forced hr hs)) ?_
    obtain ⟨ccommand, control, state⟩ := closeEvent_forced_busy (b := t) (y := y) hs rfl (free hr) hl
    refine ⟨going, command.trans ccommand, ?_⟩
    rw [autoClosed_eq]
    exact ⟨control, state⟩
  · refine slot_leads (h := h) hi ht rfl ((run _).trans (forced hr hs)) ?_
    intro data
    obtain ⟨ccommand, flag, d, l, radio⟩ := closeEvent_forced_free (b := t) (y := y) hs rfl (free hr) hl rfl
    have done : (closeEvent t y).command = completed 0x10 h 0x01 0 data p := ccommand
    have kept : autoClosed (headerWrite 0x10 h).place (closeEvent t y) = { closeEvent t y with channel := slotChannel 0x10 h p } :=
      autoClosed_passed (op := .write (headerWrite 0x10 h)) (p := p) ends.frame.channel
    rw [kept]
    refine ⟨done, ?_, ?_⟩
    · have swapped := ends.swap (slotChannel 0x10 h p) (completed 0x10 h 0x01 0 data p) (closeEvent t y).command
        (by rw [done])
      rw [answered_closed (p := p) (x := x) rfl rfl]
      exact swapped.raised flag
    · show (closeEvent t y).radio.state = _ ∧ (closeEvent t y).radio.control = _ ∧ (closeEvent t y).radio.detach = _ ∧
        (closeEvent t y).radio.lane = _
      rw [radio]
      exact ⟨rfl, rfl, rfl, rfl⟩

end Sys2Proof.Machine
end

section
/-! # Settling the path controller's timers (O47) -/

namespace Sys2Proof.Machine

/-! ### Classes that run out as an event ends (R91, R93) -/

/-- The path controller with every class that has run out RETURNED (R91). -/
def Part.emptiedPath (p : Part) : Path :=
  { p.path with classes := PerClass.ofFn fun c => if p.ranOut c then onFibre else p.path.classes.get c }

theorem ranOut_iff (p : Part) (c : ServiceClass) : p.ranOut c = true ↔
    (p.path.classes.get c).sub = .draining ∧ p.relay.queues.get c = [] ∧ p.sentOf c = [] := by
  unfold Part.ranOut
  simp [and_assoc]

theorem drainedClasses_contains (p : Part) (c : ServiceClass) : p.drainedClasses.contains c = p.ranOut c := by
  rw [Bool.eq_iff_iff, ranOut_iff, List.contains_iff_mem, mem_drainedClasses]

/-- Where nothing has run out, no path record changes. -/
theorem emptiedPath_none {p : Part} (h : ∀ c, p.ranOut c = false) : p.emptiedPath = p.path := by
  unfold Part.emptiedPath
  simp only [h, Bool.false_eq_true, if_false]
  rw [PerClass.ofFn_get']

/-- The classes that have run out are RETURNED, and the last of them ends RETURNING (R91, R93). -/
theorem returnDrained_back {p : Part} (h : p.path.handedBack = false) : returnDrained p =
    { count .returns (if p.emptiedPath.handedBack then 1 else 0) p with path := p.emptiedPath.returned } := by
  unfold returnDrained
  by_cases none : p.drainedClasses = []
  · have out (c : ServiceClass) : p.ranOut c = false := by
      rw [← drainedClasses_contains, none]
      rfl
    rw [if_pos none, emptiedPath_none out, Path.returned, h]
    simp only [Bool.false_eq_true, if_false, count_zero]
  · have path : p.path.mapClasses p.drainedClasses.contains (fun _ => ClassPath.fibre) = p.emptiedPath := by
      unfold Path.mapClasses Part.emptiedPath
      simp only [drainedClasses_contains]
      rfl
    rw [if_neg none, path, returnEnds_eq']
    rfl

/-- A path controller with a class that is not RETURNED has not ended RETURNING. -/
theorem handedBack_of_class {q : Path} {c : ServiceClass} (h : (q.classes.get c).sub ≠ .returned) :
    q.handedBack = false := by
  rw [Bool.eq_false_iff]
  exact fun back => h (((over_iff q).mp back).2 c (mem_classes c))

/-! ### The rows of the timers -/

theorem stays_of_radio {p q : Part} (h : q.radio = p.radio) (hs : p.Stays) : q.Stays := by
  unfold Part.Stays at *
  rw [h]
  exact hs

/-- A move of the path controller alone. -/
theorem path_moves {x z : Part} (h : z = { x with path := z.path }) (hp : sameFive z.path x.path) :
    EventEnds x z ∧ Keeps x z := ⟨ends_of_path h (path_frame hp), keeps_of_path h⟩

/-- An expiry that moves the path controller, from `x`, and the end of its event. -/
theorem path_expires {i : Instr} {s : State} {c occurs : Prop} [Decidable c] {z x : Part} {path : Path}
    (hi : exec i s = .next (s.having (if c then closeEvent s.part z else s.part))) (hc : c ↔ occurs)
    (hx : EventEnds x z ∧ Keeps x z) (hr : z.radio = s.part.radio)
    (hd : z.Stays → s.part.NoneDrained → (closeEvent s.part z).path = path ∧
      (closeEvent s.part z).events.counters = x.events.counters) :
    (¬occurs → exec i s = .next s) ∧ (occurs → Leads i s fun q =>
      EventEnds x q ∧ (s.part.Still → Keeps x q) ∧
      (s.part.Stays → s.part.NoneDrained → q.path = path ∧ q.events.counters = x.events.counters)) := by
  refine ⟨fun h => exec_guard_not hi (mt hc.mp h), fun h => leads_guard hi (hc.mpr h) ?_⟩
  obtain ⟨ends, keeps⟩ := hx
  refine ⟨ends.trans (closeEvent_ends _ _), fun still => keeps.trans (closeEvent_keeps _ ?_), fun stays drained => ?_⟩
  · unfold Part.Still at *
    rw [hr]
    exact still
  · exact hd (stays_of_radio hr stays) drained

theorem guard_iff {a : Prop} [Decidable a] {t : Timer} {now : Nat} :
    (decide a && Timer.due t now) = true ↔ a ∧ ∃ m, t = some m ∧ m ≤ now := by
  rw [Bool.and_eq_true, decide_eq_true_eq, due_iff]

theorem dwellEnds_eq (p : Part) : dwellEnds p =
    { count .failovers (if p.radio.state = .attached then 1 else 0) p with path := p.pathDwelt } := by
  rw [← dwellEnds_path]
  unfold dwellEnds Part.attached
  by_cases h : p.radio.state = .attached
  · simp only [h, decide_true, if_true]
    rfl
  · simp only [h, decide_false, Bool.false_eq_true, if_false, count_zero]
    rfl

theorem enterReturning_path (p : Part) : (enterReturning p).path = { p.path.idle with
    service := .returning
    classes := PerClass.ofFn p.returningStart
    quiet := p.after p.path.settings.voiceQuiet
    stick := p.after (p.path.settings.voiceStick * 1000) } := (discardFibre_path _ _).1

/-- RETURNING begins with the queues of the shed classes discarded (R79, R88). -/
theorem enterReturning_eq (p : Part) : enterReturning p =
    { p.unqueued .drainLimit (fun c => c ≠ .voice && p.relay.shed.get c) with path := (enterReturning p).path } := by
  have fibre (c : ServiceClass) : decide ((p.returningStart c).word = .fibre) = (c ≠ .voice && p.relay.shed.get c) := by
    unfold Part.returningStart
    cases c
    case voice => rfl
    all_goals
      dsimp only
      split <;> rename_i h <;> simp [h, ClassPath.fibre, Part.drainRecord]
  rw [enterReturning_path]
  refine (discardFibre_unqueued .drainLimit { p with path := _ }).trans ((unqueued_withPath ..).trans ?_)
  refine congrArg (fun sel => ({ p.unqueued .drainLimit sel with path := _ } : Part)) (funext fun c => ?_)
  show decide (((PerClass.ofFn p.returningStart).get c).word = .fibre) = _
  rw [PerClass.get_ofFn]
  exact fibre c

/-- FIBRE is entered with every queue discarded (R79). -/
theorem enterFibre_ends (r : Discard) (p : Part) : EventEnds (p.unqueued r fun _ => true) (enterFibre r p) ∧
    (p.path.verdict ≠ .bad → enterFibre r p = { p.unqueued r (fun _ => true) with path := (enterFibre r p).path }) := by
  let path : Path := { p.path.idle with service := .fibre, classes := PerClass.ofFn fun _ => ClassPath.fibre }
  have begun : discardFibre r { p with path := path } = { p.unqueued r (fun _ => true) with path := path } :=
    unqueued_all r p path fun c => by rw [PerClass.get_ofFn]; rfl
  have quiet : EventEnds (p.unqueued r fun _ => true) { p.unqueued r (fun _ => true) with path := path } := by
    refine ends_of_path rfl ?_
    rw [unqueued_path]
    rfl
  constructor
  · unfold enterFibre
    dsimp only
    rw [begun]
    split
    · exact quiet.trans ⟨enterSuspect_frame _, enterSuspect_mild _⟩
    · exact quiet
  · intro h
    have same : enterFibre r p = { p.unqueued r (fun _ => true) with path := path } := by
      unfold enterFibre
      dsimp only
      rw [begun]
      exact if_neg fun bad => h (of_decide_eq_true bad)
    rw [same]

/-- VOICE begins to drain, and with nothing left has run out at once (R90, R91). -/
theorem voiceDrains_emptied {p : Part} (h : p.NoneDrained) : (voiceDrains p).emptiedPath =
    { p.path with classes := p.path.classes.set .voice (p.drains .voice), quiet := none, stick := none } := by
  have classes : (PerClass.ofFn fun c => if (voiceDrains p).ranOut c then onFibre else
      (voiceDrains p).path.classes.get c) = p.path.classes.set .voice (p.drains .voice) := by
    apply PerClass.ext_get
    intro c
    have record : (voiceDrains p).path.classes.get c =
        if c = .voice then p.drainRecord else p.path.classes.get c := PerClass.get_set ..
    have out := ranOut_iff (voiceDrains p) c
    rw [record] at out
    rw [PerClass.get_ofFn, PerClass.get_set, record]
    by_cases hv : c = .voice
    · subst hv
      simp only [if_true] at out ⊢
      unfold Part.drains
      by_cases he : p.relay.queues.get .voice = [] ∧ p.sentOf .voice = []
      · rw [if_pos (out.mpr ⟨rfl, he⟩), if_pos he]
      · rw [if_neg fun k => he (out.mp k).2, if_neg he]
        rfl
    · simp only [hv, if_false] at out ⊢
      exact if_neg fun k => h c (out.mp k).1 (out.mp k).2
  exact congrArg (fun x => ({ p.path with classes := x, quiet := none, stick := none } : Path)) classes

/-- The drain limit of a class discards what it and the classes on FIBRE have queued (R79, R92, R93). -/
theorem drainExpires_eq (c : ServiceClass) (p : Part) :
    let limited : Path := { p.path with classes := p.path.classes.set c onFibre }
    drainExpires c p = { count .returns (if limited.handedBack then 1 else 0)
      (p.unqueued .drainLimit fun d => d = c || (p.path.classes.get d).word = .fibre) with path := limited.returned } := by
  intro limited
  unfold drainExpires
  have sel : (fun d => decide ((limited.classes.get d).word = .fibre)) =
      fun d => d = c || (p.path.classes.get d).word = .fibre := funext fun d => by
    show decide (((p.path.classes.set c onFibre).get d).word = .fibre) = _
    rw [PerClass.get_set]
    by_cases h : d = c <;> simp [h, onFibre]
  have begun : discardFibre .drainLimit (p.withPath limited) = { p.unqueued .drainLimit _ with path := limited } :=
    (discardFibre_unqueued .drainLimit (p.withPath limited)).trans ((unqueued_withPath ..).trans
      (congrArg (fun sel => ({ p.unqueued .drainLimit sel with path := limited } : Part)) sel))
  exact (congrArg returnEnds begun).trans (returnEnds_eq' _)

theorem returned_classes (q : Path) : q.returned.classes = q.classes := by
  unfold Path.returned
  split <;> rfl

theorem sentOf_radio {p q : Part} (h : q.radio = p.radio) (c : ServiceClass) : q.sentOf c = p.sentOf c := by
  unfold Part.sentOf
  rw [h]

/-- Settles O47: each expiry is one event that moves the path controller from what its rule discards and counts. -/
theorem pathTimers : Obligations.PathTimers := by
  intro c s p y due expires returns spoken limited waited fibred
  have speaks (t : Timer) (i : Instr)
      (hi : exec i s = .next (s.having (if p.voiceDue t then closeEvent p (voiceDrains p) else p))) :
      expires i (y.classes.voice.sub = .waitingQuiet ∧ due t) (returns spoken p) spoken.returned := by
    have moved : EventEnds p (voiceDrains p) ∧ Keeps p (voiceDrains p) := path_moves rfl ⟨rfl, rfl, rfl, rfl, rfl⟩
    refine path_expires hi guard_iff (z := voiceDrains p) (moved.imp ends_count keeps_count) rfl fun stays drained => ?_
    have draining : ((voiceDrains p).path.classes.get .voice).sub ≠ .returned := by
      show ((p.path.classes.set .voice p.drainRecord).get .voice).sub ≠ _
      rw [PerClass.get_set_same]
      nofun
    rw [closeEvent_path_stays stays, closeEvent_stays_counters stays, returnDrained_back (handedBack_of_class draining), voiceDrains_emptied drained]
    exact ⟨rfl, rfl⟩
  refine ⟨?_, ?_, fun h => ?_, fun h => ?_, speaks _ _ rfl, speaks _ _ rfl, fun hw => ?_⟩
  · refine path_expires (i := .dwellExpiry) rfl guard_iff (z := dwellEnds p) (path_moves ?_ ?_) ?_ fun stays _ => ?_
    · rw [dwellEnds_eq]
    · rw [dwellEnds_path]
      exact pathDwelt_same p
    · rw [dwellEnds_eq]
      rfl
    · have still := pathDwelt_undrained p
      have quiet : returnDrained (dwellEnds p) = dwellEnds p := returnDrained_keeps fun c hc => by
        rw [dwellEnds_path] at hc
        exact absurd hc (still.1 c)
      rw [closeEvent_path_stays stays, closeEvent_stays_counters stays, quiet, dwellEnds_eq]
      exact ⟨rfl, rfl⟩
  · have begun := enterReturning_path p
    have radio : (enterReturning p).radio = p.radio := by
      rw [enterReturning_eq]
      exact unqueued_radio ..
    refine path_expires (i := .proveExpiry) rfl guard_iff (z := enterReturning p)
      (path_moves (enterReturning_eq p) ?_) ?_ fun stays _ => ?_
    · rw [unqueued_path, begun]
      exact ⟨rfl, rfl, rfl, rfl, rfl⟩
    · exact radio
    · refine ⟨enterReturning_closed (stays_of_radio radio.symm stays), (closeEvent_stays_counters stays).trans ?_⟩
      rw [returnDrained_waiting fun _ => by rw [begun]; rfl, enterReturning_eq]
  · exact exec_guard_not (i := .strandedProveExpiry) rfl (mt guard_iff.mp h)
  · refine leads_guard (i := .strandedProveExpiry) rfl (guard_iff.mpr h) ?_
    obtain ⟨ends, alone⟩ := enterFibre_ends .drainLimit p
    have path := enterFibre_path .drainLimit p
    have still := pathFibre_undrained p
    refine ⟨ends.trans (closeEvent_ends _ _), fun _ _ => closeEvent_undrained path still, fun good => ?_⟩
    have moved := alone good
    have radio : (enterFibre .drainLimit p).radio = p.radio := by
      rw [moved]
      exact unqueued_radio ..
    have quiet : returnDrained (enterFibre .drainLimit p) = enterFibre .drainLimit p := returnDrained_keeps fun c hc => by
      rw [path] at hc
      exact absurd hc (still.1 c)
    refine ⟨fun hs => (keeps_of_path moved).trans (closeEvent_keeps _ ?_), fun stays _ => ?_⟩
    · unfold Part.Still at *
      rw [radio]
      exact hs
    · refine (closeEvent_stays_counters (stays_of_radio radio stays)).trans ?_
      rw [quiet, moved]
  · have limits := drainExpires_eq (c := c) (p := p)
    have radio : (drainExpires c p).radio = p.radio := by
      rw [limits]
      exact unqueued_radio ..
    have path : (drainExpires c p).path = limited.returned := by rw [limits]
    have stands : sameFive limited.returned (p.unqueued .drainLimit fun d => d = c || (y.classes.get d).word = .fibre).path := by
      rw [unqueued_path]
      unfold Path.returned
      split <;> exact ⟨rfl, rfl, rfl, rfl, rfl⟩
    refine path_expires (i := .drainLimitExpiry c) (z := drainExpires c p) rfl guard_iff
      (path_moves (by rw [limits]) (by rw [limits]; exact stands)) radio fun stays drained => ?_
    have quiet : returnDrained (drainExpires c p) = drainExpires c p := returnDrained_keeps fun d hd => ?_
    · rw [closeEvent_path_stays stays, closeEvent_stays_counters stays, quiet, limits]
      exact ⟨rfl, rfl⟩
    · have record : (drainExpires c p).path.classes.get d = if d = c then onFibre else p.path.classes.get d := by
        rw [path, returned_classes]
        exact PerClass.get_set ..
      rw [record] at hd
      by_cases same : d = c
      · rw [if_pos same] at hd
        cases hd
      · rw [if_neg same] at hd
        have keeps : (drainExpires c p).relay.queues.get d = p.relay.queues.get d := by
          rw [limits]
          refine (unqueued_queues ..).trans (if_neg ?_)
          simpa [same] using hw d hd
        rw [keeps, sentOf_radio radio]
        exact drained d hd

end Sys2Proof.Machine
end

section
/-! # Settling the moves of the radio module (O48) -/

namespace Sys2Proof.Machine

/-! ### Module states that receive (R106) -/

theorem deaf_iff (m : Module) : (m = .absent ∨ m = .off ∨ m = .recovering) ↔
    ¬((m = .idle ∨ m = .attaching ∨ m = .attached ∨ m = .detaching) ∨ m = .starting) := by
  cases m <;> decide

/-- A message to a module state that does not receive. -/
theorem exec_deaf {i : Instr} {s : State} {f : Part → Part} (hi : exec i s = .next (s.having (received f s.part)))
    (h : s.part.radio.state = .absent ∨ s.part.radio.state = .off ∨ s.part.radio.state = .recovering) :
    exec i s = .next s := by
  rw [hi, received_deaf h]
  rfl

/-- A message to a module state that receives: the silence timer restarts, and the event acts (R109). -/
theorem leads_heard {i : Instr} {s : State} {f : Part → Part} {Q : Part → Prop}
    (hi : exec i s = .next (s.having (received f s.part)))
    (h : ¬(s.part.radio.state = .absent ∨ s.part.radio.state = .off ∨ s.part.radio.state = .recovering))
    (hq : Q (closeEvent s.part (f { s.part with radio := { s.part.radio with
      silence := if s.part.radio.state = .starting then s.part.radio.silence else some (s.part.clock.now + 3000) } }))) :
    Leads i s Q := by
  obtain ⟨absent, h⟩ := not_or.mp h
  obtain ⟨off, recovering⟩ := not_or.mp h
  exact ⟨_, by rw [hi, received_speaks absent off recovering], hq⟩

/-- Settles O48: each cause moves the module, and the end of the event is that of a module that is down. -/
theorem moduleRestarts : Obligations.ModuleRestarts := by
  intro i s p r due clock listens ended goes
  refine ⟨?_, ?_, ?_, ?_, ?_, ?_⟩
  · rintro rfl
    exact ⟨fun h => exec_guard_not (i := .radioPresenceFall) rfl h,
      fun h => leads_guard rfl h (down_leads (new := .absent) rfl p _ rfl)⟩
  · rintro rfl
    exact ⟨fun h => exec_guard_not (i := .radioPresenceRise) rfl h,
      fun h => leads_guard rfl h (down_leads (new := .starting) rfl p _ rfl)⟩
  · rintro rfl
    exact ⟨fun h => exec_guard_not (i := .startTimerExpiry) rfl (mt guard_iff.mp h),
      fun h => leads_guard rfl (guard_iff.mpr h) (down_leads (new := .recovering) rfl p p rfl)⟩
  · rintro rfl
    have silent : p.silenceDue = true ↔ listens ∧ due r.silence := by
      unfold Part.silenceDue
      rw [Bool.and_eq_true, listens_iff, due_iff]
    exact ⟨fun h => exec_guard_not (i := .silenceTimerExpiry) rfl (mt silent.mp h),
      fun h => leads_guard rfl (silent.mpr h) (down_leads (new := .recovering) rfl p p rfl)⟩
  · rintro rfl
    exact ⟨fun h => exec_guard_not (i := .recoverTimerExpiry) rfl (mt guard_iff.mp h),
      fun h => leads_guard rfl (guard_iff.mpr h) (down_leads (new := .starting) rfl p p rfl)⟩
  · rintro rfl
    refine ⟨fun h => exec_deaf (i := .resetNotice) rfl ((deaf_iff _).mpr h), fun h =>
      leads_heard (i := .resetNotice) rfl (fun k => (deaf_iff _).mp k h) ?_⟩
    let y : Part := { p with radio := { r with
      silence := if r.state = .starting then r.silence else some (p.clock.now + 3000) } }
    have same : ({ y.lost with radio := y.radio.restarted .starting p.clock.now } : Part) =
        { p.lost with radio := r.restarted .starting p.clock.now } := 
        lost_withRadio (p := p) (ρ := y.radio) rfl rfl (y.radio.restarted .starting p.clock.now)
    have moved := down_leads (new := .starting) rfl p y rfl
    dsimp only at moved
    rw [show y.clock.now = p.clock.now from rfl, same] at moved
    exact moved

end Sys2Proof.Machine
end

section
/-! # Settling READY, DETACHED and the detach timer (O49) -/

namespace Sys2Proof.Machine

theorem noAnswer_eq : Transfer.noAnswer = unanswered := by
  funext t
  cases t with | mk bytes owes ends => cases owes <;> rfl

theorem endSeries_eq (r : Radio) {f : Transfer → Transfer} (h : Transfer.noAnswer = f) : r.endSeries = { r with
    phase := .none, answer := none, retry := none, lane := r.lane.map f
    control := match r.control with
      | some (.attachReq _) => none
      | c => c } := by
  subst h
  rfl

theorem causeOfByte_eq (b : Byte) :
    causeOfByte b = if b = 1 then .requested else if b = 3 then .coverage else .network := by
  by_cases h1 : b = 1
  · subst h1
    rfl
  · by_cases h3 : b = 3
    · subst h3
      rfl
    · rw [if_neg h1, if_neg h3]
      unfold causeOfByte
      split
      · rename_i h; exact absurd (BitVec.eq_of_toNat_eq h) h1
      · rename_i h; exact absurd (BitVec.eq_of_toNat_eq h) h3
      · rfl

/-- Outside ATTACHED the move to IDLE changes the module state alone (R117, R118). -/
theorem moduleToIdle_else {p : Part} (h : p.radio.state ≠ .attached) :
    moduleToIdle p = { p with radio := { p.radio with state := .idle, detach := none } } := by
  have off : ¬(p.withRadio { p.radio with detach := none }).attached = true := fun on => h (of_decide_eq_true on)
  unfold moduleToIdle moduleTo
  simp only [Module.restarts, reduceCtorEq, or_self, decide_false, Bool.not_false, Bool.and_true,
    Bool.false_eq_true, if_false]
  rw [if_neg off, if_neg off]
  rfl

/-- An event that leaves the module in IDLE, and did not find it ATTACHED (R113). -/
theorem closeEvent_idled {b x p : Part} (hs : x.radio.state = .idle) (hp : x.path = p.path)
    (hn : p.radio.state ≠ .attached) :
    let q := closeEvent b x
    EventEnds x q ∧ Keeps x q ∧ (p.DrainsOnAir → q.path = p.path) ∧
      q.radio.state = (if q.radio.demand = true ∧ x.radio.reattempt = none then .attaching else .idle) ∧
      (q.radio.state = .attaching → q.radio.attempts = 1) := by
  have off : x.radio.state ≠ .attached := by
    rw [hs]
    nofun
  exact ⟨closeEvent_ends b x, closeEvent_keeps b (.inr off), fun air => same_path hp off hn air, closeEvent_idles hs⟩

/-- A message with no meaning outside ATTACHED counts in LINK_ERRORS and moves no frame (R122). -/
theorem closeEvent_error {b x : Part} (h : x.radio.state ≠ .attached) :
    EventEnds (linkError x) (closeEvent b (linkError x)) ∧ Keeps (linkError x) (closeEvent b (linkError x)) :=
  ⟨closeEvent_ends b _, closeEvent_keeps b (.inr h)⟩

/-- Settles O49: in each module state what the message or the timer leaves, and the end of that event. -/
theorem moduleIdles : Obligations.ModuleIdles := by
  intro firmware buffers cause s p r now deaf heard known left error idles loses ends
  have hears {m : Module} (h : r.state = m) (hm : m ≠ .absent ∧ m ≠ .off ∧ m ≠ .recovering) :
      ¬(p.radio.state = .absent ∨ p.radio.state = .off ∨ p.radio.state = .recovering) := by
    rw [show p.radio.state = m from h]
    obtain ⟨h1, h2, h3⟩ := hm
    simp [h1, h2, h3]
  let y : Part := { p with radio := { r with silence := heard } }
  have cause_eq := causeOfByte_eq cause
  have ready {Q : Part → Prop} (h : ¬deaf) (hq : Q (closeEvent p (takeReady firmware buffers y))) :
      Leads (.ready firmware buffers) s Q := leads_heard rfl h hq
  have detached {Q : Part → Prop} (h : ¬deaf) (hq : Q (closeEvent p (takeDetached cause y))) :
      Leads (.detached cause) s Q := leads_heard rfl h hq
  have errs (h : ¬deaf) (hn : r.state ≠ .attached) (he : takeDetached cause y = linkError y) :
      Leads (.detached cause) s fun q => EventEnds error q ∧ Keeps error q := by
    refine detached h ?_
    rw [he]
    exact closeEvent_error hn
  have lost (i : Instr) (z : Radio) (h : r.state = .attached) (hz : z.state = r.state) (ho : z.outstanding = r.outstanding)
      (hi : ∀ {Q : Part → Prop}, Q (closeEvent p (moduleToIdle { p with radio := z })) → Leads i s Q) : loses i z := by
    refine hi ?_
    let w : Part := { p with radio := z }
    have moved := idle_leads (b := p) (y := w) (hz.trans h)
    let idle : Radio := { z with state := .idle, detach := none, outstanding := [], control := none }
    have same : ({ w.lost with radio := idle } : Part) = { p.lost with radio := idle } :=
      lost_withRadio (p := p) (ρ := z) hz ho idle
    dsimp only at moved
    rw [same] at moved
    obtain ⟨mends, keeps, path, state, attempts⟩ := moved
    exact ⟨mends, keeps, fun air => path fun c hc => ⟨hz.trans h, (air c hc).2⟩, state, attempts⟩
  have ended (i : Instr) (z : Radio) (h : r.state = .detaching) (hz : z.state = r.state)
      (hi : ∀ {Q : Part → Prop}, Q (closeEvent p (moduleToIdle { p with radio := z })) → Leads i s Q) : ends i z := by
    refine hi ?_
    rw [moduleToIdle_else (by rw [hz, h]; nofun)]
    exact closeEvent_idled rfl rfl (by rw [h]; nofun)
  refine ⟨fun h => ⟨exec_deaf (i := .ready firmware buffers) rfl h, exec_deaf (i := .detached cause) rfl h⟩,
    fun h => ?_, fun h => ?_, fun h => ?_, fun h => ⟨?_, ?_⟩, fun h => ⟨?_, ?_⟩, fun h => ?_, fun hd h => ?_, fun h => ?_⟩
  · refine ready (hears h ⟨nofun, nofun, nofun⟩) ?_
    rw [takeReady_of firmware buffers y _ h]
    exact closeEvent_idled rfl rfl (by rw [h]; nofun)
  · refine ready (hears h ⟨nofun, nofun, nofun⟩) ?_
    rw [takeReady_of firmware buffers y _ h]
    exact closeEvent_idled h rfl (by rw [h]; nofun)
  · refine ready (hears h ⟨nofun, nofun, nofun⟩) ?_
    have ended : takeReady firmware buffers y = _ := (takeReady_of firmware buffers y _ h).trans
      (congrArg (fun e : Radio => ({ p with radio := { e with state := .idle } } : Part)) (endSeries_eq known noAnswer_eq))
    rw [ended]
    exact closeEvent_idled rfl rfl (by rw [h]; nofun)
  · refine lost _ known h rfl rfl fun hq => ready (hears h ⟨nofun, nofun, nofun⟩) ?_
    rw [takeReady_of firmware buffers y _ h]
    exact hq
  · refine lost _ left h rfl rfl fun hq => detached (hears h ⟨nofun, nofun, nofun⟩) ?_
    rw [takeDetached_of cause y _ h, cause_eq]
    exact hq
  · refine ended _ known h rfl fun hq => ready (hears h ⟨nofun, nofun, nofun⟩) ?_
    rw [takeReady_of firmware buffers y _ h]
    exact hq
  · refine ended _ left h rfl fun hq => detached (hears h ⟨nofun, nofun, nofun⟩) ?_
    rw [takeDetached_of cause y _ h, cause_eq]
    exact hq
  · obtain h | h | ⟨h, hp⟩ := h
    · exact errs (hears h ⟨nofun, nofun, nofun⟩) (by rw [h]; nofun) (takeDetached_of cause y _ h)
    · exact errs (hears h ⟨nofun, nofun, nofun⟩) (by rw [h]; nofun) (takeDetached_of cause y _ h)
    · refine errs (hears h ⟨nofun, nofun, nofun⟩) (by rw [h]; nofun) ((takeDetached_of cause y _ h).trans (if_neg ?_))
      unfold Part.awaiting
      rw [Bool.and_eq_true, decide_eq_true_eq, decide_eq_true_eq]
      exact fun k => hp k.2
  · exact ended _ r h rfl fun hq => leads_guard rfl (guard_iff.mpr ⟨h, hd⟩) hq
  · exact exec_guard_not (i := .detachTimerExpiry) rfl fun k => (guard_iff.mp k).elim fun k1 k2 => h.elim (· k2) (· k1)

end Sys2Proof.Machine
end

section
/-! # Settling failed attempts and the timers of the attach series (O50) -/

namespace Sys2Proof.Machine

theorem failureOfByte_eq (b : Byte) : failureOfByte b =
    if b = 1 then .noCoverage else if b = 2 then .denied else if b = 3 then .busy else .moduleError := by
  by_cases h1 : b = 1
  · subst h1
    rfl
  · by_cases h2 : b = 2
    · subst h2
      rfl
    · by_cases h3 : b = 3
      · subst h3
        rfl
      · rw [if_neg h1, if_neg h2, if_neg h3]
        unfold failureOfByte
        split
        · rename_i h; exact absurd (BitVec.eq_of_toNat_eq h) h1
        · rename_i h; exact absurd (BitVec.eq_of_toNat_eq h) h2
        · rename_i h; exact absurd (BitVec.eq_of_toNat_eq h) h3
        · rfl

/-! ### A failed attempt (R116) -/

/-- The radio link controller after a failed attempt (R116). -/
def Radio.failed (why : Failure) (now : Nat) (r : Radio) : Radio :=
  let y : Radio := { r with lastFailure := why, answer := none, lane := r.lane.map unanswered }
  if r.attempts ≤ r.settings.retryCount ∧ r.demand = true then
    { y with phase := .retryWait, retry := some (now + 10000) }
  else { y with
    state := .idle, phase := .none, retry := none
    control := match r.control with
      | some (.attachReq _) => none
      | c => c
    reattempt := if r.demand then some (now + 120000) else none }

/-- The command slot after a failed attempt, which ends a RADIO_ATTACH with the series (R131). -/
def Part.attemptEnded (why : Failure) (p : Part) : Command :=
  if p.command.running = some .radioAttach ∧ p.radio.demand = true ∧ p.radio.settings.retryCount < p.radio.attempts then
    { p.command with
      running := none, result := 0x06
      data := padTo 16 ([why.code, BitVec.ofNat 8 p.radio.attempts] ++ List.replicate 7 0 ++
        leBytes 4 p.radio.firmware.toNat) }
  else p.command

/-- A change of the command slot that ends a RADIO_ATTACH keeps all but the slot and COMMAND_DONE. -/
theorem endAttach_ends (r b : Byte) (p : Part) :
    EventEnds p (endAttach r b p) ∧ Keeps p (endAttach r b p) := by
  unfold endAttach
  split
  · exact ⟨⟨finish_frame .., finish_mild ..⟩, Keeps.done ⟨rfl, rfl, rfl, fun _ _ => rfl, fun _ => .inl⟩⟩
  · exact ⟨EventEnds.refl p, ⟨rfl, rfl, rfl, fun _ _ => rfl, fun _ => .inl⟩⟩

/-- Either another attempt is waited for, with demand on, or the series has ended (R116). -/
theorem failed_cases (why : Failure) (now : Nat) {r : Radio} (h : r.state = .attaching) :
    (r.failed why now).state = .attaching ∧ r.demand = true ∨
      (r.failed why now).state = .idle ∧
        (r.failed why now).reattempt = if r.demand then some (now + 120000) else none := by
  unfold Radio.failed
  dsimp only
  split
  · rename_i again
    exact .inl ⟨h, again.2⟩
  · exact .inr ⟨rfl, rfl⟩

theorem failed_keeps (why : Failure) (now : Nat) (r : Radio) :
    (r.failed why now).settings = r.settings ∧ (r.failed why now).manualHold = r.manualHold ∧
      (r.failed why now).demand = r.demand ∧ (r.failed why now).linger = r.linger := by
  unfold Radio.failed
  dsimp only
  split <;> exact ⟨rfl, rfl, rfl, rfl⟩

theorem failed_control (why : Failure) (now : Nat) {r : Radio} (h : r.control = none) :
    (r.failed why now).control = none := by
  unfold Radio.failed
  dsimp only
  split
  · exact h
  · rw [h]

theorem attemptEnded_running (why : Failure) {p : Part} (h : p.command.running ≠ some .radioDetach) :
    (p.attemptEnded why).running ≠ some .radioDetach := by
  unfold Part.attemptEnded
  split
  · nofun
  · exact h

/-- What a failed attempt leaves: the re-attempt timer of a series ended without demand is the one thing the end of
the event still clears. -/
theorem failAttempt_leaves (why : Failure) (p : Part) :
    let x : Part := { p with radio := p.radio.failed why p.clock.now }
    let z := failAttempt why p
    EventEnds x z ∧ Keeps x z ∧ z.path = p.path ∧ z.clock = p.clock ∧ z.command = p.attemptEnded why ∧
      ∃ t, z.radio = { x.radio with reattempt := t } ∧ (t = x.radio.reattempt ∨ x.radio.state = .idle ∧ p.radio.demand = false) := by
  intro x z
  have hz : z = _ := failAttempt_eq why p
  by_cases again : p.radio.attempts ≤ p.radio.settings.retryCount ∧ p.radio.demand = true
  · have radio : x = { p with radio := _ } := congrArg (fun r => ({ p with radio := r } : Part)) (if_pos again)
    have same : z = x := hz.trans ((if_pos again).trans radio.symm)
    have command : p.attemptEnded why = p.command := if_neg fun h => by omega
    rw [command, same]
    exact ⟨EventEnds.refl x, ⟨rfl, rfl, rfl, fun _ _ => rfl, fun _ => .inl⟩, rfl, rfl, rfl, _, rfl, .inl rfl⟩
  · let series : Radio := { p.radio with
      lastFailure := why, answer := none, lane := p.radio.lane.map unanswered
      state := .idle, phase := .none, retry := none
      control := match p.radio.control with
        | some (.attachReq _) => none
        | c => c
      reattempt := if p.radio.demand then some (p.clock.now + 120000) else none }
    have radio : x = { p with radio := series } := congrArg (fun r => ({ p with radio := r } : Part)) (if_neg again)
    cases demand : p.radio.demand
    case true =>
      have timer : (if p.radio.demand = true then some (p.clock.now + 120000) else p.radio.reattempt) = series.reattempt :=
        (if_pos demand).trans (if_pos demand).symm
      have same : z = endAttach Result.failed why.code x := hz.trans ((if_neg again).trans ((if_pos demand).trans
        ((congrArg (fun t : Timer => endAttach Result.failed why.code { p with radio := { series with reattempt := t } })
          timer).trans (congrArg (endAttach Result.failed why.code) radio.symm))))
      obtain ⟨ends, keeps⟩ := endAttach_ends Result.failed why.code x
      have command : (endAttach Result.failed why.code x).command = p.attemptEnded why := by
        unfold Part.attemptEnded endAttach
        by_cases going : p.command.running = some .radioAttach
        · have past : p.radio.settings.retryCount < p.radio.attempts := by
            by_contra h
            exact again ⟨by omega, demand⟩
          rw [if_pos (show x.command.running = some .radioAttach from going), if_pos ⟨going, demand, past⟩]
          show ({ p.command with running := _, result := _, data := padTo 16 (attachData why.code _ x.radio) } : Command) = _
          rw [radio]
          rfl
        · rw [if_neg (show ¬x.command.running = some .radioAttach from going), if_neg fun h => going h.1]
      rw [same]
      refine ⟨ends, keeps, ?_, ends.frame.clock, command, _, endAttach_radio .., .inl rfl⟩
      exact endAttach_path ..
    case false =>
      have off : ¬p.radio.demand = true := by simp [demand]
      have none : series.reattempt = none := if_neg off
      have same : z = { p with radio := { series with reattempt := p.radio.reattempt } } :=
        hz.trans ((if_neg again).trans ((if_neg off).trans
          (congrArg (fun t : Timer => ({ p with radio := { series with reattempt := t } } : Part)) (if_neg off))))
      have command : p.attemptEnded why = p.command := if_neg fun h => by simp [demand] at h
      rw [command, same, radio]
      exact ⟨⟨⟨rfl, rfl, rfl, rfl, rfl, rfl, rfl, rfl, rfl, rfl, rfl, rfl⟩, fun _ => id, fun _ _ _ _ => rfl, rfl⟩,
        ⟨rfl, rfl, rfl, fun _ _ => rfl, fun _ => .inl⟩, rfl, rfl, rfl, _, rfl, .inr ⟨rfl, rfl⟩⟩

theorem demandActs_waits {p : Part} (hs : p.radio.state = .attaching) (hd : p.radio.demand = true) :
    demandActs p = p := by
  unfold demandActs
  dsimp only
  rw [hd, hs]
  rfl

/-- The end of the event of a failed attempt, which `y` met awaiting its answer. -/
theorem closeEvent_failed {b y p : Part} (why : Failure) (hs : y.radio.state = .attaching) (hp : y.path = p.path)
    (hr : p.radio.state = y.radio.state) :
    let x : Part := { y with radio := y.radio.failed why y.clock.now }
    let q := closeEvent b (failAttempt why y)
    EventEnds x q ∧ Keeps x q ∧ (p.DrainsOnAir → q.path = p.path) ∧
      (y.DemandFollows → y.radio.control = none → p.DrainsOnAir → q.radio = x.radio) ∧
      (y.command.running ≠ some .radioDetach → q.command = y.attemptEnded why) := by
  intro x q
  obtain ⟨ends, keeps, path, clock, command, t, radio, timer⟩ := failAttempt_leaves why y
  have cases := failed_cases why y.clock.now hs
  have state : x.radio.state = .attaching ∨ x.radio.state = .idle := cases.imp And.left And.left
  have off : x.radio.state ≠ .attached := by
    obtain h | h := state <;> (rw [h]; nofun)
  have found : p.radio.state ≠ .attached := by
    rw [hr, hs]
    nofun
  refine ⟨ends.trans (closeEvent_ends ..), keeps.trans (closeEvent_keeps _ (.inr (by rw [radio]; exact off))),
    fun air => same_path (path.trans hp) (by rw [radio]; exact off) found air, fun follows control air => ?_, fun running => ?_⟩
  · obtain ⟨settings, hold, demand, linger⟩ := failed_keeps why y.clock.now y.radio
    have none := failed_control why y.clock.now control
    refine closeEvent_acts (follows.of_eq (wants_eq path ?_ ?_) ?_ ?_) ?_ (undrained_of (path.trans hp) found air) ?_
      none off
    · rw [radio]; exact settings
    · rw [radio]; exact hold
    · rw [radio]; exact demand
    · rw [radio]; exact linger
    · rw [radio, show ({ x.radio with reattempt := t } : Radio).control = .none from none]
      nofun
    · obtain ⟨waits, on⟩ | ⟨idle, reattempt⟩ := cases
      · have same : t = x.radio.reattempt := timer.resolve_right fun h => by rw [waits] at h; cases h.1
        rw [demandActs_waits (by rw [radio]; exact waits) (by rw [radio]; exact demand.trans on), radio, same]
      · rw [demandActs_idle (by rw [radio]; exact idle), show (failAttempt why y).radio.demand = y.radio.demand by
          rw [radio]; exact demand]
        cases on : y.radio.demand
        · rw [on] at reattempt
          rw [if_neg (by decide)]
          show ({ (failAttempt why y).radio with reattempt := .none } : Radio) = x.radio
          rw [radio]
          show ({ x.radio with reattempt := .none } : Radio) = x.radio
          rw [show Option.none = x.radio.reattempt from reattempt.symm]
        · have same : t = x.radio.reattempt := timer.resolve_right fun h => by rw [on] at h; cases h.2
          rw [on] at reattempt
          rw [if_pos rfl, if_neg (by rw [radio]; show t ≠ _; rw [same, reattempt]; nofun), radio, same]
  · rw [closeEvent_command (by rw [command]; exact attemptEnded_running why running), command]

/-! ### The retry timer and the linger timer (R112 to R114, R116) -/

/-- A request pending in ATTACHING with demand on takes the lane where it is free (R114). -/
theorem closeEvent_pending {b x : Part} {profile : Nat} (hs : x.radio.state = .attaching)
    (hc : x.radio.control = some (.attachReq profile)) (hd : x.radio.demand = true) (hf : x.DemandFollows)
    (hu : returnDrained x = x) : (closeEvent b x).radio =
      if x.radio.lane.isSome then x.radio else x.radio.requests profile x.clock.now := by
  have settled : (settle x).radio = x.radio := by
    rw [settle_same hf (by rw [hc]; nofun), demandActs_waits hs hd]
  rw [closeEvent_radio, hu]
  unfold takeLane
  rw [settled, hc]
  by_cases busy : x.radio.lane.isSome
  · rw [if_pos busy, if_pos busy, settled]
  · rw [if_neg busy, if_neg busy]
    dsimp only
    rw [if_pos hs, startAttachReq_requests, settled, settle_clock]

/-- The lane takes nothing while the module is not ATTACHED and no request is pending. -/
theorem takeLane_quiet {w : Part} (hs : w.radio.state ≠ .attached) (hc : w.radio.control = none) : takeLane w = w := by
  have off : w.attached = false := decide_eq_false hs
  unfold takeLane
  rw [hc]
  dsimp only
  unfold trySend
  split
  · rfl
  · split
    · rw [if_neg (by simp [Part.maySend, off])]
    · rfl

/-- A request to detach that takes the free lane leaves the module DETACHING (R117). -/
theorem takeLane_departs {w : Part} {forced : Bool} (hs : w.radio.state = .attached) (hl : w.radio.lane = none)
    (hc : w.radio.control = some (.detachReq forced)) : (takeLane w).radio.state = .detaching := by
  have begun := startDetachReq_radio w
  have lane : takeLane w = settle (startDetachReq w) := by
    unfold takeLane
    rw [hl, hc]
    exact if_pos (decide_eq_true hs)
  rw [lane, (settle_steady (fun h => by rw [begun] at h; cases h.1) (.inr (by rw [begun]; exact ⟨nofun, nofun, nofun⟩))).2,
    begun]

/-- The linger timer has turned demand off, and no want holds (R112, R113). -/
theorem closeEvent_lingered {b x : Part} (hw : x.wants = false) (hd : x.radio.demand = false) (hn : x.NoneDrained) :
    let q := closeEvent b x
    q.radio.demand = false ∧
      (x.radio.state = .idle → q.radio.state = .idle ∧ q.radio.reattempt = none) ∧
      (x.radio.state = .attaching → x.radio.phase ≠ .awaiting →
        q.radio.state = .idle ∧ q.radio.phase = .none ∧ q.radio.reattempt = none) ∧
      (x.radio.state = .attaching → x.radio.phase = .awaiting → x.radio.control = none → q.radio.state = .attaching) ∧
      (x.radio.state = .attached → x.radio.control = none →
        if x.radio.lane.isSome then q.radio.state = .attached ∧ q.radio.control = some (.detachReq false)
        else q.radio.state = .detaching) := by
  intro q
  have closed : q.radio = (takeLane (settle x)).radio := by rw [closeEvent_radio, returnDrained_keeps hn]
  obtain ⟨settled, wants, demand⟩ := settle_unwanted hw hd
  have acts : (settle x).radio = _ := settled
  unfold demandActs at acts
  dsimp only at acts
  rw [if_neg (by rw [hd]; decide)] at acts
  generalize settle x = w at *
  rw [closed]
  refine ⟨takeLane_unwanted wants demand, fun hs => ?_, fun hs hp => ?_, fun hs hp hc => ?_, fun hs hc => ?_⟩
  · rw [hs] at acts
    dsimp only [withRadio_radio] at acts
    rw [takeLane_none (by rw [Part.attached, acts]; simp) (by rw [acts]; simp), acts]
    exact ⟨rfl, rfl⟩
  · rw [hs] at acts
    dsimp only at acts
    split at acts
    · rename_i h
      exact absurd h hp
    · rw [withRadio_radio, endSeries_eq _ noAnswer_eq] at acts
      rw [takeLane_none (by rw [Part.attached, acts]; simp) (by rw [acts]; simp), acts]
      exact ⟨rfl, rfl, rfl⟩
  · rw [hs, hp] at acts
    have same : w.radio = x.radio := acts
    rw [takeLane_quiet (by rw [same, hs]; nofun) (by rw [same]; exact hc), same]
    exact hs
  · rw [hs, if_pos hc] at acts
    have attached : w.radio.state = .attached := (congrArg Radio.state acts :)
    have lane : w.radio.lane = x.radio.lane := (congrArg Radio.lane acts :)
    have control : w.radio.control = some (.detachReq false) := (congrArg Radio.control acts :)
    by_cases busy : x.radio.lane.isSome
    · rw [if_pos busy, show takeLane w = w from if_pos (by rw [lane]; exact busy)]
      exact ⟨attached, control⟩
    · rw [if_neg busy, takeLane_departs attached (by rw [lane]; simpa using busy) control]

/-- Settles O50: each failure, each timer, and the end of its event. -/
theorem attachAttempts : Obligations.AttachAttempts := by
  intro byte s p r now due awaited again why failed fails bytes next
  have isFailed (why : Failure) (silence : Timer) :
      failed why silence = { p with radio := ({ r with silence := silence } : Radio).failed why now } := by
    by_cases h : again
    · exact (if_pos h).trans (congrArg (fun y : Radio => ({ p with radio := y } : Part)) (if_pos h).symm)
    · exact (if_neg h).trans (congrArg (fun y : Radio => ({ p with radio := y } : Part)) (if_neg h).symm)
  have fail (i : Instr) (why : Failure) (silence : Timer) (ha : awaited)
      (hi : ∀ {Q : Part → Prop}, Q (closeEvent p (failAttempt why { p with radio := { r with silence := silence } })) →
        Leads i s Q) : fails i why silence := by
    refine hi ?_
    rw [isFailed]
    obtain ⟨ends, keeps, path, radio, command⟩ := closeEvent_failed (b := p) (p := p)
      (y := { p with radio := { r with silence := silence } }) why ha.1 rfl rfl
    exact ⟨ends, keeps, path, fun follows => radio (follows.of_eq rfl rfl rfl), command⟩
  have hears (h : awaited) : ¬(p.radio.state = .absent ∨ p.radio.state = .off ∨ p.radio.state = .recovering) := by
    rw [show p.radio.state = .attaching from h.1]
    decide
  have silence (h : awaited) : (if p.radio.state = .starting then p.radio.silence else some (now + 3000)) = some (now + 3000) :=
    if_neg (by rw [show p.radio.state = .attaching from h.1]; nofun)
  have waits (q : Part) (h : awaited) (hq : q.radio.state = r.state ∧ q.radio.phase = r.phase) : q.awaiting = true :=
    (awaiting_iff q).mpr (by rw [hq.1, hq.2]; exact h)
  have answered : p.answerDue = true ↔ awaited ∧ due r.answer := by
    unfold Part.answerDue
    rw [Bool.and_eq_true, awaiting_iff, due_iff]
  have lingers : p.lingerDue = true ↔ due r.linger := due_iff ..
  have reattempts : p.reattemptDue = true ↔ due r.reattempt := due_iff ..
  refine ⟨fun h => ⟨fail _ _ _ h fun {Q} hq => ?_, fail _ _ _ h fun {Q} hq => ?_⟩, fun h h1 h2 h3 => ?_,
    fun h => exec_deaf (i := .attachFail byte) rfl h,
    fun h hd => fail _ _ _ h fun hq => leads_guard rfl (answered.mpr ⟨h, hd⟩) hq,
    fun h => exec_guard_not (i := .answerTimerExpiry) rfl (mt answered.mp h), fun hp hd => ?_,
    fun h => exec_guard_not (i := .retryTimerExpiry) rfl (mt guard_iff.mp h), fun hd => ?_,
    fun h => exec_guard_not (i := .reAttemptTimerExpiry) rfl (mt reattempts.mp h), fun hd => ?_,
    fun h => exec_guard_not (i := .lingerExpiry) rfl (mt lingers.mp h)⟩
  · let y : Part := { p with radio := { r with silence := some (now + 3000) } }
    have taken : takeAttachFail byte y = failAttempt why y :=
      (if_pos (waits y h ⟨rfl, rfl⟩)).trans (by rw [failureOfByte_eq])
    refine leads_heard rfl (hears h) ?_
    rw [silence h]
    show Q (closeEvent p (takeAttachFail byte y))
    rw [taken]
    exact hq
  · let y : Part := { p with radio := { r with silence := some (now + 3000) } }
    have taken : takeDetached byte y = failAttempt .noAnswer y :=
      (takeDetached_of byte y .attaching h.1).trans (if_pos (waits y h ⟨rfl, rfl⟩))
    refine leads_heard rfl (hears h) ?_
    rw [silence h]
    show Q (closeEvent p (takeDetached byte y))
    rw [taken]
    exact hq
  · refine leads_heard rfl (fun k => k.elim h1 fun k => k.elim h2 h3) ?_
    let y : Part := { p with radio := { r with
      silence := if r.state = .starting then r.silence else some (now + 3000) } }
    have taken : takeAttachFail byte y = linkError y := if_neg fun k => h ((awaiting_iff _).mp k)
    show EventEnds (linkError y) (closeEvent p (takeAttachFail byte y)) ∧
      Examined (linkError y) (closeEvent p (takeAttachFail byte y))
    rw [taken]
    exact ⟨closeEvent_ends .., examined_close ..⟩
  · refine leads_guard rfl (guard_iff.mpr ⟨hp, hd⟩) ⟨closeEvent_ends .., examined_close .., fun hs on follows air => ?_⟩
    refine closeEvent_pending hs rfl on (follows.of_eq rfl rfl rfl) (undrained_of (p := p) rfl ?_ air)
    rw [show p.radio.state = .attaching from hs]
    nofun
  · refine leads_guard rfl (reattempts.mpr hd) ⟨closeEvent_ends .., examined_close .., fun hs => ?_⟩
    obtain ⟨state, attempts⟩ := closeEvent_idles (b := p) (z := { p with radio := { r with reattempt := none } }) hs
    exact ⟨state.trans (if_congr (and_iff_left rfl) rfl rfl), attempts⟩
  · refine leads_guard rfl (lingers.mpr hd) ⟨closeEvent_ends .., examined_close .., fun hw hn => ?_⟩
    exact closeEvent_lingered (x := { p with radio := { r with demand := false, linger := none } }) hw rfl hn

end Sys2Proof.Machine
end

section
/-! # Settling pacing, ageing and the start of a send (O57) -/

namespace Sys2Proof.Machine

/-! ### Rows that act on the frame they find -/

theorem exec_found {α : Type} {i : Instr} {s : State} {o : Option α} {g : α → Part}
    (hi : exec i s = .next (s.having (o.elim s.part g))) {a : α} (h : o = some a) : exec i s = .next (s.having (g a)) := by
  rw [hi, h]
  rfl

theorem exec_missing {α : Type} {i : Instr} {s : State} {o : Option α} {g : α → Part}
    (hi : exec i s = .next (s.having (o.elim s.part g))) (h : o = none) : exec i s = .next s := by
  rw [hi, h]
  rfl

theorem leads_found {α : Type} {i : Instr} {s : State} {o : Option α} {g : α → Part} {Q : Part → Prop}
    (hi : exec i s = .next (s.having (o.elim s.part g))) {a : α} (h : o = some a) (hq : Q (g a)) : Leads i s Q :=
  ⟨_, exec_found hi h, hq⟩

theorem exec_dataUpStart (s : State) : exec .dataUpStart s =
    .next (s.having (s.part.sendable.elim s.part fun f => closeEvent s.part (startDataUp f s.part))) := by
  show execDataUpStart s = _
  unfold execDataUpStart act
  dsimp only
  cases s.part.sendable <;> rfl

theorem exec_ageExpiry (c : ServiceClass) (s : State) : exec (.ageExpiry c) s =
    .next (s.having ((s.part.overdue c).elim s.part fun f => closeEvent s.part (ageOut c f s.part))) := by
  show execAgeExpiry c s = _
  unfold execAgeExpiry act
  dsimp only
  cases s.part.overdue c <;> rfl

/-! ### The start of a send (R172 to R175) -/

theorem sendable_next {p : Part} {f : Frame} (hn : p.Next f) (hr : p.Ready f) : p.sendable = some f := by
  unfold Part.sendable
  rw [candidate_next hn, Option.filter_some, if_pos (maySend_ready.mpr hr)]

theorem sendable_none {p : Part} (hq : p.QueuedByClass) (h : ∀ f, p.Next f → ¬p.Ready f) : p.sendable = none := by
  unfold Part.sendable
  cases found : p.candidate with
  | none => rfl
  | some f => exact Option.filter_some.trans (if_neg fun ready => h f (next_candidate hq found) (maySend_ready.mp ready))

/-- Settles O57: each row is one event whose end examines the send conditions, or has nothing to act on. -/
theorem sends : Obligations.Sends := by
  intro c s p aged accrued
  refine ⟨fun h => exec_guard_not (i := .creditAccrual) rfl fun k => h (of_decide_eq_true k), fun h => ?_, fun h => ?_,
    fun f hf => ?_, fun f hn hr => ?_, fun hq h => exec_missing (exec_dataUpStart s) (sendable_none hq h)⟩
  · exact leads_guard (i := .creditAccrual) rfl (decide_eq_true h) ⟨closeEvent_ends _ accrued, examined_close _ accrued,
      fun stays drained => path_kept rfl rfl rfl rfl rfl stays drained⟩
  · refine exec_missing (exec_ageExpiry c s) (List.find?_eq_none.mpr fun f hf => ?_)
    exact ne_true_of_eq_false (h f hf)
  · refine leads_found (exec_ageExpiry c s) hf ⟨closeEvent_ends .., examined_close .., fun stays => ?_⟩
    refine closeEvent_pathDrained (p := p) ?_ ?_ stays <;> rw [ageOut, discardParts_only] <;> rfl
  · have stays : (startDataUp f p).Stays := .inr rfl
    refine leads_found (exec_dataUpStart s) (sendable_next hn hr) ⟨closeEvent_ends .., closeEvent_keeps p (.inl rfl), fun drained => ?_, ?_⟩
    · rw [closeEvent_path_stays stays, returnDrained_keeps (startDataUp_none_drained drained)]
      rfl
    · exact closeEvent_busy (x := p.sends f) hr.attached rfl hr.free.2

end Sys2Proof.Machine
end

section
/-! # Settling DATA_DOWN (O55) -/

namespace Sys2Proof.Machine

theorem classOfByte_eq (b : Byte) : classOfByte b =
    if b = 0 then .voice else if b = 1 then .signal else if b = 2 then .interactive else .bulk := by
  by_cases h0 : b = 0
  · subst h0
    rfl
  · by_cases h1 : b = 1
    · subst h1
      rfl
    · by_cases h2 : b = 2
      · subst h2
        rfl
      · rw [if_neg h0, if_neg h1, if_neg h2]
        unfold classOfByte
        split
        · rename_i h; exact absurd (BitVec.eq_of_toNat_eq h) h0
        · rename_i h; exact absurd (BitVec.eq_of_toNat_eq h) h1
        · rename_i h; exact absurd (BitVec.eq_of_toNat_eq h) h2
        · rfl

/-! ### The sequence check (R187) -/

theorem PerClass.set_get {α : Type} {x : PerClass α} {c : ServiceClass} {v : α} (h : x.get c = v) : x.set c v = x := by
  apply PerClass.ext_get
  intro d
  rw [PerClass.get_set]
  split
  · rename_i same
    rw [same, h]
  · rfl

/-- The first frame of a class, or one `ahead` of the sequence expected, missed `ahead` frames (R187). -/
theorem checkSequence_ahead {c : ServiceClass} {seq : BitVec 16} {p : Part} {ahead : Nat}
    (h : p.delivery.expected.get c = none ∧ ahead = 0 ∨
      ∃ e, p.delivery.expected.get c = some e ∧ ahead = (seq - e).toNat) :
    checkSequence c seq p = count .downlinkGaps (if 32767 < ahead then 0 else ahead) { p with delivery := { p.delivery with
      expected := if 32767 < ahead then p.delivery.expected else p.delivery.expected.set c (some (seq + 1)) } } := by
  unfold checkSequence
  obtain ⟨known, rfl⟩ | ⟨e, known, rfl⟩ := h
  · rw [known]
    rfl
  · have check : sequenceCheck (some e) seq =
        if (seq - e).toNat ≤ 32767 then (seq + 1, (seq - e).toNat) else (e, 0) := rfl
    rw [known, check]
    by_cases late : 32767 < (seq - e).toNat
    · rw [if_neg (by omega), if_pos late, if_pos late]
      dsimp only
      rw [PerClass.set_get known]
      rfl
    · rw [if_pos (by omega), if_neg late, if_neg late]
      rfl

/-- An event that counts and raises alone keeps the path controller. -/
theorem dataDown_leaves {b x p : Part} (h : x.path = p.path ∧ x.relay = p.relay ∧ x.radio.outstanding = p.radio.outstanding ∧
      x.radio.control = p.radio.control ∧ x.radio.lane = p.radio.lane) :
    EventEnds x (closeEvent b x) ∧ Examined x (closeEvent b x) ∧
      (p.Stays → p.NoneDrained → (closeEvent b x).path = p.path) := by
  obtain ⟨path, relay, outstanding, control, lane⟩ := h
  exact ⟨closeEvent_ends b x, examined_close b x, fun stays drained =>
    path_kept path (by rw [relay]) outstanding control (by rw [lane]) stays drained⟩

/-- Settles O55: where the message has a meaning its sequence is checked, and the frame placed or dropped. -/
theorem dataDown : Obligations.DataDown := by
  intro h frame s p r d deaf heard cls ahead late checked full overrun slot filled leaves
  have short (hf : frame.length ≤ 1536) : exec (.dataDown h frame) s = .next (s.having (received (takeDown h frame) p)) :=
    congrArg (fun q => Host.Outcome.next (s.having q)) (if_neg (show ¬1536 < frame.length by omega))
  have long (hf : 1536 < frame.length) : exec (.dataDown h frame) s =
      .next (s.having (if r.state.receives then linkError p else p)) :=
    congrArg (fun q => Host.Outcome.next (s.having q)) (if_pos hf)
  have receives : r.state.receives = true ↔ ¬deaf := by
    simp only [deaf]
    cases r.state <;> decide
  have reads : checkSequence (classOfByte h.cls) h.sequence heard = checked := by
    rw [classOfByte_eq]
    refine checkSequence_ahead (ahead := ahead) ?_
    show d.expected.get cls = none ∧ ahead = 0 ∨ ∃ e, d.expected.get cls = some e ∧ ahead = _
    cases known : d.expected.get cls with
    | none => exact .inl ⟨rfl, by simp only [ahead, known]⟩
    | some e => exact .inr ⟨e, rfl, by simp only [ahead, known]⟩
  have takes (hs : r.state = .attached) (hf : frame ≠ []) : takeDown h frame heard =
      placeFrame cls h.sequence frame checked := by
    have on : heard.attached = true := decide_eq_true hs
    exact (if_neg (by simp [on, hf])).trans
      (congrArg₂ (fun c q => placeFrame c h.sequence frame q) (classOfByte_eq h.cls) reads)
  have hears (hs : r.state = .attached) : ¬deaf := by
    simp [deaf, hs]
  have isFull : ((checked.windows.delivery.isNone ∨ (checked.delivery.slot checked.delivery.fill).isSome) : Prop) ↔ full := by
    rw [or_comm, Option.isNone_iff_eq_none]
    exact Iff.rfl
  refine ⟨fun hd => ?_, fun hd hf => ?_, fun hd hf he => ?_, fun hs hn hf => ⟨fun hfull => ?_, fun hfull => ?_⟩⟩
  · by_cases hf : frame.length ≤ 1536
    · exact exec_deaf (short hf) hd
    · rw [long (by omega), if_neg fun k => receives.mp k hd]
      rfl
  · rw [long hf, if_pos (receives.mpr hd)]
    rfl
  · have error : takeDown h frame heard = count .linkErrors 1 heard := if_pos (by
      have off : heard.attached = decide (r.state = .attached) := rfl
      obtain hs | rfl := he
      · simp [off, hs]
      · simp)
    exact leads_heard (short hf) hd (by
      show _ ∧ _ ∧ _
      rw [show takeDown h frame _ = count .linkErrors 1 heard from error]
      exact dataDown_leaves ⟨rfl, rfl, rfl, rfl, rfl⟩)
  · have dropped : takeDown h frame heard = overrun := (takes hs hn).trans (if_pos (isFull.mpr hfull))
    exact leads_heard (short hf) (hears hs) (by
      show _ ∧ _ ∧ _
      rw [show takeDown h frame _ = overrun from dropped]
      exact dataDown_leaves ⟨rfl, rfl, rfl, rfl, rfl⟩)
  · have placed : takeDown h frame heard = filled := (takes hs hn).trans (if_neg (mt isFull.mp hfull))
    exact leads_heard (short hf) (hears hs) (by
      show _ ∧ _ ∧ _
      rw [show takeDown h frame _ = filled from placed]
      refine dataDown_leaves ?_
      simp only [filled]
      unfold raiseIf
      split <;> exact ⟨rfl, rfl, rfl, rfl, rfl⟩)

end Sys2Proof.Machine
end

section
/-! # Settling the answers to a frame (O52) -/

namespace Sys2Proof.Machine

/-- The buffer count a message gives, limited to the maximum of the last READY (R123). -/
theorem bufferCount_eq (r : Radio) (b : Byte) :
    r.bufferCount b = if b.toNat ≤ r.maxBuffers.toNat then b else r.maxBuffers := by
  unfold Radio.bufferCount
  by_cases h : b.toNat ≤ r.maxBuffers.toNat
  · rw [if_pos h, if_neg (BitVec.not_lt.mpr h)]
  · rw [if_neg h, if_pos (BitVec.not_le.mp h)]

theorem discardParts_radio (r : Discard) (is : List Nat) (p : Part) : (discardParts r is p).radio = p.radio := by
  rw [discardParts_only]

theorem discardParts_path (r : Discard) (is : List Nat) (p : Part) : (discardParts r is p).path = p.path := by
  rw [discardParts_only]

theorem discardParts_clock (r : Discard) (is : List Nat) (p : Part) : (discardParts r is p).clock = p.clock := by
  rw [discardParts_only]

/-! ### The frame an answer is about (R127) -/

theorem takeUpAccept_some {link : BitVec 16} {p : Part} {e : Sent} (buffers : Byte) (h : p.sentUnder link = some e) :
    takeUpAccept link buffers p = acceptSent e buffers p := by
  unfold takeUpAccept
  rw [h]

theorem takeUpAccept_none {link : BitVec 16} {p : Part} (buffers : Byte) (h : p.sentUnder link = none) :
    takeUpAccept link buffers p = linkError p := by
  unfold takeUpAccept
  rw [h]

theorem takeUpReject_some {link : BitVec 16} {p : Part} {e : Sent} (reason : Byte) (h : p.sentUnder link = some e) :
    takeUpReject link reason p = rejectSent e reason p := by
  unfold takeUpReject
  rw [h]

theorem takeUpReject_none {link : BitVec 16} {p : Part} (reason : Byte) (h : p.sentUnder link = none) :
    takeUpReject link reason p = linkError p := by
  unfold takeUpReject
  rw [h]

theorem exec_acceptTimer (link : BitVec 16) (s : State) : exec (.acceptTimerExpiry link) s =
    .next (s.having ((s.part.sentUnder link).elim s.part fun e =>
      if Timer.due e.accept s.part.clock.now then closeEvent s.part (acceptExpires e s.part) else s.part)) := by
  show execAcceptTimerExpiry link s = _
  unfold execAcceptTimerExpiry act
  dsimp only
  cases s.part.sentUnder link <;> rfl

/-- An event that leaves what can start a request to detach as it was. -/
theorem answer_leaves {b x p : Part} (hc : x.radio.control = p.radio.control) (hl : x.radio.lane = p.radio.lane) :
    EventEnds x (closeEvent b x) ∧ Examined x (closeEvent b x) ∧ (p.Stays → (closeEvent b x).path = x.pathDrained) :=
  ⟨closeEvent_ends b x, examined_close b x, fun stays => closeEvent_pathDrained hc (by rw [hl]) stays⟩

/-- Settles O52: each answer takes its frame from the list, and from ATTACHED may cost the module. -/
theorem answers : Obligations.Answers := by
  intro link buffers reason e s p r now deaf attached due unmatched matched rest limited heard error accepted rejected n
    expired leaves loses
  let y : Part := { p with radio := heard }
  have found (h : matched) : p.sentUnder link = some e := h
  have same (h : matched) : e.link = link :=
    of_decide_eq_true (List.find?_some (p := fun x : Sent => decide (x.link = link)) h)
  have unknown (h : unmatched) : p.sentUnder link = none :=
    List.find?_eq_none.mpr fun x hx => by simpa using h x hx
  have accepts {Q : Part → Prop} (hd : ¬deaf) (hq : Q (closeEvent p (takeUpAccept link buffers y))) :
      Leads (.upAccept link buffers) s Q := leads_heard rfl hd hq
  have rejects {Q : Part → Prop} (hd : ¬deaf) (hq : Q (closeEvent p (takeUpReject link reason y))) :
      Leads (.upReject link reason) s Q := leads_heard rfl hd hq
  have hears (h : attached) : ¬deaf := by simp [deaf, show r.state = .attached from h]
  have dropped (h : matched) (q : Part) (hq : q.radio.outstanding = r.outstanding) :
      dropSent e.link q = { q with radio := { q.radio with outstanding := rest } } := by
    unfold dropSent
    rw [same h, hq]
    rfl
  have kept : rejected.radio = { heard with outstanding := rest, timeouts := 0 } := discardParts_radio ..
  have lasts : expired.radio = { r with outstanding := rest, timeouts := n } := discardParts_radio ..
  have refused (h : matched) : rejectSent e reason y = if reason = 3 ∧ attached then moduleToIdle rejected else rejected := by
    have left : discardParts .moduleReject e.frame.parts
        ((dropSent e.link y).withRadio { (dropSent e.link y).radio with timeouts := 0 }) = rejected := by
      rw [dropped h y rfl]
      rfl
    unfold rejectSent
    dsimp only
    rw [left]
    have on : rejected.attached = true ↔ attached := decide_eq_true_iff.trans (by rw [kept])
    exact if_congr (and_congr_right fun _ => on) rfl rfl
  have timeout (h : matched) : acceptExpires e p =
      if n = 3 ∧ attached then moduleTo .recovering expired else expired := by
    have left : count .acceptTimeouts 1 ((discardParts .linkTimeout e.frame.parts (dropSent e.link p)).withRadio
        { (discardParts .linkTimeout e.frame.parts (dropSent e.link p)).radio with timeouts := n }) = expired := by
      rw [dropped h p rfl, discardParts_radio]
      simp only [expired]
      rw [discardParts_withRadio, discardParts_withRadio]
      rfl
    have count : min 3 ((discardParts .linkTimeout e.frame.parts (dropSent e.link p)).radio.timeouts + 1) = n := by
      rw [discardParts_radio]
      rfl
    unfold acceptExpires
    dsimp only
    rw [count, left]
    have on : expired.attached = true ↔ attached := decide_eq_true_iff.trans (by rw [lasts])
    exact if_congr (and_congr_right fun _ => on) rfl rfl
  refine ⟨fun h => ⟨exec_deaf (i := .upAccept link buffers) rfl h, exec_deaf (i := .upReject link reason) rfl h⟩,
    fun hd h => ⟨accepts hd ?_, rejects hd ?_⟩, fun hd h => accepts hd ?_, fun hd h ho => rejects hd ?_,
    fun h h3 ha => rejects (hears ha) ?_, fun h => ?_, fun h hd ho => ?_, fun h hd hn ha => ?_⟩
  · rw [takeUpAccept_none buffers (p := y) (unknown h)]
    exact answer_leaves rfl rfl
  · rw [takeUpReject_none reason (p := y) (unknown h)]
    exact answer_leaves rfl rfl
  · have taken : takeUpAccept link buffers y = accepted := by
      rw [takeUpAccept_some buffers (p := y) (found h)]
      unfold acceptSent
      rw [dropped h y rfl]
      simp only [accepted, limited]
      rw [← bufferCount_eq]
      rfl
    rw [taken]
    exact answer_leaves rfl rfl
  · rw [takeUpReject_some reason (p := y) (found h), refused h, if_neg fun k => ho.elim (· k.1) (· k.2)]
    exact answer_leaves (by rw [kept]) (by rw [kept])
  · rw [takeUpReject_some reason (p := y) (found h), refused h, if_pos ⟨h3, ha⟩]
    obtain ⟨ends, keeps, path, state, attempts⟩ := idle_leads (b := p) (y := rejected) (by rw [kept]; exact ha)
    have air (hp : p.DrainsOnAir) : rejected.DrainsOnAir := by
      intro c hc
      rw [discardParts_path] at hc
      refine ⟨by rw [kept]; exact ha, ?_⟩
      rw [discardParts_path]
      exact (hp c hc).2
    refine ⟨ends, keeps, fun hp => path (air hp), ?_, attempts⟩
    rw [kept] at state
    exact state
  · obtain h | ⟨h, hd⟩ := h
    · exact exec_missing (exec_acceptTimer link s) (unknown h)
    · rw [exec_found (exec_acceptTimer link s) (found h), if_neg (mt (due_iff ..).mp hd)]
      rfl
  · refine leads_found (exec_acceptTimer link s) (found h) ?_
    rw [if_pos ((due_iff ..).mpr hd), timeout h, if_neg fun k => ho.elim (fun h => absurd k.1 (by omega)) (· k.2)]
    exact answer_leaves (by rw [lasts]) (by rw [lasts])
  · intro z
    refine leads_found (exec_acceptTimer link s) (found h) ?_
    rw [if_pos ((due_iff ..).mpr hd), timeout h, if_pos ⟨hn, ha⟩]
    have clock : expired.clock = p.clock := discardParts_clock ..
    have command : p.command = expired.command := by
      simp only [expired, count_command]
      rw [discardParts_only]
    obtain ⟨ends, keeps, radio, path, -⟩ := down_leads (new := .recovering) rfl p expired command
    rw [clock] at ends keeps radio path
    have path' : expired.path = p.path := discardParts_path ..
    have air (hp : p.DrainsOnAir) : expired.DrainsOnAir := by
      intro c hc
      rw [path'] at hc
      refine ⟨by rw [lasts]; exact ha, ?_⟩
      rw [path']
      exact (hp c hc).2
    exact ⟨ends, keeps, fun hp => (path (air hp)).trans (if_pos (by rw [lasts]; exact ha)), radio⟩

end Sys2Proof.Machine
end

section
/-! # Settling received messages and the coding of messages (O53, O54) -/

namespace Sys2Proof.Machine

/-! ### A message as received (R121, R122) -/

theorem receiveRaw_some {m : RawMessage} {i : Inbound} (h : checkMessage m = some i) (p : Part) :
    receiveRaw m p = received (takeMessage i) p := by
  unfold receiveRaw
  rw [h]

theorem receiveRaw_none {m : RawMessage} (h : checkMessage m = none) (p : Part) :
    receiveRaw m p = if p.radio.state.receives then linkError p else p := by
  unfold receiveRaw
  rw [h]

/-- A message that has passed its checks acts as the row of its type (R122). -/
theorem exec_row (i : Inbound) (s : State) (h : ∀ c f, i = .dataDown c f → f.length ≤ 1536) :
    exec i.row s = .next (s.having (received (takeMessage i) s.part)) := by
  cases i
  case dataDown c f =>
    have short := h c f rfl
    exact congrArg (fun q => Host.Outcome.next (s.having q)) (if_neg (show ¬1536 < f.length by omega))
  all_goals rfl

theorem messageDropped_acts {m : RawMessage} {i : Inbound} (h : checkMessage m = some i) (s : State) :
    exec (.messageDropped m) s = exec i.row s := by
  rw [exec_row i s fun c f hi => checkMessage_short (h.trans (congrArg some hi))]
  exact congrArg (fun q => Host.Outcome.next (s.having q)) (receiveRaw_some h s.part)

theorem receives_iff (m : Module) : m.receives = true ↔ ¬(m = .absent ∨ m = .off ∨ m = .recovering) := by
  cases m <;> decide

/-- Settles O53: the message is dropped by its checks, or read. -/
theorem messages : Obligations.Messages := by
  intro m s p deaf
  have dropped (h : checkMessage m = none) : exec (.messageDropped m) s =
      .next (s.having (if p.radio.state.receives then linkError p else p)) :=
    congrArg (fun q => Host.Outcome.next (s.having q)) (receiveRaw_none h p)
  refine ⟨fun hd => ?_, fun hd hm => ?_, fun hm => ?_⟩
  · cases h : checkMessage m with
    | none =>
      rw [dropped h, if_neg fun k => (receives_iff _).mp k hd]
      rfl
    | some i =>
      refine exec_deaf (f := takeMessage i) ?_ hd
      exact congrArg (fun q => Host.Outcome.next (s.having q)) (receiveRaw_some h p)
  · have fails : checkMessage m = none := by
      cases h : checkMessage m with
      | none => rfl
      | some i => exact absurd ((checkMessage_some m).mpr (by rw [h]; rfl)) hm
    rw [dropped fails, if_pos ((receives_iff _).mpr hd)]
    rfl
  · obtain ⟨i, h⟩ := Option.isSome_iff_exists.mp ((checkMessage_some m).mp hm)
    exact ⟨i, h, messageDropped_acts h s⟩

/-! ### Reading a field back (R119) -/

theorem leNat_leBytes (n v : Nat) : leNat (leBytes n v) = v % 256 ^ n := by
  induction n generalizing v with
  | zero => simp [leBytes, leNat, Nat.mod_one]
  | succ n ih =>
    unfold leBytes leNat
    rw [ih, BitVec.toNat_ofNat, Nat.pow_succ' (n := n), Nat.mod_mul]

theorem beBytes_length (n v : Nat) : (beBytes n v).length = n := by
  unfold beBytes
  rw [List.length_reverse, leBytes_length]

/-- A field written at place `i` is read there. -/
theorem field_beBytes {bs front rest : List Byte} {i n v : Nat} (hbs : bs = front ++ (beBytes n v ++ rest))
    (h : front.length = i) : field bs i n = v % 256 ^ n := by
  subst hbs h
  unfold field
  rw [slice_append_right (Nat.le_refl _), Nat.sub_self, slice_append_left (beBytes_length n v)]
  unfold beNat beBytes
  rw [List.reverse_reverse, leNat_leBytes]

theorem field_first (n v : Nat) (rest : List Byte) : field (beBytes n v ++ rest) 0 n = v % 256 ^ n :=
  field_beBytes (front := []) rfl rfl

theorem ofNat_read {w n : Nat} (v : BitVec w) (h : 256 ^ n = 2 ^ w) : BitVec.ofNat w (v.toNat % 256 ^ n) = v := by
  rw [h, Nat.mod_eq_of_lt v.isLt, BitVec.ofNat_toNat, BitVec.setWidth_eq]

/-- The fields of a carriage header read back, and the frame after it (R119). -/
theorem readPayload_carriage (link : BitVec 16) (h : Carriage) {frame : List Byte} (hf : frame.length ≤ 1536) :
    readPayload 0x90 link (carriagePayload h frame) = some (.dataDown h frame) := by
  obtain ⟨serviceId, cls, sequence⟩ := h
  obtain ⟨pl, hpl⟩ : ∃ pl, pl = carriagePayload ⟨serviceId, cls, sequence⟩ frame := ⟨_, rfl⟩
  have whole : pl = (beBytes 4 serviceId.toNat ++ [cls, 0] ++ beBytes 2 sequence.toNat ++ beBytes 2 frame.length ++ [0, 0]) ++
      frame := hpl
  have length : pl.length = 12 + frame.length := by
    rw [whole]
    simp only [List.length_append, beBytes_length, List.length_cons, List.length_nil]
  have id : field pl 0 4 = serviceId.toNat % 256 ^ 4 :=
    field_beBytes (front := []) (by simp only [whole, List.append_assoc]; rfl) rfl
  have seq : field pl 6 2 = sequence.toNat % 256 ^ 2 :=
    field_beBytes (front := beBytes 4 serviceId.toNat ++ [cls, 0]) (by simp only [whole, List.append_assoc]; rfl)
      (by rw [List.length_append, beBytes_length]; rfl)
  have size : field pl 8 2 = frame.length % 256 ^ 2 :=
    field_beBytes (front := beBytes 4 serviceId.toNat ++ [cls, 0] ++ beBytes 2 sequence.toNat)
      (by simp only [whole, List.append_assoc]; rfl) (by simp only [List.length_append, beBytes_length]; rfl)
  have class_ : pl.getD 4 0 = cls := by
    have front := (beBytes_length 4 serviceId.toNat).le
    rw [whole]
    simp only [List.append_assoc]
    rw [List.getD_append_right _ _ _ _ front, beBytes_length]
    rfl
  have rest : pl.drop 12 = frame := by
    rw [whole]
    exact List.drop_left' (by simp only [List.length_append, beBytes_length]; rfl)
  rw [← hpl]
  show (if 12 ≤ pl.length ∧ field pl 8 2 = pl.length - 12 then
    some (Inbound.dataDown ⟨BitVec.ofNat 32 (field pl 0 4), pl.getD 4 0, BitVec.ofNat 16 (field pl 6 2)⟩ (pl.drop 12))
    else none) = _
  rw [if_pos ⟨by omega, by rw [size, length, Nat.mod_eq_of_lt (by omega)]; omega⟩, id, seq, class_, rest,
    ofNat_read _ (by decide), ofNat_read _ (by decide)]

/-- Every inbound message is read as the kind it is, with its fields (R119 to R121). -/
theorem checkMessage_encode (i : Inbound) (link : BitVec 16) (h : ∀ c f, i = .dataDown c f → f.length ≤ 1536) :
    checkMessage { bytes := i.encode link, stopBits := true } = some i := by
  have read {type : Byte} {link : BitVec 16} {pl : List Byte} (hl : pl.length ≤ 1548)
      (hr : readPayload type link pl = some i) :
      checkMessage { bytes := message type link pl, stopBits := true } = some i :=
    (checkMessage_message type link pl hl).trans hr
  cases i
  case ready fw mb =>
    refine read (by simp [beBytes_length]) ?_
    show (if (beBytes 4 fw.toNat ++ [mb]).length = 5 then
      some (Inbound.ready (BitVec.ofNat 32 (field (beBytes 4 fw.toNat ++ [mb]) 0 4)) mb) else none) = _
    rw [if_pos (by simp [beBytes_length]), field_first, ofNat_read _ (by decide)]
  case attachOk sid g b =>
    refine read (by simp [beBytes_length]) ?_
    show (if (beBytes 4 sid.toNat ++ beBytes 2 g.toNat ++ [b]).length = 7 then
      some (Inbound.attachOk (BitVec.ofNat 32 (field (beBytes 4 sid.toNat ++ beBytes 2 g.toNat ++ [b]) 0 4))
        (BitVec.ofNat 16 (field (beBytes 4 sid.toNat ++ beBytes 2 g.toNat ++ [b]) 4 2)) b) else none) = _
    rw [if_pos (by simp [beBytes_length]), List.append_assoc, field_first,
      field_beBytes (i := 4) rfl (beBytes_length ..), ofNat_read _ (by decide), ofNat_read _ (by decide)]
  case signalReport q g b =>
    refine read (by simp [beBytes_length]) ?_
    show (if ([q] ++ beBytes 2 g.toNat ++ [b]).length = 4 then
      some (Inbound.signalReport q (BitVec.ofNat 16 (field ([q] ++ beBytes 2 g.toNat ++ [b]) 1 2)) b) else none) = _
    rw [if_pos (by simp [beBytes_length]), List.append_assoc, field_beBytes (i := 1) (front := [q]) rfl rfl, ofNat_read _ (by decide)]
  case dataDown c f =>
    have short := h c f rfl
    refine read ?_ (readPayload_carriage link c short)
    unfold carriagePayload
    simp only [List.length_append, beBytes_length, List.length_cons, List.length_nil]
    omega
  all_goals exact read (by simp) rfl

/-! ### What the part sends (R119) -/

/-- Settles O54: the line carries ten bits to a byte and the gap; what the module sends is read back. -/
theorem messageCoding : Obligations.MessageCoding := by
  refine ⟨fun p t ht => ?_, fun i link s h => ?_⟩
  · intro bits n
    have line : bits = messageOnLine t.bytes := by
      simp only [bits]
      unfold Part.sending
      rw [ht]
    have bytes := bytesOnLine_length t.bytes
    have bit (i k : Nat) (b : Byte) (hi : t.bytes[i]? = some b) (hk : k < 10) : bits[10 * i + k]? = (byteOnLine b)[k]? := by
      have inside := (List.getElem?_eq_some_iff.mp hi).1
      rw [line]
      unfold messageOnLine
      rw [List.getElem?_append_left (by omega)]
      exact bytesOnLine_bit hi hk
    have length : bits.length = 10 * n + 400 := by
      rw [line]
      exact messageOnLine_length _
    refine ⟨fun i b hi => ⟨bit i 0 b hi (by omega), fun j hj => ?_, bit i 9 b hi (by omega)⟩, fun k hk hlt => ?_, length, ?_⟩
    · rw [Nat.add_assoc, bit i (1 + j) b hi (by omega)]
      unfold byteOnLine
      rw [Nat.add_comm, List.cons_append, List.getElem?_cons_succ, List.getElem?_append_left (by simpa using hj)]
      simp [hj]
    · rw [line]
      unfold messageOnLine
      rw [List.getElem?_append_right (by omega), List.getElem?_replicate, if_pos]
      rw [bytes]
      show k - 10 * n < 400
      omega
    · rw [line]
      exact transferNanoseconds_line _
  · have read := checkMessage_encode i link h
    exact ⟨read, messageDropped_acts read s⟩

end Sys2Proof.Machine
end

section
/-! # Settling the outbound lane (O56) -/

namespace Sys2Proof.Machine

/-! ### The rows of the lane (log 4, log 14) -/

theorem exec_attachReqStart {s : State} {profile : Nat} (hl : s.part.radio.lane = none)
    (hc : s.part.radio.control = some (.attachReq profile)) (hs : s.part.radio.state = .attaching) :
    exec .attachReqStart s = .next (s.having (closeEvent s.part (startAttachReq profile s.part))) := by
  show execAttachReqStart s = _
  unfold execAttachReqStart act
  dsimp only
  rw [hl, hc]
  exact congrArg (fun q => Host.Outcome.next (s.having q)) (if_pos hs)

theorem exec_attachReqStart_not {s : State} (h : ∀ profile, ¬(s.part.radio.lane = none ∧
    s.part.radio.control = some (.attachReq profile) ∧ s.part.radio.state = .attaching)) :
    exec .attachReqStart s = .next s := by
  show execAttachReqStart s = _
  unfold execAttachReqStart act
  dsimp only
  cases hl : s.part.radio.lane with
  | some t => rfl
  | none =>
    cases hc : s.part.radio.control with
    | none => rfl
    | some request =>
      cases request with
      | detachReq forced => rfl
      | attachReq profile =>
        dsimp only
        rw [if_neg fun hs => h profile ⟨hl, hc, hs⟩]

theorem exec_detachReqStart {s : State} {forced : Bool} (hl : s.part.radio.lane = none)
    (hc : s.part.radio.control = some (.detachReq forced)) (hs : s.part.radio.state = .attached) :
    exec .detachReqStart s = .next (s.having (closeEvent s.part (startDetachReq s.part))) := by
  show execDetachReqStart s = _
  unfold execDetachReqStart act
  dsimp only
  rw [hl, hc]
  exact congrArg (fun q => Host.Outcome.next (s.having q)) (if_pos (decide_eq_true hs))

theorem exec_detachReqStart_not {s : State} (h : ∀ forced, ¬(s.part.radio.lane = none ∧
    s.part.radio.control = some (.detachReq forced) ∧ s.part.radio.state = .attached)) :
    exec .detachReqStart s = .next s := by
  show execDetachReqStart s = _
  unfold execDetachReqStart act
  dsimp only
  cases hl : s.part.radio.lane with
  | some t => rfl
  | none =>
    cases hc : s.part.radio.control with
    | none => rfl
    | some request =>
      cases request with
      | attachReq profile => rfl
      | detachReq forced =>
        dsimp only
        rw [if_neg fun hs : s.part.attached = true => h forced ⟨hl, hc, of_decide_eq_true hs⟩]

theorem exec_transferEnd (s : State) : exec .transferEnd s =
    .next (s.having (s.part.radio.lane.elim s.part fun t => closeEvent s.part (endTransfer t s.part))) := by
  show execTransferEnd s = _
  unfold execTransferEnd act
  dsimp only
  cases s.part.radio.lane <;> rfl

/-! ### The end of a transfer (R114, R119, R126) -/

/-- The radio link controller as a transfer ends: the lane is free and the timer it owes runs (R114, R126). -/
def Radio.ended (t : Transfer) (now : Nat) (r : Radio) : Radio :=
  { r with
    lane := none
    answer := if t.owes = .answer then some (now + 30000) else r.answer
    outstanding := r.outstanding.map fun e =>
      if t.owes = .accept e.link then { e with accept := some (now + 200) } else e }

theorem endTransfer_ended (t : Transfer) (p : Part) :
    endTransfer t p = { p with radio := p.radio.ended t p.clock.now } := by
  unfold endTransfer startOwed Radio.ended
  cases t.owes with
  | nothing => simp [Part.withRadio]
  | answer => simp [Part.withRadio, Part.after, answerTime]
  | accept link => simp [Part.withRadio, Part.after, acceptTime, eq_comm]

theorem ended_frames (t : Transfer) (now : Nat) (r : Radio) :
    (r.ended t now).outstanding.map Sent.frame = r.outstanding.map Sent.frame := by
  unfold Radio.ended
  rw [List.map_map]
  refine List.map_congr_left fun e _ => ?_
  dsimp only [Function.comp]
  split <;> rfl

/-- While an answer is awaited and nothing is pending, settling changes demand and its timer alone. -/
theorem settle_awaiting {x : Part} (hs : x.radio.state = .attaching) (hp : x.radio.phase = .awaiting)
    (hc : x.radio.control = none) :
    (settle x).radio = { x.radio with demand := (settle x).radio.demand, linger := (settle x).radio.linger } := by
  have forced : reviewForced x = x := if_neg fun h => by rw [hc] at h; cases h.1
  have acts : (settle x).radio = (demandActs (x.withRadio (demandAfter x))).radio := by
    show (reviewDemand (reviewForced x)).radio = _
    rw [forced]
    rfl
  have same := demandAfter_eq x
  have stays : demandActs (x.withRadio (demandAfter x)) = x.withRadio (demandAfter x) := by
    unfold demandActs
    dsimp only [withRadio_radio]
    rw [show (demandAfter x).state = .attaching by rw [same]; exact hs,
      show (demandAfter x).phase = .awaiting by rw [same]; exact hp]
    split <;> rfl
  rw [acts, stays]
  exact same

theorem closeEvent_awaiting {b x : Part} (hs : x.radio.state = .attaching) (hp : x.radio.phase = .awaiting)
    (hc : x.radio.control = none) : (closeEvent b x).radio =
      { x.radio with demand := (closeEvent b x).radio.demand, linger := (closeEvent b x).radio.linger } := by
  rw [closeEvent_radio]
  have start := returnDrained_radio x
  generalize returnDrained x = z at *
  rw [← start] at hs hp hc ⊢
  have settled := settle_awaiting hs hp hc
  have quiet : takeLane (settle z) = settle z :=
    takeLane_quiet (by rw [settled]; show z.radio.state ≠ _; rw [hs]; nofun) (by rw [settled]; exact hc)
  rw [quiet]
  exact settled

/-- Demand has no move to make outside ATTACHED where a series or its wait goes on, or nothing is wanted (R113). -/
theorem demandActs_rests {x : Part} (hs : x.radio.state ≠ .attached)
    (h1 : x.radio.state = .idle → x.radio.demand = true → x.radio.reattempt.isSome = true)
    (h2 : x.radio.state = .idle → x.radio.demand = false → x.radio.reattempt = none)
    (h3 : x.radio.state = .attaching → x.radio.phase = .awaiting ∨ x.radio.demand = true) :
    (demandActs x).radio = x.radio := by
  cases state : x.radio.state with
  | idle =>
    rw [demandActs_idle state]
    cases demand : x.radio.demand with
    | true =>
      rw [if_pos rfl, if_neg (Option.isSome_iff_ne_none.mp (h1 state demand))]
    | false =>
      rw [if_neg (by decide)]
      show ({ x.radio with reattempt := none } : Radio) = x.radio
      rw [← h2 state demand]
  | attaching =>
    obtain phase | demand := h3 state
    · unfold demandActs
      dsimp only
      rw [state, phase]
      split <;> rfl
    · rw [demandActs_waits state demand]
  | attached => exact absurd state hs
  | absent | off | starting | detaching | recovering =>
    unfold demandActs
    dsimp only
    rw [state]
    split <;> rfl

/-- A request to detach that is pending in ATTACHED, and stays so, takes the free lane (R117, R124). -/
theorem closeEvent_departs {b x : Part} {forced : Bool} (hs : x.radio.state = .attached) (hl : x.radio.lane = none)
    (hc : x.radio.control = some (.detachReq forced)) (follows : x.DemandFollows) (hu : returnDrained x = x)
    (hf : if forced = true then
        x.path.service ≠ .radio ∧ x.path.service ≠ .proving ∧ x.path.service ≠ .forcedRadio
      else x.radio.demand = false) :
    (closeEvent b x).radio = { x.radio.departs x.clock.now with
      demand := (closeEvent b x).radio.demand, linger := (closeEvent b x).radio.linger } := by
  have settled : ∃ d l, (settle x).radio = { x.radio with demand := d, linger := l } := by
    cases forced with
    | true =>
      obtain ⟨h1, h2, h3⟩ := hf
      exact ⟨_, _, (settle_steady (fun h => h.2.elim h1 fun h => h.elim h2 h3) (.inl ⟨hs, hc⟩)).2⟩
    | false =>
      have off : x.radio.demand = false := hf
      have rests : demandActs x = x := by
        unfold demandActs
        dsimp only
        rw [off, hs, hc]
        rfl
      refine ⟨x.radio.demand, x.radio.linger, ?_⟩
      rw [settle_same follows (by rw [hc]; nofun), rests]
  obtain ⟨d, l, settled⟩ := settled
  have clock := settle_clock x
  have closed : (closeEvent b x).radio = (takeLane (settle x)).radio := by rw [closeEvent_radio, hu]
  have begun := startDetachReq_radio (settle x)
  have lane : takeLane (settle x) = settle (startDetachReq (settle x)) := by
    unfold takeLane
    rw [settled]
    dsimp only
    rw [hl, hc]
    exact if_pos (decide_eq_true (by rw [settled]; exact hs))
  have steady := (settle_steady (p := startDetachReq (settle x)) (fun h => by rw [begun] at h; cases h.1)
    (.inr (by rw [begun]; exact ⟨nofun, nofun, nofun⟩))).2
  rw [begun, settled, clock] at steady
  rw [closed, lane]
  exact steady

/-- Settles O56: a pending request begins, or a transfer ends and what is pending takes the lane. -/
theorem lane_holds : Obligations.Lane := by
  intro s p r now asked leaving
  refine ⟨fun profile h => ?_, exec_attachReqStart_not, fun forced h => ?_, exec_detachReqStart_not,
    exec_missing (exec_transferEnd s), fun t ht => leads_found (exec_transferEnd s) ht ?_⟩
  · obtain ⟨hl, hc, hs⟩ := h
    refine ⟨_, exec_attachReqStart hl hc hs, closeEvent_ends .., closeEvent_keeps _ (.inl rfl), ?_⟩
    exact closeEvent_requested (x := { p with radio := r.requests profile now }) hs rfl rfl rfl
  · obtain ⟨hl, hc, hs⟩ := h
    exact ⟨_, exec_detachReqStart hl hc hs, departs_leads hs⟩
  · intro y x
    have left : endTransfer t p = x := endTransfer_ended t p
    have still (drained : p.NoneDrained) : x.NoneDrained := fun c hd => by
      rw [show x.sentOf c = p.sentOf c from congrArg (List.filter _) (ended_frames t now r)]
      exact drained c hd
    rw [left]
    refine ⟨closeEvent_ends .., examined_close .., fun hc drained => ?_, fun hc hs hi hp => ?_, fun hc hs follows drained h1 h2 h3 => ?_,
      fun follows air profile hc hs hd => ?_, fun follows drained forced hc hs hf => ?_⟩
    · rw [closeEvent_path_stays (p := x) (.inl hc), returnDrained_keeps (still drained)]
    · by_cases attaching : r.state = .attaching
      · exact closeEvent_awaiting (x := x) attaching (hp attaching) hc
      · exact (closeEvent_down (z := x) hi attaching hs hc).1
    · exact closeEvent_acts (z := x) (follows.of_eq rfl rfl rfl) (by rw [show x.radio.control = none from hc]; nofun)
        (returnDrained_keeps (still drained)) (demandActs_rests hs h1 h2 h3) hc hs
    · have open_ : ¬y.lane.isSome = true := nofun
      refine (closeEvent_pending (x := x) hs hc hd (follows.of_eq rfl rfl rfl) (undrained_of (p := p) rfl ?_ air)).trans (if_neg open_)
      rw [show p.radio.state = .attaching from hs]
      nofun
    · exact closeEvent_departs (x := x) hs rfl hc (follows.of_eq rfl rfl rfl) (returnDrained_keeps (still drained)) hf

end Sys2Proof.Machine
end

section
/-! # Settling grants and the attach (O51) -/

namespace Sys2Proof.Machine

/-! ### A grant sheds (R80, R164) -/

/-- The queues of the classes a grant newly sheds are discarded (R164, R179). -/
def Part.shedTo (new was : PerClass Bool) (p : Part) : Part :=
  Part.unqueued .shed (fun c => new.get c && !was.get c) { p with relay := { p.relay with shed := new } }

theorem shedTo_path (new was : PerClass Bool) (p : Part) : (p.shedTo new was).path = p.path := unqueued_path ..

theorem shedTo_radio (new was : PerClass Bool) (p : Part) : (p.shedTo new was).radio = p.radio := unqueued_radio ..

theorem shedTo_shed (new was : PerClass Bool) (p : Part) : (p.shedTo new was).relay.shed = new := unqueued_shed ..

theorem shedTo_queues (new was : PerClass Bool) (p : Part) (c : ServiceClass) :
    (p.shedTo new was).relay.queues.get c = if new.get c && !was.get c then [] else p.relay.queues.get c :=
  unqueued_queues ..

/-- A change of shed status moves the path controller, and counts where it ends RETURNING (R80, R93, R164). -/
theorem applyShedding_moves {p : Part} (he : p.FibreIsEmpty) :
    let x := p.shedTo (shedBy p.radio.grant.toNat p.relay.shed) p.relay.shed
    ∃ n, applyShedding p = count .returns n { x with path := x.pathShedding p.relay.shed } := by
  intro x
  have moved := pathShed_moves (was := p.relay.shed) (p := x) (fun c on off => ?_) (fun c hc => ?_)
  · obtain ⟨n, h⟩ := moved
    exact ⟨n, (applyShedding_eq p).trans h⟩
  · rw [shedTo_shed] at on
    rw [shedTo_queues, on, off]
    rfl
  · rw [shedTo_path] at hc
    rw [shedTo_queues, he c hc, ite_self]

/-- What a change of shed status leaves as the event ends. -/
theorem closeEvent_shed {b p : Part} (he : p.FibreIsEmpty) :
    let x := p.shedTo (shedBy p.radio.grant.toNat p.relay.shed) p.relay.shed
    let path := x.pathShedding p.relay.shed
    let q := closeEvent b (applyShedding p)
    EventEnds x q ∧ Examined { x with path := path } q ∧
      (p.Stays → p.NoneDrained → p.DrainsOnAir → q.path = path) := by
  intro x path q
  obtain ⟨n, moved⟩ := applyShedding_moves he
  let y : Part := { x with path := path }
  obtain ⟨ends, keeps⟩ := count_returns_ends n y
  have begun : EventEnds x y := ends_of_path rfl (path_frame (pathShedding_same ..))
  have closed : q = closeEvent b (count .returns n y) := congrArg (closeEvent b) moved
  rw [closed]
  refine ⟨begun.trans (ends.trans (closeEvent_ends ..)), (examined_close b _).of keeps rfl rfl rfl,
    fun stays drained air => ?_⟩
  have radio : x.radio = p.radio := shedTo_radio ..
  rw [closeEvent_path_stays (stays_of_radio (q := count .returns n y) radio stays), returnDrained_keeps]
  · rfl
  · intro c hc
    have kept := pathShedding_kept (p := x) (fun d hd => by rw [shedTo_path] at hd ⊢; exact (air d hd).2) hc
    rw [shedTo_path, shedTo_shed] at kept
    have queue : (count .returns n y).relay.queues.get c = p.relay.queues.get c := by
      refine (shedTo_queues ..).trans (if_neg ?_)
      simpa using kept.2
    rw [queue, sentOf_radio (p := p) (q := count .returns n y) radio]
    exact drained c kept.1

/-! ### The module enters ATTACHED (R115, R131, R170) -/

/-- The path controller as the module has entered ATTACHED (R87, R97). -/
def Part.pathJoined (p : Part) : Path :=
  match p.path.service with
  | .stranded => if p.path.verdict = .bad then p.pathRadio else p.path
  | .forcedRadio => p.pathForcedRadio
  | _ => p.path

theorem pathJoined_same (p : Part) : sameFive p.pathJoined p.path := by
  unfold Part.pathJoined
  cases p.path.service
  case stranded =>
    dsimp only
    split <;> exact ⟨rfl, rfl, rfl, rfl, rfl⟩
  all_goals exact ⟨rfl, rfl, rfl, rfl, rfl⟩

/-- No class drains once the module has entered ATTACHED from where none drained. -/
theorem pathJoined_calm {p : Part} (h : ∀ c, (p.path.classes.get c).sub ≠ .draining) (c : ServiceClass) :
    (p.pathJoined.classes.get c).sub ≠ .draining := by
  unfold Part.pathJoined
  cases p.path.service
  case stranded =>
    dsimp only
    split
    · exact (pathRadio_undrained p).1 c
    · exact h c
  case forcedRadio => exact (pathForcedRadio_undrained p).1 c
  all_goals exact h c

theorem pathAttached_joined (z : Part) : pathAttached z = { z with path := z.pathJoined } := by
  refine (pathAttached_moves z).trans (congrArg (fun y : Path => ({ z with path := y } : Part)) ?_)
  unfold Part.pathJoined
  cases z.path.service <;> rfl

/-- Outside the states that show shed status no path record follows it where no class drains (R80, R96). -/
theorem pathShedding_calm {was : PerClass Bool} {p : Part} (calm : ∀ c, (p.path.classes.get c).sub ≠ .draining)
    (h : p.path.service = .fibre ∨ p.path.service = .suspect ∨ p.path.service = .stranded ∨ p.path.service = .forcedFibre) :
    p.pathShedding was = p.path := by
  have still : (PerClass.ofFn fun c =>
      if was.get c != p.relay.shed.get c && p.relay.shed.get c && decide ((p.path.classes.get c).sub = .draining) then onFibre
      else p.path.classes.get c) = p.path.classes := by
    apply PerClass.ext_get
    intro c
    rw [PerClass.get_ofFn]
    exact if_neg (by simp [calm c])
  unfold Part.pathShedding
  obtain h | h | h | h := h
  · rw [h]
  · rw [h]
  · rw [h]
  · rw [h]
    dsimp only
    rw [still]

/-- In FORCED_RADIO shed status shows in the words alone (R96, R97). -/
theorem pathShedding_service {was : PerClass Bool} {p : Part} (h : p.path.service = .forcedRadio) :
    (p.pathShedding was).service = .forcedRadio := by
  unfold Part.pathShedding
  rw [h]
  dsimp only
  split <;> exact h

/-- Where the module attaches, shed status moves no path record before the attach itself does. -/
theorem pathJoined_shed {x z : Part} {was : PerClass Bool} (hz : z.path = x.pathShedding was) (hr : z.relay.shed = x.relay.shed)
    (ha : z.radio.state = x.radio.state) (calm : ∀ c, (x.path.classes.get c).sub ≠ .draining)
    (h1 : x.path.service ≠ .radio) (h2 : x.path.service ≠ .proving) (h3 : x.path.service ≠ .returning) :
    z.pathJoined = x.pathJoined := by
  by_cases forced : x.path.service = .forcedRadio
  · have zforced : z.path.service = .forcedRadio := by rw [hz, pathShedding_service forced]
    have same := inState_same (hz ▸ pathShedding_same was x) .forcedRadio fun c =>
      if x.radio.state = .attached then onRadio (x.relay.shed.get c) else blocked .noRadio
    unfold Part.pathJoined Part.pathForcedRadio
    rw [forced, zforced, hr, ha]
    exact same
  · have same : z.path = x.path := hz.trans (pathShedding_calm calm (by
      revert h1 h2 h3 forced
      cases x.path.service <;> simp))
    unfold Part.pathJoined Part.pathRadio Part.pathForcedRadio
    rw [same, hr, ha]

/-- The part as ATTACH_OK makes it, but for the path controller and the command slot (R115, R123, R170, R194). -/
def Part.joins (serviceId : BitVec 32) (grant : BitVec 16) (buffers : Byte) (p : Part) : Part :=
  Part.shedTo (shedBy grant.toNat ⟨false, false, false, false⟩) ⟨false, false, false, false⟩ { p with
    radio := { p.radio with
      state := .attached, phase := .none, answer := none, timeouts := 0, serviceId := serviceId
      grant := grant
      buffers := if buffers.toNat ≤ p.radio.maxBuffers.toNat then buffers else p.radio.maxBuffers
      lane := p.radio.lane.map unanswered }
    relay := { p.relay with credit := 8 * p.relay.depth }
    delivery := { p.delivery with expected := ⟨none, none, none, none⟩ } }

/-- The path controller as shed status and the attach leave it (R80, R87, R97). -/
def Part.pathAttach (x : Part) : Path :=
  Part.pathJoined { x with path := x.pathShedding ⟨false, false, false, false⟩ }

theorem pathAttach_same (x : Part) : sameFive x.pathAttach x.path := by
  obtain ⟨h1, h2, h3, h4, h5⟩ := pathJoined_same { x with path := x.pathShedding ⟨false, false, false, false⟩ }
  obtain ⟨k1, k2, k3, k4, k5⟩ := pathShedding_same ⟨false, false, false, false⟩ x
  exact ⟨h1.trans k1, h2.trans k2, h3.trans k3, h4.trans k4, h5.trans k5⟩

theorem enterAttached_joins (serviceId : BitVec 32) (grant : BitVec 16) (buffers : Byte) {p : Part} (he : p.FibreIsEmpty) :
    let x := p.joins serviceId grant buffers
    ∃ n, enterAttached serviceId grant buffers p =
      endAttach Result.done 0 (count .returns n { x with path := x.pathAttach }) := by
  intro x
  let full : Part := forgetSequences { p.withRadio { p.radio with
      state := .attached, phase := .none, answer := none, timeouts := 0, serviceId := serviceId,
      grant := grant, buffers := p.radio.bufferCount buffers, lane := p.radio.lane.map Transfer.noAnswer } with
    relay := { p.relay with credit := p.relay.top, shed := PerClass.ofFn fun _ => false } }
  have same : full.shedTo (shedBy full.radio.grant.toNat full.relay.shed) full.relay.shed = x := by
    simp only [x]
    unfold Part.joins
    rw [← bufferCount_eq, ← noAnswer_eq]
    rfl
  obtain ⟨n, moved⟩ := applyShedding_moves (p := full) he
  rw [same] at moved
  refine ⟨n, ?_⟩
  show endAttach Result.done 0 (pathAttached (applyShedding full)) = _
  rw [moved, pathAttached_joined]
  rfl

theorem joins_radio (serviceId : BitVec 32) (grant : BitVec 16) (buffers : Byte) (p : Part) :
    (p.joins serviceId grant buffers).radio = { p.radio with
      state := .attached, phase := .none, answer := none, timeouts := 0, serviceId := serviceId
      grant := grant
      buffers := if buffers.toNat ≤ p.radio.maxBuffers.toNat then buffers else p.radio.maxBuffers
      lane := p.radio.lane.map unanswered } := shedTo_radio ..

theorem joins_path (serviceId : BitVec 32) (grant : BitVec 16) (buffers : Byte) (p : Part) :
    (p.joins serviceId grant buffers).path = p.path := shedTo_path ..

theorem joins_command (serviceId : BitVec 32) (grant : BitVec 16) (buffers : Byte) (p : Part) :
    (p.joins serviceId grant buffers).command = p.command := unqueued_command ..

theorem endAttach_command (r b : Byte) (p : Part) : (endAttach r b p).command =
    if p.command.running = some .radioAttach then
      { p.command with running := none, result := r, data := padTo 16 (attachData b (r = Result.done) p.radio) }
    else p.command := by
  unfold endAttach
  split <;> rfl

/-- The end of the event in which the module, met ATTACHING, has entered ATTACHED. -/
theorem closeEvent_joins {b y p : Part} (serviceId : BitVec 32) (grant : BitVec 16) (buffers : Byte) (he : y.FibreIsEmpty)
    (hs : p.radio.state = .attaching) (hp : y.path = p.path) :
    let x := y.joins serviceId grant buffers
    let q := closeEvent b (enterAttached serviceId grant buffers y)
    let elsewhere := p.path.service ≠ .radio ∧ p.path.service ≠ .proving ∧ p.path.service ≠ .returning
    EventEnds x q ∧ (y.radio.lane.isSome = true → Keeps x q) ∧
      (p.DrainsOnAir → elsewhere → Examined { x with path := x.pathJoined } q) ∧
      (y.radio.control = none → (q.radio.demand = true → q.radio.state = .attached) ∧
        (p.DrainsOnAir → elsewhere → q.path = x.pathJoined)) ∧
      (y.command.running ≠ some .radioDetach → q.command =
        if y.command.running = some .radioAttach then
          { y.command with running := none, result := 0x01, data := padTo 16 (attachData 0 true x.radio) }
        else y.command) := by
  intro x q elsewhere
  obtain ⟨n, entered⟩ := enterAttached_joins serviceId grant buffers he
  have radio := joins_radio serviceId grant buffers y
  have path : x.path = p.path := (joins_path ..).trans hp
  let w : Part := { x with path := x.pathAttach }
  obtain ⟨counts, counted⟩ := count_returns_ends n w
  obtain ⟨ends, keeps⟩ := endAttach_ends Result.done 0 (count .returns n w)
  have begun : EventEnds x w := ends_of_path rfl (path_frame (pathAttach_same x))
  have closed : q = closeEvent b (endAttach Result.done 0 (count .returns n w)) := congrArg (closeEvent b) entered
  obtain ⟨z, hz⟩ : ∃ z, z = endAttach Result.done 0 (count .returns n w) := ⟨_, rfl⟩
  rw [← hz] at closed ends keeps
  have zradio : z.radio = x.radio := by rw [hz]; exact endAttach_radio ..
  have zpath : z.path = x.pathAttach := by rw [hz]; exact endAttach_path ..
  have joined (air : p.DrainsOnAir) (he : elsewhere) : x.pathAttach = x.pathJoined ∧
      ∀ c, (x.pathAttach.classes.get c).sub ≠ .draining := by
    have calm (c : ServiceClass) : (x.path.classes.get c).sub ≠ .draining := fun hc => by
      rw [path] at hc
      have on := (air c hc).1
      rw [hs] at on
      cases on
    obtain ⟨h1, h2, h3⟩ := he
    have same : x.pathAttach = x.pathJoined := pathJoined_shed rfl rfl rfl calm (by rw [path]; exact h1)
      (by rw [path]; exact h2) (by rw [path]; exact h3)
    exact ⟨same, fun c => by rw [same]; exact pathJoined_calm calm c⟩
  rw [closed]
  refine ⟨begun.trans (counts.trans (ends.trans (closeEvent_ends ..))), fun lane => ?_, fun air he => ?_, fun control => ⟨?_, fun air he => ?_⟩,
    fun running => ?_⟩
  · have lanes : z.radio.lane.isSome = true := by
      rw [zradio, radio]
      simpa using lane
    exact (keeps_of_path (z := w) rfl).trans (counted.trans (keeps.trans (closeEvent_keeps b (.inl lanes))))
  · rw [← (joined air he).1]
    exact (examined_close b z).of (x := w) (counted.trans keeps) zradio (ends.frame.clock.trans counts.frame.clock) zpath
  · have on : z.radio.control = none := by
      rw [zradio, radio]
      exact control
    exact closeEvent_stays_attached (by rw [zradio, radio]) on
  · have on : z.radio.control = none := by
      rw [zradio, radio]
      exact control
    have calm : returnDrained z = z := returnDrained_none fun c => by
      rw [zpath]
      exact (joined air he).2 c
    rw [closeEvent_path_stays (.inl (by rw [on]; nofun)), calm, zpath, (joined air he).1]
  · have answered : z.command = if y.command.running = some .radioAttach then
        { y.command with running := none, result := 0x01, data := padTo 16 (attachData 0 true x.radio) }
      else y.command := by
      have same : (count .returns n w).command = y.command := joins_command ..
      rw [hz, endAttach_command, same]
      rfl
    rw [closeEvent_command, answered]
    rw [answered]
    split
    · nofun
    · exact running

/-- Settles O51: a report that changes no grant, a grant that sheds, and the entry into ATTACHED. -/
theorem grants : Obligations.Grants := by
  intro quality buffers serviceId grant s p r now deaf awaited limited heard error reported sheds attached leaves
  let y : Part := { p with radio := heard }
  have signals {Q : Part → Prop} (hd : ¬deaf) (hq : Q (closeEvent p (takeSignal quality grant buffers y))) :
      Leads (.signalReport quality grant buffers) s Q := leads_heard rfl hd hq
  have attaches {Q : Part → Prop} (hd : ¬deaf) (hq : Q (closeEvent p (takeAttachOk serviceId grant buffers y))) :
      Leads (.attachOk serviceId grant buffers) s Q := leads_heard rfl hd hq
  have awaits_iff : y.awaiting = true ↔ awaited := by
    simp [Part.awaiting, awaited, y, heard, r]
  have hears {m : Module} (h : r.state = m) (hm : ¬(m = .absent ∨ m = .off ∨ m = .recovering)) : ¬deaf := by
    simpa only [deaf, h] using hm
  have unmoved {x : Part} (hx : x.path = p.path) (h1 : x.relay.queues = p.relay.queues)
      (h2 : x.radio.outstanding = r.outstanding) (h3 : x.radio.control = r.control) (h4 : x.radio.lane = r.lane) :
      EventEnds x (closeEvent p x) ∧ Examined { x with path := p.path } (closeEvent p x) ∧
        (p.Stays → p.NoneDrained → p.DrainsOnAir → (closeEvent p x).path = p.path) := by
    refine ⟨closeEvent_ends .., ?_, fun stays drained _ => path_kept hx h1 h2 h3 (by rw [h4]) stays drained⟩
    rw [← hx]
    exact examined_close ..
  have calms (h : r.state ≠ .starting) (same : ¬(r.grant ≠ grant ∧ r.state = .attached)) :
      takeSignal quality grant buffers y = reported := by
    refine (if_neg h).trans ((if_neg fun k => same ⟨k.1, of_decide_eq_true k.2⟩).trans ?_)
    simp only [reported, limited]
    rw [← bufferCount_eq]
    rfl
  have changes (on : r.state = .attached) (other : r.grant ≠ grant) :
      takeSignal quality grant buffers y = applyShedding reported := by
    refine (if_neg (by rw [show y.radio.state = .attached from on]; nofun)).trans
      ((if_pos ⟨other, decide_eq_true on⟩).trans (congrArg applyShedding ?_))
    simp only [reported, limited]
    rw [← bufferCount_eq]
    rfl
  refine ⟨fun h => ⟨exec_deaf (i := .signalReport quality grant buffers) rfl h, exec_deaf (i := .attachOk serviceId grant buffers) rfl h⟩,
    fun h => signals (hears h (by decide)) ?_, fun hd h => attaches hd ?_, fun hd h o => signals hd ?_,
    fun h o he => signals (hears h (by decide)) ?_, ?_⟩
  · rw [show takeSignal quality grant buffers y = error from if_pos h]
    exact unmoved rfl rfl rfl rfl rfl
  · rw [show takeAttachOk serviceId grant buffers y = error from if_neg fun k => h (awaits_iff.mp k)]
    exact unmoved rfl rfl rfl rfl rfl
  · rw [calms h fun k => o.elim (· k.2) (k.1 ·)]
    exact unmoved rfl rfl rfl rfl rfl
  · rw [changes h o]
    exact closeEvent_shed (p := reported) he
  · intro joined elsewhere awaits he
    have same : { attached with path := joined } = { attached with path := attached.pathJoined } := by
      have path : attached.path = p.path := joins_path serviceId grant buffers y
      have moved : joined = attached.pathJoined := by
        cases service : p.path.service <;> simp only [joined, Part.pathJoined, path, service]
      rw [moved]
    refine attaches (hears awaits.1 (by decide)) ?_
    rw [show takeAttachOk serviceId grant buffers y = enterAttached serviceId grant buffers y from
      if_pos (awaits_iff.mpr awaits)]
    obtain ⟨ends, keeps, examined, freely, command⟩ :=
      closeEvent_joins (b := p) (y := y) (p := p) serviceId grant buffers he awaits.1 rfl
    refine ⟨ends, fun lane => keeps lane, fun air he => same ▸ examined air he, fun control => ?_, fun running => ?_⟩
    · obtain ⟨stays, moved⟩ := freely control
      exact ⟨stays, fun air h1 h2 h3 => (moved air ⟨h1, h2, h3⟩).trans (congrArg Part.path same).symm⟩
    · rw [command running, joins_radio]
      rfl

end Sys2Proof.Machine
end

section
/-! # Settling SET_RELAY (O36) -/

namespace Sys2Proof.Machine

/-! ### Discarding does not look at the channel monitor or the command unit -/

theorem discardFrames_withSlot (r : Discard) (fs : List Frame) (c : Channel) (d : Command) (p : Part) :
    discardFrames r fs { p with channel := c, command := d } =
      { discardFrames r fs p with channel := c, command := d } := by
  induction fs generalizing p with
  | nil => rfl
  | cons f fs ih =>
    have parts : discardParts r f.parts { p with channel := c, command := d } =
        { discardParts r f.parts p with channel := c, command := d } := by
      unfold discardParts raiseIf
      split <;> rfl
    rw [discardFrames_cons, discardFrames_cons, parts, ih]

theorem discardFrames_channel (r : Discard) (fs : List Frame) (p : Part) :
    (discardFrames r fs p).channel = p.channel := (discardFrames_frame r fs p).channel

/-! ### The frames the new age limits reach (R163, R181) -/

/-- The queued frames of class `c` that have reached their age limit. -/
def Part.aged (p : Part) (c : ServiceClass) : List Frame :=
  (p.relay.queues.get c).filter fun f => p.relay.ages.get c ≤ p.clock.now - f.enqueued

/-- The queued frames of class `c` that have not. -/
def Part.fresh (p : Part) (c : ServiceClass) : List Frame :=
  (p.relay.queues.get c).filter fun f => p.clock.now - f.enqueued < p.relay.ages.get c

theorem discardAged_eq (p : Part) (c : ServiceClass) :
    discardAged p c = discardFrames .aged (p.aged c) (setQueue c (p.fresh c) p) := by
  unfold discardAged
  refine congrArg (fun l => discardFrames .aged (p.aged c) (setQueue c l p)) (List.filter_congr fun f _ => ?_)
  rw [← decide_not]
  exact decide_eq_decide.mpr Nat.not_le

/-- A class after others: their frames are gone, and its own follow. -/
theorem discardAged_after (fs : List Frame) (p : Part) (c : ServiceClass) :
    discardAged (discardFrames .aged fs p) c = discardFrames .aged (fs ++ p.aged c) (setQueue c (p.fresh c) p) := by
  have relay := (discardFrames_path .aged fs p).2
  have clock := discardFrames_clock .aged fs p
  have aged : (discardFrames .aged fs p).aged c = p.aged c := by
    unfold Part.aged
    rw [relay, clock]
  have fresh : (discardFrames .aged fs p).fresh c = p.fresh c := by
    unfold Part.fresh
    rw [relay, clock]
  rw [discardAged_eq, aged, fresh, discardFrames_setQueue, discardFrames_append]

theorem discardAged_all (p : Part) : classes.foldl discardAged p =
    discardFrames .aged (p.aged .voice ++ p.aged .signal ++ p.aged .interactive ++ p.aged .bulk)
      { p with relay := { p.relay with queues := PerClass.ofFn p.fresh } } := by
  simp only [classes, List.foldl_cons, List.foldl_nil]
  rw [discardAged_eq p, discardAged_after, discardAged_after, discardAged_after]
  rfl

/-! ### SET_RELAY -/

/-- The relay with new settings, and the queued frames that have reached their new age limit discarded (R181). -/
def Part.relayed (limits ages : PerClass Nat) (depth : Nat) (p : Part) : Part :=
  let old (c : ServiceClass) : List Frame :=
    (p.relay.queues.get c).filter fun f => ages.get c ≤ p.clock.now - f.enqueued
  discardFrames .aged (old .voice ++ old .signal ++ old .interactive ++ old .bulk)
    { p with relay := { p.relay with
      limits := limits, ages := ages, depth := depth, credit := min p.relay.credit (8 * depth)
      queues := PerClass.ofFn fun c =>
        (p.relay.queues.get c).filter fun f => p.clock.now - f.enqueued < ages.get c } }

theorem takeRelay_eq (limits ages : PerClass Nat) (depth : Nat) (p : Part) :
    takeRelay limits ages depth p = p.relayed limits ages depth := discardAged_all _

theorem relayed_withSlot (limits ages : PerClass Nat) (depth : Nat) (c : Channel) (d : Command) (p : Part) :
    Part.relayed limits ages depth { p with channel := c, command := d } =
      { p.relayed limits ages depth with channel := c, command := d } :=
  discardFrames_withSlot .aged _ c d { p with relay := _ }

theorem relayEmpty_iff (p : Part) :
    p.relayEmpty = true ↔ p.radio.outstanding = [] ∧ ∀ c, p.relay.queues.get c = [] := by
  unfold Part.relayEmpty PerClass.toList
  rw [Bool.and_eq_true, List.isEmpty_iff]
  refine and_congr_right fun _ => ⟨fun h c => ?_, fun h => ?_⟩
  · simp only [List.all_cons, List.all_nil, Bool.and_eq_true, List.isEmpty_iff] at h
    obtain ⟨voice, signal, interactive, bulk, -⟩ := h
    cases c <;> assumption
  · simp only [List.all_cons, List.all_nil, Bool.and_eq_true, List.isEmpty_iff]
    exact ⟨h .voice, h .signal, h .interactive, h .bulk, trivial⟩

/-- Which of its three ends SET_RELAY takes, its settings clamped (R180, R181). -/
theorem doSetRelay_eq (ps : List Byte) (p : Part) :
    let limits := classParams ps 0 48 2048
    let ages := classParams ps 8 10 10000
    let depth := clampTo 1572 65535 (param16 ps 16)
    let clamp := clampMask ((List.range 9).map fun i => param16 ps (2 * i)) (limits.toList ++ ages.toList ++ [depth])
    let taken := postClamp clamp p
    let sum := limits.voice + limits.signal + limits.interactive + limits.bulk
    (2048 < sum → doSetRelay ps p = finish 0x03 [] taken) ∧
    (sum ≤ 2048 → limits ≠ p.relay.limits → ¬(p.radio.outstanding = [] ∧ ∀ c, p.relay.queues.get c = []) →
      doSetRelay ps p = finish 0x04 [] taken) ∧
    (sum ≤ 2048 → limits = p.relay.limits ∨ (p.radio.outstanding = [] ∧ ∀ c, p.relay.queues.get c = []) →
      doSetRelay ps p = finish (doneCode clamp) [] (closeEvent taken (taken.relayed limits ages depth))) := by
  intro limits ages depth clamp taken sum
  have total : limits.toList.sum = sum := by simp [sum, PerClass.toList, Nat.add_assoc]
  have run : doSetRelay ps p =
      if 2048 < sum then finish 0x03 [] taken
      else if limits ≠ p.relay.limits ∧ (!p.relayEmpty) = true then finish 0x04 [] taken
      else finish (doneCode clamp) [] (closeEvent taken (taken.relayed limits ages depth)) := by
    rw [← total, ← takeRelay_eq]
    rfl
  have holds : (!p.relayEmpty) = true ↔ ¬(p.radio.outstanding = [] ∧ ∀ c, p.relay.queues.get c = []) := by
    rw [Bool.not_eq_true', ← Bool.not_eq_true, relayEmpty_iff]
  rw [run]
  refine ⟨fun high => if_pos high, fun fits other full => ?_, fun fits same => ?_⟩
  · rw [if_neg (Nat.not_lt.mpr fits), if_pos ⟨other, holds.mpr full⟩]
  · rw [if_neg (Nat.not_lt.mpr fits), if_neg fun k => same.elim k.1 (holds.mp k.2)]

/-- What a command leaves that acts by an event and completes in it, its own effect `x` (R25). -/
theorem slot_examined {code : Byte} {h : HeaderBurst} {r : Byte} {clamp : BitVec 32} {p x b : Part}
    (idle : p.command.running = none) (hx : x.channel = p.channel) (hxc : x.command = p.command) :
    let y : Part := { x with
      channel := (passed (.write (headerWrite code h)) p).channel
      command := { (takenPart code h p).command with clamp := clamp } }
    let q := autoClosed (headerWrite code h).place (finish r [] (closeEvent b y))
    q.command = completed code h r clamp [] p ∧ EventEnds (answered code h r clamp [] x) q ∧ Examined x q ∧
      q.path = (closeEvent b y).path := by
  intro y q
  obtain ⟨ends, command⟩ := slot_event (b := b) (y := y) (r := r) (d := []) idle (EventEnds.refl y) rfl hx hxc
  have shown : q = raise .commandDone
      { closeEvent b y with channel := slotChannel code h p, command := completed code h r clamp [] p } :=
    finish_closed (closeEvent_ends b y).frame.channel (closeEvent_command fun k => by
      rw [show y.command.running = p.command.running from rfl, idle] at k
      cases k)
  refine ⟨command, ends, ?_, by rw [shown]; rfl⟩
  rw [shown]
  exact ((examined_close b y).swap x.channel _ x.command _).done

/-- Settles O36: the two refusals, and the settings taken with the frames they age. -/
theorem setRelay : Obligations.SetRelay := by
  intro h s ht p ps limit age limits ages depth clamp result sum empty old young x
  obtain ⟨high, holding, taking⟩ := doSetRelay_eq ps (takenPart 0x11 h p)
  refine ⟨fun k => ?_, fun fits other full => ?_, fun fits same => ?_⟩
  · exact slot_answered (code := 0x11) (h := h) (c := .setRelay) (x := p) rfl ht rfl (high k) rfl rfl
  · exact slot_answered (code := 0x11) (h := h) (c := .setRelay) (x := p) rfl ht rfl (holding fits other full) rfl rfl
  · have effect := relayed_withSlot limits ages depth (passed (.write (headerWrite 0x11 h)) p).channel
      { (takenPart 0x11 h p).command with clamp := clamp } p
    refine slot_leads (code := 0x11) (h := h) (c := .setRelay) rfl ht rfl
      ((taking fits same).trans (congrArg (fun z => finish _ [] (closeEvent _ z)) effect)) ?_
    obtain ⟨command, ends, examined, path⟩ := slot_examined (code := 0x11) (h := h) (r := result) (clamp := clamp) (x := x)
      (b := postClamp clamp (takenPart 0x11 h p)) ht.idle (discardFrames_channel ..) (discardFrames_command ..)
    have radio : x.radio = p.radio := discardFrames_radio ..
    refine ⟨command, ends, examined, fun hs => path.trans ?_⟩
    exact closeEvent_pathDrained (p := p) (congrArg Radio.control radio) (congrArg (·.lane.isSome) radio) hs

end Sys2Proof.Machine
end

section
/-! # Settling RESTART (O37) -/

namespace Sys2Proof.Machine

/-- RETURNING ends once every draining class is RETURNED (R91, R93). -/
def Part.handsBack (p : Part) : Bool :=
  p.path.service = .returning && classes.any p.draining &&
    classes.all fun c => p.draining c || (p.path.classes.get c).sub = .returned

/-- The path controller once every draining class is RETURNED (R91, R93). -/
def Part.pathBack (p : Part) : Path :=
  { p.path with
    classes := PerClass.ofFn fun c => if p.draining c then onFibre else p.path.classes.get c
    service := if p.handsBack then .fibre else p.path.service
    quiet := if p.handsBack then none else p.path.quiet
    stick := if p.handsBack then none else p.path.stick }

/-- Once every draining class is RETURNED, RETURNING has ended exactly where the part hands back. -/
theorem handedBack_emptied {p : Part} (h : classes.any p.draining = true) :
    (p.path.mapClasses p.draining fun _ => onFibre).handedBack = p.handsBack := by
  unfold Path.handedBack Part.handsBack Path.mapClasses
  rw [h, Bool.and_true]
  refine congrArg (_ && ·) (congrArg (List.all classes) (funext fun c => ?_))
  rw [PerClass.get_ofFn]
  cases p.draining c <;> simp [onFibre]

/-- Where nothing is queued and nothing outstanding, every draining class is RETURNED (R91, R93). -/
theorem returnDrained_emptied {p : Part} (hq : ∀ c, p.relay.queues.get c = []) (ho : p.radio.outstanding = []) :
    returnDrained p = { count .returns (if p.handsBack then 1 else 0) p with path := p.pathBack } := by
  have drained : p.drainedClasses = classes.filter p.draining := by
    unfold Part.drainedClasses Part.sentOf
    simp [hq, ho]
  have contained : p.drainedClasses.contains = p.draining := by
    funext c
    rw [drained, Bool.eq_iff_iff, List.contains_iff_mem, List.mem_filter]
    simp
  unfold returnDrained
  by_cases h : classes.any p.draining = true
  · have some : p.drainedClasses ≠ [] := by
      obtain ⟨c, hc, on⟩ := List.any_eq_true.mp h
      rw [drained]
      exact List.ne_nil_of_mem (List.mem_filter.mpr ⟨hc, on⟩)
    have back : (p.path.mapClasses p.draining fun _ => onFibre).returned = p.pathBack := by
      unfold Path.returned
      rw [handedBack_emptied h]
      unfold Part.pathBack
      cases p.handsBack <;> rfl
    rw [if_neg some, contained, returnEnds_eq]
    show { count .returns (if (p.path.mapClasses p.draining fun _ => onFibre).handedBack then 1 else 0) p with
      path := (p.path.mapClasses p.draining fun _ => onFibre).returned } = _
    rw [handedBack_emptied h, back]
  · have off (c : ServiceClass) : p.draining c = false := by
      rw [Bool.not_eq_true, List.any_eq_false] at h
      exact Bool.eq_false_iff.mpr (h c (mem_classes c))
    have none : p.drainedClasses = [] := by
      rw [drained]
      simp [off]
    have goesOn : p.handsBack = false := by
      unfold Part.handsBack
      rw [Bool.not_eq_true] at h
      rw [h, Bool.and_false, Bool.false_and]
    have path : p.pathBack = p.path := by
      unfold Part.pathBack
      simp only [off, goesOn, Bool.false_eq_true, if_false, PerClass.ofFn_get']
    rw [if_pos none, path, goesOn]
    simp only [Bool.false_eq_true, if_false, count_zero]

/-- Whether the return of the draining classes shows in the service state, a path word or a reason (R81). -/
theorem pathMoved_back (p : Part) : pathMoved p.path p.pathBack = (p.handsBack || classes.any fun c =>
    p.draining c && !((p.path.classes.get c).word = .fibre && (p.path.classes.get c).reason = .none)) := by
  have service : (p.path.service != p.pathBack.service) = p.handsBack := by
    show (p.path.service != if p.handsBack then .fibre else p.path.service) = _
    cases back : p.handsBack with
    | false => simp
    | true =>
      have returning : p.path.service = .returning := by
        unfold Part.handsBack at back
        simp only [Bool.and_eq_true, decide_eq_true_eq] at back
        obtain ⟨⟨returning, -⟩, -⟩ := back
        exact returning
      rw [returning]
      rfl
  have shown (c : ServiceClass) : ((p.path.classes.get c).shown != (p.pathBack.classes.get c).shown) =
      (p.draining c && !((p.path.classes.get c).word = .fibre && (p.path.classes.get c).reason = .none)) := by
    unfold Part.pathBack ClassPath.shown
    rw [PerClass.get_ofFn]
    cases p.draining c with
    | false => simp
    | true => rw [Bool.eq_iff_iff]; simp [onFibre, imp_iff_not_or]
  unfold pathMoved
  rw [service]
  exact congrArg (p.handsBack || List.any classes ·) (funext shown)

/-- What RESTART leaves (R32, R133, R157, R182, R197, R205). -/
def Part.afterRestart (p : Part) : Part :=
  let shown (c : ServiceClass) : Bool :=
    p.draining c && !((p.path.classes.get c).word = .fibre && (p.path.classes.get c).reason = .none)
  let wants : Bool := p.radio.settings.hot || p.radio.manualHold || !(p.pathBack.service = .fibre) ||
    p.path.effective = .radio || p.path.verdict = .warn || p.path.verdict = .bad
  { p with
    uplink :=
      { staging := []
        entries := p.uplink.entries.map fun e => { host := e.host, state := .idle, reason := none, carriage := 0 } }
    relay := { p.relay with queues := ⟨[], [], [], []⟩ }
    radio := { p.radio with
      outstanding := []
      linger := if p.radio.demand ∧ p.radio.linger = none ∧ wants = false then
          some (p.clock.now + p.radio.settings.linger * 1000)
        else p.radio.linger }
    delivery := { p.delivery with slots := List.replicate 32 none, fill := 0 }
    events := { p.events with
      flags := if p.handsBack || classes.any shown then Flag.mask .pathChanged else 0
      counters := if p.handsBack then { Counters.zero with returns := 1 } else Counters.zero }
    path := p.pathBack }

theorem lingerStarts_eq (p : Part) : lingerStarts p = { p with radio := { p.radio with
    linger := if p.radio.demand ∧ p.radio.linger = none ∧ p.wants = false then
      some (p.clock.now + p.radio.settings.linger * 1000) else p.radio.linger } } := by
  unfold lingerStarts
  by_cases h : p.radio.demand ∧ p.radio.linger = none ∧ p.wants = false
  · rw [if_pos h, if_pos (by simpa using h)]
    rfl
  · rw [if_neg h, if_neg (by simpa using h)]

/-- Where the module state stands and no flag is set, an event's end raises PATH_CHANGED alone (R81, R106). -/
theorem noteChanges_unflagged {b q : Part} (hs : q.radio.state = b.radio.state) (hf : q.events.flags = 0) :
    noteChanges b q = { q with events := { q.events with
      flags := if pathMoved b.path q.path then Flag.mask .pathChanged else 0 } } := by
  unfold noteChanges raiseIf
  rw [hs, bne_self_eq_false, if_neg Bool.false_ne_true]
  cases pathMoved b.path q.path with
  | true =>
    show raise .pathChanged q = _
    unfold raise
    rw [hf, show 0 ||| Flag.mask .pathChanged = Flag.mask .pathChanged by decide]
    rfl
  | false =>
    rw [if_neg Bool.false_ne_true, if_neg Bool.false_ne_true, ← hf]

theorem doRestart_eq (p : Part) : doRestart p = finish 0x01 [] p.afterRestart := by
  have counted : count .returns (if p.handsBack then 1 else 0) (emptyTraffic p) =
      { emptyTraffic p with events := { p.events with
        flags := 0, counters := if p.handsBack then { Counters.zero with returns := 1 } else Counters.zero } } := by
    cases p.handsBack <;> rfl
  have drained : returnDrained (emptyTraffic p) =
      { count .returns (if p.handsBack then 1 else 0) (emptyTraffic p) with path := p.pathBack } :=
    returnDrained_emptied (p := emptyTraffic p) (fun c => PerClass.get_ofFn _ c) rfl
  unfold doRestart
  rw [drained, counted, lingerStarts_eq]
  refine congrArg (finish 0x01 []) ((noteChanges_unflagged ?_ ?_).trans ?_)
  · rfl
  · rfl
  · dsimp only
    rw [pathMoved_back]
    rfl

/-- Settles O37: what RESTART empties, and the part its event leaves. -/
theorem restart : Obligations.Restart := by
  intro h s ht p draining ended service shown wants
  exact slot_answered (code := 0x02) (h := h) (c := .restart) (r := 0x01) (clamp := 0) (d := []) (x := p.afterRestart) rfl ht rfl
    (doRestart_eq (takenPart 0x02 h p)) rfl rfl

end Sys2Proof.Machine
end

section
/-! # Settling writes to the uplink table (O41) -/

namespace Sys2Proof.Machine

/-! ### The uplink table leaves the radio link controller (R140) -/

theorem formFrame_radio (i : Nat) (p : Part) : (formFrame i p).radio = p.radio := by
  unfold formFrame
  dsimp only
  split
  · exact discardParts_radio ..
  · split
    · exact discardParts_radio ..
    · exact discardFrames_radio ..

theorem postEntry_radio (i : Nat) (ls : List Lane) (p : Part) : (postEntry i ls p).radio = p.radio := by
  have heard := (takePost_same ((lane ls 6).getD 0) p).2.2
  unfold postEntry
  dsimp only
  split
  · exact heard
  · exact heard
  · exact heard
  · split
    · exact heard
    · exact (formFrame_radio ..).trans heard

theorem withdrawEntry_radio (i : Nat) (ls : List Lane) (p : Part) : (withdrawEntry i ls p).radio = p.radio := by
  unfold withdrawEntry
  split
  · exact discardParts_radio ..
  · split
    · exact discardParts_radio ..
    · exact discardParts_radio ..
  · rfl
  · rfl

theorem writeDescriptor_radio (i : Nat) (ls : List Lane) (p : Part) : (writeDescriptor i ls p).radio = p.radio := by
  unfold writeDescriptor
  split
  · rfl
  · split
    · rfl
    · split
      · exact postEntry_radio ..
      · split
        · exact withdrawEntry_radio ..
        · rfl

theorem Left.of_radio {x q p : Part} (h : Left x q) (hr : x.radio = p.radio) :
    EventEnds x q ∧ Examined x q ∧ (p.Stays → q.path = x.pathDrained) := by
  obtain ⟨ends, examined, path⟩ := h
  exact ⟨ends, examined, fun hs => path (stays_of_radio hr hs)⟩

/-- Where nothing has run out no path record changes. -/
theorem pathDrained_none {p : Part} (hn : p.NoneDrained) : p.pathDrained = p.path := by
  have out : classes.any p.ranOut = false := by
    rw [List.any_eq_false]
    intro c _ out
    obtain ⟨draining, queue, sent⟩ := (ranOut_iff p c).mp out
    exact hn c draining ⟨queue, sent⟩
  unfold Part.pathDrained
  rw [out]
  rfl

theorem Part.NoneDrained.of_eq {p x : Part} (hn : p.NoneDrained) (h1 : x.path.classes = p.path.classes)
    (h2 : x.relay.queues = p.relay.queues) (h3 : x.radio = p.radio) : x.NoneDrained := by
  intro c
  rw [h1, h2, sentOf_radio h3]
  exact hn c

/-! ### Writes that neither post nor withdraw (R140, R141) -/

theorem counters_put_put (cs : Counters) (c : Counter) (v w : BitVec 32) : (cs.put c v).put c w = cs.put c w := by
  cases c <;> rfl

theorem count_count (c : Counter) (m n : Nat) (p : Part) : count c n (count c m p) = count c (m + n) p := by
  unfold count
  simp only [counters_get_put, counters_put_put, satAdd_add, if_true]

/-- A descriptor whose give byte is carried while another of its bytes is not (R141). -/
def brokenGive (ls : List Lane) : Bool := (lane ls 7).isSome && !ls.all Option.isSome

/-- What such a write, or one without a give that acts, makes of an entry (R140, R141). -/
def fieldTaken (ls : List Lane) (e : Entry) : Entry := if brokenGive ls then e else e.take ls

theorem writeDescriptor_fields {ls : List Lane} (hl : ls.length = 16)
    (h : ls.all Option.isSome = true → lane ls 7 ≠ some 1 ∧ lane ls 7 ≠ some 2) (i : Nat) (p : Part) :
    writeDescriptor i ls p = count .postsRefused (if brokenGive ls then 1 else 0) (onEntry i (fieldTaken ls) p) := by
  have own : laneSlice ls 0 16 = ls := by
    apply List.ext_getElem?
    intro b
    by_cases hb : b < 16
    · rw [laneSlice, List.getElem?_map, List.getElem?_range hb, List.getElem?_eq_getElem (by omega)]
      simp [lane, show b < ls.length by omega]
    · rw [List.getElem?_eq_none (by simp [laneSlice]; omega), List.getElem?_eq_none (by omega)]
  have kept : onEntry i (fun e => e) p = p := by
    unfold onEntry
    rw [show (fun e : Entry => e) = id from rfl, List.modify_id]
    rfl
  have every : ls.any Option.isNone = !ls.all Option.isSome := by
    rw [List.not_all_eq_any_not]
    exact congrArg ls.any (funext fun l => by cases l <;> rfl)
  have taken (hb : brokenGive ls = false) : onEntry i (Entry.take ls) p =
      count .postsRefused (if brokenGive ls then 1 else 0) (onEntry i (fieldTaken ls) p) := by
    unfold fieldTaken
    simp only [hb, Bool.false_eq_true, if_false, count_zero]
  unfold writeDescriptor
  cases give : lane ls 7 with
  | none => exact taken (by simp [brokenGive, give])
  | some v =>
    dsimp only
    rw [own, every]
    cases whole : ls.all Option.isSome with
    | false =>
      have broken : brokenGive ls = true := by simp [brokenGive, give, whole]
      unfold fieldTaken
      simp only [broken, if_true, kept, Bool.not_false]
    | true =>
      obtain ⟨not1, not2⟩ := h whole
      rw [give] at not1 not2
      rw [if_neg (by decide), if_neg fun k => not1 (congrArg some k), if_neg fun k => not2 (congrArg some k)]
      exact taken (by simp [brokenGive, whole])

/-- The entries a line of the uplink table makes of descriptor writes that neither post nor withdraw (R140, R141). -/
theorem fieldTaken_line (first second : List Lane) (m : Nat) (es : List Entry) :
    (es.modify (2 * m) (fieldTaken first)).modify (2 * m + 1) (fieldTaken second) =
      es.mapIdx fun n e => if n / 2 = m then fieldTaken (if n % 2 = 0 then first else second) e else e := by
  apply List.ext_getElem?
  intro n
  rw [List.getElem?_modify, List.getElem?_modify, List.getElem?_mapIdx]
  cases es[n]? with
  | none => simp
  | some e =>
    by_cases h0 : n = 2 * m
    · subst h0
      simp
    · by_cases h1 : n = 2 * m + 1
      · subst h1
        have : (2 * m + 1) / 2 = m := by omega
        simp [this]
      · have : n / 2 ≠ m := by omega
        simp [this, Ne.symm h0, Ne.symm h1]

/-- The bytes a descriptor write carries for the host-side positions replace the entry's (R140). -/
theorem take_host {ls : List Lane} {e : Entry} (h : e.host.length = 16) : e.take ls = { e with
    host := (List.range 16).map fun b =>
      if b ≤ 8 || b = 12 || b = 13 then (lane ls b).getD (e.host.getD b 0) else e.host.getD b 0 } := by
  unfold Entry.take mergeLanes
  rw [h]
  refine congrArg (fun bs => { e with host := bs }) (List.map_congr_left fun b hb => ?_)
  have stored : lane (storedLanes ls) b = if hostSide b then lane ls b else none := by
    unfold storedLanes
    rw [lane, List.getD_eq_getElem?_getD, List.getElem?_map, List.getElem?_range (List.mem_range.mp hb)]
    rfl
  rw [stored]
  show _ = if hostSide b then _ else _
  split <;> rfl

/-- Settles O41: what the two descriptors of a line leave, one after the other, and in one event. -/
theorem uplinkTableWrites : Obligations.UplinkTableWrites := by
  refine ⟨fun i w m s hi => ?_, fun i w m s hi => ?_⟩
  · intro p half hm leaves
    have written := table_leads (x := writeDescriptor (2 * m + 1) (half 1) (writeDescriptor (2 * m) (half 0) (p.sent w))) hi hm rfl
    obtain ⟨q, he, left⟩ := written
    have both := left.of_radio (p := p) ((writeDescriptor_radio ..).trans (writeDescriptor_radio ..))
    refine ⟨q, he, both, fun none => ?_, fun none => ?_⟩
    · rw [writeDescriptor_none none] at both
      exact both
    · rw [writeDescriptor_none none (2 * m)] at both
      exact both
  · intro p half whole part hostByte next x hm sized noPost
    have writes : writeOf i = some w := by
      obtain rfl | rfl | rfl := hi <;> rfl
    have long (k : Nat) : (half k).length = 16 := by simp [half, laneSlice]
    have field (k n : Nat) (hk : k < 2) (z : Part) := writeDescriptor_fields (long k) (noPost k hk) n z
    have entries : (p.uplink.entries.modify (2 * m) (fieldTaken (half 0))).modify (2 * m + 1) (fieldTaken (half 1)) =
        p.uplink.entries.mapIdx next := by
      rw [fieldTaken_line, List.mapIdx_eq_mapIdx_iff]
      intro n hn
      have host := take_host (ls := half (n % 2)) (sized _ (List.getElem_mem hn))
      have own : (if n % 2 = 0 then half 0 else half 1) = half (n % 2) := by
        obtain h | h := Nat.mod_two_eq_zero_or_one n
        · rw [h, if_pos rfl]
        · rw [h, if_neg (by decide)]
      rw [own]
      unfold fieldTaken
      by_cases line : n / 2 = m
      · rw [if_pos line]
        cases broken : part (n % 2) with
        | true => exact (if_pos broken).trans (if_neg fun k => Bool.noConfusion (broken.symm.trans k.2)).symm
        | false =>
          exact (if_neg fun k => Bool.noConfusion (broken.symm.trans k)).trans (host.trans (if_pos ⟨line, broken⟩).symm)
      · rw [if_neg line]
        exact (if_neg fun k => line k.1).symm
    have made : writeUplink m (p.lanesOf w) (p.sent w) = x := by
      have twice : writeUplink m (p.lanesOf w) (p.sent w) =
          writeDescriptor (2 * m + 1) (half 1) (writeDescriptor (2 * m) (half 0) (p.sent w)) := rfl
      rw [twice, field 0 _ (by omega), field 1 _ (by omega)]
      have gathered : onEntry (2 * m + 1) (fieldTaken (half 1)) (onEntry (2 * m) (fieldTaken (half 0)) (p.sent w)) =
          { p.sent w with uplink := { p.uplink with entries := p.uplink.entries.mapIdx next } } := by
        rw [← entries]
        rfl
      have counted (n : Nat) (z : Part) : onEntry (2 * m + 1) (fieldTaken (half 1)) (count .postsRefused n z) =
          count .postsRefused n (onEntry (2 * m + 1) (fieldTaken (half 1)) z) := rfl
      rw [counted, count_count, gathered]
      rfl
    obtain ⟨q, he, left⟩ := table_leads writes hm made
    obtain ⟨ends, examined, path⟩ := left.of_radio (p := p) rfl
    exact ⟨q, he, ends, examined, fun hs hn => (path hs).trans (pathDrained_none (hn.of_eq (x := x) rfl rfl rfl))⟩

end Sys2Proof.Machine
end

section
/-! # Settling posts and withdraws (O42) -/

namespace Sys2Proof.Machine

/-- A whole descriptor that reaches its entry: what it makes of the part, and the end of its event (R140). -/
theorem gives_leads {g : Byte} {d : DescriptorBurst} {i : Nat} {e : Entry} {s : State} {row : Instr} {x : Part}
    (h : s.part.Gives g d i e) (hr : writeOf row = some (descriptorWrite g d))
    (hx : writeDescriptor i ((descriptorBytes g d).map some) (s.part.sent (descriptorWrite g d)) = x) :
    Leads row s (Left x) := by
  obtain ⟨m, reaches, written⟩ := gives_descriptor h
  exact table_leads hr reaches (written.trans hx)

theorem writeDescriptor_post (d : DescriptorBurst) (i : Nat) (p : Part) :
    writeDescriptor i ((descriptorBytes 1 d).map some) p = postEntry i ((descriptorBytes 1 d).map some) p := rfl

theorem writeDescriptor_withdraw (d : DescriptorBurst) (i : Nat) (p : Part) :
    writeDescriptor i ((descriptorBytes 2 d).map some) p = withdrawEntry i ((descriptorBytes 2 d).map some) p := rfl

/-- The entry a descriptor reaches, changed (R140). -/
theorem onEntry_set {i : Nat} {e : Entry} {p : Part} (h : p.uplink.entries[i]? = some e) (f : Entry → Entry) :
    onEntry i f p = { p with uplink := { p.uplink with entries := p.uplink.entries.set i (f e) } } := by
  unfold onEntry
  rw [modify_at h]
  rfl

/-! ### Posts (R89, R147) -/

/-- The voice quiet timer restarts with a post of VOICE while VOICE is WAITING_QUIET (R89). -/
theorem takePost_eq (cls : Byte) (p : Part) : takePost cls p = { p with path := { p.path with
    quiet := if cls = 0 ∧ p.path.classes.voice.sub = .waitingQuiet then some (p.clock.now + p.path.settings.voiceQuiet)
      else p.path.quiet } } := by
  by_cases h : cls = 0 ∧ p.path.classes.voice.sub = .waitingQuiet
  · rw [if_pos h]
    exact if_pos h
  · rw [if_neg h]
    exact if_neg h

theorem post_busy {i : Nat} {e : Entry} {p : Part} (ls : List Lane) (h : p.uplink.entries[i]? = some e)
    (busy : e.state = .held ∨ e.state = .queued ∨ e.state = .sending) :
    postEntry i ls p = count .postsRefused 1 (takePost ((lane ls 6).getD 0) p) := by
  unfold postEntry
  dsimp only
  rw [entryAt_of h]
  obtain h | h | h := busy <;> rw [h]

theorem post_free {i : Nat} {e : Entry} {p : Part} (ls : List Lane) (h : p.uplink.entries[i]? = some e)
    (free : ¬(e.state = .held ∨ e.state = .queued ∨ e.state = .sending)) :
    postEntry i ls p = if (e.take ls).chains then
        onEntry i (fun e => { (e.take ls).move .held with carriage := 0 }) (takePost ((lane ls 6).getD 0) p)
      else formFrame i (onEntry i (Entry.take ls) (takePost ((lane ls 6).getD 0) p)) := by
  unfold postEntry
  dsimp only
  rw [entryAt_of h]
  cases state : e.state with
  | held => exact absurd (.inl state) free
  | queued => exact absurd (.inr (.inl state)) free
  | sending => exact absurd (.inr (.inr state)) free
  | idle | sent | discarded => rfl

/-! ### Withdraws (R156) -/

/-- The frame of a QUEUED entry is found in its queue, and it alone leaves it (R156). -/
theorem queuedFrame_only {i : Nat} {f : Frame} {c : ServiceClass} {p : Part} (hf : f ∈ p.relay.queues.get c) (hi : i ∈ f.parts)
    (only : ∀ c' g, g ∈ p.relay.queues.get c' → i ∈ g.parts → g = f) : queuedFrame p i = some f := by
  cases found : queuedFrame p i with
  | none =>
    unfold queuedFrame at found
    have none := List.find?_eq_none.mp (List.findSome?_eq_none_iff.mp found c (mem_classes c)) f hf
    simp [hi] at none
  | some g =>
    obtain ⟨hg, c', member⟩ := queuedFrame_in found
    rw [only c' g member hg]

theorem unqueue_only {i : Nat} {f : Frame} {p : Part} (hi : i ∈ f.parts)
    (only : ∀ g, g ∈ p.relay.queues.get f.cls → i ∈ g.parts → g = f) :
    unqueue f p = setQueue f.cls ((p.relay.queues.get f.cls).filter fun g => i ∉ g.parts) p := by
  unfold unqueue
  refine congrArg (fun l => setQueue f.cls l p) (List.filter_congr fun g hg => decide_eq_decide.mpr (not_congr ⟨fun same => ?_, fun part => ?_⟩))
  · rw [same]
    exact hi
  · rw [only g hg part]

theorem withdraw_held {i : Nat} {e : Entry} {p : Part} (ls : List Lane) (h : p.uplink.entries[i]? = some e)
    (state : e.state = .held) : withdrawEntry i ls p = discardParts .withdrawn [i] (onEntry i (Entry.take ls) p) := by
  unfold withdrawEntry
  rw [entryAt_of h, state]

theorem withdraw_queued {i : Nat} {e : Entry} {f : Frame} {p : Part} (ls : List Lane) (h : p.uplink.entries[i]? = some e)
    (state : e.state = .queued) (frame : queuedFrame p i = some f) :
    withdrawEntry i ls p = discardParts .withdrawn f.parts (unqueue f (onEntry i (Entry.take ls) p)) := by
  unfold withdrawEntry
  rw [entryAt_of h, state, frame]

theorem withdraw_sending {i : Nat} {e : Entry} {p : Part} (ls : List Lane) (h : p.uplink.entries[i]? = some e)
    (state : e.state = .sending) : withdrawEntry i ls p = count .postsRefused 1 p := by
  unfold withdrawEntry
  rw [entryAt_of h, state]

theorem withdraw_over {i : Nat} {e : Entry} {p : Part} (ls : List Lane) (h : p.uplink.entries[i]? = some e)
    (state : e.state = .idle ∨ e.state = .sent ∨ e.state = .discarded) : withdrawEntry i ls p = p := by
  unfold withdrawEntry
  rw [entryAt_of h]
  obtain h | h | h := state <;> rw [h]

/-- Settles O42: what a post does in each state of its entry, and what a withdraw does. -/
theorem postsAndWithdraws : Obligations.PostsAndWithdraws := by
  refine ⟨fun d i e s gives => ?_, fun d i e s gives => ?_⟩
  · intro p q0 quiet heard busy held leaves
    have entry : (p.sent (descriptorWrite 1 d)).uplink.entries[i]? = some e := gives.entry
    have posts : takePost d.cls (p.sent (descriptorWrite 1 d)) = heard := takePost_eq ..
    have left {x : Part} (h1 : x.path = heard.path) (h2 : x.relay.queues = p.relay.queues) (h3 : x.radio = p.radio)
        (hx : postEntry i ((descriptorBytes 1 d).map some) (p.sent (descriptorWrite 1 d)) = x) : leaves x := by
      obtain ⟨q, he, hq⟩ := gives_leads (row := .post d) gives rfl ((writeDescriptor_post ..).trans hx)
      obtain ⟨ends, examined, path⟩ := hq.of_radio h3
      refine ⟨q, he, ends, examined, fun hs hn => (path hs).trans ((pathDrained_none ?_).trans h1)⟩
      exact hn.of_eq (congrArg Path.classes h1 : x.path.classes = heard.path.classes) h2 h3
    refine ⟨fun hb => left rfl rfl rfl ?_, fun hb chain => left rfl rfl rfl ?_⟩
    · exact (post_busy _ entry hb).trans (congrArg (count .postsRefused 1) posts)
    · have taken := take_descriptor 1 d e gives.whole
      have chains : (e.take ((descriptorBytes 1 d).map some)).chains = true := by
        rw [taken]
        exact bne_iff_ne.mpr chain
      rw [post_free _ entry hb, if_pos chains]
      have set := onEntry_set (p := heard) (e := e) entry fun e => { (e.take ((descriptorBytes 1 d).map some)).move .held with carriage := 0 }
      rw [taken] at set
      exact (congrArg _ posts).trans set
  · intro p sent taken leaves
    have entry : sent.uplink.entries[i]? = some e := gives.entry
    have took : onEntry i (Entry.take ((descriptorBytes 2 d).map some)) sent = taken := by
      rw [onEntry_set entry, take_descriptor 2 d e gives.whole]
      rfl
    have left {x : Part} (h3 : x.radio = p.radio)
        (hx : withdrawEntry i ((descriptorBytes 2 d).map some) sent = x) : leaves x := by
      obtain ⟨q, he, hq⟩ := gives_leads (row := .withdraw d) gives rfl ((writeDescriptor_withdraw ..).trans hx)
      exact ⟨q, he, hq.of_radio h3⟩
    refine ⟨fun h => left (discardParts_radio ..) ?_, fun f c h hc hf hi only => left (discardParts_radio ..) ?_,
      fun h => left rfl (withdraw_sending _ entry h), fun h => left rfl (withdraw_over _ entry h)⟩
    · rw [withdraw_held _ entry h, took]
    · subst hc
      rw [withdraw_queued _ entry h (queuedFrame_only (p := sent) hf hi only), took,
        unqueue_only (p := taken) hi (only f.cls)]
      rfl

end Sys2Proof.Machine
end

section
/-! # Settling the forming of a frame (O43) -/

namespace Sys2Proof.Machine

/-! ### The parts of the frame (R148) -/

/-- A post gathers the `n` HELD entries straight before its own, and its own. -/
theorem gather_run {es : List Entry} {i n : Nat} (hi : i < es.length) (hn : n < es.length)
    (held : ∀ j, 1 ≤ j → j ≤ n → (entryAt es ((i + es.length - j) % es.length)).state = .held)
    (stop : (entryAt es ((i + es.length - (n + 1)) % es.length)).state ≠ .held) :
    gather es i = (List.range (n + 1)).map fun j => (i + es.length - (n - j)) % es.length := by
  have own : (i + es.length - 0) % es.length = i := by
    rw [Nat.sub_zero, Nat.add_mod_right, Nat.mod_eq_of_lt hi]
  unfold gather
  rw [heldBefore_run es Entry.fresh i (es.length - 1) n hi (by omega) (by omega) held fun _ => stop, List.range_succ,
    List.map_append, List.map_singleton, Nat.sub_self, own]
  refine congrArg (· ++ [i]) ?_
  rw [← List.map_reverse]
  apply List.ext_getElem
  · simp
  · intro k h1 h2
    have hk : k < n := by simpa using h2
    simp only [List.getElem_map, List.getElem_reverse, List.getElem_range, List.length_range]
    rw [show n - 1 - k + 1 = n - k by omega]

/-! ### The checks in order (R149 to R151, R161, R162) -/

/-- The first of checks 1 to 5 to fail for `n` parts of `total` bytes at `addresses`, and otherwise `last`. -/
def Part.firstFault (p : Part) (cls : ServiceClass) (n total : Nat) (addresses : List Nat) (last : Option Discard) :
    Option Discard :=
  if 4 < n then some .tooManyParts
  else if total = 0 ∨ 1536 < total then some .tooLong
  else if ∃ a ∈ addresses, p.windows.captured a = false then some .outOfWindow
  else if ∃ a ∈ addresses, stagedByte p.uplink.staging a = none then some .incomplete
  else if (p.path.classes.get cls).word = .fibre then some .wrongPath
  else if (p.path.classes.get cls).word = .blocked then
    some (if (p.path.classes.get cls).reason = .shed then .shed else .noPath)
  else last

theorem firstFault_last (p : Part) (cls : ServiceClass) (n total : Nat) (addresses : List Nat) (last : Option Discard) :
    p.firstFault cls n total addresses last = (p.firstFault cls n total addresses none).or last := by
  unfold Part.firstFault
  repeat' split
  all_goals rfl

theorem formationFault_eq (p : Part) (cls : ServiceClass) (parts : List Nat) : formationFault p cls parts =
    p.firstFault cls parts.length (lengthOf p.uplink.entries parts) (addressesOf p.uplink.entries parts) none := by
  have outside (as : List Nat) : (as.any fun a => !p.windows.captured a) = true ↔ ∃ a ∈ as, p.windows.captured a = false := by
    simp
  have missing (as : List Nat) : (as.any fun a => (stagedByte p.uplink.staging a).isNone) = true ↔
      ∃ a ∈ as, stagedByte p.uplink.staging a = none := by
    simp
  unfold formationFault Part.firstFault
  dsimp only
  refine if_congr Iff.rfl rfl (if_congr Iff.rfl rfl (if_congr (outside _) rfl (if_congr (missing _) rfl ?_)))
  cases (p.path.classes.get cls).word <;> cases (p.path.classes.get cls).reason <;> rfl

/-- There is room for a frame of `n` blocks, for VOICE by displacing frames (R151, R161, R162). -/
def Part.hasRoom (p : Part) (cls : ServiceClass) (n : Nat) : Prop :=
  blocksOf (p.relay.queues.get cls) + blocksOf (p.sentOf cls) + n ≤ p.relay.limits.get cls ∨
    cls = .voice ∧ blocksOf (p.sentOf cls) + n ≤ p.relay.limits.get cls

theorem roomFor_none {p : Part} {cls : ServiceClass} {n : Nat} (h : ¬p.hasRoom cls n) : roomFor p cls n = none :=
  (if_neg fun k => h (.inl k)).trans (if_neg fun k => h (.inr k))

/-- The fewest of the oldest queued frames make room (R162). -/
theorem roomFor_fewest {p : Part} {cls : ServiceClass} {n k : Nat} (h : p.hasRoom cls n)
    (hk : k ≤ (p.relay.queues.get cls).length)
    (fits : blocksOf ((p.relay.queues.get cls).drop k) + blocksOf (p.sentOf cls) + n ≤ p.relay.limits.get cls)
    (fewest : ∀ k', k' < k →
      ¬blocksOf ((p.relay.queues.get cls).drop k') + blocksOf (p.sentOf cls) + n ≤ p.relay.limits.get cls) :
    roomFor p cls n = some ((p.relay.queues.get cls).take k, (p.relay.queues.get cls).drop k) := by
  unfold roomFor
  dsimp only
  by_cases room : p.held cls + n ≤ p.relay.limits.get cls
  · have none : k = 0 := Nat.eq_zero_of_not_pos fun pos => fewest 0 pos room
    rw [if_pos room, none]
    rfl
  · rw [if_neg room, if_pos (h.resolve_left room), displaceFor_eq n _ _ _ k hk fits fewest]

/-! ### The frame discarded or queued (R148, R153 to R155) -/

theorem markEntries_eq (parts : List Nat) (f : Entry → Entry) (es : List Entry) :
    markEntries parts f es = es.mapIdx fun j e => if j ∈ parts then f e else e := by
  unfold markEntries
  simp only [List.contains_iff_mem]

/-- The frame a post at entry `i` forms (R148). -/
def Part.formed (p : Part) (i : Nat) : Frame :=
  { parts := gather p.uplink.entries i, cls := classOfByte (entryAt p.uplink.entries i).clsByte, enqueued := p.clock.now
    bytes := (addressesOf p.uplink.entries (gather p.uplink.entries i)).map fun a => (stagedByte p.uplink.staging a).getD 0 }

/-- The check that frame fails first (R149 to R151, R161, R162). -/
def Part.fault (p : Part) (i : Nat) : Option Discard :=
  formationFault p (p.formed i).cls (p.formed i).parts

theorem formFrame_fault {p : Part} {i : Nat} {r : Discard} (h : p.fault i = some r) :
    formFrame i p = discardFormed r (p.formed i).parts p := by
  simp only [Part.fault, Part.formed] at h
  unfold formFrame
  dsimp only
  rw [h]
  rfl

theorem formFrame_full {p : Part} {i : Nat} (h : p.fault i = none)
    (full : roomFor p (p.formed i).cls (blocks (lengthOf p.uplink.entries (p.formed i).parts)) = none) :
    formFrame i p = discardFormed .queueFull (p.formed i).parts p := by
  simp only [Part.fault, Part.formed] at h full
  unfold formFrame
  dsimp only
  rw [h]
  dsimp only
  rw [full]
  rfl

theorem formFrame_queued {p : Part} {i : Nat} {displaced kept : List Frame} (h : p.fault i = none)
    (room : roomFor p (p.formed i).cls (blocks (lengthOf p.uplink.entries (p.formed i).parts)) = some (displaced, kept)) :
    formFrame i p = mark (p.formed i).parts (fun e => { e.move .queued with carriage := 0 })
      (discardFrames .displaced displaced (setQueue (p.formed i).cls (kept ++ [p.formed i]) p)) := by
  simp only [Part.fault, Part.formed] at h room
  unfold formFrame
  dsimp only
  rw [h]
  dsimp only
  rw [room]
  rfl

/-- The last check: room for `n` more blocks (R151, R161, R162). -/
def Part.roomFault (p : Part) (cls : ServiceClass) (n : Nat) : Option Discard :=
  if blocksOf (p.relay.queues.get cls) + blocksOf (p.sentOf cls) + n ≤ p.relay.limits.get cls ∨
      cls = .voice ∧ blocksOf (p.sentOf cls) + n ≤ p.relay.limits.get cls then none
  else some .queueFull

/-- The check that the frame a post at entry `i` forms fails first, the one for room the last (R149 to R151). -/
def Part.formFault (p : Part) (i : Nat) : Option Discard :=
  p.firstFault (p.formed i).cls (p.formed i).parts.length (lengthOf p.uplink.entries (p.formed i).parts)
    (addressesOf p.uplink.entries (p.formed i).parts)
    (p.roomFault (p.formed i).cls (blocks (lengthOf p.uplink.entries (p.formed i).parts)))

theorem formFault_eq (p : Part) (i : Nat) : p.formFault i = (p.fault i).or
    (p.roomFault (p.formed i).cls (blocks (lengthOf p.uplink.entries (p.formed i).parts))) := by
  unfold Part.formFault Part.fault
  rw [firstFault_last, formationFault_eq]

theorem roomFault_none {p : Part} {cls : ServiceClass} {n : Nat} (h : p.roomFault cls n = none) : p.hasRoom cls n := by
  by_contra full
  have : p.roomFault cls n = some .queueFull := if_neg full
  rw [h] at this
  cases this

theorem roomFault_some {p : Part} {cls : ServiceClass} {n : Nat} {r : Discard} (h : p.roomFault cls n = some r) :
    ¬p.hasRoom cls n ∧ r = .queueFull := by
  have full : ¬p.hasRoom cls n := fun room => by
    rw [show p.roomFault cls n = none from if_pos room] at h
    cases h
  rw [show p.roomFault cls n = some .queueFull from if_neg full] at h
  exact ⟨full, (Option.some.inj h).symm⟩

theorem formFrame_discards {p : Part} {i : Nat} {r : Discard} (h : p.formFault i = some r) :
    formFrame i p = discardFormed r (p.formed i).parts p := by
  rw [formFault_eq] at h
  cases first : p.fault i with
  | some r' =>
    rw [first] at h
    rw [← Option.some.inj (h : some r' = some r)]
    exact formFrame_fault first
  | none =>
    rw [first] at h
    obtain ⟨full, rfl⟩ := roomFault_some (h : p.roomFault _ _ = some r)
    exact formFrame_full first (roomFor_none full)

theorem formFrame_joins {p : Part} {i k : Nat} (h : p.formFault i = none)
    (hk : k ≤ (p.relay.queues.get (p.formed i).cls).length)
    (fits : blocksOf ((p.relay.queues.get (p.formed i).cls).drop k) + blocksOf (p.sentOf (p.formed i).cls) +
      blocks (lengthOf p.uplink.entries (p.formed i).parts) ≤ p.relay.limits.get (p.formed i).cls)
    (fewest : ∀ k', k' < k → ¬blocksOf ((p.relay.queues.get (p.formed i).cls).drop k') +
      blocksOf (p.sentOf (p.formed i).cls) + blocks (lengthOf p.uplink.entries (p.formed i).parts) ≤
        p.relay.limits.get (p.formed i).cls) :
    formFrame i p = mark (p.formed i).parts (fun e => { e.move .queued with carriage := 0 })
      (discardFrames .displaced ((p.relay.queues.get (p.formed i).cls).take k)
        (setQueue (p.formed i).cls ((p.relay.queues.get (p.formed i).cls).drop k ++ [p.formed i]) p)) := by
  rw [formFault_eq, Option.or_eq_none_iff] at h
  obtain ⟨first, last⟩ := h
  exact formFrame_queued first (roomFor_fewest (roomFault_none last) hk fits fewest)

/-- Settles O43: the parts of the frame, the checks in their order, and the frame discarded or queued. -/
theorem frameFormation : Obligations.FrameFormation := by
  intro d i e n s gives p quiet heard es entry back parts length addresses total cls path queue fits fault frame onParts
    leaves notHeld notQueued notSending chain short held stop
  have reached : p.uplink.entries[i]? = some e := gives.entry
  have long : es.length = p.uplink.entries.length := List.length_set
  have inside : i < es.length := long ▸ (List.getElem?_eq_some_iff.mp reached).1
  let z : Part := { heard with uplink := { p.uplink with entries := es } }
  have same (j : Nat) (hj : j < es.length) : entry j = entryAt es j := by
    simp only [entry, entryAt, List.getD_eq_getElem?_getD, List.getElem?_eq_getElem hj, Option.getD_some]
  have around (j : Nat) : back j < es.length := Nat.mod_lt _ (by omega)
  have gathered : parts = gather es i :=
    (gather_run inside short (fun j h1 h2 => same _ (around j) ▸ held j h1 h2) (same _ (around _) ▸ stop)).symm
  have own : entryAt es i = { e with host := takenHost 1 d e.host } := by
    refine entryAt_of ?_
    rw [List.getElem?_set_self (by omega)]
  have class_eq : cls = classOfByte (entryAt es i).clsByte := by
    rw [own]
    exact (classOfByte_eq d.cls).symm
  have within : ∀ j ∈ parts, j < es.length := fun j hj => by
    obtain ⟨k, -, rfl⟩ := List.mem_map.mp hj
    exact around _
  have addressed : addresses = addressesOf es parts :=
    List.flatMap_congr fun j hj => by rw [← same j (within j hj)]; rfl
  have summed : total = lengthOf es parts :=
    congrArg List.sum (List.map_congr_left fun j hj => by rw [← same j (within j hj)]; rfl)
  have framed : frame = z.formed i := by
    show Frame.mk parts cls (addresses.map _) p.clock.now = _
    rw [addressed, class_eq, gathered]
    rfl
  have faulted : fault = z.formFault i := by
    show z.firstFault cls parts.length total addresses (z.roomFault cls (blocks total)) = _
    rw [summed, addressed, class_eq, gathered]
    rfl
  have sent : (p.sent (descriptorWrite 1 d)).uplink.entries[i]? = some e := gives.entry
  have taken := take_descriptor 1 d e gives.whole
  have ends : (e.take ((descriptorBytes 1 d).map some)).chains = false := by
    rw [taken]
    exact bne_eq_false_iff_eq.mpr chain
  have met : onEntry i (Entry.take ((descriptorBytes 1 d).map some)) (takePost d.cls (p.sent (descriptorWrite 1 d))) = z := by
    rw [show takePost d.cls (p.sent (descriptorWrite 1 d)) = heard from takePost_eq .., onEntry_set (p := heard) reached, taken]
    rfl
  have posted : postEntry i ((descriptorBytes 1 d).map some) (p.sent (descriptorWrite 1 d)) = formFrame i z := by
    rw [post_free _ sent fun k => k.elim notHeld fun k => k.elim notQueued notSending, ends, if_neg Bool.false_ne_true]
    exact congrArg (formFrame i) met
  have left {x : Part} (h1 : x.path = heard.path) (h2 : p.NoneDrained → x.NoneDrained) (h3 : x.radio = p.radio)
      (hx : formFrame i z = x) : leaves x := by
    obtain ⟨q, he, hq⟩ := gives_leads (row := .post d) gives rfl ((writeDescriptor_post ..).trans (posted.trans hx))
    obtain ⟨ends, examined, path⟩ := hq.of_radio h3
    exact ⟨q, he, ends, examined, fun hs hn => (path hs).trans ((pathDrained_none (h2 hn)).trans h1)⟩
  have marked (f : Entry → Entry) (q : Part) : mark (z.formed i).parts f q =
      { q with uplink := { q.uplink with entries := onParts f q.uplink.entries } } := by
    rw [← framed]
    exact congrArg (fun es => { q with uplink := { q.uplink with entries := es } }) (markEntries_eq parts f _)
  refine ⟨fun r hr => ?_, fun k none short room fewest => ?_⟩
  · let x : Part := { heard with uplink := { p.uplink with entries := onParts (fun e => { e with carriage := 0 }) es } }
    have path : (discardFrames r [frame] x).path = heard.path := (discardFrames_path ..).1
    have relay : (discardFrames r [frame] x).relay = p.relay := (discardFrames_path ..).2
    have radio : (discardFrames r [frame] x).radio = p.radio := discardFrames_radio ..
    refine left path (fun hn => hn.of_eq (congrArg Path.classes path :) (congrArg Relay.queues relay) radio) radio ?_
    rw [formFrame_discards (faulted ▸ hr), discardFormed, marked, ← framed]
    rfl
  · intro y
    have path : y.path = heard.path := (discardFrames_path ..).1
    have relay : y.relay = { p.relay with queues := p.relay.queues.set cls (queue.drop k ++ [frame]) } :=
      (discardFrames_path ..).2
    have radio : y.radio = p.radio := discardFrames_radio ..
    have undrained (hn : p.NoneDrained) : y.NoneDrained := by
      intro c draining
      rw [path] at draining
      rw [relay, PerClass.get_set, sentOf_radio radio]
      by_cases h : c = cls
      · rw [if_pos h]
        simp
      · rw [if_neg h]
        exact hn c draining
    refine left path undrained radio ?_
    have joins := @formFrame_joins z i k (faulted.symm.trans none)
    rw [marked, ← framed, show blocks (lengthOf z.uplink.entries frame.parts) = (total + 31) / 32 from
      congrArg blocks summed.symm] at joins
    exact joins short room fewest

end Sys2Proof.Machine
end

end
